-- ==== Sys2Proof/Word.lean ====
section
/-! DEFINITION. The words the part's interfaces carry. -/

namespace Sys2Proof

/-- One byte on the supervisor link. -/
abbrev Byte := BitVec 8

/-- A station number of the wiring, 0 to 15 (00 Conventions, Numbering). -/
abbrev StationId := Fin 16

/-- A drive-unit number, 0 to 3 (00 Conventions, Numbering). -/
abbrev UnitId := Fin 4

/-- The sixteen stations in ascending order. -/
def allStations : List StationId := [0, 1, 2, 3, 4, 5, 6, 7, 8, 9, 10, 11, 12, 13, 14, 15]

/-- The four drive units in ascending order. -/
def allUnits : List UnitId := [0, 1, 2, 3]

end Sys2Proof
end

