-- ==== Sys2Proof/Config.lean ====
section
/-! DEFINITION. What is fixed for the part: the constants of the rules, and the values the manual leaves open. -/

namespace Sys2Proof.Config

/-- The request sync and the response sync (R170, R173). -/
def requestSync : Byte := 0xC3
def responseSync : Byte := 0x3C

/-- The broadcast address (R171). -/
def broadcastAddress : Byte := 15

/-- The greatest reading and calibrated value, 2000.0 kN (R74). -/
def readingMax : Nat := 20000

/-- Consecutive rail samples that make a sensor fault, and consecutive valid samples that clear the
way out of FAULT (R71, R73). -/
def sampleRun : Nat := 8

/-- The steady counter saturates here (R86). -/
def steadyMax : Nat := 255

/-- The call table holds at most this many calls in all, and on each berth (R47). -/
def callsMax : Nat := 4
def callsPerBerth : Nat := 2

/-- The shortest length the trim planner makes, and the least room SLACKEN needs on its own scale (R99, R135). -/
def trimMin : Nat := 5
def slackenMin : Nat := 10

/-- A FREE VALUE (log 20): the two report bytes of a remaining work above 65535, for which the
layout of the QUERY report (10 section 10.5) states no coding. It has no body: nothing can be proved
of the bytes it gives. -/
opaque unstatedRemaining : Nat → BitVec 16

/-- A FREE VALUE (log 5): whether the ALERT output stands high while the part is without power, of which
the manual says nothing. It has no body: nothing can be proved of it. -/
opaque unpoweredAlertOutput : Bool

end Sys2Proof.Config
end

