-- ==== Sys2Proof/Syntax.lean ====
section
/-! DEFINITION. The commands the part takes: one constructor of `Instr` per row of the table of operations and events. -/

namespace Sys2Proof

/-- The positions of the lock: brake and ratchet pawl (01 section 1.4). -/
inductive LockPos where
  | locked | unlocked
  deriving DecidableEq, Repr

/-- The positions of the clutch between drum and drive (01 section 1.4). -/
inductive ClutchPos where
  | engaged | free
  deriving DecidableEq, Repr

/-- What a sense arrival carries: the position of one gear part (R11). -/
inductive GearSense where
  | lock (position : LockPos)
  | clutch (position : ClutchPos)
  deriving DecidableEq, Repr

/-- The record fields of MAKE-FAST, ADOPT and AMEND at their widths on the link (10 section 10.5). -/
structure RecordFields where
  role : Byte
  slackLimit : BitVec 16
  highLimit : BitVec 16
  criticalLimit : BitVec 16
  hysteresis : Byte
  windowLength : Byte
  excursionCount : Byte
  compliance : Byte
  stepLimit : BitVec 16
  autoRelease : Byte
  letGoRank : Byte
  deriving DecidableEq, Repr

/-- The fields of CALIBRATE-STATION after the station number (R166, 10 section 10.5). -/
structure CalibrationFields where
  zero : BitVec 16
  scale : BitVec 16
  decimation : Byte
  countsPerMetre : BitVec 16
  stowPosition : BitVec 24
  maxPayout : BitVec 16
  minLength : BitVec 16
  deriving DecidableEq, Repr

/-- The fields of SET-LIMITS (R167, 10 section 10.5). -/
structure LimitFields where
  stowTolerance : Byte
  takeOverLimit : BitVec 16
  readyLimit : BitVec 16
  motionLimit : Byte
  rewindLimit : BitVec 16
  gearLimit : BitVec 16
  snagLimit : BitVec 16
  deriving DecidableEq, Repr

/-- The commands and events, in the order of the table. A supervisor command is a request frame taken
by the link: `len` is its length byte, and the further operands are its payload fields. A field
arrival names the station or the unit of the wiring. -/
inductive Instr where
  /-- MAKE-FAST (R29). -/
  | makeFast (len station : Byte) (tag : BitVec 16) (fields : RecordFields)
  /-- ADOPT (R32). -/
  | adopt (len station : Byte) (tag : BitVec 16) (fields : RecordFields)
  /-- AMEND (R33). -/
  | amend (len station : Byte) (fields : RecordFields)
  /-- QUERY (R40). -/
  | query (len station count : Byte)
  /-- RELEASE (R129). -/
  | release (len station : Byte)
  /-- SLACKEN (R135). -/
  | slacken (len station : Byte) (length : BitVec 16)
  /-- RETIRE (R139). -/
  | retire (len station : Byte)
  /-- RUN-OUT (R17). -/
  | runOut (len station : Byte)
  /-- OPEN-CALL (R49). -/
  | openCall (len : Byte) (tag : BitVec 16) (berth minLines steadyNeed : Byte)
  /-- QUERY-CALL (R52). -/
  | queryCall (len : Byte) (tag : BitVec 16)
  /-- SINGLE-UP (R58). -/
  | singleUp (len : Byte) (tag : BitVec 16)
  /-- CLOSE-CALL (R51). -/
  | closeCall (len : Byte) (tag : BitVec 16)
  /-- LOCK-QUARTER (R160). -/
  | lockQuarter (len quarter : Byte)
  /-- UNLOCK-ALL (R161). -/
  | unlockAll (len : Byte)
  /-- QUERY-LOCKS (R163). -/
  | queryLocks (len : Byte)
  /-- HOLD-ALL, unicast or broadcast (R146). -/
  | holdAll (broadcast : Bool) (len : Byte)
  /-- RESUME-ALL, unicast or broadcast (R146). -/
  | resumeAll (broadcast : Bool) (len : Byte)
  /-- RESET-DRIVE (R122). -/
  | resetDrive (len unit : Byte)
  /-- CLEAR-FAULT (R21). -/
  | clearFault (len station : Byte)
  /-- CALIBRATE-STATION (R166). -/
  | calibrateStation (len station : Byte) (fields : CalibrationFields)
  /-- SET-LIMITS (R167). -/
  | setLimits (len : Byte) (fields : LimitFields)
  /-- SET-ALERT-MODE (R168). -/
  | setAlertMode (len mode polarity : Byte)
  /-- STATUS (R176). -/
  | status (len : Byte)
  /-- CLEAR-ERROR (R175). -/
  | clearError (len : Byte)
  /-- CLEAR-ALERT (R179). -/
  | clearAlert (len : Byte)
  /-- RESTART (R180). -/
  | restart (len : Byte)
  /-- A unicast frame whose code names no command (R173). -/
  | unknownCommand (code len : Byte)
  /-- A broadcast frame that is not acted on (R172). -/
  | broadcastIgnored (code len : Byte)
  /-- A complete frame with a bad CRC or a foreign address (R171). -/
  | frameDiscarded (address : Byte) (crcMatches : Bool)
  /-- A gap of more than 3 ms inside a frame (R170). -/
  | frameGapTimeout
  /-- A length byte outside 1 to 48 (R170). -/
  | badFrameLength (len : Byte)
  /-- A raw load-pin sample (R71). -/
  | loadSampleArrival (station : StationId) (raw : BitVec 16)
  /-- A drum encoder count (R8). -/
  | drumPositionArrival (station : StationId) (count : BitVec 24)
  /-- A lock or clutch sense (R11). -/
  | gearSenseArrival (station : StationId) (sense : GearSense)
  /-- The pendant take-over input is asserted (R153). -/
  | takeOverAsserted (station : StationId)
  /-- The pendant take-over input is deasserted (R157). -/
  | takeOverEnded (station : StationId)
  /-- The HOLD input is asserted (R145). -/
  | holdInputAsserted
  /-- The HOLD input is deasserted (R145). -/
  | holdInputDeasserted
  /-- The deck key-switch changes to a level (R66). -/
  | keyChange (asserted : Bool)
  /-- READY from a drive unit (R116). -/
  | readyArrival (unit : UnitId)
  /-- A unit's fault input is asserted (R118). -/
  | unitFaultAsserted (unit : UnitId)
  /-- A unit's fault input is deasserted (R111). -/
  | unitFaultDeasserted (unit : UnitId)
  /-- The gear timer of a station expires (R14, R15). -/
  | gearTimerExpiry (station : StationId)
  /-- The ready timer of a unit expires (R117). -/
  | readyTimerExpiry (unit : UnitId)
  /-- The motion timer of a station expires (R126). -/
  | motionTimerExpiry (station : StationId)
  /-- The take-over timer of a station expires (R156). -/
  | takeOverTimerExpiry (station : StationId)
  /-- The store write in flight completes (R165). -/
  | storeWriteComplete
  /-- Power is lost (R165). -/
  | powerLoss
  /-- Power comes on (R181). -/
  | powerOn
  /-- The reset of an accepted RESTART begins (R181). -/
  | restartBegin
  /-- The store read completes (R182). -/
  | storeReadComplete
  /-- The transmission of the response frame ends (R170). -/
  | responseTransmissionEnd
  deriving DecidableEq, Repr

end Sys2Proof
end

