-- ==== Sys2Proof/Decode.lean ====
section
/-! DEFINITION. The request frames of the supervisor link (10 sections 10.1 and 10.5): the command codes and
lengths, the CRC, the decoder from a frame's bytes to the command they spell and the encoder back. The table
of operations and events gives no bits for any row, so `decodeTableWord` refuses every word. -/

namespace Sys2Proof

/-- The command a table word spells. No row of the table has bits, so no word spells one. -/
def decodeTableWord (_nbits _w : Nat) : Option Instr := none

/-- What the link knows of a command before its own rule: its code, the length byte it takes, and
whether the error latch acts on it (R173, R174, 10 section 10.5). -/
structure CommandSpec where
  code : Byte
  length : Nat
  recordChanging : Bool
  deriving DecidableEq, Repr

namespace Command

def makeFast : CommandSpec := ⟨0x10, 19, true⟩
def adopt : CommandSpec := ⟨0x11, 19, true⟩
def amend : CommandSpec := ⟨0x12, 17, true⟩
def query : CommandSpec := ⟨0x13, 3, false⟩
def release : CommandSpec := ⟨0x14, 2, true⟩
def slacken : CommandSpec := ⟨0x15, 4, true⟩
def retire : CommandSpec := ⟨0x16, 2, true⟩
def runOut : CommandSpec := ⟨0x17, 2, true⟩
def openCall : CommandSpec := ⟨0x20, 6, true⟩
def queryCall : CommandSpec := ⟨0x21, 3, false⟩
def singleUp : CommandSpec := ⟨0x22, 3, true⟩
def closeCall : CommandSpec := ⟨0x23, 3, true⟩
def lockQuarter : CommandSpec := ⟨0x30, 2, false⟩
def unlockAll : CommandSpec := ⟨0x31, 1, false⟩
def queryLocks : CommandSpec := ⟨0x32, 1, false⟩
def holdAll : CommandSpec := ⟨0x33, 1, false⟩
def resumeAll : CommandSpec := ⟨0x34, 1, false⟩
def resetDrive : CommandSpec := ⟨0x35, 2, false⟩
def clearFault : CommandSpec := ⟨0x36, 2, false⟩
def calibrateStation : CommandSpec := ⟨0x40, 16, false⟩
def setLimits : CommandSpec := ⟨0x41, 13, false⟩
def setAlertMode : CommandSpec := ⟨0x42, 3, false⟩
def status : CommandSpec := ⟨0x50, 1, false⟩
def clearError : CommandSpec := ⟨0x51, 1, false⟩
def clearAlert : CommandSpec := ⟨0x52, 1, false⟩
def restart : CommandSpec := ⟨0x53, 1, false⟩

/-- Every command of the unit (R173). -/
def all : List CommandSpec :=
  [makeFast, adopt, amend, query, release, slacken, retire, runOut, openCall, queryCall, singleUp,
   closeCall, lockQuarter, unlockAll, queryLocks, holdAll, resumeAll, resetDrive, clearFault,
   calibrateStation, setLimits, setAlertMode, status, clearError, clearAlert, restart]

end Command

/-! ### Byte order and CRC -/

/-- The two bytes of a field, most significant first (R169). -/
def beBytes2 (w : BitVec 16) : List Byte := [w.extractLsb' 8 8, w.extractLsb' 0 8]

/-- The three bytes of a field, most significant first (R169). -/
def beBytes3 (w : BitVec 24) : List Byte :=
  [w.extractLsb' 16 8, w.extractLsb' 8 8, w.extractLsb' 0 8]

/-- Byte `k` of a payload; a payload too short reads 0 there, and its command is refused for its length. -/
def byteAt (p : List Byte) (k : Nat) : Byte := p.getD k 0

/-- The two-byte field at offset `k` of a payload (R169). -/
def wordAt (p : List Byte) (k : Nat) : BitVec 16 := byteAt p k ++ byteAt p (k + 1)

/-- The three-byte field at offset `k` of a payload (R169). -/
def tripleAt (p : List Byte) (k : Nat) : BitVec 24 :=
  byteAt p k ++ byteAt p (k + 1) ++ byteAt p (k + 2)

/-- One bit of the CRC division by 0x1021 (R171). -/
def crcShift (c : BitVec 16) : BitVec 16 :=
  if c.msb then (c <<< 1) ^^^ 0x1021 else c <<< 1

/-- The register moved by `n` bits. -/
def crcShifts : Nat → BitVec 16 → BitVec 16
  | 0, c => c
  | n + 1, c => crcShifts n (crcShift c)

/-- One byte fed most significant bit first (R171). -/
def crcByte (c : BitVec 16) (b : Byte) : BitVec 16 :=
  crcShifts 8 (c ^^^ (b ++ (0 : BitVec 8)))

/-- The CRC over a list of bytes, the register preset to 0xFFFF (R171). -/
def crc16 (bytes : List Byte) : BitVec 16 := bytes.foldl crcByte 0xFFFF

/-! ### Payloads -/

/-- The 15 bytes of the record fields (10 section 10.5). -/
def RecordFields.bytes (f : RecordFields) : List Byte :=
  [f.role] ++ beBytes2 f.slackLimit ++ beBytes2 f.highLimit ++ beBytes2 f.criticalLimit ++
    [f.hysteresis, f.windowLength, f.excursionCount, f.compliance] ++ beBytes2 f.stepLimit ++
    [f.autoRelease, f.letGoRank]

/-- The record fields that stand at offset `k` of a payload. -/
def recordFieldsAt (p : List Byte) (k : Nat) : RecordFields where
  role := byteAt p k
  slackLimit := wordAt p (k + 1)
  highLimit := wordAt p (k + 3)
  criticalLimit := wordAt p (k + 5)
  hysteresis := byteAt p (k + 7)
  windowLength := byteAt p (k + 8)
  excursionCount := byteAt p (k + 9)
  compliance := byteAt p (k + 10)
  stepLimit := wordAt p (k + 11)
  autoRelease := byteAt p (k + 13)
  letGoRank := byteAt p (k + 14)

def CalibrationFields.bytes (f : CalibrationFields) : List Byte :=
  beBytes2 f.zero ++ beBytes2 f.scale ++ [f.decimation] ++ beBytes2 f.countsPerMetre ++
    beBytes3 f.stowPosition ++ beBytes2 f.maxPayout ++ beBytes2 f.minLength

def calibrationFieldsAt (p : List Byte) (k : Nat) : CalibrationFields where
  zero := wordAt p k
  scale := wordAt p (k + 2)
  decimation := byteAt p (k + 4)
  countsPerMetre := wordAt p (k + 5)
  stowPosition := tripleAt p (k + 7)
  maxPayout := wordAt p (k + 10)
  minLength := wordAt p (k + 12)

def LimitFields.bytes (f : LimitFields) : List Byte :=
  [f.stowTolerance] ++ beBytes2 f.takeOverLimit ++ beBytes2 f.readyLimit ++ [f.motionLimit] ++
    beBytes2 f.rewindLimit ++ beBytes2 f.gearLimit ++ beBytes2 f.snagLimit

def limitFieldsAt (p : List Byte) (k : Nat) : LimitFields where
  stowTolerance := byteAt p k
  takeOverLimit := wordAt p (k + 1)
  readyLimit := wordAt p (k + 3)
  motionLimit := byteAt p (k + 5)
  rewindLimit := wordAt p (k + 6)
  gearLimit := wordAt p (k + 8)
  snagLimit := wordAt p (k + 10)

/-! ### Frames -/

/-- The command that a unicast frame's code, length byte and payload spell (10 section 10.5). -/
def decodeCommand (code len : Byte) (p : List Byte) : Instr :=
  if code = Command.makeFast.code then .makeFast len (byteAt p 0) (wordAt p 1) (recordFieldsAt p 3)
  else if code = Command.adopt.code then .adopt len (byteAt p 0) (wordAt p 1) (recordFieldsAt p 3)
  else if code = Command.amend.code then .amend len (byteAt p 0) (recordFieldsAt p 1)
  else if code = Command.query.code then .query len (byteAt p 0) (byteAt p 1)
  else if code = Command.release.code then .release len (byteAt p 0)
  else if code = Command.slacken.code then .slacken len (byteAt p 0) (wordAt p 1)
  else if code = Command.retire.code then .retire len (byteAt p 0)
  else if code = Command.runOut.code then .runOut len (byteAt p 0)
  else if code = Command.openCall.code then
    .openCall len (wordAt p 0) (byteAt p 2) (byteAt p 3) (byteAt p 4)
  else if code = Command.queryCall.code then .queryCall len (wordAt p 0)
  else if code = Command.singleUp.code then .singleUp len (wordAt p 0)
  else if code = Command.closeCall.code then .closeCall len (wordAt p 0)
  else if code = Command.lockQuarter.code then .lockQuarter len (byteAt p 0)
  else if code = Command.unlockAll.code then .unlockAll len
  else if code = Command.queryLocks.code then .queryLocks len
  else if code = Command.holdAll.code then .holdAll false len
  else if code = Command.resumeAll.code then .resumeAll false len
  else if code = Command.resetDrive.code then .resetDrive len (byteAt p 0)
  else if code = Command.clearFault.code then .clearFault len (byteAt p 0)
  else if code = Command.calibrateStation.code then
    .calibrateStation len (byteAt p 0) (calibrationFieldsAt p 1)
  else if code = Command.setLimits.code then .setLimits len (limitFieldsAt p 0)
  else if code = Command.setAlertMode.code then .setAlertMode len (byteAt p 0) (byteAt p 1)
  else if code = Command.status.code then .status len
  else if code = Command.clearError.code then .clearError len
  else if code = Command.clearAlert.code then .clearAlert len
  else if code = Command.restart.code then .restart len
  else .unknownCommand code len

/-- What a broadcast frame spells: the two commands a broadcast carries, or a frame to ignore (R172). -/
def decodeBroadcast (code len : Byte) : Instr :=
  if code = Command.holdAll.code ∧ len = 1 then .holdAll true len
  else if code = Command.resumeAll.code ∧ len = 1 then .resumeAll true len
  else .broadcastIgnored code len

/-- What a complete frame spells, given the unit's own address and the frame's bytes after the sync,
from the address byte to the second CRC byte (R170 to R172). -/
def decodeFrame (own : BitVec 3) (bytes : List Byte) : Instr :=
  let body := bytes.take (bytes.length - 2)
  let crcMatches := bytes.drop (bytes.length - 2) == beBytes2 (crc16 body)
  let address := byteAt body 0
  let len := byteAt body 1
  let code := byteAt body 2
  if crcMatches = false ∨ (address ≠ own.setWidth 8 ∧ address ≠ Config.broadcastAddress) then
    .frameDiscarded address crcMatches
  else if address = Config.broadcastAddress then decodeBroadcast code len
  else decodeCommand code len (body.drop 3)

/-- The code, the length byte and the payload of a command that a request frame carries; none for the
other rows. -/
def Instr.content : Instr → Option (CommandSpec × Byte × List Byte)
  | .makeFast len st tag f => some (Command.makeFast, len, [st] ++ beBytes2 tag ++ f.bytes)
  | .adopt len st tag f => some (Command.adopt, len, [st] ++ beBytes2 tag ++ f.bytes)
  | .amend len st f => some (Command.amend, len, [st] ++ f.bytes)
  | .query len st n => some (Command.query, len, [st, n])
  | .release len st => some (Command.release, len, [st])
  | .slacken len st n => some (Command.slacken, len, [st] ++ beBytes2 n)
  | .retire len st => some (Command.retire, len, [st])
  | .runOut len st => some (Command.runOut, len, [st])
  | .openCall len tag b m n => some (Command.openCall, len, beBytes2 tag ++ [b, m, n])
  | .queryCall len tag => some (Command.queryCall, len, beBytes2 tag)
  | .singleUp len tag => some (Command.singleUp, len, beBytes2 tag)
  | .closeCall len tag => some (Command.closeCall, len, beBytes2 tag)
  | .lockQuarter len q => some (Command.lockQuarter, len, [q])
  | .unlockAll len => some (Command.unlockAll, len, [])
  | .queryLocks len => some (Command.queryLocks, len, [])
  | .holdAll _ len => some (Command.holdAll, len, [])
  | .resumeAll _ len => some (Command.resumeAll, len, [])
  | .resetDrive len u => some (Command.resetDrive, len, [u])
  | .clearFault len st => some (Command.clearFault, len, [st])
  | .calibrateStation len st f => some (Command.calibrateStation, len, [st] ++ f.bytes)
  | .setLimits len f => some (Command.setLimits, len, f.bytes)
  | .setAlertMode len m p => some (Command.setAlertMode, len, [m, p])
  | .status len => some (Command.status, len, [])
  | .clearError len => some (Command.clearError, len, [])
  | .clearAlert len => some (Command.clearAlert, len, [])
  | .restart len => some (Command.restart, len, [])
  | .unknownCommand _ _ | .broadcastIgnored _ _ | .frameDiscarded _ _ | .frameGapTimeout
  | .badFrameLength _ | .loadSampleArrival _ _ | .drumPositionArrival _ _ | .gearSenseArrival _ _
  | .takeOverAsserted _ | .takeOverEnded _ | .holdInputAsserted | .holdInputDeasserted
  | .keyChange _ | .readyArrival _ | .unitFaultAsserted _ | .unitFaultDeasserted _
  | .gearTimerExpiry _ | .readyTimerExpiry _ | .motionTimerExpiry _ | .takeOverTimerExpiry _
  | .storeWriteComplete | .powerLoss | .powerOn | .restartBegin | .storeReadComplete
  | .responseTransmissionEnd => none

/-- The command goes to every unit (R172). -/
def Instr.isBroadcast : Instr → Bool
  | .holdAll b _ => b
  | .resumeAll b _ => b
  | _ => false

/-- The bytes of the request frame of a command after the sync, for the unit with address `own`; empty
for the rows that no request frame carries. -/
def encodeFrame (own : BitVec 3) (i : Instr) : List Byte :=
  match i.content with
  | none => []
  | some (c, len, payload) =>
    let address := if i.isBroadcast then Config.broadcastAddress else own.setWidth 8
    let body := address :: len :: c.code :: payload
    body ++ beBytes2 (crc16 body)

end Sys2Proof
end

