-- ==== Sys2Proof/Machine/State.lean ====
section
/-! DEFINITION. The state of the part, its reset, and the reasons a step can stop. -/

namespace Sys2Proof.Machine

/-! ### Names -/

/-- The thirteen line states (R3). -/
inductive LineState where
  | unknown | stowed | paying | heaving | fast | trimming | easing | eased | released
  | rewinding | inLocal | outUnclaimed | fault
  deriving DecidableEq, Repr

/-- Why the last motion, or the entry to FAULT, ended; highest priority first (R22). -/
inductive StopCause where
  | critical | hold | takeOver | gear | sensor | driveFault | snag | timeout | limit | withdrawn
  | done | none
  deriving DecidableEq, Repr

/-- The attention reasons, highest priority first (R23). -/
inductive Attention where
  | autoReleased | critical | gear | sensor | driveFault | snag | timeout | stale | limit
  | surging | none
  deriving DecidableEq, Repr

/-- The direction of a motion: IN hauls line in, OUT pays it out (R91, R108). -/
inductive Direction where
  | inward | outward
  deriving DecidableEq, Repr

/-- The request classes, in the order of their runs in the drive queue (R108, R109). -/
inductive OpClass where
  | trim | heave | slacken | rewind
  deriving DecidableEq, Repr

/-- The states of a call (R53). -/
inductive CallState where
  | opened | held | strained | singling | clearing
  deriving DecidableEq, Repr

/-- The two berths (00 Conventions). -/
inductive Berth where
  | a | b
  deriving DecidableEq, Repr

/-- The states of a drive unit (R112). -/
inductive UnitState where
  | idle | granted | running | faulted
  deriving DecidableEq, Repr

/-- The roles of a line (R25). -/
inductive Role where
  | head | stern | breastFore | breastAft | springFore | springAft
  deriving DecidableEq, Repr

/-- The ALERT modes (R177, R178). -/
inductive AlertMode where
  | latched | follow | criticalOnly
  deriving DecidableEq, Repr

/-- The ALERT polarities (R177). -/
inductive AlertPolarity where
  | activeLow | activeHigh
  deriving DecidableEq, Repr

/-- The bit rates of the link, in bit/s (R169). -/
inductive BitRate where
  | rate57600 | rate115200
  deriving DecidableEq, Repr

/-- The status codes of a response (10 section 10.2). -/
inductive Status where
  | ok | unknownCommand | badLength | notReady | noStation | occupied | noRecord | wrongState
  | busy | callFull | duplicateTag | noCall | callState | wrongBerth | badWindow | locked
  | keyAbsent | callHeld | order | hold | inLocal | limit | storeBusy | driveState | latched
  deriving DecidableEq, Repr

/-- Where the part stands in its power-up: without power, reading its store (R181), or at work (R182). -/
inductive Phase where
  | off | reading | running
  deriving DecidableEq, Repr

/-! ### Station records -/

/-- What a gear step is for: with it stands its continuation (R12). -/
inductive StepKind where
  | runOut | payoutStop | makeFast | motionUnlock | motionLock | release | rewindEngage | stow
  | handBack
  deriving DecidableEq, Repr

/-- A gear step in flight (R12). -/
structure GearStep where
  kind : StepKind
  lock : LockPos
  clutch : ClutchPos
  deriving DecidableEq, Repr

/-- What an operation is to do: its class, with the direction and critical mark of a TRIM and the
remaining length of a SLACKEN (R91, R108). -/
inductive Work where
  | trim (direction : Direction) (critical : Bool)
  | heave
  | slacken (remaining : Nat)
  | rewind
  deriving DecidableEq, Repr

/-- The measures of a motion: start position and start length (R124), the count of a TRIM (R101), and
the remaining work last worked out, in counts for a TRIM and in cm for a SLACKEN. -/
structure Motion where
  startPosition : Nat
  startLength : Nat
  count : Nat
  remaining : Nat
  deriving DecidableEq, Repr

/-- How far an active operation has gone: awaiting engagement (R140), granted, in motion, or in the
lock step after its motion ended (R16). -/
inductive OpPhase where
  | awaiting
  | granted
  | moving (m : Motion)
  | ended (m : Motion)
  deriving DecidableEq, Repr

/-- The active operation of a station (R1, R114). -/
structure ActiveOp where
  work : Work
  retryUsed : Bool
  phase : OpPhase
  deriving DecidableEq, Repr

/-- A parked operation (R151). -/
structure ParkedOp where
  work : Work
  retryUsed : Bool
  deriving DecidableEq, Repr

/-- A take-over in force: the return state, and the take-over timer with the limit it runs toward in
seconds, or none when it has expired (R153, R155, R156). -/
structure TakeOver where
  returnState : LineState
  timer : Option Nat
  deriving DecidableEq, Repr

/-- The record of a station controller (R1). The pending request stands in the drive queue. A running
timer holds the limit it was started with. `resting` is the resting state of the TRIM that is granted
or in motion, kept until its lock step completes (R91, R102). -/
structure Station where
  state : LineState
  cmdLock : LockPos
  cmdClutch : Option ClutchPos
  senLock : Option LockPos
  senClutch : Option ClutchPos
  step : Option GearStep
  gearTimer : Option Nat
  position : Option Nat
  length : Nat
  beyondPmax : Bool
  unit : Option UnitId
  active : Option ActiveOp
  resting : Option LineState
  parked : Option ParkedOp
  motionTimer : Option Nat
  takeOver : Option TakeOver
  pendingSensorFault : Bool
  stopCause : StopCause
  attention : Attention
  deriving DecidableEq, Repr

/-- A station record after a reset, with the clutch position its output held (R2). -/
def Station.afterReset (clutch : Option ClutchPos) : Station where
  state := .unknown
  cmdLock := .locked
  cmdClutch := clutch
  senLock := none
  senClutch := none
  step := none
  gearTimer := none
  position := none
  length := 0
  beyondPmax := false
  unit := none
  active := none
  resting := none
  parked := none
  motionTimer := none
  takeOver := none
  pendingSensorFault := false
  stopCause := .none
  attention := .none

/-- A channel of the tension monitor (R69). `readingSinceRecord` tells whether a reading has been
formed since the station's record was created (R103). -/
structure Channel where
  sum : Nat
  count : Nat
  latest : Option Nat
  window : List Nat
  overCount : Nat
  slackCount : Nat
  isOver : Bool
  isSlack : Bool
  isSurging : Bool
  critCondition : Bool
  critCount : Nat
  steady : Nat
  rail : Nat
  valid : Nat
  readingSinceRecord : Bool
  deriving DecidableEq, Repr

/-- A channel after a reset (R69). -/
def Channel.afterReset : Channel where
  sum := 0
  count := 0
  latest := none
  window := []
  overCount := 0
  slackCount := 0
  isOver := false
  isSlack := false
  isSurging := false
  critCondition := false
  critCount := 0
  steady := 0
  rail := 0
  valid := 0
  readingSinceRecord := false

/-- A mooring record (R25). -/
structure Mooring where
  tag : Nat
  role : Role
  slackLimit : Nat
  highLimit : Nat
  criticalLimit : Nat
  hysteresis : Nat
  windowLength : Nat
  excursionCount : Nat
  compliance : Nat
  stepLimit : Nat
  autoRelease : Bool
  letGoRank : Option Nat
  stale : Bool
  deriving DecidableEq, Repr

/-- A call record (R47). -/
structure Call where
  tag : Nat
  berth : Berth
  state : CallState
  minLines : Nat
  steadyNeed : Nat
  list : List StationId
  deriving DecidableEq, Repr

/-! ### Drive -/

/-- A drive request (R108). -/
structure Request where
  station : StationId
  work : Work
  retryUsed : Bool
  deriving DecidableEq, Repr

/-- The record of a drive unit with the two outputs of its channel (R111). -/
structure DriveUnit where
  state : UnitState
  served : Option StationId
  readyTimer : Option Nat
  run : Option (StationId × Direction)
  stop : Bool
  deriving DecidableEq, Repr

/-- A drive unit that serves no station: RUN deasserted and stop asserted (R111, R112). -/
def DriveUnit.unserved (state : UnitState) : DriveUnit where
  state := state
  served := none
  readyTimer := none
  run := none
  stop := true

/-! ### Stored values -/

/-- The calibration of a station (R164). -/
structure Calibration where
  zero : Nat
  scale : Nat
  decimation : Nat
  countsPerMetre : Nat
  stowPosition : Nat
  maxPayout : Nat
  minLength : Nat
  deriving DecidableEq, Repr

/-- The settings group (R164). -/
structure Settings where
  stowTolerance : Nat
  takeOverLimit : Nat
  readyLimit : Nat
  motionLimit : Nat
  rewindLimit : Nat
  gearLimit : Nat
  snagLimit : Nat
  deriving DecidableEq, Repr

/-- The groups of the calibration store, or of the values in force (R164). -/
structure Groups where
  locks : Vector Bool 4
  calibrations : Vector Calibration 16
  settings : Settings
  alertMode : AlertMode
  alertPolarity : AlertPolarity
  deriving DecidableEq, Repr

/-- The factory values of a station group (R164). -/
def Calibration.factory : Calibration where
  zero := 0
  scale := 4096
  decimation := 16
  countsPerMetre := 1000
  stowPosition := 0
  maxPayout := 6000
  minLength := 200

/-- The factory values of the settings group (R164). -/
def Settings.factory : Settings where
  stowTolerance := 30
  takeOverLimit := 120
  readyLimit := 2000
  motionLimit := 45
  rewindLimit := 600
  gearLimit := 800
  snagLimit := 150

/-- What a blank store reads as (R164). -/
def Groups.factory : Groups where
  locks := .replicate 4 false
  calibrations := .replicate 16 .factory
  settings := .factory
  alertMode := .latched
  alertPolarity := .activeLow

/-- A store write in flight: its group, with the values it makes lasting (R165). -/
inductive GroupWrite where
  | locks (values : Vector Bool 4)
  | station (i : StationId) (values : Calibration)
  | settings (values : Settings)
  | alert (mode : AlertMode) (polarity : AlertPolarity)
  deriving DecidableEq, Repr

/-! ### The whole -/

/-- The levels of the discrete inputs and the straps. They belong to the world outside. -/
structure Inputs where
  hold : Bool
  key : Bool
  takeOver : Vector Bool 16
  fault : Vector Bool 4
  strapAddress : BitVec 3
  strapRate : BitRate
  deriving DecidableEq, Repr

/-- Every input deasserted, address strap 0, bit-rate strap 57,600. DESIGN CHOICE for the state right
after a power-on whose inputs nothing names (unsafe, log 2 and log 4). -/
def Inputs.quiet : Inputs where
  hold := false
  key := false
  takeOver := .replicate 16 false
  fault := .replicate 4 false
  strapAddress := 0
  strapRate := .rate57600

/-- Everything the part holds, and the queue of the commands that wait for it. -/
structure State where
  phase : Phase
  restartPending : Bool
  stations : Vector Station 16
  channels : Vector Channel 16
  moorings : Vector (Option Mooring) 16
  calls : List Call
  permitA : Bool
  permitB : Bool
  queue : List Request
  units : Vector DriveUnit 4
  hold : Bool
  inForce : Groups
  store : Groups
  write : Option GroupWrite
  latch : Option Status
  alert : Bool
  unitAddress : BitVec 3
  bitRate : BitRate
  rx : Option (List Byte)
  tx : Option (List Byte)
  inputs : Inputs
  pending : List Instr
  deriving DecidableEq, Repr

/-- The state a reset leaves: every volatile field at the value its chapter gives, the store, the
inputs and the waiting commands kept (R181, R2, R28, R47, R69, R109, R111, R165, R174, R177). The
clutch outputs keep the positions given (R2). The values in force stand at the factory values until
the store read completes: DESIGN CHOICE, log 3. -/
def State.afterReset (phase : Phase) (clutches : Vector (Option ClutchPos) 16) (store : Groups)
    (inputs : Inputs) (pending : List Instr) : State where
  phase := phase
  restartPending := false
  stations := clutches.map Station.afterReset
  channels := .replicate 16 .afterReset
  moorings := .replicate 16 none
  calls := []
  permitA := false
  permitB := false
  queue := []
  units := .replicate 4 (.unserved .idle)
  hold := false
  inForce := .factory
  store := store
  write := none
  latch := none
  alert := false
  unitAddress := inputs.strapAddress
  bitRate := inputs.strapRate
  rx := none
  tx := none
  inputs := inputs
  pending := pending

/-- The machine right after the start of a power-on reset: blank store, inputs quiet, no command
waiting, the store read under way (R181, log 2). -/
def State.reset : State :=
  .afterReset .reading (.replicate 16 none) .factory .quiet []

/-- The reasons a step can stop with a fault. There are none: the manual gives every command of the
part an effect, a refusal by status code among them, and no event stops the machine. -/
inductive Fault where
  deriving DecidableEq, Repr

/-- The reasons a command can be refused by the model. -/
inductive Refusal where
  /-- Raised by `exec` for a command that has no meaning yet; safe, since nothing can then be proved of
  it. No arm raises it. -/
  | notModelled (mnemonic : String)
  deriving DecidableEq, Repr

end Sys2Proof.Machine
end

