-- ==== Sys2Proof/Machine/Flags.lean ====
section
/-! DEFINITION. Ranks, predicates over the named states, and the computation of the monitor's conditions. -/

namespace Sys2Proof.Machine

/-! ### Where a station lies -/

/-- Stations 0 to 7 serve berth A and 8 to 15 serve berth B (00 Conventions, 01 section 1.1). -/
def berthOf (i : StationId) : Berth := if i.val < 8 then .a else .b

/-- Quarter Q0 is stations 0 to 3, Q1 is 4 to 7, Q2 is 8 to 11 and Q3 is 12 to 15. -/
def quarterOf (i : StationId) : Fin 4 := ⟨i.val / 4, by omega⟩

/-! ### Predicates over named states -/

/-- The moored states (R4). -/
def LineState.moored : LineState → Bool
  | .heaving | .fast | .trimming | .easing | .eased => true
  | .unknown | .stowed | .paying | .released | .rewinding | .inLocal | .outUnclaimed | .fault =>
    false

/-- A call is active in HELD, STRAINED and SINGLING (R53). -/
def CallState.active : CallState → Bool
  | .held | .strained | .singling => true
  | .opened | .clearing => false

/-! ### Priorities -/

/-- The position of an attention reason in the priority order of R23, NONE last. -/
def Attention.priority : Attention → Nat
  | .autoReleased => 1
  | .critical => 2
  | .gear => 3
  | .sensor => 4
  | .driveFault => 5
  | .snag => 6
  | .timeout => 7
  | .stale => 8
  | .limit => 9
  | .surging => 10
  | .none => 11

/-- A raised reason replaces the held one when it ranks higher (R23). -/
def Attention.outranks (raised held : Attention) : Bool := decide (raised.priority < held.priority)

/-- The run of the drive queue in which a class stands (R109). -/
def OpClass.run : OpClass → Nat
  | .trim => 0
  | .heave => 1
  | .slacken => 2
  | .rewind => 3

/-- The class of an operation (R108). -/
def Work.opClass : Work → OpClass
  | .trim _ _ => .trim
  | .heave => .heave
  | .slacken _ => .slacken
  | .rewind => .rewind

/-- The direction of an operation: HEAVE and REWIND haul in, SLACKEN pays out (R108). -/
def Work.direction : Work → Direction
  | .trim d _ => d
  | .heave | .rewind => .inward
  | .slacken _ => .outward

/-- The critical mark: yes for a critical render only (R91, R108). -/
def Work.critical : Work → Bool
  | .trim _ c => c
  | .heave | .slacken _ | .rewind => false

/-- A TRIM, as against the commanded operations (00 Terms). -/
def Work.isTrim : Work → Bool
  | .trim _ _ => true
  | .heave | .slacken _ | .rewind => false

/-- The motion of an active operation that is in progress (R118: from its start at READY). -/
def ActiveOp.moving? (a : ActiveOp) : Option Motion :=
  match a.phase with
  | .moving m => some m
  | .awaiting | .granted | .ended _ => none

/-- The operation waits at its grant for READY. -/
def ActiveOp.isGranted (a : ActiveOp) : Bool :=
  match a.phase with
  | .granted => true
  | .awaiting | .moving _ | .ended _ => false

/-- The REWIND awaits the engage step (R140). -/
def ActiveOp.isAwaiting (a : ActiveOp) : Bool :=
  match a.phase with
  | .awaiting => true
  | .granted | .moving _ | .ended _ => false

/-- The work still to do: a SLACKEN in motion carries the remaining length worked out at its last drum position
(R124). DESIGN CHOICE (log 31): QUERY reports that figure too, also after a CALIBRATE-STATION has moved P (R10). -/
def ActiveOp.remainingWork (a : ActiveOp) : Work :=
  match a.work, a.phase with
  | .slacken _, .moving m => .slacken m.remaining
  | w, _ => w

/-! ### The target of a record -/

/-- The middle of the band, floor((L + H) / 2): the trim target (R99) and the heave target (R103). -/
def Mooring.target (r : Mooring) : Nat := (r.slackLimit + r.highLimit) / 2

/-! ### Readings -/

/-- A raw value at either end of the scale (R71). -/
def isRail (raw : Nat) : Bool := raw == 0 || raw == 65535

/-- A valid sample calibrated to 0.1 kN (R74). -/
def Calibration.calibrate (c : Calibration) (raw : Nat) : Nat :=
  if raw ≤ c.zero then 0 else min ((raw - c.zero) * c.scale / 4096) Config.readingMax

/-- The reading formed from a sum of D samples, halves rounded up (R76). -/
def Calibration.reading (c : Calibration) (sum : Nat) : Nat :=
  (sum + c.decimation / 2) / c.decimation

/-- The raw length of a drum position (R8). -/
def Calibration.rawLength (c : Calibration) (position : Nat) : Nat :=
  (position - c.stowPosition) * 100 / c.countsPerMetre

/-- The reading is at or above K (R78). -/
def Mooring.isCritical (r : Mooring) (reading : Nat) : Bool := decide (r.criticalLimit ≤ reading)

/-- The reading lies in the band of the steady test, L ≤ reading < K (R86). -/
def Mooring.inBand (r : Mooring) (reading : Nat) : Bool :=
  decide (r.slackLimit ≤ reading ∧ reading < r.criticalLimit)

/-- The critical condition after a reading: set at K, cleared below K by more than the hysteresis (R79). -/
def Mooring.critAfter (r : Mooring) (held : Bool) (reading : Nat) : Bool :=
  if r.criticalLimit ≤ reading then true
  else if reading + r.hysteresis < r.criticalLimit then false
  else held

/-- The window after a reading joins it as its newest entry (R81). -/
def Mooring.joinWindow (r : Mooring) (window : List Nat) (reading : Nat) : List Nat :=
  (window ++ [reading]).drop (window.length + 1 - r.windowLength)

/-- The entries above H and the entries below L (R82). -/
def Mooring.overEntries (r : Mooring) (window : List Nat) : Nat :=
  (window.filter (fun e => decide (r.highLimit < e))).length
def Mooring.slackEntries (r : Mooring) (window : List Nat) : Nat :=
  (window.filter (fun e => decide (e < r.slackLimit))).length

/-- OVER after a reading, from its level before and the over count (R82). -/
def Mooring.overAfter (r : Mooring) (held : Bool) (overCount reading : Nat) : Bool :=
  if held then !(decide (overCount < r.excursionCount ∧ reading + r.hysteresis ≤ r.highLimit))
  else decide (r.excursionCount ≤ overCount)

/-- SLACK after a reading, from its level before and the slack count (R82). -/
def Mooring.slackAfter (r : Mooring) (held : Bool) (slackCount reading : Nat) : Bool :=
  if held then !(decide (slackCount < r.excursionCount ∧ r.slackLimit + r.hysteresis ≤ reading))
  else decide (r.excursionCount ≤ slackCount)

/-- The channel with its window emptied and OVER, SLACK and SURGING cleared (R85). -/
def Channel.emptied (c : Channel) : Channel :=
  { c with window := [], overCount := 0, slackCount := 0, isOver := false, isSlack := false,
           isSurging := false }

/-- The channel after a reading joins the window of a record and the conditions move (R81 to R83). -/
def Channel.windowed (c : Channel) (r : Mooring) (reading : Nat) : Channel :=
  let window := r.joinWindow c.window reading
  let overCount := r.overEntries window
  let slackCount := r.slackEntries window
  let isOver := r.overAfter c.isOver overCount reading
  let isSlack := r.slackAfter c.isSlack slackCount reading
  { c with window, overCount, slackCount, isOver, isSlack, isSurging := isOver && isSlack }

end Sys2Proof.Machine
end

