-- ==== Sys2Proof/Machine/Operands.lean ====
section
/-! DEFINITION. The operands of the commands: station numbers, codes, clamped fields, and the order of checks. -/

namespace Sys2Proof.Machine

/-- A field clamped to a range (00 Conventions, Clamped and refused). -/
def clamp (lo hi v : Nat) : Nat := if v < lo then lo else if hi < v then hi else v

/-- The station a station field names, none above 15 (R7). -/
def stationOf (b : Byte) : Option StationId :=
  if h : b.toNat < 16 then some ⟨b.toNat, h⟩ else none

/-- The unit a unit field names, none above 3 (R122). -/
def unitOf (b : Byte) : Option UnitId :=
  if h : b.toNat < 4 then some ⟨b.toNat, h⟩ else none

/-- The quarter a quarter field names, none above 3 (R160). -/
def quarterOfField (b : Byte) : Option (Fin 4) :=
  if h : b.toNat < 4 then some ⟨b.toNat, h⟩ else none

/-- The role codes (10 section 10.5). -/
def roleOf (b : Byte) : Option Role :=
  match b.toNat with
  | 1 => some .head
  | 2 => some .stern
  | 3 => some .breastFore
  | 4 => some .breastAft
  | 5 => some .springFore
  | 6 => some .springAft
  | _ => none

/-- The berth codes (10 section 10.5). -/
def berthOfCode (b : Byte) : Option Berth :=
  match b.toNat with
  | 0 => some .a
  | 1 => some .b
  | _ => none

/-- The ALERT mode codes (10 section 10.5). -/
def alertModeOf (b : Byte) : Option AlertMode :=
  match b.toNat with
  | 0 => some .latched
  | 1 => some .follow
  | 2 => some .criticalOnly
  | _ => none

/-- The ALERT polarity codes (10 section 10.5). -/
def alertPolarityOf (b : Byte) : Option AlertPolarity :=
  match b.toNat with
  | 0 => some .activeLow
  | 1 => some .activeHigh
  | _ => none

/-- The hysteresis values a record may carry (R25, R26). -/
def hysteresisOk (b : Byte) : Bool :=
  b.toNat == 0 || b.toNat == 20 || b.toNat == 50 || b.toNat == 100

/-- The window validity check on L, H and K (R27). -/
def windowValid (l h k : Nat) : Bool :=
  decide (l + 20 ≤ h ∧ h + 20 ≤ k ∧ k ≤ 20000)

/-- The fields make a record: a named role, a permitted hysteresis and valid limits (R26, R27). -/
def recordFieldsValid (f : RecordFields) : Bool :=
  (roleOf f.role).isSome && hysteresisOk f.hysteresis &&
    windowValid f.slackLimit.toNat f.highLimit.toNat f.criticalLimit.toNat

/-- The record the fields make for a call, clamped as R26 says, stale no. A code that names no role is
refused before the record is made; HEAD stands in there. -/
def mooringFrom (f : RecordFields) (tag : Nat) : Mooring :=
  let w := clamp 1 8 f.windowLength.toNat
  { tag := tag
    role := (roleOf f.role).getD .head
    slackLimit := f.slackLimit.toNat
    highLimit := f.highLimit.toNat
    criticalLimit := f.criticalLimit.toNat
    hysteresis := f.hysteresis.toNat
    windowLength := w
    excursionCount := clamp 1 w f.excursionCount.toNat
    compliance := clamp 1 255 f.compliance.toNat
    stepLimit := clamp 10 400 f.stepLimit.toNat
    autoRelease := f.autoRelease.toNat != 0
    letGoRank := if f.letGoRank.toNat = 0 then none else some (min 16 f.letGoRank.toNat)
    stale := false }

/-- The calibration the fields make, clamped as R166 says. -/
def calibrationFrom (f : CalibrationFields) : Calibration :=
  let pmax := clamp 500 12000 f.maxPayout.toNat
  let pmin := clamp 50 2000 f.minLength.toNat
  { zero := f.zero.toNat
    scale := f.scale.toNat
    decimation := clamp 4 64 f.decimation.toNat
    countsPerMetre := clamp 100 4000 f.countsPerMetre.toNat
    stowPosition := f.stowPosition.toNat
    maxPayout := pmax
    minLength := if pmin < pmax then pmin else pmax - 1 }

/-- The settings the fields make, each clamped to its range (R164, R167). -/
def settingsFrom (f : LimitFields) : Settings where
  stowTolerance := clamp 5 100 f.stowTolerance.toNat
  takeOverLimit := clamp 10 600 f.takeOverLimit.toNat
  readyLimit := clamp 100 10000 f.readyLimit.toNat
  motionLimit := clamp 5 120 f.motionLimit.toNat
  rewindLimit := clamp 30 900 f.rewindLimit.toNat
  gearLimit := clamp 200 3000 f.gearLimit.toNat
  snagLimit := clamp 50 2000 f.snagLimit.toNat

/-- The status of the first check that fails, in the order the rule lists them (00 Conventions). -/
def firstRefusal : List (Bool × Status) → Option Status
  | [] => none
  | (fails, status) :: rest => if fails then some status else firstRefusal rest

end Sys2Proof.Machine
end

