-- ==== Sys2Proof/Machine/Ops.lean ====
section
/-! DEFINITION. The named operations the commands share: access to the records, attention and ALERT, state
changes, the drive queue and the units, gear steps, motions, and the call table's evaluation. -/

namespace Sys2Proof.Machine

/-! ### Access to the records -/

def State.station (s : State) (i : StationId) : Station := s.stations[i]
def State.channel (s : State) (i : StationId) : Channel := s.channels[i]
def State.mooring (s : State) (i : StationId) : Option Mooring := s.moorings[i]
def State.unit (s : State) (u : UnitId) : DriveUnit := s.units[u]
def State.calibration (s : State) (i : StationId) : Calibration := s.inForce.calibrations[i]
def State.settings (s : State) : Settings := s.inForce.settings

def State.setStation (s : State) (i : StationId) (x : Station) : State :=
  { s with stations := s.stations.set i.val x i.isLt }
def State.setChannel (s : State) (i : StationId) (x : Channel) : State :=
  { s with channels := s.channels.set i.val x i.isLt }
def State.setMooring (s : State) (i : StationId) (x : Option Mooring) : State :=
  { s with moorings := s.moorings.set i.val x i.isLt }
def State.setUnit (s : State) (u : UnitId) (x : DriveUnit) : State :=
  { s with units := s.units.set u.val x u.isLt }

def State.onStation (s : State) (i : StationId) (f : Station → Station) : State :=
  s.setStation i (f (s.station i))
def State.onChannel (s : State) (i : StationId) (f : Channel → Channel) : State :=
  s.setChannel i (f (s.channel i))
def State.onUnit (s : State) (u : UnitId) (f : DriveUnit → DriveUnit) : State :=
  s.setUnit u (f (s.unit u))

/-- The quarter of the station is locked (R162). -/
def State.quarterLocked (s : State) (i : StationId) : Bool := s.inForce.locks[quarterOf i]

/-- The call with a tag; no call has tag 0 (R47, R51). -/
def State.callOf (s : State) (tag : Nat) : Option Call := s.calls.find? (fun c => c.tag == tag)

/-- The station's one request in the drive queue (R1, R108). -/
def State.requestOf (s : State) (i : StationId) : Option Request :=
  s.queue.find? (fun q => q.station == i)

/-- The motion of the station that is in progress. -/
def State.motionOf (s : State) (i : StationId) : Option Motion :=
  (s.station i).active.bind ActiveOp.moving?

/-! ### ALERT and attention (R23, R177, R178) -/

/-- A source of FOLLOW mode stands: an attention reason, or a FAULTED unit (R178). -/
def State.followLevel (s : State) : Bool :=
  allStations.any (fun i => (s.station i).attention != .none) ||
    allUnits.any (fun u => (s.unit u).state == .faulted)

/-- A critical condition holds at some station (R178). -/
def State.criticalLevel (s : State) : Bool :=
  allStations.any (fun i => (s.channel i).critCondition)

/-- A handed change of an attention reason or of a FAULTED unit: FOLLOW mode re-forms the ALERT state (R178). -/
def State.reformFollow (s : State) : State :=
  match s.inForce.alertMode with
  | .follow => { s with alert := s.followLevel }
  | .latched | .criticalOnly => s

/-- A handed change of a critical condition: CRITICAL-ONLY mode re-forms the ALERT state (R178). -/
def State.reformCritical (s : State) : State :=
  match s.inForce.alertMode with
  | .criticalOnly => { s with alert := s.criticalLevel }
  | .latched | .follow => s

/-- The ALERT state re-formed for a new mode; a change into LATCHED keeps its level (R178). -/
def State.reformAlert (s : State) : State := s.reformFollow.reformCritical

/-- A handed raise, or a unit's entry to FAULTED: LATCHED mode asserts ALERT, FOLLOW mode re-forms it
(R177, R178). -/
def State.assertAlert (s : State) : State :=
  match s.inForce.alertMode with
  | .latched => { s with alert := true }
  | .follow | .criticalOnly => s.reformFollow

/-- The level of the ALERT output: high until the store read completes, then the ALERT state under the
polarity in force (R177, R181). The level without power is a free value: log 5. -/
def State.alertOutputHigh (s : State) : Bool :=
  match s.phase, s.inForce.alertPolarity with
  | .running, .activeLow => !s.alert
  | .running, .activeHigh => s.alert
  | .reading, _ => true
  | .off, _ => Config.unpoweredAlertOutput

/-- An attention reason is raised: the higher of it and the held one is kept, and a change is handed to
the link (R23, R177). -/
def State.raise (s : State) (i : StationId) (reason : Attention) : State :=
  if reason.outranks (s.station i).attention then
    (s.onStation i (fun x => { x with attention := reason })).assertAlert
  else s

/-- The critical condition takes a level, and a change is handed to the link (R79, R177). -/
def State.setCritCondition (s : State) (i : StationId) (level : Bool) : State :=
  if (s.channel i).critCondition = level then s
  else (s.onChannel i (fun c => { c with critCondition := level })).reformCritical

/-! ### Holding and steadiness (R5, R54) -/

/-- The station is holding (R5). -/
def State.holding (s : State) (i : StationId) : Bool :=
  (s.mooring i).isSome &&
    ((s.station i).state.moored ||
      (((s.station i).state == .inLocal || (s.station i).state == .fault) &&
        (s.station i).senClutch == some .engaged))

/-- The mooring of a station is steady for a call's steady need (R54). -/
def State.steadyFor (s : State) (need : Nat) (i : StationId) : Bool :=
  ((s.station i).state == .fast || (s.station i).state == .trimming) &&
    (s.mooring i).any (fun r => !r.stale) && decide (need ≤ (s.channel i).steady)

/-! ### The call table's evaluation (R53 to R61) -/

/-- The level of a berth's permit. -/
def State.permit (s : State) (berth : Berth) : Bool :=
  match berth with
  | .a => s.permitA
  | .b => s.permitB

def State.setPermit (s : State) (berth : Berth) (level : Bool) : State :=
  match berth with
  | .a => { s with permitA := level }
  | .b => { s with permitB := level }

/-- The call with a tag takes a new record, in its place in the table. -/
def State.onCall (s : State) (tag : Nat) (f : Call → Call) : State :=
  { s with calls := s.calls.map (fun c => if c.tag = tag then f c else c) }

/-- A call goes to a state; a transition into or out of HELD sets its berth's permit (R56, R61). -/
def State.callTo (s : State) (c : Call) (state : CallState) : State :=
  let s := s.onCall c.tag (fun x => { x with state := state })
  if state = .held then s.setPermit c.berth true
  else if c.state = .held then s.setPermit c.berth false
  else s

/-- No other call of the berth is active (R55 term 3). -/
def State.noOtherActive (s : State) (c : Call) : Bool :=
  s.calls.all (fun d => d.tag == c.tag || d.berth != c.berth || !d.state.active)

/-- The HELD test (R55). -/
def State.heldTest (s : State) (c : Call) : Bool :=
  decide (c.minLines ≤ c.list.length) && c.list.all (s.steadyFor c.steadyNeed) && s.noOtherActive c

/-- The transition the evaluation of a call makes, if any (R56). -/
def State.transitionOf (s : State) (c : Call) : Option CallState :=
  match c.state with
  | .opened | .strained => if s.heldTest c then some .held else none
  | .held => if s.heldTest c then none else some .strained
  | .singling => if c.list.any s.holding then none else some .clearing
  | .clearing => none

/-- One evaluation of the call with a tag: at most one transition (R56). -/
def State.evaluateOnce (s : State) (tag : Nat) : State :=
  match s.callOf tag with
  | none => s
  | some c =>
    match s.transitionOf c with
    | none => s
    | some state => s.callTo c state

/-- The other calls of a berth (R47: at most one). -/
def State.othersOf (s : State) (c : Call) : List Nat :=
  (s.calls.filter (fun d => d.tag != c.tag && d.berth == c.berth)).map Call.tag

/-- The evaluation of a call; one that brings it into CLEARING has the other call of its berth evaluated
in the same event (R56, R57). -/
def State.evaluate (s : State) (tag : Nat) : State :=
  match s.callOf tag with
  | none => s
  | some c =>
    let t := s.evaluateOnce tag
    if s.transitionOf c = some .clearing then (s.othersOf c).foldl State.evaluateOnce t else t

/-- The event that led from `before` to `s` calls for an evaluation of the call: it is new, its list
changed, or the holding or the steadiness of a station in its list changed (R56). -/
def State.evaluationDue (before s : State) (c : Call) : Bool :=
  match before.callOf c.tag with
  | none => true
  | some d =>
    d.list != c.list ||
      c.list.any (fun i =>
        before.holding i != s.holding i ||
          before.steadyFor c.steadyNeed i != s.steadyFor c.steadyNeed i)

/-- The tags of the calls whose evaluation the event calls for, in table order. -/
def State.dueTags (before s : State) : List Nat :=
  (s.calls.filter (State.evaluationDue before s)).map Call.tag

/-- Each call concerned is evaluated once, on the result of the event (R56, R77; log 13). -/
def State.settleCalls (before s : State) : State := (State.dueTags before s).foldl State.evaluate s

/-! ### The window, the steady counter and state changes (R6, R85, R87) -/

def State.emptyWindow (s : State) (i : StationId) : State := s.onChannel i Channel.emptied

def State.resetSteady (s : State) (i : StationId) : State :=
  s.onChannel i (fun c => { c with steady := 0 })

/-- A station enters a state: entry to FAST empties the window, entry to any state other than FAST and
TRIMMING empties it and resets the steady counter; outside TRIMMING there is no resting state (R6, R85,
R87, R91). -/
def State.enter (s : State) (i : StationId) (state : LineState) : State :=
  let old := (s.station i).state
  let s := s.onStation i (fun x =>
    { x with state := state, resting := if state = .trimming then x.resting else none })
  if state = .trimming then s
  else if state = .fast then (if old = .fast then s else s.emptyWindow i)
  else (s.emptyWindow i).resetSteady i

/-! ### The drive queue (R108 to R110) -/

/-- A request placed behind every request of its class and ahead of the later classes (R109). -/
def insertTail (q : Request) : List Request → List Request
  | [] => [q]
  | x :: xs =>
    if x.work.opClass.run ≤ q.work.opClass.run then x :: insertTail q xs else q :: x :: xs

/-- A request placed ahead of every request of its class and behind the earlier classes (R109). -/
def insertHead (q : Request) : List Request → List Request
  | [] => [q]
  | x :: xs =>
    if x.work.opClass.run < q.work.opClass.run then x :: insertHead q xs else q :: x :: xs

/-- A submission joins at the tail of its class (R109). -/
def State.submit (s : State) (i : StationId) (work : Work) (retryUsed : Bool) : State :=
  { s with queue := insertTail ⟨i, work, retryUsed⟩ s.queue }

/-- A requeue joins at the head of its class (R109). -/
def State.requeue (s : State) (i : StationId) (work : Work) (retryUsed : Bool) : State :=
  { s with queue := insertHead ⟨i, work, retryUsed⟩ s.queue }

/-- The station's pending request leaves the queue; the others keep their order (R110). -/
def State.withdraw (s : State) (i : StationId) : State :=
  { s with queue := s.queue.filter (fun q => q.station != i) }

/-- A pending TRIM of the station takes another direction and critical mark and keeps its place (R92, R110). -/
def State.redirect (s : State) (i : StationId) (direction : Direction) (critical : Bool) : State :=
  { s with queue := s.queue.map (fun q =>
      if q.station = i ∧ q.work.isTrim then { q with work := .trim direction critical } else q) }

/-- The station's pending TRIM is withdrawn; a request of another class stands (R34, R136). -/
def State.withdrawTrim (s : State) (i : StationId) : State :=
  match s.requestOf i with
  | some q => if q.work.isTrim then s.withdraw i else s
  | none => s

/-! ### Units and operations -/

/-- The station's unit is released: one in GRANTED or RUNNING goes to IDLE, one in FAULTED stays FAULTED
(R115, R121, R127). -/
def State.releaseUnit (s : State) (i : StationId) : State :=
  match (s.station i).unit with
  | none => s
  | some u =>
    let state := if (s.unit u).state = .faulted then .faulted else .idle
    (s.setUnit u (.unserved state)).onStation i (fun x => { x with unit := none })

/-- A unit goes to FAULTED with RUN deasserted and stop asserted, and the link is told (R117, R118, R123).
It keeps its served station. -/
def State.faultUnit (s : State) (u : UnitId) : State :=
  (s.onUnit u (fun x =>
    { x with state := .faulted, readyTimer := none, run := none, stop := true })).assertAlert

/-- The drum motor of the station is held still, or let go (R111). -/
def State.setStop (s : State) (i : StationId) (level : Bool) : State :=
  match (s.station i).unit with
  | none => s
  | some u => s.onUnit u (fun x => { x with stop := level })

/-- The station has no active operation any more. -/
def State.dropActive (s : State) (i : StationId) : State :=
  s.onStation i (fun x => { x with active := none })

/-- The operation goes to the station's park slot (R151). -/
def State.park (s : State) (i : StationId) (work : Work) (retryUsed : Bool) : State :=
  s.onStation i (fun x => { x with parked := some ⟨work, retryUsed⟩ })

/-- The park slot is emptied. -/
def State.unpark (s : State) (i : StationId) : State :=
  s.onStation i (fun x => { x with parked := none })

/-- A grant is given back before motion: the unit is released and the operation is no longer active (R115). -/
def State.giveBack (s : State) (i : StationId) : State := (s.releaseUnit i).dropActive i

/-- The active operation of the station goes to its park slot with the work it still has (R147, R153). -/
def State.parkActive (s : State) (i : StationId) (a : ActiveOp) : State :=
  (s.park i a.remainingWork a.retryUsed).dropActive i

/-- The state a TRIM returns to, recorded at its grant (R91). -/
def State.restingOf (s : State) (i : StationId) : LineState := (s.station i).resting.getD .fast

/-- What an operation's abandonment leaves its station in (R120). -/
def LineState.abandoned : LineState → LineState
  | .heaving => .fast
  | .easing => .eased
  | .rewinding => .released
  | s => s

/-- A failed HEAVE, SLACKEN or REWIND, once the unit is given up: requeued once at the head of its class
with retry-used yes, parked instead while the hold is in force, abandoned at the second failure (R120). -/
def State.commandedFailure (s : State) (i : StationId) (a : ActiveOp) : State :=
  let s := s.dropActive i
  if a.retryUsed then
    (s.enter i (s.station i).state.abandoned).raise i .driveFault
  else if s.hold then s.park i a.remainingWork true
  else s.requeue i a.remainingWork true

/-- An operation that fails while waiting at its grant, its unit given up (R117, R119, R120). A TRIM is
requeued at the head of its class and its station returns to the resting state. -/
def State.failWaiting (s : State) (i : StationId) : State :=
  match (s.station i).active with
  | none => s
  | some a =>
    if a.work.isTrim then
      let s := (s.dropActive i).enter i (s.restingOf i)
      if s.hold then s else s.requeue i a.work a.retryUsed
    else s.commandedFailure i a

/-- The parked operation is submitted at the tail of its class and the slot is emptied (R150, R158). -/
def State.submitParked (s : State) (i : StationId) : State :=
  match (s.station i).parked with
  | none => s
  | some p => (s.unpark i).submit i p.work p.retryUsed

/-! ### Grants (R113, R114) -/

/-- The lowest-numbered IDLE unit. -/
def State.idleUnit (s : State) : Option UnitId :=
  allUnits.find? (fun u => (s.unit u).state == .idle)

/-- The station takes its grant: the request becomes its active operation, and a TRIM takes it to
TRIMMING with its resting state (R91, R114). -/
def State.takeGrant (s : State) (u : UnitId) (q : Request) : State :=
  let i := q.station
  let s := s.onStation i (fun x =>
    { x with unit := some u, active := some ⟨q.work, q.retryUsed, .granted⟩ })
  if q.work.isTrim then
    (s.onStation i (fun x => { x with resting := some x.state })).enter i .trimming
  else s

/-- One grant, when a unit is IDLE, the queue is not empty and the hold is not in force (R113). -/
def State.grantOne (s : State) : State :=
  match s.hold, s.idleUnit, s.queue with
  | false, some u, q :: rest =>
    (({ s with queue := rest }).setUnit u
      { state := .granted
        served := some q.station
        readyTimer := some s.settings.readyLimit
        run := some (q.station, q.work.direction)
        stop := true }).takeGrant u q
  | _, _, _ => s

/-- The arbiter grants until units or requests run out; four units allow four grants (R113). -/
def State.grantAll (s : State) : State := s.grantOne.grantOne.grantOne.grantOne

/-- The end of an event that began at `before`: the grants its result allows, then the evaluation of the
calls it concerns (R56, R113; logs 12 and 13). -/
def State.settle (before s : State) : State := State.settleCalls before s.grantAll

/-! ### Records -/

/-- The tension monitor's critical findings are cleared, at the creation and the retirement of a record (R46). -/
def State.clearCritical (s : State) (i : StationId) : State :=
  (s.onChannel i (fun c => { c with critCount := 0, readingSinceRecord := false })).setCritCondition
    i false

/-- The record of a station is created and its station appended to the call's list (R28, R30, R32, R46). -/
def State.createRecord (s : State) (i : StationId) (r : Mooring) : State :=
  ((s.setMooring i (some r)).onCall r.tag (fun c => { c with list := c.list ++ [i] })).clearCritical i

/-- The record of a station is retired: its station leaves the call's list (R44, R46). -/
def State.retireRecord (s : State) (i : StationId) : State :=
  match s.mooring i with
  | none => s
  | some r =>
    ((s.onCall r.tag (fun c => { c with list := c.list.filter (fun j => j != i) })).setMooring i
      none).clearCritical i

/-- A station goes to STOWED and its record, if any, is retired (R44, R143). -/
def State.stow (s : State) (i : StationId) : State := (s.enter i .stowed).retireRecord i

/-- The stale flag of a station's record becomes yes and the steady counter 0 (R38). -/
def State.setStale (s : State) (i : StationId) : State :=
  match s.mooring i with
  | none => s
  | some r => (s.setMooring i (some { r with stale := true })).resetSteady i

/-! ### Trim requests (R92, R95) -/

/-- The wanted TRIM is compared with the pending request: submitted, left, redirected or withdrawn (R92). -/
def State.wantTrim (s : State) (i : StationId) (wanted : Option (Direction × Bool)) : State :=
  match s.requestOf i, wanted with
  | none, none => s
  | none, some (d, c) => s.submit i (.trim d c) false
  | some _, some (d, c) => s.redirect i d c
  | some _, none => s.withdraw i

/-- A critical render is wanted, unless the hold is in force (R95). -/
def State.wantCriticalRender (s : State) (i : StationId) : State :=
  if s.hold then s else s.wantTrim i (some (.outward, true))

/-! ### Gear steps (R12 to R16) -/

/-- A critical render is wanted by a station that has come to FAST from a CRITICAL stop while its critical
condition holds (R96). -/
def State.renderIfCritical (s : State) (i : StationId) (cause : StopCause) : State :=
  if cause = .critical ∧ (s.channel i).critCondition = true ∧ (s.station i).state = .fast then
    s.wantCriticalRender i
  else s

/-- The state a station takes when the motion lock step of its HEAVE, SLACKEN or REWIND completes, its unit
released: a DRIVE-FAULT is a failure in motion (R120), a REWIND that reached its stow goes to STOWED
(R143), and every other stop ends the operation (R96, R127, R142). -/
def State.commandedEnd (s : State) (i : StationId) : State :=
  let x := s.station i
  let ended := s.dropActive i
  match x.stopCause, x.active, x.state with
  | .driveFault, some a, _ => s.commandedFailure i a
  | cause, _, .heaving => (ended.enter i .fast).renderIfCritical i cause
  | _, _, .easing => ended.enter i .eased
  | .done, _, .rewinding => ended.stow i
  | _, _, .rewinding => ended.enter i .released
  | _, _, _ => ended

/-- The end of the motion lock step (R16): the unit is released, and the station takes the state that the
ending gives. A TRIM returns to its resting state (R102, R119). An operation parked at the stop leaves the
station in its state (R147), and is submitted here where the hold has been cleared meanwhile (log 16). -/
def State.lockStepDone (s : State) (i : StationId) : State :=
  let x := s.station i
  let s := s.releaseUnit i
  match x.state with
  | .trimming => ((s.dropActive i).enter i (s.restingOf i)).renderIfCritical i x.stopCause
  | .heaving | .easing | .rewinding =>
    if x.parked.isSome then (if s.hold then s else s.submitParked i) else s.commandedEnd i
  | .unknown | .stowed | .paying | .fast | .eased | .released | .inLocal | .outUnclaimed | .fault => s

/-- The end of the rewind engage step: a REWIND still awaiting engagement is submitted (R140). -/
def State.engageDone (s : State) (i : StationId) : State :=
  match (s.station i).active with
  | some a => if a.isAwaiting then (s.dropActive i).submit i a.work a.retryUsed else s
  | none => s

/-- The continuation of a completed gear step (R12). -/
def State.continueStep (s : State) (i : StationId) (kind : StepKind) : State :=
  match kind with
  | .motionUnlock => s.setStop i false
  | .motionLock => s.lockStepDone i
  | .rewindEngage => s.engageDone i
  | .runOut | .payoutStop | .makeFast | .release | .stow | .handBack => s

/-- The completion test of the step in flight: both senses equal its targets (R12). -/
def State.tryComplete (s : State) (i : StationId) : State :=
  match (s.station i).step with
  | none => s
  | some g =>
    if (s.station i).senLock = some g.lock ∧ (s.station i).senClutch = some g.clutch then
      (s.onStation i (fun x => { x with step := none, gearTimer := none })).continueStep i g.kind
    else s

/-- A gear step starts: the commanded gear takes the targets, the gear timer starts toward the gear
limit, and the step completes at once when the senses already agree (R12). A step in flight is replaced
(R13), and a disagreement wait ends (R15). -/
def State.startStep (s : State) (i : StationId) (kind : StepKind) (lock : LockPos)
    (clutch : ClutchPos) : State :=
  (s.onStation i (fun x =>
    { x with
      cmdLock := lock
      cmdClutch := some clutch
      step := some ⟨kind, lock, clutch⟩
      gearTimer := some s.settings.gearLimit })).tryComplete i

/-- The sensed gear differs from the commanded gear (R15). -/
def Station.disagrees (x : Station) : Bool :=
  x.senLock != some x.cmdLock || x.senClutch != x.cmdClutch

/-- The disagreement test: the gear timer starts at a disagreement and stops at agreement (R15). -/
def State.disagreementTest (s : State) (i : StationId) : State :=
  if (s.station i).disagrees then
    if (s.station i).gearTimer.isNone then
      s.onStation i (fun x => { x with gearTimer := some s.settings.gearLimit })
    else s
  else s.onStation i (fun x => { x with gearTimer := none })

/-! ### Motion (R16, R22, R124 to R126) -/

/-- The motion of an operation has ended. A SLACKEN carries the remaining length last worked out (R124). -/
def ActiveOp.ended (a : ActiveOp) : ActiveOp :=
  match a.phase with
  | .moving m => { a with work := a.remainingWork, phase := .ended m }
  | .awaiting | .granted | .ended _ => a

/-- The motion stops: the drive is told to stop, the stop cause is written and the motion timer stops
(R16, R22, R126). -/
def State.stopMotion (s : State) (i : StationId) (cause : StopCause) : State :=
  (s.setStop i true).onStation i (fun x =>
    { x with stopCause := cause, motionTimer := none, active := x.active.map ActiveOp.ended })

/-- The motion lock step (R16). -/
def State.startLockStep (s : State) (i : StationId) : State :=
  s.startStep i .motionLock .locked .engaged

/-- A motion ends and its operation is kept until the lock step completes (R16). -/
def State.endMotion (s : State) (i : StationId) (cause : StopCause) : State :=
  (s.stopMotion i cause).startLockStep i

/-- A motion ends and its operation is discarded at once (R96, R126, R142, R147; log 14). -/
def State.endMotionDiscard (s : State) (i : StationId) (cause : StopCause) : State :=
  ((s.stopMotion i cause).dropActive i).startLockStep i

/-- The work still to do in a motion, from the standing position and length (R124). DESIGN CHOICE (log 29): a
SLACKEN whose drum has run back carries R124's figure as it stands, which can pass the 2000 cm of R108 and R151. -/
def Work.leftToDo (w : Work) (m : Motion) (position length : Nat) : Nat :=
  match w with
  | .trim .outward _ => m.count + m.startPosition - position
  | .trim .inward _ => m.count + position - m.startPosition
  | .slacken remaining => m.startLength + remaining - length
  | .heave | .rewind => 0

/-- The terminal condition that drum positions test (R124); a HEAVE ends on a reading (R104). -/
def Work.terminal (w : Work) (m : Motion) (position length stowTolerance : Nat) : Bool :=
  match w with
  | .trim .outward _ => decide (m.startPosition + m.count ≤ position)
  | .trim .inward _ => decide (position + m.count ≤ m.startPosition)
  | .heave => false
  | .slacken remaining => decide (m.startLength + remaining ≤ length)
  | .rewind => decide (length ≤ stowTolerance)

/-- The limits of the drum: Pmax going out by the raw length, Pmin going in from a moored state (R125). -/
def Work.atLimit (w : Work) (cal : Calibration) (moored : Bool) (position length : Nat) : Bool :=
  match w.direction with
  | .outward => decide (cal.maxPayout ≤ cal.rawLength position)
  | .inward => moored && decide (length ≤ cal.minLength)

/-- The tests of a motion in progress on the standing position: LIMIT before DONE (R22, R124, R125). -/
def State.motionTests (s : State) (i : StationId) : State :=
  let x := s.station i
  match x.active, s.motionOf i with
  | some a, some m =>
    let position := x.position.getD 0
    let m' := { m with remaining := a.work.leftToDo m position x.length }
    let t := s.onStation i (fun y => { y with active := some { a with phase := .moving m' } })
    if a.work.atLimit (s.calibration i) x.state.moored position x.length then t.endMotion i .limit
    else if a.work.terminal m position x.length s.settings.stowTolerance then t.endMotion i .done
    else t
  | _, _ => s

/-- The limit the motion timer runs toward (R126). -/
def Work.motionLimit (w : Work) (settings : Settings) : Nat :=
  match w with
  | .rewind => settings.rewindLimit
  | .trim _ _ | .heave | .slacken _ => settings.motionLimit

/-- The start of motion (R16): the unit runs, the stop cause becomes NONE, the window is emptied, the
motion timer and the unlock step start; then the tests are made on the position standing (R124). -/
def State.startMotion (s : State) (i : StationId) (u : UnitId) (a : ActiveOp) (count : Nat) : State :=
  let x := s.station i
  let m : Motion :=
    { startPosition := x.position.getD 0
      startLength := x.length
      count := count
      remaining := 0 }
  let s := s.onUnit u (fun y => { y with state := .running, readyTimer := none })
  let s := s.onStation i (fun y =>
    { y with
      stopCause := .none
      motionTimer := some (a.work.motionLimit s.settings)
      active := some { a with phase := .moving m } })
  (((s.emptyWindow i).startStep i .motionUnlock .unlocked .engaged)).motionTests i

/-! ### Length (R8 to R10) -/

/-- P and the beyond-Pmax flag from the stored drum position; LIMIT is raised when the line goes beyond
its maximum payout (R8, R9, R10). -/
def State.updateLength (s : State) (i : StationId) : State :=
  match (s.station i).position with
  | none => s
  | some position =>
    let cal := s.calibration i
    let raw := cal.rawLength position
    let beyond := decide (cal.maxPayout < raw)
    let t := s.onStation i (fun x =>
      { x with length := min raw cal.maxPayout, beyondPmax := beyond })
    if beyond && !(s.station i).beyondPmax then t.raise i .limit else t

/-! ### Fault entry, release, take-over -/

/-- The station's work is dropped: pending, active and parked operation, with the motion timer (R19, R130). -/
def State.dropWork (s : State) (i : StationId) : State :=
  (s.withdraw i).onStation i (fun x => { x with active := none, parked := none, motionTimer := none })

/-- Entry to FAULT (R19). -/
def State.enterFault (s : State) (i : StationId) (cause : StopCause) (reason : Attention) : State :=
  let s := (((s.releaseUnit i).dropWork i).enter i .fault).onStation i (fun x =>
    { x with
      step := none
      gearTimer := none
      cmdLock := .locked
      takeOver := none
      stopCause := cause
      pendingSensorFault := false })
  s.raise i reason

/-- The release sequence (R130): the work is dealt with, a motion in progress writes the stop cause, the
unit is released at once, the station reports RELEASED and the release step starts. -/
def State.releaseSequence (s : State) (i : StationId) (cause : StopCause) : State :=
  let s := if (s.motionOf i).isSome then s.stopMotion i cause else s
  (((s.releaseUnit i).dropWork i).enter i .released).startStep i .release .unlocked .free

/-- The return state a take-over records (R153). -/
def Station.returnState (x : Station) : LineState :=
  match x.state with
  | .fast | .heaving => .fast
  | .trimming => x.resting.getD .fast
  | .easing | .eased => .eased
  | other => other

/-- How a take-over deals with the active operation: a TRIM is discarded, a commanded operation is parked
with the work it still has, and one in the lock step of an earlier stop is parked only where a drive
fault would have had it retried (R121, R153; log 17). -/
def State.takeOverActive (s : State) (i : StationId) : State :=
  match (s.station i).active with
  | none => s
  | some a =>
    if a.work.isTrim then s.dropActive i
    else
      match a.phase with
      | .awaiting | .granted | .moving _ => s.parkActive i a
      | .ended _ =>
        if (s.station i).stopCause = .driveFault ∧ a.retryUsed = false then s.parkActive i a
        else s.dropActive i

/-- How a take-over deals with the pending request: a TRIM is withdrawn, a commanded operation parked (R153). -/
def State.takeOverPending (s : State) (i : StationId) : State :=
  match s.requestOf i with
  | none => s
  | some q => if q.work.isTrim then s.withdraw i else (s.withdraw i).park i q.work q.retryUsed

/-- The start of a take-over (R153). A motion in progress stops with cause TAKE-OVER, and the lock it
commands is LOCKED; the unit is released at once. -/
def State.enterLocal (s : State) (i : StationId) : State :=
  let x := s.station i
  let s := (s.takeOverPending i).takeOverActive i
  let s :=
    if (x.active.bind ActiveOp.moving?).isSome then
      (s.stopMotion i .takeOver).onStation i (fun y =>
        { y with cmdLock := .locked, cmdClutch := some .engaged })
    else s
  ((s.releaseUnit i).enter i .inLocal).onStation i (fun y =>
    { y with
      step := none
      gearTimer := none
      motionTimer := none
      takeOver := some ⟨x.returnState, some s.settings.takeOverLimit⟩ })

/-- A station that leaves UNKNOWN or FAULT with its take-over input asserted enters LOCAL at once (R154). -/
def State.deferredTakeOver (s : State) (i : StationId) : State :=
  if s.inputs.takeOver[i] && (s.station i).state != .fault then s.enterLocal i else s

/-- A parked HEAVE is discarded: a HEAVING station goes to FAST at the same event and releases the unit it
may still hold (R36, R96, R112, R152; log 15). A lock step in flight goes on with nothing left to do. -/
def State.discardParkedHeave (s : State) (i : StationId) : State :=
  let s := s.unpark i
  if (s.station i).state = .heaving then
    let s := (s.releaseUnit i).onStation i (fun x =>
      { x with step := x.step.map (fun g =>
          if g.kind = .motionLock then { g with kind := .handBack } else g) })
    s.enter i .fast
  else s

end Sys2Proof.Machine
end

