-- ==== Sys2Proof/Machine/Reports.lean ====
section
/-! DEFINITION. The codes and the byte layouts of the reports (10 section 10.5). A field for which a station,
an operation, a step or a slot has nothing to report reads 0, and so do the bits of a byte that the layout
does not name, where the layout gives no other code (log 19). -/

namespace Sys2Proof.Machine

/-! ### Codes -/

def Status.code : Status → Byte
  | .ok => 0
  | .unknownCommand => 1
  | .badLength => 2
  | .notReady => 3
  | .noStation => 4
  | .occupied => 5
  | .noRecord => 6
  | .wrongState => 7
  | .busy => 8
  | .callFull => 9
  | .duplicateTag => 10
  | .noCall => 11
  | .callState => 12
  | .wrongBerth => 13
  | .badWindow => 14
  | .locked => 15
  | .keyAbsent => 16
  | .callHeld => 17
  | .order => 18
  | .hold => 19
  | .inLocal => 20
  | .limit => 21
  | .storeBusy => 22
  | .driveState => 23
  | .latched => 24

def LineState.code : LineState → Byte
  | .unknown => 0
  | .stowed => 1
  | .paying => 2
  | .heaving => 3
  | .fast => 4
  | .trimming => 5
  | .easing => 6
  | .eased => 7
  | .released => 8
  | .rewinding => 9
  | .inLocal => 10
  | .outUnclaimed => 11
  | .fault => 12

/-- 0 NONE, then 1 to 11 in the priority order of R22. -/
def StopCause.code : StopCause → Byte
  | .none => 0
  | .critical => 1
  | .hold => 2
  | .takeOver => 3
  | .gear => 4
  | .sensor => 5
  | .driveFault => 6
  | .snag => 7
  | .timeout => 8
  | .limit => 9
  | .withdrawn => 10
  | .done => 11

/-- 0 NONE, then 1 to 10 in the priority order of R23. -/
def Attention.code : Attention → Byte
  | .none => 0
  | .autoReleased => 1
  | .critical => 2
  | .gear => 3
  | .sensor => 4
  | .driveFault => 5
  | .snag => 6
  | .timeout => 7
  | .stale => 8
  | .limit => 9
  | .surging => 10

def Role.code : Role → Byte
  | .head => 1
  | .stern => 2
  | .breastFore => 3
  | .breastAft => 4
  | .springFore => 5
  | .springAft => 6

def CallState.code : CallState → Byte
  | .opened => 0
  | .held => 1
  | .strained => 2
  | .singling => 3
  | .clearing => 4

def Berth.code : Berth → Byte
  | .a => 0
  | .b => 1

def UnitState.code : UnitState → Byte
  | .idle => 0
  | .granted => 1
  | .running => 2
  | .faulted => 3

/-- 0 is none. -/
def OpClass.code : OpClass → Byte
  | .trim => 1
  | .heave => 2
  | .slacken => 3
  | .rewind => 4

def AlertMode.code : AlertMode → Byte
  | .latched => 0
  | .follow => 1
  | .criticalOnly => 2

def AlertPolarity.code : AlertPolarity → Byte
  | .activeLow => 0
  | .activeHigh => 1

/-- 0 LOCKED, 1 UNLOCKED. -/
def lockBit : LockPos → Bool
  | .locked => false
  | .unlocked => true

/-- 0 ENGAGED, 1 FREE. -/
def clutchBit : ClutchPos → Bool
  | .engaged => false
  | .free => true

/-- 0 IN, 1 OUT. -/
def Direction.bit : Direction → Bool
  | .inward => false
  | .outward => true

/-- A one-byte number. -/
def num1 (n : Nat) : Byte := BitVec.ofNat 8 n

/-- A two-byte number, most significant byte first (R169). -/
def num2 (n : Nat) : List Byte := beBytes2 (BitVec.ofNat 16 n)

/-- A byte of flags, bit 0 first. -/
def flagByte (flags : List Bool) : Byte :=
  flags.foldr (fun f acc => (acc <<< 1) ||| (if f then 1 else 0)) 0

/-- An optional number in one byte, 0xFF where absent. -/
def optByte (v : Option Nat) : Byte :=
  match v with
  | none => 0xFF
  | some n => num1 n

/-! ### The QUERY report (R41, R42) -/

/-- The remaining work of a report in two bytes: 0xFFFF for "to target", "to stow" and a TRIM not yet
fixed. A number above 16 bits has no coding in the layout: a free value (log 20). -/
def remainingBytes (remaining : Option Nat) : List Byte :=
  match remaining with
  | none => [0xFF, 0xFF]
  | some n => if n < 65536 then num2 n else beBytes2 (Config.unstatedRemaining n)

/-- The remaining work of an operation that has not started its motion (R41). -/
def Work.waitingRemaining (w : Work) : Option Nat :=
  match w with
  | .slacken remaining => some remaining
  | .trim _ _ | .heave | .rewind => none

/-- The remaining work of an active operation (R41, R124). -/
def ActiveOp.reportedRemaining (a : ActiveOp) : Option Nat :=
  match a.work, a.phase with
  | .trim _ _, .moving m | .trim _ _, .ended m => some m.remaining
  | w, _ => (ActiveOp.remainingWork { a with work := w }).waitingRemaining

/-- The phase code of an active operation: 1 granted, 2 in motion or lock step, 3 awaiting engagement. -/
def OpPhase.code : OpPhase → Byte
  | .granted => 1
  | .moving _ | .ended _ => 2
  | .awaiting => 3

/-- Bytes 49 to 52: class, flags and remaining work of an operation. -/
def operationBytes (w : Work) (retryUsed : Bool) (phase : Byte) (remaining : Option Nat) : List Byte :=
  [w.opClass.code,
    flagByte [w.direction.bit, w.critical, retryUsed] ||| (phase <<< 4)] ++ remainingBytes remaining

/-- The pending or active operation of a station; none reads 0 (log 19). -/
def State.workBytes (s : State) (i : StationId) : List Byte :=
  match (s.station i).active, s.requestOf i with
  | some a, _ => operationBytes a.work a.retryUsed a.phase.code a.reportedRemaining
  | none, some q => operationBytes q.work q.retryUsed 0 q.work.waitingRemaining
  | none, none => [0, 0, 0, 0]

/-- Bytes 53 to 56: the parked operation; none reads 0 (log 19). -/
def Station.parkedBytes (x : Station) : List Byte :=
  match x.parked with
  | some p =>
    [p.work.opClass.code, flagByte [p.work.direction.bit, false, p.retryUsed]] ++
      remainingBytes p.work.waitingRemaining
  | none => [0, 0, 0, 0]

/-- Byte 3: the commanded gear and the step in flight. -/
def Station.gearByte (x : Station) : Byte :=
  flagByte
    [lockBit x.cmdLock, x.cmdClutch.any clutchBit, x.step.isSome,
      x.step.any (fun g => lockBit g.lock), x.step.any (fun g => clutchBit g.clutch)]

/-- A sensed part in two bits: 3 when not yet known. -/
def senseBits (known : Option Bool) : List Bool :=
  match known with
  | none => [true, true]
  | some position => [position, false]

/-- Byte 4: the sensed gear and the take-over timer. -/
def Station.senseByte (x : Station) : Byte :=
  flagByte (senseBits (x.senLock.map lockBit) ++ senseBits (x.senClutch.map clutchBit) ++
    [x.takeOver.any (fun t => t.timer.isSome), x.takeOver.any (fun t => t.timer.isNone)])

/-- Bytes 27 to 43: the number of window entries and the eight slots, oldest first. -/
def windowBytes (window : List Nat) : List Byte :=
  num1 window.length ::
    ((window.take 8).flatMap num2 ++ List.replicate (2 * (8 - window.length)) 0)

/-- Bytes 9 to 24: the record, or zeros where there is none. -/
def recordBytes : Option Mooring → List Byte
  | none => List.replicate 16 0
  | some r =>
    num2 r.tag ++ [r.role.code] ++ num2 r.slackLimit ++ num2 r.highLimit ++ num2 r.criticalLimit ++
      [num1 r.hysteresis, num1 r.windowLength, num1 r.excursionCount, num1 r.compliance] ++
      num2 r.stepLimit ++ [num1 (r.letGoRank.getD 0)]

/-- The 59 bytes of a station that is not in UNKNOWN (R41, R42). A station without a record reports its
window, its conditions and its consecutive-critical count empty or zero. -/
def State.entryBytes (s : State) (i : StationId) : List Byte :=
  let x := s.station i
  let r := s.mooring i
  let c := if r.isSome then s.channel i
    else { (s.channel i).emptied with critCondition := false, critCount := 0 }
  [num1 i.val, x.state.code,
    flagByte [r.isSome, r.any Mooring.stale, r.any Mooring.autoRelease, x.beyondPmax, c.isOver,
      c.isSlack, c.isSurging, c.critCondition],
    x.gearByte, x.senseByte,
    (match x.takeOver with
      | none => 0xFF
      | some t => t.returnState.code)] ++
    num2 x.length ++ [optByte (x.unit.map Fin.val)] ++ recordBytes r ++
    (match c.latest with
      | none => [0xFF, 0xFF]
      | some v => num2 v) ++
    windowBytes c.window ++
    [num1 c.overCount, num1 c.slackCount, num1 c.critCount, num1 c.steady, num1 c.valid] ++
    s.workBytes i ++ x.parkedBytes ++ [x.stopCause.code, x.attention.code]

/-- The 59 bytes of a station reached by a walk while in UNKNOWN (R42, 10 section 10.5). -/
def State.unknownEntryBytes (s : State) (i : StationId) : List Byte :=
  [num1 i.val, 0] ++ List.replicate 56 0xFF ++ [(s.station i).attention.code]

/-- The stations a QUERY of `count` stations from `first` reports, the walk stopping after station 15 (R40). -/
def walk (first : StationId) (count : Nat) : List StationId :=
  allStations.filter (fun i => decide (first.val ≤ i.val ∧ i.val < first.val + clamp 1 4 count))

/-- The QUERY report (R40 to R42). -/
def State.queryReport (s : State) (stations : List StationId) : List Byte :=
  num1 stations.length ::
    stations.flatMap (fun i =>
      if (s.station i).state = .unknown then s.unknownEntryBytes i else s.entryBytes i)

/-! ### The call report (R52) -/

/-- The ranks of the holding moorings of a call. -/
def State.holdingRanks (s : State) (c : Call) : List Nat :=
  (c.list.filter s.holding).filterMap (fun i => (s.mooring i).bind Mooring.letGoRank)

/-- The lowest of some ranks, none when there is none. -/
def lowestRank : List Nat → Option Nat
  | [] => none
  | r :: rs =>
    match lowestRank rs with
    | none => some r
    | some m => some (min r m)

/-- One entry of the call report. -/
def State.callEntry (s : State) (c : Call) (i : StationId) : List Byte :=
  [num1 i.val, (s.station i).state.code,
    flagByte [s.holding i, s.steadyFor c.steadyNeed i, (s.mooring i).any Mooring.stale],
    num1 (s.channel i).steady, num1 (((s.mooring i).bind Mooring.letGoRank).getD 0)]

def State.callReport (s : State) (c : Call) : List Byte :=
  num2 c.tag ++
    [c.berth.code, c.state.code, num1 c.minLines, num1 c.steadyNeed, flagByte [s.permit c.berth],
      num1 c.list.length, num1 (c.list.filter s.holding).length,
      num1 (c.list.filter (s.steadyFor c.steadyNeed)).length,
      num1 ((lowestRank (s.holdingRanks c)).getD 0)] ++
    c.list.flatMap (s.callEntry c)

/-! ### The lock report and the status report (R163, R176) -/

/-- The locks in force, bit n for Qn. -/
def State.lockByte (s : State) : Byte :=
  flagByte [s.inForce.locks[0], s.inForce.locks[1], s.inForce.locks[2], s.inForce.locks[3]]

def State.lockReport (s : State) : List Byte :=
  s.lockByte ::
    (match s.write with
    | none => [0, 0xFF]
    | some (.locks _) => [1, 0xFF]
    | some (.station i _) => [2, num1 i.val]
    | some (.settings _) => [3, 0xFF]
    | some (.alert _ _) => [4, 0xFF])

/-- The stations whose attention reason is not NONE, bit n for station n. -/
def State.attentionSet (s : State) : Nat :=
  (allStations.map (fun i => if (s.station i).attention = .none then 0 else 2 ^ i.val)).sum

/-- One call slot of the status report. -/
def callSlot (c : Call) : List Byte := num2 c.tag ++ [c.berth.code, c.state.code]

def State.statusReport (s : State) : List Byte :=
  num2 s.attentionSet ++
    allUnits.flatMap (fun u =>
      [(s.unit u).state.code, optByte ((s.unit u).served.map Fin.val)]) ++
    [s.lockByte,
      flagByte [s.hold, s.inputs.hold, s.inputs.key, s.permitA, s.permitB, s.alert],
      s.inForce.alertMode.code ||| (s.inForce.alertPolarity.code <<< 2),
      (match s.latch with
        | none => 0
        | some c => c.code),
      num1 s.calls.length] ++
    ((s.calls.take 4).flatMap callSlot ++ List.replicate (4 * (4 - s.calls.length)) 0)

end Sys2Proof.Machine
end

