-- ==== Sys2Proof/Machine/Link.lean ====
section
/-! DEFINITION. The supervisor link: the receiver, the answer to a unicast frame, the error latch, and the
commands and events the link owns (chapter 10). -/

namespace Sys2Proof.Machine

/-! ### Frames in and out -/

/-- The response frame of a command (R173): sync, own address, length, command echo, status, payload and
CRC, computed over address through payload. -/
def responseFrame (own : BitVec 3) (code : Byte) (status : Status) (payload : List Byte) : List Byte :=
  let body := own.setWidth 8 :: num1 (payload.length + 2) :: code :: status.code :: payload
  Config.responseSync :: body ++ beBytes2 (crc16 body)

/-- The link takes frames: the store read has completed, no accepted RESTART waits for its reset, and the
unit is not transmitting (R170, R180, R181; log 8). -/
def State.takesFrames (s : State) : Bool :=
  s.phase == .running && !s.restartPending && s.tx.isNone

/-- One byte arrives on the pair (R170, R171). A length byte out of range ends the frame. A frame that the
byte completes puts the command it spells at the end of the waiting commands; one complete before the store
read has completed, or after an accepted RESTART, is discarded unchecked (log 9). -/
def State.receiveByte (s : State) (byte : Byte) : State :=
  if s.phase = .off ∨ s.tx.isSome then s
  else
    match s.rx with
    | none => if byte = Config.requestSync then { s with rx := some [] } else s
    | some bytes =>
      let bytes := bytes ++ [byte]
      let len := (byteAt bytes 1).toNat
      if bytes.length < 2 then { s with rx := some bytes }
      else if bytes.length = 2 ∧ (len < 1 ∨ 48 < len) then
        { s with rx := none }
      else if bytes.length < len + 4 then { s with rx := some bytes }
      else if s.phase = .running ∧ s.restartPending = false then
        { s with rx := none, pending := s.pending ++ [decodeFrame s.unitAddress bytes] }
      else { s with rx := none }

/-- The straps are set from outside. The table has no row for it, so it is no command: DESIGN CHOICE, log 30. The
address and the bit rate in use follow at the next reset (R169, R181). -/
def State.setStraps (s : State) (address : BitVec 3) (rate : BitRate) : State :=
  { s with inputs := { s.inputs with strapAddress := address, strapRate := rate } }

/-! ### Answers -/

/-- What a command's own rule answers: a refusal with its status, or the acceptance with the response
payload and the state it leaves. -/
inductive Verdict where
  | refused (status : Status)
  | accepted (payload : List Byte) (state : State)

/-- A rule's checks are made in order; the first that fails refuses, and otherwise the command is accepted. -/
def checked (checks : List (Bool × Status)) (accept : Verdict) : Verdict :=
  match firstRefusal checks with
  | some status => .refused status
  | none => accept

/-- The response is formed and its transmission starts (R173). -/
def State.respond (s : State) (c : CommandSpec) (status : Status) (payload : List Byte) : State :=
  { s with tx := some (responseFrame s.unitAddress c.code status payload) }

/-- A refusal: the code of a record-changing command is stored in an empty latch, unless it is LATCHED or
STORE-BUSY (R174). -/
def State.refuse (s : State) (c : CommandSpec) (status : Status) : State :=
  let s :=
    if c.recordChanging ∧ s.latch = none ∧ status ≠ .latched ∧ status ≠ .storeBusy then
      { s with latch := some status }
    else s
  s.respond c status []

/-- A unicast frame of a known command (R173, R174): its length, then the latch, then its own rule. -/
def State.unicast (s : State) (c : CommandSpec) (len : Byte) (rule : State → Verdict) : State :=
  if s.takesFrames = false then s
  else if len.toNat ≠ c.length then s.refuse c .badLength
  else
    match c.recordChanging, s.latch with
    | true, some code => s.respond c .latched [code.code]
    | _, _ =>
      match rule s with
      | .refused status => s.refuse c status
      | .accepted payload t => t.respond c .ok payload

/-- The checks of R7 before a station command's own rule: NO-STATION, then NOT-READY. -/
def State.withStation (s : State) (station : Byte) (rule : StationId → Verdict) : Verdict :=
  match stationOf station with
  | none => .refused .noStation
  | some i => if (s.station i).state = .unknown then .refused .notReady else rule i

/-- An accepted command with an empty payload. -/
def Verdict.ok (t : State) : Verdict := .accepted [] t

/-- Every command completes with a next state. -/
abbrev Result := Host.Outcome State Fault Refusal

/-! ### Commands of the link (R172 to R180) -/

/-- STATUS (R176). -/
def execStatus (len : Byte) (s : State) : Result :=
  .next (s.unicast Command.status len fun s => .accepted s.statusReport s)

/-- CLEAR-ERROR (R175). -/
def execClearError (len : Byte) (s : State) : Result :=
  .next (s.unicast Command.clearError len fun s =>
    .accepted
      [match s.latch with
        | none => 0
        | some c => c.code]
      { s with latch := none })

/-- CLEAR-ALERT (R179). -/
def execClearAlert (len : Byte) (s : State) : Result :=
  .next (s.unicast Command.clearAlert len fun s =>
    .ok (if s.inForce.alertMode = .latched then { s with alert := false } else s))

/-- RESTART (R180): accepted with KEY; the reset itself begins with RESTART_BEGIN (R181). -/
def execRestart (len : Byte) (s : State) : Result :=
  .next (s.unicast Command.restart len fun s =>
    checked [(!s.inputs.key, .keyAbsent)] (.ok { s with restartPending := true }))

/-- A unicast frame whose code names no command (R173 step 1); never latched (R174). -/
def execUnknownCommand (code _len : Byte) (s : State) : Result :=
  .next (if s.takesFrames then s.respond ⟨code, 0, false⟩ .unknownCommand [] else s)

/-- A broadcast frame that is taken and ignored (R172). -/
def execBroadcastIgnored (_code _len : Byte) (s : State) : Result := .next s

/-- A complete frame that fails the CRC or names another unit is discarded, silently, and changes no state
of the part (R171); the receiver has ended it at its last byte. -/
def execFrameDiscarded (_address : Byte) (_crcMatches : Bool) (s : State) : Result := .next s

/-- A gap inside a frame discards the incomplete frame (R170). -/
def execFrameGapTimeout (s : State) : Result := .next { s with rx := none }

/-- A length byte outside 1 to 48 ends the frame at once (R170). -/
def execBadFrameLength (_len : Byte) (s : State) : Result := .next { s with rx := none }

/-- The transmission of the response ends; bytes are received again (R170). -/
def execResponseTransmissionEnd (s : State) : Result := .next { s with tx := none }

end Sys2Proof.Machine
end

