-- ==== Sys2Proof/Machine/Calls.lean ====
section
/-! DEFINITION. The commands of the call table: OPEN-CALL, QUERY-CALL, SINGLE-UP and CLOSE-CALL (chapter 3). -/

namespace Sys2Proof.Machine

/-- The calls of a berth. -/
def State.callsOn (s : State) (berth : Berth) : List Call := s.calls.filter (fun c => c.berth == berth)

/-- The record of a call that is opened (R49, R50). -/
def newCall (tag : Nat) (berth : Berth) (minLines steadyNeed : Nat) : Call where
  tag := tag
  berth := berth
  state := .opened
  minLines := clamp 1 8 minLines
  steadyNeed := clamp 1 255 steadyNeed
  list := []

/-- OPEN-CALL (R49, R50). -/
def execOpenCall (len : Byte) (tag : BitVec 16) (berth minLines steadyNeed : Byte) (s : State) :
    Result :=
  .next (s.unicast Command.openCall len fun s =>
    checked
      [(tag.toNat == 0, .badWindow),
       ((berthOfCode berth).isNone, .badWindow),
       ((s.callOf tag.toNat).isSome, .duplicateTag),
       (decide (Config.callsMax ≤ s.calls.length), .callFull),
       ((berthOfCode berth).any (fun side =>
          decide (Config.callsPerBerth ≤ (s.callsOn side).length)), .callFull)]
      (.ok
        (match berthOfCode berth with
        | none => s
        | some side =>
          State.settleCalls s
            { s with calls := s.calls ++
                [newCall tag.toNat side minLines.toNat steadyNeed.toNat] })))

/-- QUERY-CALL (R52). -/
def execQueryCall (len : Byte) (tag : BitVec 16) (s : State) : Result :=
  .next (s.unicast Command.queryCall len fun s =>
    match s.callOf tag.toNat with
    | none => .refused .noCall
    | some c => .accepted (s.callReport c) s)

/-- SINGLE-UP (R58, R59). -/
def execSingleUp (len : Byte) (tag : BitVec 16) (s : State) : Result :=
  .next (s.unicast Command.singleUp len fun s =>
    match s.callOf tag.toNat with
    | none => .refused .noCall
    | some c =>
      checked
        [(c.state == .singling || c.state == .clearing, .callState),
         (c.state == .opened && !s.noOtherActive c, .callState)]
        (.ok ((s.callTo c .singling).evaluate c.tag)))

/-- CLOSE-CALL (R51). -/
def execCloseCall (len : Byte) (tag : BitVec 16) (s : State) : Result :=
  .next (s.unicast Command.closeCall len fun s =>
    match s.callOf tag.toNat with
    | none => .refused .noCall
    | some c =>
      checked
        [(c.state.active, .callState),
         (!c.list.isEmpty, .callState)]
        (.ok { s with calls := s.calls.filter (fun d => d.tag != c.tag) }))

end Sys2Proof.Machine
end

