-- ==== Sys2Proof/Machine/Lines.lean ====
section
/-! DEFINITION. The commands of the station controllers: RELEASE, SLACKEN, RETIRE (chapter 7), RUN-OUT and
CLEAR-FAULT (chapter 1). -/

namespace Sys2Proof.Machine

/-! ### The let-go check (R63 to R67) -/

/-- The rank order: another holding station of the call carries a lower rank (R64). -/
def State.orderBlocked (s : State) (c : Call) (i : StationId) : Bool :=
  match (s.mooring i).bind Mooring.letGoRank with
  | none => false
  | some rank =>
    c.list.any (fun j =>
      j != i && s.holding j && ((s.mooring j).bind Mooring.letGoRank).any (fun r => decide (r < rank)))

/-- The let-go check for RELEASE; none where it allows (R65, R66). A station with no record has no call. -/
def State.letGoRelease (s : State) (i : StationId) : Option Status :=
  match (s.mooring i).bind (fun r => s.callOf r.tag) with
  | none => none
  | some c =>
    match c.state with
    | .opened | .clearing => none
    | .held | .strained => if s.inputs.key then none else some .callHeld
    | .singling => if s.orderBlocked c i then some .order else none

/-- The let-go check for SLACKEN; none where it allows (R67). -/
def State.letGoSlacken (s : State) (i : StationId) : Option Status :=
  match (s.mooring i).bind (fun r => s.callOf r.tag) with
  | none => none
  | some c =>
    match c.state with
    | .opened | .held | .strained | .clearing => some .callState
    | .singling => if s.orderBlocked c i then some .order else none

/-- A check whose status another block names. -/
def askedCheck (answer : Option Status) : Bool × Status := (answer.isSome, answer.getD .ok)

/-- The RELEASING period: RELEASED with its release step in flight (R132). -/
def Station.releasing (x : Station) : Bool :=
  x.state == .released && x.step.any (fun g => g.kind == .release)

/-- RELEASE (R129, R130). -/
def execRelease (len station : Byte) (s : State) : Result :=
  .next (s.unicast Command.release len fun s =>
    s.withStation station fun i =>
      let x := s.station i
      checked
        [(x.state == .inLocal, .inLocal),
         (x.releasing, .busy),
         (!(x.state.moored || x.state == .outUnclaimed), .wrongState),
         (s.quarterLocked i, .locked),
         askedCheck (s.letGoRelease i)]
        (.ok (State.settle s (s.releaseSequence i .withdrawn))))

/-- The room a station may still pay out (R135). -/
def State.payoutRoom (s : State) (i : StationId) : Nat :=
  (s.calibration i).maxPayout - (s.station i).length

/-- The effects of an accepted SLACKEN (R136). -/
def State.slackened (s : State) (i : StationId) (length : Nat) : State :=
  ((s.withdrawTrim i).enter i .easing).submit i (.slacken (min length (s.payoutRoom i))) false

/-- SLACKEN (R135, R136). -/
def execSlacken (len station : Byte) (length : BitVec 16) (s : State) : Result :=
  .next (s.unicast Command.slacken len fun s =>
    s.withStation station fun i =>
      let x := s.station i
      checked
        [(s.hold, .hold),
         (x.state == .inLocal, .inLocal),
         (!(x.state == .fast || x.state == .eased), .wrongState),
         (s.quarterLocked i, .locked),
         askedCheck (s.letGoSlacken i),
         (decide (s.payoutRoom i < Config.slackenMin), .limit)]
        (.ok (State.settle s (s.slackened i (clamp 10 2000 length.toNat)))))

/-- The effects of an accepted RETIRE: the lock is commanded LOCKED, and the rewind engage step starts with
a REWIND awaiting engagement (R140). -/
def State.retired (s : State) (i : StationId) : State :=
  ((s.enter i .rewinding).onStation i (fun x =>
    { x with cmdLock := .locked, active := some ⟨.rewind, false, .awaiting⟩ })).startStep i
      .rewindEngage .locked .engaged

/-- RETIRE (R139, R140). -/
def execRetire (len station : Byte) (s : State) : Result :=
  .next (s.unicast Command.retire len fun s =>
    s.withStation station fun i =>
      let x := s.station i
      checked
        [(s.hold, .hold),
         (x.state == .inLocal, .inLocal),
         (x.releasing, .busy),
         (!(x.state == .released || x.state == .paying), .wrongState)]
        (.ok (State.settle s (s.retired i))))

/-- RUN-OUT (R17). -/
def execRunOut (len station : Byte) (s : State) : Result :=
  .next (s.unicast Command.runOut len fun s =>
    s.withStation station fun i =>
      let x := s.station i
      checked
        [(s.hold, .hold),
         (x.state == .inLocal, .inLocal),
         (x.state != .stowed, .wrongState)]
        (.ok (State.settle s ((s.enter i .paying).startStep i .runOut .unlocked .free))))

/-- The first row of the list of R21 whose condition holds on the sensed clutch, the record and P. -/
def State.stateByList (s : State) (i : StationId) : LineState :=
  let x := s.station i
  if (s.mooring i).isSome ∧ x.senClutch = some .engaged then .fast
  else if x.senClutch = some .free then .released
  else if (s.mooring i).isNone ∧ s.settings.stowTolerance < x.length then .outUnclaimed
  else .stowed

/-- The station takes a state of the list of R21; a record taken to FAST becomes stale, and one taken to
STOWED is retired (R21, R38, R44). -/
def State.enterByList (s : State) (i : StationId) (state : LineState) : State :=
  match state with
  | .fast => (s.enter i .fast).setStale i
  | .stowed => s.stow i
  | other => s.enter i other

/-- CLEAR-FAULT (R21, R154). -/
def execClearFault (len station : Byte) (s : State) : Result :=
  .next (s.unicast Command.clearFault len fun s =>
    s.withStation station fun i =>
      let x := s.station i
      checked
        [(x.state != .fault, .wrongState),
         (x.disagrees, .wrongState),
         ((s.channel i).valid != Config.sampleRun, .wrongState)]
        (.ok (State.settle s ((s.enterByList i (s.stateByList i)).deferredTakeOver i))))

end Sys2Proof.Machine
end

