-- ==== Sys2Proof/Machine/PowerUp.lean ====
section
/-! DEFINITION. Power loss, the two resets, the completion of the store read, and the reconstruction of each
station (chapter 11). -/

namespace Sys2Proof.Machine

/-! ### Leaving UNKNOWN (R183, R184) -/

/-- The station holds a drum position and both senses (R2, R183). -/
def Station.complete (x : Station) : Bool :=
  x.position.isSome && x.senLock.isSome && x.senClutch.isSome

/-- The pending sensor fault decides FAULT: it is yes and the valid counter is below 8 (R20). -/
def State.sensorFaultStands (s : State) (i : StationId) : Bool :=
  (s.station i).pendingSensorFault && decide ((s.channel i).valid < Config.sampleRun)

/-- The pending sensor fault becomes no (R20). -/
def State.clearPendingFault (s : State) (i : StationId) : State :=
  s.onStation i (fun x => { x with pendingSensorFault := false })

/-- The state and the gear a station takes as it leaves UNKNOWN (R183, R184). -/
def State.reconstruct (s : State) (i : StationId) : State :=
  let x := s.station i
  if s.sensorFaultStands i then s.enterFault i .sensor .sensor
  else
    let s := s.clearPendingFault i
    if x.length ≤ s.settings.stowTolerance then
      let t := (s.stow i).onStation i (fun y => { y with cmdClutch := some .engaged })
      if x.senClutch = some .engaged ∧ x.senLock = some .locked then t
      else t.startStep i .stow .locked .engaged
    else if x.senClutch = some .free then (s.enter i .released).disagreementTest i
    else (s.enter i .outUnclaimed).disagreementTest i

/-- A station that holds its position and senses leaves UNKNOWN: P and R9, the commanded clutch, the row of
R183, its gear by R184, and a take-over whose input is asserted (R154). -/
def State.leaveUnknown (s : State) (i : StationId) : State :=
  if (s.station i).state = .unknown ∧ (s.station i).complete then
    (((s.updateLength i).onStation i (fun x => { x with cmdClutch := x.senClutch })).reconstruct
      i).deferredTakeOver i
  else s

/-! ### Resets (R181) -/

/-- The clutch outputs as they stand. -/
def State.clutchOutputs (s : State) : Vector (Option ClutchPos) 16 := s.stations.map Station.cmdClutch

/-- The clutch outputs of a part that was without power: undriven (R2, R181). -/
def clutchesUndriven : Vector (Option ClutchPos) 16 := .replicate 16 none

/-- POWER_LOSS (R165): a store write in flight ends without completion, and what is volatile is lost (log 5). -/
def execPowerLoss (s : State) : Result :=
  .next (.afterReset .off clutchesUndriven s.store s.inputs s.pending)

/-- POWER_ON (R181): the reset begins with the clutch positions not yet known. -/
def execPowerOn (s : State) : Result :=
  .next (.afterReset .reading clutchesUndriven s.store s.inputs s.pending)

/-- The reset of an accepted RESTART may begin: its response has been sent and no store write is in flight
(R165, R180, R181; log 7). -/
def State.restartDue (s : State) : Bool := s.restartPending && s.tx.isNone && s.write.isNone

/-- RESTART_BEGIN (R181): the reset begins with the clutch outputs as they stand. -/
def execRestartBegin (s : State) : Result :=
  .next
    (if s.restartDue then .afterReset .reading s.clutchOutputs s.store s.inputs s.pending else s)

/-! ### The completion of the store read (R182) -/

/-- Steps 1 to 3: the values in force take the store's, the ALERT state is deasserted, and the hold takes
the level of its input. -/
def State.loadStore (s : State) : State :=
  { s with phase := .running, inForce := s.store, alert := false, hold := s.inputs.hold }

/-- Step 4: a unit whose fault input is asserted goes to FAULTED, as an assertion arriving in IDLE (R111). -/
def State.readFaultInput (s : State) (u : UnitId) : State :=
  if s.inputs.fault[u] ∧ (s.unit u).state = .idle then s.faultUnit u else s

/-- STORE_READ_COMPLETE (R182); it means something only while the store is being read. -/
def execStoreReadComplete (s : State) : Result :=
  .next
    (if s.phase = .reading then
      State.settle s
        (allStations.foldl State.leaveUnknown (allUnits.foldl State.readFaultInput s.loadStore))
    else s)

end Sys2Proof.Machine
end

