-- ==== Sys2Proof/Machine/Field.lean ====
section
/-! DEFINITION. The field arrivals of a station: drum positions, gear senses, the gear timer, and the pendant
take-over (chapters 1 and 8). -/

namespace Sys2Proof.Machine

/-! ### Drum positions (R8, R9, R18, R124, R125) -/

/-- The payout stop in PAYING (R18). -/
def State.payoutStop (s : State) (i : StationId) : State :=
  let x := s.station i
  let cal := s.calibration i
  if cal.maxPayout ≤ cal.rawLength (x.position.getD 0) ∧ x.cmdLock = .unlocked then
    (s.startStep i .payoutStop .locked .free).raise i .limit
  else s

/-- A drum position at a station that has left UNKNOWN: P and R9, then the payout stop in PAYING or the
tests of a motion in progress. -/
def State.drumMoved (s : State) (i : StationId) : State :=
  let t := s.updateLength i
  if (t.station i).state = .paying then t.payoutStop i else t.motionTests i

/-- DRUM_POSITION_ARRIVAL (R8). -/
def execDrumPositionArrival (i : StationId) (count : BitVec 24) (s : State) : Result :=
  let t := s.onStation i (fun x => { x with position := some count.toNat })
  .next
    (match s.phase with
    | .off => s
    | .reading => t
    | .running =>
      State.settle s (if (s.station i).state = .unknown then t.leaveUnknown i else t.drumMoved i))

/-! ### Gear senses (R11, R12, R15) -/

/-- The sensed value of a part (R11). -/
def Station.sensed (x : Station) : GearSense → Station
  | .lock p => { x with senLock := some p }
  | .clutch p => { x with senClutch := some p }

/-- A sense at a station that has left UNKNOWN: the completion test of a step in flight, or the
disagreement test (R12, R15). -/
def State.gearSensed (s : State) (i : StationId) : State :=
  let x := s.station i
  if x.step.isSome then s.tryComplete i
  else if x.state = .inLocal ∨ x.state = .fault then s
  else s.disagreementTest i

/-- GEAR_SENSE_ARRIVAL (R11). -/
def execGearSenseArrival (i : StationId) (sense : GearSense) (s : State) : Result :=
  let t := s.onStation i (fun x => x.sensed sense)
  .next
    (match s.phase with
    | .off => s
    | .reading => t
    | .running =>
      State.settle s (if (s.station i).state = .unknown then t.leaveUnknown i else t.gearSensed i))

/-- GEAR_TIMER_EXPIRY during a gear step or a disagreement wait (R14, R15); a stopped timer does not expire
(log 11). -/
def execGearTimerExpiry (i : StationId) (s : State) : Result :=
  .next
    (if s.phase = .running ∧ (s.station i).gearTimer.isSome then
      State.settle s (s.enterFault i .gear .gear)
    else s)

/-! ### Pendant take-over (R153 to R158) -/

/-- The level of a station's take-over input (R154). -/
def State.setTakeOverInput (s : State) (i : StationId) (level : Bool) : State :=
  { s with inputs := { s.inputs with takeOver := s.inputs.takeOver.set i.val level i.isLt } }

/-- TAKE_OVER_ASSERTED (R153, R154). -/
def execTakeOverAsserted (i : StationId) (s : State) : Result :=
  let t := s.setTakeOverInput i true
  let state := (s.station i).state
  .next
    (if s.phase = .running ∧ state ≠ .unknown ∧ state ≠ .fault ∧ state ≠ .inLocal then
      State.settle t (t.enterLocal i)
    else t)

/-- The return state stands against the sensed clutch and P (R157 step 2). -/
def State.returnStands (s : State) (i : StationId) (state : LineState) : Bool :=
  let clutch := (s.station i).senClutch
  let out := decide (s.settings.stowTolerance < (s.station i).length)
  match state with
  | .fast | .eased | .rewinding => clutch == some .engaged
  | .outUnclaimed => clutch == some .engaged && out
  | .paying => clutch == some .free
  | .released => true
  | .stowed => clutch == some .engaged && !out
  | .unknown | .heaving | .trimming | .easing | .inLocal | .fault => false

/-- The station leaves LOCAL for its return state, or for the state of the list of R21 that replaces it
(R157 steps 2 and 3). -/
def State.takeReturnState (s : State) (i : StationId) (state : LineState) : State :=
  if s.returnStands i state then
    if state = .rewinding ∧ (s.station i).parked.all (fun p => p.work != .rewind) then
      s.enter i .released
    else if state = .stowed then s.stow i
    else s.enter i state
  else s.enterByList i (s.stateByList i)

/-- The commanded gear of the new state (R157 step 4). -/
def State.handBack (s : State) (i : StationId) : State :=
  match (s.station i).state with
  | .paying | .released =>
    s.onStation i (fun x =>
      { x with cmdLock := x.senLock.getD x.cmdLock, cmdClutch := x.senClutch })
  | .unknown | .stowed | .heaving | .fast | .trimming | .easing | .eased | .rewinding | .inLocal
  | .outUnclaimed | .fault => s.startStep i .handBack .locked .engaged

/-- The state that carries out a parked operation, where the station's state takes it back (R158). -/
def resumeState (state : LineState) (work : Work) : Option LineState :=
  match state, work with
  | .fast, .heave => some .heaving
  | .eased, .slacken _ => some .easing
  | .rewinding, .rewind => some .rewinding
  | _, _ => none

/-- The parked operation goes on, stays parked under the hold, or is discarded (R158). -/
def State.resumeParked (s : State) (i : StationId) : State :=
  match (s.station i).parked with
  | none => s
  | some p =>
    match resumeState (s.station i).state p.work with
    | none => s.unpark i
    | some state => if s.hold then s.enter i state else (s.enter i state).submitParked i

/-- The end of a take-over (R157, R158, R20). -/
def State.endTakeOver (s : State) (i : StationId) : State :=
  match (s.station i).takeOver with
  | none => s
  | some taken =>
    let t := s.onStation i (fun x => { x with takeOver := none })
    if s.sensorFaultStands i then t.enterFault i .sensor .sensor
    else
      ((((t.clearPendingFault i).takeReturnState i taken.returnState).handBack i).resumeParked i)

/-- TAKE_OVER_ENDED (R154, R157). -/
def execTakeOverEnded (i : StationId) (s : State) : Result :=
  let t := s.setTakeOverInput i false
  .next
    (if s.phase = .running ∧ (s.station i).state = .inLocal then State.settle t (t.endTakeOver i)
    else t)

/-- The take-over timer has expired (R156): a record becomes stale with attention STALE, and the parked
operation is discarded. -/
def State.takeOverExpired (s : State) (i : StationId) : State :=
  let t := s.onStation i (fun x =>
    { x with takeOver := x.takeOver.map (fun o => { o with timer := none }), parked := none })
  if (s.mooring i).isSome then (t.setStale i).raise i .stale else t

/-- TAKE_OVER_TIMER_EXPIRY (R156); a stopped timer does not expire (log 11). -/
def execTakeOverTimerExpiry (i : StationId) (s : State) : Result :=
  .next
    (if s.phase = .running ∧ (s.station i).state = .inLocal ∧
        (s.station i).takeOver.any (fun o => o.timer.isSome) then
      State.settle s (s.takeOverExpired i)
    else s)

end Sys2Proof.Machine
end

