-- ==== Sys2Proof/Machine/Hold.lean ====
section
/-! DEFINITION. The berth hold: HOLD-ALL, RESUME-ALL and the HOLD and KEY inputs (chapters 3 and 8). -/

namespace Sys2Proof.Machine

/-- How a station deals with its work when the hold is set (R147). -/
def State.holdStation (s : State) (i : StationId) : State :=
  match (s.station i).active, s.requestOf i with
  | some a, _ =>
    match a.phase with
    | .awaiting => s.parkActive i a
    | .granted =>
      if a.work.isTrim then (s.giveBack i).enter i (s.restingOf i)
      else (s.releaseUnit i).parkActive i a
    | .moving _ =>
      if a.work.isTrim then s.endMotionDiscard i .hold
      else (s.park i a.remainingWork a.retryUsed).endMotionDiscard i .hold
    | .ended _ => s
  | none, some q =>
    if q.work.isTrim then s.withdraw i else (s.withdraw i).park i q.work q.retryUsed
  | none, none => s

/-- The hold is set; a setting that finds it in force changes nothing (R145, R147, R148). -/
def State.setHold (s : State) : State :=
  if s.hold then s
  else State.settle s (allStations.foldl State.holdStation { s with hold := true })

/-- A station submits its parked operation when the hold is cleared, unless it is in LOCAL (R150) or still
holds the unit of the stop that parked it (R109, log 16). -/
def State.resumeStation (s : State) (i : StationId) : State :=
  if (s.station i).state = .inLocal ∨ (s.station i).unit.isSome then s else s.submitParked i

/-- The hold is cleared; a clearing that finds it not in force changes nothing (R146, R150). -/
def State.clearHold (s : State) : State :=
  if s.hold then State.settle s (allStations.foldl State.resumeStation { s with hold := false })
  else s

/-- HOLD-ALL (R145, R146). -/
def execHoldAll (broadcast : Bool) (len : Byte) (s : State) : Result :=
  .next
    (if broadcast then
      if s.takesFrames ∧ len.toNat = Command.holdAll.length then s.setHold else s
    else s.unicast Command.holdAll len fun s => .ok s.setHold)

/-- RESUME-ALL (R146, R150). -/
def execResumeAll (broadcast : Bool) (len : Byte) (s : State) : Result :=
  .next
    (if broadcast then
      if s.takesFrames ∧ len.toNat = Command.resumeAll.length ∧ s.inputs.hold = false then
        s.clearHold
      else s
    else s.unicast Command.resumeAll len fun s =>
      checked [(s.inputs.hold, .hold)] (.ok s.clearHold))

/-- The HOLD input is asserted (R145); before the part is at work only its level changes (R181). -/
def execHoldInputAsserted (s : State) : Result :=
  let s := { s with inputs := { s.inputs with hold := true } }
  .next (if s.phase = .running then s.setHold else s)

/-- The HOLD input is deasserted; this does not clear the hold (R145). -/
def execHoldInputDeasserted (s : State) : Result :=
  .next { s with inputs := { s.inputs with hold := false } }

/-- KEY changes; later commands read its level (R66). -/
def execKeyChange (asserted : Bool) (s : State) : Result :=
  .next { s with inputs := { s.inputs with key := asserted } }

end Sys2Proof.Machine
end

