-- ==== Sys2Proof/Machine/Moorings.lean ====
section
/-! DEFINITION. The commands of the mooring table: MAKE-FAST, ADOPT, AMEND and QUERY (chapter 2). -/

namespace Sys2Proof.Machine

/-- Steps 5 to 8 of R29, which ADOPT makes too (R32): the named call, its berth, its state, and the
fields of the record. -/
def State.callChecks (s : State) (i : StationId) (tag : Nat) (f : RecordFields) :
    List (Bool × Status) :=
  [((s.callOf tag).isNone, .noCall),
   ((s.callOf tag).any (fun c => c.berth != berthOf i), .wrongBerth),
   ((s.callOf tag).any (fun c => c.state == .singling || c.state == .clearing), .callState),
   (!recordFieldsValid f, .badWindow)]

/-- MAKE-FAST (R29, R30). -/
def execMakeFast (len station : Byte) (tag : BitVec 16) (f : RecordFields) (s : State) : Result :=
  .next (s.unicast Command.makeFast len fun s =>
    s.withStation station fun i =>
      checked
        ([(s.hold, .hold),
          ((s.station i).state == .inLocal, .inLocal),
          ((s.mooring i).isSome, .occupied),
          ((s.station i).state != .paying, .wrongState)] ++ s.callChecks i tag.toNat f)
        (.ok (State.settle s
          ((((s.createRecord i (mooringFrom f tag.toNat)).enter i .heaving).startStep i .makeFast
            .locked .engaged).submit i .heave false))))

/-- ADOPT (R32). -/
def execAdopt (len station : Byte) (tag : BitVec 16) (f : RecordFields) (s : State) : Result :=
  .next (s.unicast Command.adopt len fun s =>
    s.withStation station fun i =>
      checked
        ([((s.station i).state == .inLocal, .inLocal),
          ((s.mooring i).isSome, .occupied),
          ((s.station i).state != .outUnclaimed, .wrongState)] ++ s.callChecks i tag.toNat f)
        (.ok (State.settle s ((s.createRecord i (mooringFrom f tag.toNat)).enter i .fast))))

/-- What an AMEND does in the station's state, after the effects of R34 (R35). -/
def State.amendByState (s : State) (i : StationId) : State :=
  match (s.station i).state with
  | .trimming => s.onStation i (fun x => { x with resting := some .fast })
  | .eased => s.enter i .fast
  | .heaving | .fast | .inLocal | .fault | .unknown | .stowed | .paying | .easing | .released
  | .rewinding | .outUnclaimed => s

/-- A parked HEAVE is discarded by an AMEND that changes L or H (R36). -/
def State.amendParked (s : State) (i : StationId) (old new : Mooring) : State :=
  if (s.station i).parked.any (fun p => p.work == .heave) ∧
      (old.slackLimit ≠ new.slackLimit ∨ old.highLimit ≠ new.highLimit) then
    s.discardParkedHeave i
  else s

/-- The effects of an accepted AMEND (R34 to R36). -/
def State.amended (s : State) (i : StationId) (old new : Mooring) : State :=
  ((((((s.setMooring i (some new)).emptyWindow i).resetSteady i).withdrawTrim i).amendByState
    i).amendParked i old new)

/-- AMEND (R33 to R36). -/
def execAmend (len station : Byte) (f : RecordFields) (s : State) : Result :=
  .next (s.unicast Command.amend len fun s =>
    s.withStation station fun i =>
      match s.mooring i with
      | none => .refused .noRecord
      | some r =>
        checked
          [((s.station i).state == .released || (s.station i).state == .rewinding ||
              (s.station i).state == .easing, .wrongState),
           (!recordFieldsValid f, .badWindow)]
          (.ok (State.settle s (s.amended i r (mooringFrom f r.tag)))))

/-- The attention reason of a reported station is reset, and the link is told (R24, R177). -/
def State.resetAttention (s : State) (i : StationId) : State :=
  if (s.station i).attention = .none then s
  else (s.onStation i (fun x => { x with attention := .none })).reformFollow

/-- QUERY (R40 to R43). -/
def execQuery (len station count : Byte) (s : State) : Result :=
  .next (s.unicast Command.query len fun s =>
    s.withStation station fun i =>
      let stations := walk i count.toNat
      .accepted (s.queryReport stations) (stations.foldl State.resetAttention s))

end Sys2Proof.Machine
end

