-- ==== Sys2Proof/Machine/Store.lean ====
section
/-! DEFINITION. Quarter locks and the calibration store: the commands that change the values in force, and the
store write (chapter 9). -/

namespace Sys2Proof.Machine

/-- STORE-BUSY: a store write is in flight (R165). -/
def State.storeBusy (s : State) : Bool × Status := (s.write.isSome, .storeBusy)

/-- KEY-ABSENT: KEY is deasserted at the event. -/
def State.keyAbsent (s : State) : Bool × Status := (!s.inputs.key, .keyAbsent)

/-- LOCK-QUARTER (R160). -/
def execLockQuarter (len quarter : Byte) (s : State) : Result :=
  .next (s.unicast Command.lockQuarter len fun s =>
    match quarterOfField quarter with
    | none => .refused .badWindow
    | some q =>
      checked [s.storeBusy]
        (.ok
          (if s.inForce.locks[q] then s
          else
            let locks := s.inForce.locks.set q.val true q.isLt
            { s with inForce := { s.inForce with locks := locks }, write := some (.locks locks) })))

/-- UNLOCK-ALL (R161). -/
def execUnlockAll (len : Byte) (s : State) : Result :=
  .next (s.unicast Command.unlockAll len fun s =>
    checked [s.keyAbsent, s.storeBusy]
      (.ok
        (if s.inForce.locks = .replicate 4 false then s
        else
          { s with
            inForce := { s.inForce with locks := .replicate 4 false }
            write := some (.locks (.replicate 4 false)) })))

/-- QUERY-LOCKS (R163). -/
def execQueryLocks (len : Byte) (s : State) : Result :=
  .next (s.unicast Command.queryLocks len fun s => .accepted s.lockReport s)

/-- A station's calibration in force is replaced; its channel clears the decimation sum when D changes, and
P and the beyond-Pmax flag are worked out afresh (R10, R75, R166). -/
def State.calibrated (s : State) (i : StationId) (cal : Calibration) : State :=
  let t := { s with
    inForce := { s.inForce with calibrations := s.inForce.calibrations.set i.val cal i.isLt } }
  let t :=
    if (s.calibration i).decimation = cal.decimation then t
    else t.onChannel i (fun c => { c with sum := 0, count := 0 })
  t.updateLength i

/-- CALIBRATE-STATION (R166). -/
def execCalibrateStation (len station : Byte) (f : CalibrationFields) (s : State) : Result :=
  .next (s.unicast Command.calibrateStation len fun s =>
    s.withStation station fun i =>
      checked [s.keyAbsent, s.storeBusy]
        (.ok { s.calibrated i (calibrationFrom f) with
                write := some (.station i (calibrationFrom f)) }))

/-- SET-LIMITS (R167). -/
def execSetLimits (len : Byte) (f : LimitFields) (s : State) : Result :=
  .next (s.unicast Command.setLimits len fun s =>
    checked [s.keyAbsent, s.storeBusy]
      (.ok
        { s with
          inForce := { s.inForce with settings := settingsFrom f }
          write := some (.settings (settingsFrom f)) }))

/-- SET-ALERT-MODE (R168, R178). -/
def execSetAlertMode (len mode polarity : Byte) (s : State) : Result :=
  .next (s.unicast Command.setAlertMode len fun s =>
    match alertModeOf mode, alertPolarityOf polarity with
    | some m, some p =>
      checked [s.storeBusy]
        (.ok
          (State.reformAlert
            { s with
              inForce := { s.inForce with alertMode := m, alertPolarity := p }
              write := some (.alert m p) }))
    | _, _ => .refused .badWindow)

/-- The store after a write of a group completes (R164, R165). -/
def Groups.written (g : Groups) (w : GroupWrite) : Groups :=
  match w with
  | .locks values => { g with locks := values }
  | .station i values => { g with calibrations := g.calibrations.set i.val values i.isLt }
  | .settings values => { g with settings := values }
  | .alert mode polarity => { g with alertMode := mode, alertPolarity := polarity }

/-- A store write completes (R165). -/
def execStoreWriteComplete (s : State) : Result :=
  .next
    (match s.write with
    | none => s
    | some w => { s with store := s.store.written w, write := none })

end Sys2Proof.Machine
end

