-- ==== Sys2Proof/Machine/Tension.lean ====
section
/-! DEFINITION. The tension path: LOAD_SAMPLE_ARRIVAL, from the raw sample to what the station controller
does on the reading (chapters 4, 5 and 7). -/

namespace Sys2Proof.Machine

/-! ### The stages of a reading (R77) -/

/-- Stage 1: the critical test, made at a station with a record (R78, R79). -/
def State.criticalStage (s : State) (i : StationId) (reading : Nat) : State :=
  match s.mooring i with
  | none => s
  | some r =>
    (s.onChannel i (fun c =>
      { c with critCount := if r.isCritical reading then min 2 (c.critCount + 1) else 0 })).setCritCondition
        i (r.critAfter (s.channel i).critCondition reading)

/-- Stage 2: the window and the conditions, in FAST with a record that is not stale; attention SURGING is
raised at the reading that sets SURGING (R81 to R83). -/
def State.windowStage (s : State) (i : StationId) (reading : Nat) : State :=
  match s.mooring i with
  | none => s
  | some r =>
    if (s.station i).state = .fast ∧ r.stale = false then
      let before := (s.channel i).isSurging
      let t := s.onChannel i (fun c => c.windowed r reading)
      if (t.channel i).isSurging ∧ before = false then t.raise i .surging else t
    else s

/-- Stage 3: the steady counter, in FAST and TRIMMING; held at 0 while the record is stale (R39, R86). -/
def State.steadyStage (s : State) (i : StationId) (reading : Nat) : State :=
  match s.mooring i with
  | none => s
  | some r =>
    if (s.station i).state = .fast ∨ (s.station i).state = .trimming then
      s.onChannel i (fun c =>
        { c with steady :=
            if r.stale then 0
            else if r.inBand reading then min Config.steadyMax (c.steady + 1)
            else 0 })
    else s

/-! ### The station controller on a reading (R92 to R97, R104, R106, R142) -/

/-- The record is present and the reading is at or above its K (R78). -/
def State.isCriticalAt (s : State) (i : StationId) (reading : Nat) : Bool :=
  (s.mooring i).any (fun r => r.isCritical reading)

/-- The TRIM wanted in FAST after a reading (R92, R93). -/
def State.wantedTrim (s : State) (i : StationId) (isCritical : Bool) : Option (Direction × Bool) :=
  let c := s.channel i
  let stale := (s.mooring i).any Mooring.stale
  let isOver := c.isOver && !stale
  let isSlack := c.isSlack && !stale
  if s.hold then none
  else if isCritical then some (.outward, true)
  else if (s.requestOf i).any (fun q => q.work.critical) ∧ c.critCondition then some (.outward, true)
  else if c.isSurging ∧ stale = false then none
  else if isOver ∧ isSlack = false then some (.outward, false)
  else if isSlack ∧ isOver = false then some (.inward, false)
  else none

/-- A critical reading gives back a grant whose motion has not started; the station goes to a state, and in
FAST wants a critical render (R95, R96). -/
def State.criticalGiveBack (s : State) (i : StationId) (state : LineState) : State :=
  let t := (s.giveBack i).enter i state
  if state = .fast then t.wantCriticalRender i else t

/-- A critical reading in HEAVING (R96). -/
def State.criticalHeaving (s : State) (i : StationId) : State :=
  if (s.station i).parked.isSome then (s.discardParkedHeave i).wantCriticalRender i
  else
    match (s.station i).active with
    | none =>
      if (s.requestOf i).isSome then ((s.withdraw i).enter i .fast).wantCriticalRender i else s
    | some a =>
      match a.phase with
      | .granted => s.criticalGiveBack i .fast
      | .moving _ => s.endMotionDiscard i .critical
      | .awaiting | .ended _ => s

/-- A critical reading in TRIMMING: inward work stops, and a render waiting for READY takes the critical
mark (R96, R97). -/
def State.criticalTrimming (s : State) (i : StationId) : State :=
  match (s.station i).active with
  | none => s
  | some a =>
    match a.work, a.phase with
    | .trim .inward _, .granted => s.criticalGiveBack i (s.restingOf i)
    | .trim .inward _, .moving _ => s.endMotion i .critical
    | .trim .outward _, .granted =>
      s.onStation i (fun x => { x with active := some { a with work := .trim .outward true } })
    | _, _ => s

/-- A reading at or above the heave target ends the motion of a HEAVE (R104). -/
def State.heaveReading (s : State) (i : StationId) (reading : Nat) : State :=
  if (s.motionOf i).isSome ∧ (s.mooring i).any (fun r => decide (r.target ≤ reading)) then
    s.endMotion i .done
  else s

/-- A reading at or above the snag limit ends the motion of a REWIND (R142). -/
def State.snagReading (s : State) (i : StationId) (reading : Nat) : State :=
  if (s.motionOf i).isSome ∧ s.settings.snagLimit ≤ reading then
    (s.endMotionDiscard i .snag).raise i .snag
  else s

/-- An auto-release is due: a repeated critical reading in one of the five states, the record's field yes
and the quarter not locked (R106). -/
def State.autoReleaseDue (s : State) (i : StationId) : Bool :=
  (s.station i).state.moored && (s.channel i).critCount == 2 &&
    (s.mooring i).any Mooring.autoRelease && !s.quarterLocked i

/-- What the station controller does on a reading that makes no auto-release, by the state of the station. -/
def State.readingByState (s : State) (i : StationId) (reading : Nat) (isCritical : Bool) : State :=
  match (s.station i).state with
  | .fast => s.wantTrim i (s.wantedTrim i isCritical)
  | .eased => if isCritical then s.wantCriticalRender i else s
  | .heaving => if isCritical then s.criticalHeaving i else s.heaveReading i reading
  | .trimming => if isCritical then s.criticalTrimming i else s
  | .rewinding => s.snagReading i reading
  | .unknown | .stowed | .paying | .easing | .released | .inLocal | .outUnclaimed | .fault => s

/-- The station controller acts on a reading (R77 hand-off, R95, R106). -/
def State.controllerReading (s : State) (i : StationId) (reading : Nat) : State :=
  if s.isCriticalAt i reading then
    if s.autoReleaseDue i then
      ((s.raise i .critical).releaseSequence i .critical).raise i .autoReleased
    else (s.raise i .critical).readingByState i reading true
  else s.readingByState i reading false

/-- A reading is taken through its stages, within the arrival that formed it (R77). -/
def State.readingFormed (s : State) (i : StationId) (reading : Nat) : State :=
  let s := s.onChannel i (fun c =>
    { c with sum := 0, count := 0, latest := some reading, readingSinceRecord := true })
  (((s.criticalStage i reading).windowStage i reading).steadyStage i reading).controllerReading i
    reading

/-! ### Samples (R71 to R76) -/

/-- A sensor fault, by the state of the station (R19, R20, R72). -/
def State.sensorFault (s : State) (i : StationId) : State :=
  match (s.station i).state with
  | .fault => s.raise i .sensor
  | .unknown => s.onStation i (fun x => { x with pendingSensorFault := true })
  | .inLocal => (s.onStation i (fun x => { x with pendingSensorFault := true })).raise i .sensor
  | .stowed | .paying | .heaving | .fast | .trimming | .easing | .eased | .released | .rewinding
  | .outUnclaimed => s.enterFault i .sensor .sensor

/-- A rail sample (R71, R72). -/
def State.railSample (s : State) (i : StationId) : State :=
  let before := (s.channel i).rail
  let t := s.onChannel i (fun c =>
    { c with rail := min Config.sampleRun (c.rail + 1), valid := 0 })
  if before + 1 = Config.sampleRun then
    (t.onChannel i (fun c => { c with sum := 0, count := 0 })).sensorFault i
  else t

/-- A valid sample is calibrated and added to the sum; the D-th forms a reading (R71, R74, R76). -/
def State.validSample (s : State) (i : StationId) (raw : Nat) : State :=
  let cal := s.calibration i
  let t := s.onChannel i (fun c =>
    { c with
      rail := 0
      valid := min Config.sampleRun (c.valid + 1)
      sum := c.sum + cal.calibrate raw
      count := c.count + 1 })
  if cal.decimation ≤ (t.channel i).count then
    t.readingFormed i (cal.reading (t.channel i).sum)
  else t

/-- LOAD_SAMPLE_ARRIVAL (R70, R71). A sample before the store read has completed is not taken. -/
def execLoadSampleArrival (i : StationId) (raw : BitVec 16) (s : State) : Result :=
  .next
    (if s.phase = .running then
      State.settle s (if isRail raw.toNat then s.railSample i else s.validSample i raw.toNat)
    else s)

end Sys2Proof.Machine
end

