-- ==== Sys2Proof/Machine/Trim.lean ====
section
/-! DEFINITION. The trim planner and the drive units: READY, unit faults, the ready and motion limits, and
RESET-DRIVE (chapters 5 and 6). -/

namespace Sys2Proof.Machine

/-! ### The trim planner (R98 to R100) -/

/-- The planner's answer (R98). -/
inductive PlanAnswer where
  | count (n : Nat)
  | nothingToDo
  | noRoom
  deriving DecidableEq, Repr

/-- Division rounded up. -/
def ceilDiv (a b : Nat) : Nat := (a + b - 1) / b

/-- The error of a trim that is not critical, 0 where it is not above zero (R99 steps 1 and 2). -/
def trimError (d : Direction) (reading target : Nat) : Nat :=
  match d with
  | .outward => reading - target
  | .inward => target - reading

/-- The room of a trim, 0 where there is none (R99 step 6). -/
def trimRoom (d : Direction) (cal : Calibration) (length : Nat) : Nat :=
  match d with
  | .outward => cal.maxPayout - length
  | .inward => length - cal.minLength

/-- Steps 6 to 8 of R99: the room, the least length and the count. -/
def planWithin (length room countsPerMetre : Nat) : PlanAnswer :=
  if min length room < Config.trimMin then .noRoom
  else .count (ceilDiv (min length room * countsPerMetre) 100)

/-- The trim planner (R99, R100). -/
def planTrim (d : Direction) (critical : Bool) (reading : Nat) (r : Mooring) (cal : Calibration)
    (length : Nat) : PlanAnswer :=
  let room := trimRoom d cal length
  if critical then planWithin r.stepLimit room cal.countsPerMetre
  else
    let e := trimError d reading r.target
    if e = 0 then .nothingToDo
    else
      planWithin (min (max (ceilDiv (e * r.compliance) 100) Config.trimMin) r.stepLimit) room
        cal.countsPerMetre

/-! ### READY (R101, R103, R116) -/

/-- READY for a granted TRIM (R98, R101). -/
def State.readyTrim (s : State) (i : StationId) (u : UnitId) (a : ActiveOp) (d : Direction)
    (critical : Bool) : State :=
  let given := (s.giveBack i).enter i (s.restingOf i)
  match s.mooring i with
  | none => given
  | some r =>
    match planTrim d critical ((s.channel i).latest.getD 0) r (s.calibration i) (s.station i).length with
    | .count n => s.startMotion i u a n
    | .nothingToDo => given
    | .noRoom => given.raise i .limit

/-- The heave target is already met by a reading formed since the record was created (R103). -/
def State.heaveTargetMet (s : State) (i : StationId) (r : Mooring) : Bool :=
  (s.channel i).readingSinceRecord && (s.channel i).latest.any (fun v => decide (r.target ≤ v))

/-- READY for a granted HEAVE (R103). -/
def State.readyHeave (s : State) (i : StationId) (u : UnitId) (a : ActiveOp) : State :=
  let given := (s.giveBack i).enter i .fast
  if (s.mooring i).any (s.heaveTargetMet i) then given
  else if (s.station i).length ≤ (s.calibration i).minLength then given.raise i .limit
  else s.startMotion i u a 0

/-- READY from a unit (R116): one in GRANTED hands it to its station; in the other states it changes nothing. -/
def State.ready (s : State) (u : UnitId) : State :=
  match (s.unit u).state, (s.unit u).served with
  | .granted, some i =>
    match (s.station i).active with
    | none => s
    | some a =>
      match a.work with
      | .trim d critical => s.readyTrim i u a d critical
      | .heave => s.readyHeave i u a
      | .slacken _ | .rewind => s.startMotion i u a 0
  | _, _ => s

/-- READY_ARRIVAL (R116). Before the part is at work no unit is GRANTED (R181), and READY changes nothing. -/
def execReadyArrival (u : UnitId) (s : State) : Result :=
  .next (if s.phase = .running then State.settle s (s.ready u) else s)

/-! ### Failures (R117 to R121) -/

/-- A unit in GRANTED fails: it goes to FAULTED, is released from its station, and the operation has failed
while waiting (R117, R118). -/
def State.failGranted (s : State) (u : UnitId) : State :=
  match (s.unit u).served with
  | none => s.faultUnit u
  | some i => (((s.faultUnit u).releaseUnit i).failWaiting i)

/-- A unit in RUNNING faults: a motion in progress ends with DRIVE-FAULT, and the station keeps the unit
until its lock step completes (R118, R121). -/
def State.failRunning (s : State) (u : UnitId) : State :=
  match (s.unit u).served with
  | none => s.faultUnit u
  | some i =>
    let t := (s.faultUnit u).raise i .driveFault
    if (s.motionOf i).isSome then t.endMotion i .driveFault else t

/-- The assertion of a unit's fault input, by the state of the unit (R118). -/
def State.unitFault (s : State) (u : UnitId) : State :=
  match (s.unit u).state with
  | .idle => s.faultUnit u
  | .granted => s.failGranted u
  | .running => s.failRunning u
  | .faulted => s

/-- The level of a unit's fault input. -/
def State.setFaultInput (s : State) (u : UnitId) (level : Bool) : State :=
  { s with inputs := { s.inputs with fault := s.inputs.fault.set u.val level u.isLt } }

/-- UNIT_FAULT_ASSERTED (R118); before the part is at work only the level changes (R181). -/
def execUnitFaultAsserted (u : UnitId) (s : State) : Result :=
  let t := s.setFaultInput u true
  .next (if s.phase = .running then State.settle t (t.unitFault u) else t)

/-- UNIT_FAULT_DEASSERTED: the level changes and no state does (R111). -/
def execUnitFaultDeasserted (u : UnitId) (s : State) : Result := .next (s.setFaultInput u false)

/-- READY_TIMER_EXPIRY of a unit in GRANTED (R117); a stopped timer does not expire (log 11). -/
def execReadyTimerExpiry (u : UnitId) (s : State) : Result :=
  .next
    (if s.phase = .running ∧ (s.unit u).state = .granted ∧ (s.unit u).readyTimer.isSome then
      State.settle s (s.failGranted u)
    else s)

/-- MOTION_TIMER_EXPIRY while a motion is in progress (R126); a stopped timer does not expire (log 11). -/
def execMotionTimerExpiry (i : StationId) (s : State) : Result :=
  .next
    (if s.phase = .running ∧ (s.station i).motionTimer.isSome ∧ (s.motionOf i).isSome then
      State.settle s ((s.endMotionDiscard i .timeout).raise i .timeout)
    else s)

/-- RESET-DRIVE (R122). -/
def execResetDrive (len unit : Byte) (s : State) : Result :=
  .next (s.unicast Command.resetDrive len fun s =>
    match unitOf unit with
    | none => .refused .driveState
    | some u =>
      checked
        [((s.unit u).state != .faulted, .driveState),
         ((s.unit u).served.isSome, .driveState),
         (s.inputs.fault[u], .driveState)]
        (.ok (State.settle s (s.setUnit u (.unserved .idle)).reformFollow)))

end Sys2Proof.Machine
end

