-- ==== Sys2Proof/Machine/Dispatch.lean ====
section
/-! DEFINITION. The meaning of every command: one arm per row of the table of operations and events. -/

namespace Sys2Proof.Machine

def exec (i : Instr) (s : State) : Host.Outcome State Fault Refusal :=
  match i with
  | .makeFast len station tag fields => Sys2Proof.Machine.execMakeFast len station tag fields s
  | .adopt len station tag fields => Sys2Proof.Machine.execAdopt len station tag fields s
  | .amend len station fields => Sys2Proof.Machine.execAmend len station fields s
  | .query len station count => Sys2Proof.Machine.execQuery len station count s
  | .release len station => Sys2Proof.Machine.execRelease len station s
  | .slacken len station length => Sys2Proof.Machine.execSlacken len station length s
  | .retire len station => Sys2Proof.Machine.execRetire len station s
  | .runOut len station => Sys2Proof.Machine.execRunOut len station s
  | .openCall len tag berth minLines steadyNeed => Sys2Proof.Machine.execOpenCall len tag berth minLines steadyNeed s
  | .queryCall len tag => Sys2Proof.Machine.execQueryCall len tag s
  | .singleUp len tag => Sys2Proof.Machine.execSingleUp len tag s
  | .closeCall len tag => Sys2Proof.Machine.execCloseCall len tag s
  | .lockQuarter len quarter => Sys2Proof.Machine.execLockQuarter len quarter s
  | .unlockAll len => Sys2Proof.Machine.execUnlockAll len s
  | .queryLocks len => Sys2Proof.Machine.execQueryLocks len s
  | .holdAll broadcast len => Sys2Proof.Machine.execHoldAll broadcast len s
  | .resumeAll broadcast len => Sys2Proof.Machine.execResumeAll broadcast len s
  | .resetDrive len unit => Sys2Proof.Machine.execResetDrive len unit s
  | .clearFault len station => Sys2Proof.Machine.execClearFault len station s
  | .calibrateStation len station fields => Sys2Proof.Machine.execCalibrateStation len station fields s
  | .setLimits len fields => Sys2Proof.Machine.execSetLimits len fields s
  | .setAlertMode len mode polarity => Sys2Proof.Machine.execSetAlertMode len mode polarity s
  | .status len => Sys2Proof.Machine.execStatus len s
  | .clearError len => Sys2Proof.Machine.execClearError len s
  | .clearAlert len => Sys2Proof.Machine.execClearAlert len s
  | .restart len => Sys2Proof.Machine.execRestart len s
  | .unknownCommand code len => Sys2Proof.Machine.execUnknownCommand code len s
  | .broadcastIgnored code len => Sys2Proof.Machine.execBroadcastIgnored code len s
  | .frameDiscarded address crcMatches => Sys2Proof.Machine.execFrameDiscarded address crcMatches s
  | .frameGapTimeout => Sys2Proof.Machine.execFrameGapTimeout s
  | .badFrameLength len => Sys2Proof.Machine.execBadFrameLength len s
  | .loadSampleArrival station raw => Sys2Proof.Machine.execLoadSampleArrival station raw s
  | .drumPositionArrival station count => Sys2Proof.Machine.execDrumPositionArrival station count s
  | .gearSenseArrival station sense => Sys2Proof.Machine.execGearSenseArrival station sense s
  | .takeOverAsserted station => Sys2Proof.Machine.execTakeOverAsserted station s
  | .takeOverEnded station => Sys2Proof.Machine.execTakeOverEnded station s
  | .holdInputAsserted => Sys2Proof.Machine.execHoldInputAsserted s
  | .holdInputDeasserted => Sys2Proof.Machine.execHoldInputDeasserted s
  | .keyChange asserted => Sys2Proof.Machine.execKeyChange asserted s
  | .readyArrival unit => Sys2Proof.Machine.execReadyArrival unit s
  | .unitFaultAsserted unit => Sys2Proof.Machine.execUnitFaultAsserted unit s
  | .unitFaultDeasserted unit => Sys2Proof.Machine.execUnitFaultDeasserted unit s
  | .gearTimerExpiry station => Sys2Proof.Machine.execGearTimerExpiry station s
  | .readyTimerExpiry unit => Sys2Proof.Machine.execReadyTimerExpiry unit s
  | .motionTimerExpiry station => Sys2Proof.Machine.execMotionTimerExpiry station s
  | .takeOverTimerExpiry station => Sys2Proof.Machine.execTakeOverTimerExpiry station s
  | .storeWriteComplete => Sys2Proof.Machine.execStoreWriteComplete s
  | .powerLoss => Sys2Proof.Machine.execPowerLoss s
  | .powerOn => Sys2Proof.Machine.execPowerOn s
  | .restartBegin => Sys2Proof.Machine.execRestartBegin s
  | .storeReadComplete => Sys2Proof.Machine.execStoreReadComplete s
  | .responseTransmissionEnd => Sys2Proof.Machine.execResponseTransmissionEnd s

end Sys2Proof.Machine
end

