-- ==== Sys2Proof/Safety.lean ====
section
/-! DEFINITION. The terms claims are made in: what an event leaves alone, and what the manual says of the
records at all times. `State.Inv` gathers the second; it rules out the states that no run reaches. Grants and
evaluations of calls stand at the end of an event: logs 12 and 13. -/

namespace Sys2Proof.Machine

/-! ### What an event leaves alone -/

/-- The state with its stations, channels, records, calls, permits, queue, units and ALERT state blanked: two
states with equal backdrops agree in everything else. -/
def State.backdrop (s : State) : State :=
  { s with
    stations := .replicate 16 (.afterReset none)
    channels := .replicate 16 .afterReset
    moorings := .replicate 16 none
    calls := []
    permitA := false
    permitB := false
    queue := []
    units := .replicate 4 (.unserved .idle)
    alert := false }

/-- A station record after the grant of a unit to its request (R91, R114). -/
def Station.granted (x : Station) (u : UnitId) (q : Request) : Station :=
  { x with
    unit := some u
    active := some ⟨q.work, q.retryUsed, .granted⟩
    state := if q.work.isTrim then .trimming else x.state
    resting := if q.work.isTrim then some x.state else x.resting }

/-- A station apart from an event keeps its channel, its record, its station record and its request, or has that
request granted a unit within the event (R113, R114). -/
def State.keptAt (s t : State) (j : StationId) : Prop :=
  t.channel j = s.channel j ∧ t.mooring j = s.mooring j ∧
    ((t.station j = s.station j ∧ t.requestOf j = s.requestOf j) ∨
      ∃ u, ∃ q ∈ s.requestOf j, t.station j = (s.station j).granted u q ∧ t.requestOf j = none ∧
        (t.unit u).served = some j ∧ (t.unit u).run = some (j, q.work.direction))

/-- An event at one station, between `s` and `t`: the other stations are kept, a unit that does not serve the
station is kept or was IDLE and is granted, and everything but the records of stations, channels, moorings,
calls and units, the queue and the ALERT state stands. -/
structure State.OnlyAt (s t : State) (i : StationId) : Prop where
  others : ∀ j, j ≠ i → s.keptAt t j
  units : ∀ u, (s.unit u).served ≠ some i →
    t.unit u = s.unit u ∨ ((s.unit u).state = .idle ∧ (t.unit u).state = .granted)
  backdrop : t.backdrop = s.backdrop

/-- The calls and the permits stand. -/
def State.callsKept (s t : State) : Prop :=
  t.calls = s.calls ∧ t.permitA = s.permitA ∧ t.permitB = s.permitB

/-- The unit has given up the station: it is out of service and unserved if it was FAULTED, and else IDLE, or granted
again within the event (R113, R115, R121). -/
def State.freed (s t : State) (u : UnitId) : Prop :=
  if (s.unit u).state = .faulted then t.unit u = .unserved .faulted
  else t.unit u = .unserved .idle ∨ (t.unit u).state = .granted

/-- What of a call no evaluation changes (R47, R56). -/
def Call.fixed (c : Call) : Nat × Berth × Nat × Nat × List StationId :=
  (c.tag, c.berth, c.minLines, c.steadyNeed, c.list)

/-- The calls are the same but for their states. -/
def State.sameCalls (s t : State) : Prop := t.calls.map Call.fixed = s.calls.map Call.fixed

/-- A call after a station has joined its list: a HELD call becomes STRAINED, since the new mooring is not steady (R30,
R48, R56). -/
def Call.joined (c : Call) (i : StationId) : Call :=
  { c with
    list := c.list ++ [i]
    state := if c.state = .held then .strained else c.state }

/-- Each permit stands at what the calls say (R61). -/
def State.permitsOk (t : State) : Prop :=
  ∀ berth ∈ [Berth.a, Berth.b],
    (t.permit berth = true ↔ ∃ c ∈ t.calls, c.berth = berth ∧ c.state = .held)

/-- Another holding station of the call's list carries a rank lower than the station's own (R64). -/
abbrev State.rankBlocked (s : State) (c : Call) (i : StationId) : Prop :=
  ∃ j ∈ c.list, j ≠ i ∧ s.holding j = true ∧
    ∃ lower ∈ (s.mooring j).bind Mooring.letGoRank, ∃ rank ∈ (s.mooring i).bind Mooring.letGoRank,
      lower < rank

/-- The link takes a command of this kind and hands it to its own rule: the frame is taken, its length byte
fits, and no latched code stands in its way (R173). -/
abbrev State.serves (s : State) (c : CommandSpec) (len : Byte) : Prop :=
  s.takesFrames = true ∧ len.toNat = c.length ∧ (c.recordChanging = true → s.latch = none)

/-- A station record at the start of a gear step (R12): the commanded gear takes the targets, and the step
and its timer stand unless both senses already agree. -/
def Station.stepping (x : Station) (kind : StepKind) (lock : LockPos) (clutch : ClutchPos)
    (limit : Nat) : Station :=
  let agreed := x.senLock = some lock ∧ x.senClutch = some clutch
  { x with
    cmdLock := lock
    cmdClutch := some clutch
    step := if agreed then none else some ⟨kind, lock, clutch⟩
    gearTimer := if agreed then none else some limit }

/-- A station record with no unit and no work (R19, R130). -/
def Station.idled (x : Station) : Station :=
  { x with unit := none, active := none, parked := none, motionTimer := none, resting := none }

/-- A station record with the higher of the held attention reason and a raised one (R23). -/
def Station.noticing (x : Station) (reason : Attention) : Station :=
  { x with attention := if reason.outranks x.attention then reason else x.attention }

/-- The ALERT state after a reason is raised at a station (R177, R178). -/
def State.alertAfter (s : State) (i : StationId) (reason : Attention) : Bool :=
  s.alert || (reason.outranks (s.station i).attention && s.inForce.alertMode != .criticalOnly)

/-- A channel at its station's entry to a state other than FAST and TRIMMING (R85, R87). -/
def Channel.leftBand (c : Channel) : Channel := { c.emptied with steady := 0 }

/-- The station has submitted a request: its record is `x` and the request waits, or a unit was granted to it
within the event and asserts RUN for it (R109, R113, R114). -/
def State.asks (t : State) (i : StationId) (x : Station) (q : Request) : Prop :=
  (t.station i = x ∧ t.queue.filter (fun p => p.station == i) = [q]) ∨
    ∃ u, t.station i = x.granted u q ∧ (t.unit u).state = .granted ∧
      (t.unit u).served = some i ∧ (t.unit u).run = some (i, q.work.direction)

/-- How an event leaves the drive queue that places one request: the request stands where `place` puts it among the
others, and the requests that units were granted to within the event have left at the front (R109, R113). -/
def State.queuesBy (place : Request → List Request → List Request) (s t : State) (q : Request) : Prop :=
  ∃ grants : Fin 5, t.queue = (place q (s.queue.filter (fun p => p.station != q.station))).drop grants

/-- A submission: the station asks, behind every request of its class (R109). -/
def State.submits (s t : State) (i : StationId) (x : Station) (q : Request) : Prop :=
  t.asks i x q ∧ s.queuesBy insertTail t q

/-- A requeue: the station asks, ahead of every request of its class (R109, R119, R120). -/
def State.requeues (s t : State) (i : StationId) (x : Station) (q : Request) : Prop :=
  t.asks i x q ∧ s.queuesBy insertHead t q

/-- The station has no request and no unit serves it. -/
def State.idleAt (t : State) (i : StationId) : Prop :=
  t.requestOf i = none ∧ ∀ u, (t.unit u).served ≠ some i

/-- Both senses of the station show the lock LOCKED and the clutch ENGAGED: a step toward them completes at its
start (R12). -/
def Station.shut (x : Station) : Bool := x.senLock == some .locked && x.senClutch == some .engaged

/-- A station record that enters a state outside TRIMMING (R6, R91). -/
def Station.entered (x : Station) (state : LineState) : Station :=
  { x with state := state, resting := none }

/-- A station record after a drum count (R8, R9): the position, P, the beyond-Pmax flag, and LIMIT raised when the line
goes beyond Pmax. -/
def Station.measured (x : Station) (cal : Calibration) (count : Nat) : Station :=
  let beyond := decide (cal.maxPayout < cal.rawLength count)
  { (if beyond && !x.beyondPmax then x.noticing .limit else x) with
    position := some count
    length := min (cal.rawLength count) cal.maxPayout
    beyondPmax := beyond }

/-- A station record whose motion has ended and whose lock step is in flight (R16, R22, R126). -/
def Station.stopped (x : Station) (cause : StopCause) (active : Option ActiveOp) (limit : Nat) : Station :=
  { x with
    stopCause := cause
    motionTimer := none
    active := active
    cmdLock := .locked
    cmdClutch := some .engaged
    step := some ⟨.motionLock, .locked, .engaged⟩
    gearTimer := some limit }

/-- A station record after its motion lock step, its operation over (R16, R127). -/
def Station.rested (x : Station) (state : LineState) : Station :=
  { x with
    state := state
    resting := none
    unit := none
    active := none
    step := none
    gearTimer := none }

/-- A station record whose motion has ended with the gear still shut: the lock step completes at its start
(R12, R16). -/
def Station.stoppedShut (x : Station) (cause : StopCause) : Station :=
  { x with
    stopCause := cause
    motionTimer := none
    cmdLock := .locked
    cmdClutch := some .engaged
    step := none
    gearTimer := none }

/-- What the report of a station says of its operation: the work, retry-used, the phase code, and the remaining work
where it is a number (R41, R124, 10 section 10.5). -/
def State.reportedWork (s : State) (i : StationId) : Option (Work × Bool × Nat × Option Nat) :=
  let carried : Work → Option Nat := fun w =>
    match w with
    | .slacken n => some n
    | .trim _ _ | .heave | .rewind => none
  match (s.station i).active, s.requestOf i with
  | some a, _ =>
    match a.phase with
    | .awaiting => some (a.work, a.retryUsed, 3, carried a.work)
    | .granted => some (a.work, a.retryUsed, 1, carried a.work)
    | .moving m =>
      some (a.work, a.retryUsed, 2,
        if a.work.isTrim ∨ a.work.opClass = .slacken then some m.remaining else none)
    | .ended m => some (a.work, a.retryUsed, 2, if a.work.isTrim then some m.remaining else carried a.work)
  | none, some q => some (q.work, q.retryUsed, 0, carried q.work)
  | none, none => none

/-- What two bytes of a report say of remaining work (10 section 10.5). A number above 65535 has no coding: log 20. -/
def remainingReads (bytes : BitVec 16) : Option Nat → Prop
  | none => bytes = 0xFFFF
  | some n => n < 65536 → bytes = BitVec.ofNat 16 n

/-- A sensed part in two bits: 3 not yet known, 1 UNLOCKED or FREE, 0 LOCKED or ENGAGED (10 section 10.5). -/
def senseCode (known : Option Bool) : BitVec 2 :=
  match known with
  | none => 3
  | some true => 1
  | some false => 0

/-- A station record in FAULT (R19). -/
def Station.faulted (x : Station) (cause : StopCause) (reason : Attention) : Station :=
  { x.idled.noticing reason with
    state := .fault
    step := none
    gearTimer := none
    cmdLock := .locked
    takeOver := none
    stopCause := cause
    pendingSensorFault := false }

/-- The channel of a station that enters a state other than TRIMMING (R85, R87). -/
def Channel.entering (c : Channel) (state : LineState) : Channel :=
  if state = .fast then c.emptied else c.leftBand

/-- Where an operation that ends leaves its station (R102, R127, R142). -/
def Work.endState (w : Work) (cause : StopCause) (resting : LineState) : LineState :=
  match w with
  | .trim _ _ => resting
  | .heave => .fast
  | .slacken _ => .eased
  | .rewind => if cause = .done then .stowed else .released

/-- The state a station is found in as it leaves UNKNOWN without a sensor fault (R183). -/
def Station.foundState (x : Station) (cal : Calibration) (set : Settings) : LineState :=
  if min (cal.rawLength (x.position.getD 0)) cal.maxPayout ≤ set.stowTolerance then .stowed
  else if x.senClutch = some .free then .released
  else .outUnclaimed

/-- The record of a station as it leaves UNKNOWN without a sensor fault: P and R9, the row of R183, the gear of R184,
and a take-over whose input is asserted (R154). -/
def Station.found (x : Station) (cal : Calibration) (set : Settings) (takeOver : Bool) : Station :=
  let state := x.foundState cal set
  let settles := (state == .stowed && !x.shut) || x.senLock != some .locked
  let y : Station :=
    { x.measured cal (x.position.getD 0) with
      pendingSensorFault := false
      resting := none
      cmdClutch := if state = .stowed then some .engaged else x.senClutch }
  if takeOver then
    { y with state := .inLocal, takeOver := some ⟨state, some set.takeOverLimit⟩ }
  else
    { y with
      state := state
      step := if state = .stowed ∧ x.shut = false then some ⟨.stow, .locked, .engaged⟩ else none
      gearTimer := if settles then some set.gearLimit else none }

/-! ### The call table (R28, R47, R48, R56, R57, R61) -/

/-- The call table at the end of an event. `settled`: every call stands where its evaluation leaves it. -/
structure State.CallsOk (s : State) : Prop where
  tagsDiffer : (s.calls.map Call.tag).Nodup
  ranges : ∀ c ∈ s.calls, 1 ≤ c.tag ∧ c.tag ≤ 65535 ∧ 1 ≤ c.minLines ∧ c.minLines ≤ 8 ∧
    1 ≤ c.steadyNeed ∧ c.steadyNeed ≤ 255
  size : s.calls.length ≤ Config.callsMax
  sizeOnBerth : ∀ berth ∈ [Berth.a, Berth.b], (s.callsOn berth).length ≤ Config.callsPerBerth
  oneActive : ∀ c ∈ s.calls, ∀ d ∈ s.calls,
    c.berth = d.berth → c.state.active = true → d.state.active = true → c.tag = d.tag
  permits : ∀ berth ∈ [Berth.a, Berth.b],
    (s.permit berth = true ↔ ∃ c ∈ s.calls, c.berth = berth ∧ c.state = .held)
  lists : ∀ c ∈ s.calls, c.list.Nodup ∧
    ∀ i ∈ c.list, berthOf i = c.berth ∧ ∃ r ∈ s.mooring i, r.tag = c.tag
  records : ∀ i, ∀ r ∈ s.mooring i, ∃ c ∈ s.calls, c.tag = r.tag ∧ i ∈ c.list
  settled : ∀ c ∈ s.calls, s.transitionOf c = none

/-! ### The mooring table and the states (R4, R25 to R27, R91, R153) -/

/-- The ranges of a record's fields (R25, R27). -/
def Mooring.valid (r : Mooring) : Prop :=
  r.slackLimit + 20 ≤ r.highLimit ∧ r.highLimit + 20 ≤ r.criticalLimit ∧ r.criticalLimit ≤ 20000 ∧
    r.hysteresis ∈ [0, 20, 50, 100] ∧ 1 ≤ r.windowLength ∧ r.windowLength ≤ 8 ∧
    1 ≤ r.excursionCount ∧ r.excursionCount ≤ r.windowLength ∧ 1 ≤ r.compliance ∧
    r.compliance ≤ 255 ∧ 10 ≤ r.stepLimit ∧ r.stepLimit ≤ 400 ∧
    ∀ rank ∈ r.letGoRank, 1 ≤ rank ∧ rank ≤ 16

/-- The states without a record (R4). -/
def LineState.unmoored : LineState → Bool
  | .unknown | .stowed | .paying | .outUnclaimed => true
  | .heaving | .fast | .trimming | .easing | .eased | .released | .rewinding | .inLocal | .fault => false

/-- The states a take-over returns to, given whether the station has a record (R4, R153). -/
def LineState.returns (state : LineState) (hasRecord : Bool) : Bool :=
  match state with
  | .fast | .eased => hasRecord
  | .stowed | .paying | .outUnclaimed => !hasRecord
  | .released | .rewinding => true
  | .unknown | .heaving | .trimming | .easing | .inLocal | .fault => false

structure State.RecordsOk (s : State) : Prop where
  valid : ∀ i, ∀ r ∈ s.mooring i, r.valid
  present : ∀ i, (s.station i).state.moored = true → (s.mooring i).isSome = true
  absent : ∀ i, (s.station i).state.unmoored = true → s.mooring i = none
  resting : ∀ i, (s.station i).resting.isSome = true ↔ (s.station i).state = .trimming
  restingState : ∀ i, ∀ state ∈ (s.station i).resting, state = .fast ∨ state = .eased
  takeOver : ∀ i, (s.station i).takeOver.isSome = true ↔ (s.station i).state = .inLocal
  returns : ∀ i, ∀ o ∈ (s.station i).takeOver, o.returnState.returns (s.mooring i).isSome = true

/-! ### Requests, operations and parked operations (R109, R112, R114, R147, R151) -/

/-- The states in which a station has a pending request of the class. -/
def Work.pendingIn (w : Work) (state : LineState) : Bool :=
  match w with
  | .trim _ _ => state == .fast || state == .eased
  | .heave => state == .heaving
  | .slacken _ => state == .easing
  | .rewind => state == .rewinding

/-- The state in which a station carries out an operation of the class (R114). -/
def Work.activeIn (w : Work) (state : LineState) : Bool :=
  match w with
  | .trim _ _ => state == .trimming
  | .heave => state == .heaving
  | .slacken _ => state == .easing
  | .rewind => state == .rewinding

/-- The states in which a station has an operation of the class parked (R147, R153). A TRIM is never parked. -/
def Work.parkedIn (w : Work) (state : LineState) : Bool :=
  match w with
  | .trim _ _ => false
  | .heave => state == .heaving || state == .inLocal
  | .slacken _ => state == .easing || state == .inLocal
  | .rewind => state == .rewinding || state == .inLocal

/-- The states in which a station holds a unit (R112). -/
def LineState.holdsUnit : LineState → Bool
  | .heaving | .trimming | .easing | .rewinding => true
  | .unknown | .stowed | .paying | .fast | .eased | .released | .inLocal | .outUnclaimed | .fault =>
    false

structure State.WorkOk (s : State) : Prop where
  oneRequest : (s.queue.map Request.station).Nodup
  pending : ∀ q ∈ s.queue, q.work.pendingIn (s.station q.station).state = true ∧
    (s.station q.station).unit = none ∧ (s.station q.station).active = none ∧
    (s.station q.station).parked = none
  active : ∀ i, ∀ a ∈ (s.station i).active,
    a.work.activeIn (s.station i).state = true ∧ (s.station i).parked = none
  awaiting : ∀ i, ∀ a ∈ (s.station i).active, a.isAwaiting = true →
    (s.station i).unit = none ∧ s.hold = false
  parked : ∀ i, ∀ p ∈ (s.station i).parked, p.work.parkedIn (s.station i).state = true
  unitStates : ∀ i, (s.station i).unit.isSome = true → (s.station i).state.holdsUnit = true
  served : ∀ i u, (s.station i).unit = some u ↔ (s.unit u).served = some i
  held : s.hold = true → s.queue = [] ∧ (∀ u, (s.unit u).state ≠ .granted) ∧
    ∀ i, s.motionOf i = none

/-- The four runs of the drive queue (R109). -/
def State.QueueOk (s : State) : Prop :=
  s.queue.Pairwise (fun p q => p.work.opClass.run ≤ q.work.opClass.run)

/-- What a unit's record and outputs hold in each of its states (R111, R112). -/
def DriveUnit.ok (x : DriveUnit) : Prop :=
  match x.state with
  | .idle => x.served = none ∧ x.readyTimer = none ∧ x.run = none ∧ x.stop = true
  | .granted => x.served.isSome = true ∧ x.readyTimer.isSome = true ∧ x.run.map Prod.fst = x.served
  | .running => x.served.isSome = true ∧ x.readyTimer = none ∧ x.run.map Prod.fst = x.served
  | .faulted => x.readyTimer = none ∧ x.run = none

def State.UnitsOk (s : State) : Prop := ∀ u, (s.unit u).ok

/-- The arbiter grants whenever it can (R113): under no hold, a request waits only while no unit is IDLE. -/
def State.GrantsOk (s : State) : Prop :=
  s.hold = false → s.queue ≠ [] → ∀ u, (s.unit u).state ≠ .idle

/-! ### The gear (R11 to R15) -/

/-- The states in which the part watches the gear without commanding it by steps and waits (R15). -/
def LineState.gearAtRest : LineState → Bool
  | .unknown | .inLocal | .fault => true
  | .stowed | .paying | .heaving | .fast | .trimming | .easing | .eased | .released | .rewinding
  | .outUnclaimed => false

/-- The targets of each step (R12, R16 to R18, R30, R130, R140, R157, R184). -/
def StepKind.targets : StepKind → LockPos × ClutchPos
  | .runOut | .release => (.unlocked, .free)
  | .payoutStop => (.locked, .free)
  | .motionUnlock => (.unlocked, .engaged)
  | .makeFast | .motionLock | .rewindEngage | .stow | .handBack => (.locked, .engaged)

/-- A step in flight has the targets of its kind, stands toward the commanded gear, is not confirmed yet and
runs under the gear timer. With no step in flight the timer runs exactly while the senses disagree with the
commanded gear. -/
structure State.GearOk (s : State) : Prop where
  known : ∀ i, (s.station i).state ≠ .unknown →
    (s.station i).position.isSome = true ∧ (s.station i).senLock.isSome = true ∧
      (s.station i).senClutch.isSome = true
  step : ∀ i, ∀ g ∈ (s.station i).step,
    (s.station i).state.gearAtRest = false ∧ (s.station i).gearTimer.isSome = true ∧
      (g.lock, g.clutch) = g.kind.targets ∧ (s.station i).cmdLock = g.lock ∧
      (s.station i).cmdClutch = some g.clutch ∧
      (s.station i).disagrees = true
  wait : ∀ i, (s.station i).step = none → (s.station i).state.gearAtRest = false →
    (s.station i).gearTimer.isSome = (s.station i).disagrees
  rest : ∀ i, (s.station i).state.gearAtRest = true → (s.station i).gearTimer = none
  locked : ∀ i, (s.station i).state = .unknown ∨ (s.station i).state = .fault →
    (s.station i).cmdLock = .locked

/-! ### Units and motions (R16, R111, R112, R126) -/

/-- The step in flight is the motion lock step. -/
def Station.locking (x : Station) : Bool := x.step.any (fun g => g.kind == .motionLock)

/-- A unit's state tells how far the operation of its station has gone. -/
structure State.DriveOk (s : State) : Prop where
  granted : ∀ i, ∀ u ∈ (s.station i).unit,
    ((s.unit u).state = .granted ↔ (s.station i).active.any ActiveOp.isGranted = true)
  moving : ∀ i, ∀ u ∈ (s.station i).unit, (s.motionOf i).isSome = true → (s.unit u).state = .running
  served : ∀ i, (s.station i).active.any (fun a => !a.isAwaiting) = true →
    (s.station i).unit.isSome = true
  locking : ∀ i, ∀ u ∈ (s.station i).unit, (s.unit u).state ≠ .granted →
    (s.motionOf i).isSome = true ∨ (s.station i).locking = true
  lockStep : ∀ i, (s.station i).locking = true →
    s.motionOf i = none ∧ ∃ u ∈ (s.station i).unit, (s.unit u).state ≠ .granted
  unlockStep : ∀ i, (s.station i).step.any (fun g => g.kind == .motionUnlock) = true →
    (s.motionOf i).isSome = true
  trimming : ∀ i, (s.station i).state = .trimming → (s.station i).unit.isSome = true
  engaging : ∀ i, ∀ a ∈ (s.station i).active, a.isAwaiting = true →
    a.work = .rewind ∧ (s.station i).step.any (fun g => g.kind == .rewindEngage) = true
  timer : ∀ i, (s.station i).motionTimer.isSome = (s.motionOf i).isSome
  stop : ∀ u, (s.unit u).stop = false →
    ∃ i ∈ (s.unit u).served, (s.motionOf i).isSome = true

/-! ### The channels (R69, R80, R81, R83, R87) -/

/-- The ranges of a channel's fields, with the decimation D of its station (R69, R76). -/
def Channel.inRange (c : Channel) (decimation : Nat) : Prop :=
  c.sum ≤ Config.readingMax * c.count ∧ c.count < decimation ∧
    (∀ v ∈ c.latest, v ≤ Config.readingMax) ∧ c.window.length ≤ 8 ∧
    (∀ v ∈ c.window, v ≤ Config.readingMax) ∧ c.overCount ≤ c.window.length ∧
    c.slackCount ≤ c.window.length ∧ c.isSurging = (c.isOver && c.isSlack) ∧ c.critCount ≤ 2 ∧
    c.steady ≤ Config.steadyMax ∧ c.rail ≤ Config.sampleRun ∧ c.valid ≤ Config.sampleRun

structure State.ChannelsOk (s : State) : Prop where
  inRange : ∀ i, (s.channel i).inRange (s.calibration i).decimation
  noRecord : ∀ i, s.mooring i = none →
    (s.channel i).critCount = 0 ∧ (s.channel i).critCondition = false
  window : ∀ i, (s.station i).state = .fast ∨ (s.station i).state = .trimming ∨
    ((s.channel i).window = [] ∧ (s.channel i).isOver = false ∧ (s.channel i).isSlack = false)
  windowLength : ∀ i, ∀ r ∈ s.mooring i, (s.channel i).window.length ≤ r.windowLength
  steady : ∀ i, (s.channel i).steady ≠ 0 →
    ((s.station i).state = .fast ∨ (s.station i).state = .trimming) ∧
      ∀ r ∈ s.mooring i, r.stale = false
/-! ### Before the store read completes (R2, R181) -/

/-- Until the part is at work, everything volatile stands at its reset value but for the clutch outputs, the drum
positions and the senses that are stored as they come. -/
structure State.RestOk (s : State) : Prop where
  stations : s.phase ≠ .running → ∀ i, s.station i =
    { Station.afterReset (s.station i).cmdClutch with
      position := (s.station i).position
      senLock := (s.station i).senLock
      senClutch := (s.station i).senClutch }
  channels : s.phase ≠ .running → ∀ i, s.channel i = .afterReset
  moorings : s.phase ≠ .running → ∀ i, s.mooring i = none
  units : s.phase ≠ .running → ∀ u, s.unit u = .unserved .idle
  tables : s.phase ≠ .running → s.calls = [] ∧ s.queue = [] ∧ s.permitA = false ∧ s.permitB = false
  flags : s.phase ≠ .running → s.hold = false ∧ s.alert = false ∧ s.latch = none ∧ s.write = none ∧
    s.tx = none ∧ s.restartPending = false

/-! ### The ALERT state (R178) -/

/-- In FOLLOW and CRITICAL-ONLY mode the ALERT state stands at the level of the mode's sources. -/
def State.AlertOk (s : State) : Prop :=
  s.phase = .running →
    (s.inForce.alertMode = .follow → s.alert = s.followLevel) ∧
      (s.inForce.alertMode = .criticalOnly → s.alert = s.criticalLevel)

/-! ### The stored values (R164) -/

def Calibration.inRange (c : Calibration) : Prop :=
  c.zero ≤ 65535 ∧ c.scale ≤ 65535 ∧ 4 ≤ c.decimation ∧ c.decimation ≤ 64 ∧
    100 ≤ c.countsPerMetre ∧ c.countsPerMetre ≤ 4000 ∧ c.stowPosition ≤ 16777215 ∧
    500 ≤ c.maxPayout ∧ c.maxPayout ≤ 12000 ∧ 50 ≤ c.minLength ∧ c.minLength ≤ 2000 ∧
    c.minLength < c.maxPayout

def Settings.inRange (x : Settings) : Prop :=
  5 ≤ x.stowTolerance ∧ x.stowTolerance ≤ 100 ∧ 10 ≤ x.takeOverLimit ∧ x.takeOverLimit ≤ 600 ∧
    100 ≤ x.readyLimit ∧ x.readyLimit ≤ 10000 ∧ 5 ≤ x.motionLimit ∧ x.motionLimit ≤ 120 ∧
    30 ≤ x.rewindLimit ∧ x.rewindLimit ≤ 900 ∧ 200 ≤ x.gearLimit ∧ x.gearLimit ≤ 3000 ∧
    50 ≤ x.snagLimit ∧ x.snagLimit ≤ 2000

def Groups.inRange (g : Groups) : Prop :=
  (∀ i : StationId, g.calibrations[i].inRange) ∧ g.settings.inRange

def GroupWrite.inRange : GroupWrite → Prop
  | .station _ values => values.inRange
  | .settings values => values.inRange
  | .locks _ | .alert _ _ => True

def State.StoredOk (s : State) : Prop :=
  s.inForce.inRange ∧ s.store.inRange ∧ ∀ w ∈ s.write, w.inRange

/-! ### All of it -/

/-- What holds at every state a run reaches. -/
structure State.Inv (s : State) : Prop where
  calls : s.CallsOk
  records : s.RecordsOk
  work : s.WorkOk
  queue : s.QueueOk
  units : s.UnitsOk
  grants : s.GrantsOk
  gear : s.GearOk
  drive : s.DriveOk
  channels : s.ChannelsOk
  rest : s.RestOk
  alerts : s.AlertOk
  stored : s.StoredOk

end Sys2Proof.Machine
end

