-- ==== Sys2Proof/WellFormed.lean ====
section
/-! DEFINITION. Which terms of `Instr` are commands that can reach the part. -/

namespace Sys2Proof

/-- A length byte the receiver takes (R170). -/
def lengthByteOk (len : Byte) : Bool := decide (1 ≤ len.toNat ∧ len.toNat ≤ 48)

/-- The code names a command of the unit (R173). -/
def isCommandCode (code : Byte) : Bool := Command.all.any (fun c => c.code == code)

/-- A command that can reach the part: the length byte of a taken frame lies in 1 to 48 (R170), an
unknown command's code names none (R173), an ignored broadcast is none of the two that are acted on
(R172), a broadcast of either is sized as R172 asks, a discarded frame fails a check of R171 (an own
address is known to the state only), and a bad length lies outside 1 to 48 (R170). The operands of
field arrivals are in range by their types. -/
def Instr.wellFormed : Instr → Bool
  | .unknownCommand code len => lengthByteOk len && !isCommandCode code
  | .broadcastIgnored code len =>
    lengthByteOk len &&
      !(len == 1 && (code == Command.holdAll.code || code == Command.resumeAll.code))
  | .frameDiscarded address crcMatches => !(crcMatches && address == Config.broadcastAddress)
  | .badFrameLength len => !lengthByteOk len
  | .holdAll broadcast len => lengthByteOk len && (!broadcast || len == 1)
  | .resumeAll broadcast len => lengthByteOk len && (!broadcast || len == 1)
  | .makeFast len _ _ _ | .adopt len _ _ _ | .amend len _ _ | .query len _ _ | .release len _
  | .slacken len _ _ | .retire len _ | .runOut len _ | .openCall len _ _ _ _ | .queryCall len _
  | .singleUp len _ | .closeCall len _ | .lockQuarter len _ | .unlockAll len | .queryLocks len
  | .resetDrive len _ | .clearFault len _ | .calibrateStation len _ _ | .setLimits len _
  | .setAlertMode len _ _ | .status len | .clearError len | .clearAlert len | .restart len =>
    lengthByteOk len
  | .frameGapTimeout | .loadSampleArrival _ _ | .drumPositionArrival _ _ | .gearSenseArrival _ _
  | .takeOverAsserted _ | .takeOverEnded _ | .holdInputAsserted | .holdInputDeasserted
  | .keyChange _ | .readyArrival _ | .unitFaultAsserted _ | .unitFaultDeasserted _
  | .gearTimerExpiry _ | .readyTimerExpiry _ | .motionTimerExpiry _ | .takeOverTimerExpiry _
  | .storeWriteComplete | .powerLoss | .powerOn | .restartBegin | .storeReadComplete
  | .responseTransmissionEnd => true

/-- The length byte of a framed command is the one its code takes (10 section 10.5). -/
def Instr.lengthFits (i : Instr) : Bool :=
  match i.content with
  | none => false
  | some (c, len, _) => len.toNat == c.length

/-- The station field of a command that names a station (R7). -/
def Instr.stationField : Instr → Option Byte
  | .makeFast _ st _ _ | .adopt _ st _ _ | .amend _ st _ | .query _ st _ | .release _ st
  | .slacken _ st _ | .retire _ st | .runOut _ st | .clearFault _ st | .calibrateStation _ st _ =>
    some st
  | _ => none

/-- The record fields of a command pass R26 and R27. -/
abbrev RecordFields.acceptable (f : RecordFields) : Prop :=
  (1 ≤ f.role.toNat ∧ f.role.toNat ≤ 6) ∧ f.hysteresis.toNat ∈ [0, 20, 50, 100] ∧
    f.slackLimit.toNat + 20 ≤ f.highLimit.toNat ∧
    f.highLimit.toNat + 20 ≤ f.criticalLimit.toNat ∧ f.criticalLimit.toNat ≤ 20000

end Sys2Proof
end

