-- ==== Sys2Proof/Certificates/Slice0/Obligations.lean ====
section
/-! DEFINITION. The statements. Each names the rules it comes from; where one rests on a choice of the model, its
docstring names the log entry. `State.Inv` stands as a premise where a statement could fail in states no run
reaches; that every step keeps each part of it is stated at the end. -/

open Sys2Proof Sys2Proof.Machine

/-! ### Steps and the link (chapter 10) -/

/-- A step runs the command at the front of the queue on the state with the queue's rest. With nothing waiting
nothing happens: the model's choice, log 1. -/
def Obligations.StepRunsTheFrontCommand : Prop :=
  ∀ (c : Instr) (rest : List Instr) (s : State),
    step { s with pending := c :: rest } = exec c { s with pending := rest } ∧
      step { s with pending := [] } = .next { s with pending := [] }

/-- Every command completes with a next state, and none touches the commands that wait behind it. That commands
wait in a queue is the model's choice: log 1. -/
def Obligations.EveryCommandCompletesAndKeepsTheWaiting : Prop :=
  ∀ (c : Instr) (s : State), ∃ t, exec c s = .next t ∧ t.pending = s.pending

/-- The decoder reads back the command of every well-formed request frame, every operand at every value. -/
def Obligations.RequestFramesDecodeToTheirCommands : Prop :=
  ∀ (own : BitVec 3) (i : Instr), i.wellFormed = true → i.lengthFits = true →
    decodeFrame own (encodeFrame own i) = i

/-- A request frame that arrives byte by byte behind its sync puts exactly its command at the end of the waiting
commands and leaves the receiver between frames (R170). The receiver is the model's input side: log 9. -/
def Obligations.RequestFramesArriveByteByByte : Prop :=
  ∀ (s : State) (i : Instr), i.wellFormed = true → i.lengthFits = true → s.phase = .running →
    s.restartPending = false → s.tx = none → s.rx = none →
    (0xC3 :: encodeFrame s.unitAddress i).foldl State.receiveByte s =
      { s with pending := s.pending ++ [i] }

/-- A complete frame with a bad CRC, or with an address that is neither the unit's own nor 15, is discarded and
changes nothing; a frame with address 15 is a broadcast and one with the own address is unicast. The CRC
register is preset to 0xFFFF and takes each byte most significant bit first by the polynomial 0x1021; the CRC is
sent most significant byte first. Over the text "123456789" the CRC register ends at 0x29B1 (R171). -/
def Obligations.DamagedAndForeignFramesAreDiscarded : Prop :=
  (∀ (own : BitVec 3) (address len code : Byte) (payload : List Byte) (crc : BitVec 16),
    let body := address :: len :: code :: payload
    decodeFrame own (body ++ [crc.extractLsb' 8 8, crc.extractLsb' 0 8]) =
      if crc ≠ crc16 body ∨ (address ≠ own.setWidth 8 ∧ address ≠ 15) then
        .frameDiscarded address (crc == crc16 body)
      else if address = 15 then decodeBroadcast code len
      else decodeCommand code len payload) ∧
  (∀ (address : Byte) (crcMatches : Bool) (s : State),
    exec (.frameDiscarded address crcMatches) s = .next s) ∧
  (crc16 [] = 0xFFFF ∧ ∀ (body : List Byte) (b : Byte),
    crc16 (body ++ [b]) = (List.range 8).foldl
      (fun r _ => if r.msb then (r <<< 1) ^^^ 0x1021 else r <<< 1)
      (crc16 body ^^^ (b ++ (0 : BitVec 8)))) ∧
  crc16 [0x31, 0x32, 0x33, 0x34, 0x35, 0x36, 0x37, 0x38, 0x39] = 0x29B1

/-- A unicast command that is taken is answered by one response frame that echoes its code. If it is refused,
nothing changes but the response and the error latch, which stores the code of a record-changing command when it
is empty and the code is neither LATCHED nor STORE-BUSY. If it is accepted, the latch stands, but for
CLEAR-ERROR (R173, R174). The frame is the sync 0x3C, the own address, a length byte counting the bytes from the
command echo through the payload, the echo, the status code of 10 section 10.5, the payload and the CRC from the
address through the payload, most significant byte first. -/
def Obligations.UnicastCommandsAreAnswered : Prop :=
  [Status.ok, .unknownCommand, .badLength, .notReady, .noStation, .occupied, .noRecord, .wrongState, .busy,
    .callFull, .duplicateTag, .noCall, .callState, .wrongBerth, .badWindow, .locked, .keyAbsent, .callHeld,
    .order, .hold, .inLocal, .limit, .storeBusy, .driveState, .latched].map Status.code =
      (List.range 25).map (BitVec.ofNat 8) ∧
  (∀ (own : BitVec 3) (code : Byte) (status : Status) (payload : List Byte),
    let body := [own.setWidth 8, BitVec.ofNat 8 (payload.length + 2), code, status.code] ++ payload
    responseFrame own code status payload =
      0x3C :: body ++ [(crc16 body).extractLsb' 8 8, (crc16 body).extractLsb' 0 8]) ∧
  ∀ (i : Instr) (c : CommandSpec) (len : Byte) (payload : List Byte) (s : State),
    i.content = some (c, len, payload) → i.isBroadcast = false → s.takesFrames = true →
    (∃ t report, exec i s = .next t ∧
      t.tx = some (responseFrame s.unitAddress c.code .ok report) ∧
      t.latch = if c = Command.clearError then none else s.latch) ∨
    ∃ status report, status ≠ .ok ∧ (status ≠ .latched → report = []) ∧
      exec i s = .next { s with
        tx := some (responseFrame s.unitAddress c.code status report)
        latch := if c.recordChanging = true ∧ s.latch = none ∧ status ≠ .latched ∧ status ≠ .storeBusy
          then some status else s.latch }

/-- Before a command's own rule the link checks its length byte, then the latch; a command that names a station
is then refused with NO-STATION above 15 and with NOT-READY in UNKNOWN (R7, R173, R174). While the unit
transmits, reads its store or waits to restart, a frame changes nothing: log 8. Codes, length bytes and
record-changing commands are those of 10 sections 10.2 and 10.5. -/
def Obligations.LinkAndStationChecksComeFirst : Prop :=
  (Command.all.map (fun c => (c.code, c.length, c.recordChanging)) =
    [(0x10, 19, true), (0x11, 19, true), (0x12, 17, true), (0x13, 3, false), (0x14, 2, true),
      (0x15, 4, true), (0x16, 2, true), (0x17, 2, true), (0x20, 6, true), (0x21, 3, false),
      (0x22, 3, true), (0x23, 3, true), (0x30, 2, false), (0x31, 1, false), (0x32, 1, false),
      (0x33, 1, false), (0x34, 1, false), (0x35, 2, false), (0x36, 2, false), (0x40, 16, false),
      (0x41, 13, false), (0x42, 3, false), (0x50, 1, false), (0x51, 1, false), (0x52, 1, false),
      (0x53, 1, false)]) ∧
  ∀ (i : Instr) (c : CommandSpec) (len : Byte) (payload : List Byte) (s : State),
    i.content = some (c, len, payload) →
    (s.takesFrames = false → exec i s = .next s) ∧
    (s.takesFrames = true → i.isBroadcast = false →
      (len.toNat ≠ c.length → exec i s = .next (s.refuse c .badLength)) ∧
      (len.toNat = c.length → c.recordChanging = true → ∀ code ∈ s.latch,
        exec i s = .next (s.respond c .latched [code.code]))) ∧
    (s.serves c len → ∀ st ∈ i.stationField,
      (15 < st.toNat → exec i s = .next (s.refuse c .noStation)) ∧
      ∀ j : StationId, st.toNat = j.val → (s.station j).state = .unknown →
        exec i s = .next (s.refuse c .notReady))

/-- The events of the link itself: an unknown code is answered with UNKNOWN-COMMAND and never latched, an
ignored broadcast changes nothing, a gap or a bad length byte ends the frame that is arriving, and the end of a
transmission lets frames be taken again (R170, R172, R173, R174). That a frame with an unknown code has no
effect while the link takes no frames is log 8; the receiver's state is the model's input side: log 9. -/
def Obligations.LinkEventsTouchTheLinkOnly : Prop :=
  ∀ s : State,
    (∀ code len : Byte, s.takesFrames = true → exec (.unknownCommand code len) s =
      .next { s with tx := some (responseFrame s.unitAddress code .unknownCommand []) }) ∧
    (∀ code len : Byte, s.takesFrames = false → exec (.unknownCommand code len) s = .next s) ∧
    (∀ code len : Byte, exec (.broadcastIgnored code len) s = .next s) ∧
    (exec .frameGapTimeout s = .next { s with rx := none }) ∧
    (∀ len : Byte, exec (.badFrameLength len) s = .next { s with rx := none }) ∧
    (exec .responseTransmissionEnd s = .next { s with tx := none })

/-- STATUS answers OK with the 31 bytes of the status report and changes nothing else (R176, 10 section 10.5).
The codes of unit states, call states, berths, ALERT modes and polarities are those of 10 section 10.5. A call
slot that is not used reads 0. -/
def Obligations.StatusReportsThePart : Prop :=
  ([UnitState.idle, .granted, .running, .faulted].map UnitState.code = [0, 1, 2, 3] ∧
    [CallState.opened, .held, .strained, .singling, .clearing].map CallState.code = [0, 1, 2, 3, 4] ∧
    [Berth.a, .b].map Berth.code = [0, 1] ∧
    [AlertMode.latched, .follow, .criticalOnly].map AlertMode.code = [0, 1, 2] ∧
    [AlertPolarity.activeLow, .activeHigh].map AlertPolarity.code = [0, 1]) ∧
  ∀ (s : State) (len : Byte), s.calls.length ≤ 4 → s.serves Command.status len →
    ∃ report, exec (.status len) s = .next (s.respond Command.status .ok report) ∧
      report.length = 31 ∧
      (∀ i : StationId, (wordAt report 0).getLsbD i.val = ((s.station i).attention != .none)) ∧
      (∀ u : UnitId, byteAt report (2 + 2 * u.val) = (s.unit u).state.code ∧
        byteAt report (3 + 2 * u.val) =
          match (s.unit u).served with
          | none => 0xFF
          | some i => BitVec.ofNat 8 i.val) ∧
      (∀ q : Fin 4, (byteAt report 10).getLsbD q.val = s.inForce.locks[q]) ∧
      (byteAt report 11).getLsbD 0 = s.hold ∧ (byteAt report 11).getLsbD 1 = s.inputs.hold ∧
      (byteAt report 11).getLsbD 2 = s.inputs.key ∧ (byteAt report 11).getLsbD 3 = s.permitA ∧
      (byteAt report 11).getLsbD 4 = s.permitB ∧ (byteAt report 11).getLsbD 5 = s.alert ∧
      (byteAt report 12).extractLsb' 0 2 = s.inForce.alertMode.code.extractLsb' 0 2 ∧
      (byteAt report 12).getLsbD 2 = (s.inForce.alertPolarity == .activeHigh) ∧
      byteAt report 13 = (match s.latch with
        | none => 0
        | some code => code.code) ∧
      byteAt report 14 = BitVec.ofNat 8 s.calls.length ∧
      (∀ o : Fin 31, 15 + 4 * s.calls.length ≤ o.val → byteAt report o.val = 0) ∧
      ∀ k : Fin 4, ∀ c ∈ s.calls[k.val]?, wordAt report (15 + 4 * k.val) = BitVec.ofNat 16 c.tag ∧
        byteAt report (17 + 4 * k.val) = c.berth.code ∧ byteAt report (18 + 4 * k.val) = c.state.code

/-- QUERY-CALL answers OK with the call report of the call that carries the tag and changes nothing else;
without such a call it is refused with NO-CALL (R52, 10 section 10.5). The codes are those that
StatusReportsThePart and QueryReportsAndResetsAttention fix. -/
def Obligations.QueryCallReportsTheCall : Prop :=
  ∀ (s : State) (len : Byte) (tag : BitVec 16), s.Inv → s.serves Command.queryCall len →
    (s.calls.all (fun c => c.tag != tag.toNat) = true →
      exec (.queryCall len tag) s = .next (s.refuse Command.queryCall .noCall)) ∧
    ∀ c ∈ s.calls, c.tag = tag.toNat →
      ∃ report, exec (.queryCall len tag) s = .next (s.respond Command.queryCall .ok report) ∧
        report.length = 11 + 5 * c.list.length ∧ wordAt report 0 = tag ∧
        byteAt report 2 = c.berth.code ∧ byteAt report 3 = c.state.code ∧
        byteAt report 4 = BitVec.ofNat 8 c.minLines ∧ byteAt report 5 = BitVec.ofNat 8 c.steadyNeed ∧
        byteAt report 6 = (if s.permit c.berth then 1 else 0) ∧
        byteAt report 7 = BitVec.ofNat 8 c.list.length ∧
        byteAt report 8 = BitVec.ofNat 8 (c.list.countP s.holding) ∧
        byteAt report 9 = BitVec.ofNat 8 (c.list.countP (s.steadyFor c.steadyNeed)) ∧
        (∀ i ∈ c.list, s.holding i = true → ∀ rank ∈ (s.mooring i).bind Mooring.letGoRank,
          1 ≤ (byteAt report 10).toNat ∧ (byteAt report 10).toNat ≤ rank) ∧
        (byteAt report 10 = 0 ∨ ∃ i ∈ c.list, s.holding i = true ∧
          (s.mooring i).bind Mooring.letGoRank = some (byteAt report 10).toNat) ∧
        ∀ k : Fin 8, ∀ i ∈ c.list[k.val]?,
          byteAt report (11 + 5 * k.val) = BitVec.ofNat 8 i.val ∧
          byteAt report (12 + 5 * k.val) = (s.station i).state.code ∧
          (byteAt report (13 + 5 * k.val)).getLsbD 0 = s.holding i ∧
          (byteAt report (13 + 5 * k.val)).getLsbD 1 = s.steadyFor c.steadyNeed i ∧
          (byteAt report (13 + 5 * k.val)).getLsbD 2 = (s.mooring i).any Mooring.stale ∧
          byteAt report (14 + 5 * k.val) = BitVec.ofNat 8 (s.channel i).steady ∧
          byteAt report (15 + 5 * k.val) =
            BitVec.ofNat 8 (((s.mooring i).bind Mooring.letGoRank).getD 0)

/-- A QUERY of n stations from s reports the stations s to s + n - 1, n clamped to 1 to 4 and the walk ending at
station 15, one 59-byte entry each, and resets the attention reason of each of them. In FOLLOW mode the ALERT
state follows. Nothing else changes. Every byte of an entry is at the value that 10 section 10.5 lays out for
it, with the codes of its tables (R24, R40 to R43, R178). That the bytes of an absent operation, of an absent
parked operation and of the targets of an absent step read 0 is log 19; a remaining work above 65535 has no
coding: log 20. The remaining length of a SLACKEN in motion is the figure of its last drum position: log 31.
What the entry reports of an operation whose motion has ended (its bytes in the motion lock step, and the count
an ended TRIM had left) is log 14. That the length of a parked or requeued SLACKEN is reported without a cap is
log 29. -/
def Obligations.QueryReportsAndResetsAttention : Prop :=
  ([LineState.unknown, .stowed, .paying, .heaving, .fast, .trimming, .easing, .eased, .released, .rewinding,
      .inLocal, .outUnclaimed, .fault].map LineState.code = [0, 1, 2, 3, 4, 5, 6, 7, 8, 9, 10, 11, 12] ∧
    [StopCause.none, .critical, .hold, .takeOver, .gear, .sensor, .driveFault, .snag, .timeout, .limit,
      .withdrawn, .done].map StopCause.code = [0, 1, 2, 3, 4, 5, 6, 7, 8, 9, 10, 11] ∧
    [Attention.none, .autoReleased, .critical, .gear, .sensor, .driveFault, .snag, .timeout, .stale, .limit,
      .surging].map Attention.code = [0, 1, 2, 3, 4, 5, 6, 7, 8, 9, 10] ∧
    [Role.head, .stern, .breastFore, .breastAft, .springFore, .springAft].map Role.code = [1, 2, 3, 4, 5, 6] ∧
    [OpClass.trim, .heave, .slacken, .rewind].map OpClass.code = [1, 2, 3, 4]) ∧
  ∀ (s : State) (len st n : Byte) (i : StationId), s.Inv → s.serves Command.query len →
    stationOf st = some i → (s.station i).state ≠ .unknown →
    let w := allStations.filter (fun j =>
      decide (i.val ≤ j.val ∧ j.val < i.val + max 1 (min n.toNat 4)))
    ∃ report,
      exec (.query len st n) s = .next { s with
        stations := Vector.ofFn (fun j =>
          if j ∈ w then { s.station j with attention := .none } else s.station j)
        alert := if s.inForce.alertMode = .follow then
            allUnits.any (fun u => (s.unit u).state == .faulted) ||
              allStations.any (fun j => decide (j ∉ w) && (s.station j).attention != .none)
          else s.alert
        tx := some (responseFrame s.unitAddress Command.query.code .ok report) } ∧
      report.length = 1 + 59 * w.length ∧ byteAt report 0 = BitVec.ofNat 8 w.length ∧
      ∀ k : Fin 4, ∀ j ∈ w[k.val]?,
        let e : Nat → Byte := fun o => byteAt report (1 + 59 * k.val + o)
        let e2 : Nat → BitVec 16 := fun o => wordAt report (1 + 59 * k.val + o)
        let x := s.station j
        let c := s.channel j
        let m := s.mooring j
        e 0 = BitVec.ofNat 8 j.val ∧ e 1 = x.state.code ∧ e 58 = x.attention.code ∧
        (x.state = .unknown → ∀ o : Fin 59, 2 ≤ o.val → o.val ≤ 57 → e o.val = 0xFF) ∧
        (x.state ≠ .unknown →
          (∀ b : Fin 8, (e 2).getLsbD b.val = [m.isSome, m.any Mooring.stale, m.any Mooring.autoRelease,
            x.beyondPmax, c.isOver, c.isSlack, c.isSurging, c.critCondition][b.val]) ∧
          (∀ b : Fin 8, (e 3).getLsbD b.val = [x.cmdLock == .unlocked, x.cmdClutch == some .free,
            x.step.isSome, x.step.any (fun g => g.lock == .unlocked), x.step.any (fun g => g.clutch == .free),
            false, false, false][b.val]) ∧
          (e 4).extractLsb' 0 2 = senseCode (x.senLock.map (fun p => p == .unlocked)) ∧
          (e 4).extractLsb' 2 2 = senseCode (x.senClutch.map (fun p => p == .free)) ∧
          (e 4).getLsbD 4 = x.takeOver.any (fun o => o.timer.isSome) ∧
          (e 4).getLsbD 5 = x.takeOver.any (fun o => o.timer.isNone) ∧
          (e 4).extractLsb' 6 2 = (0 : BitVec 2) ∧
          e 5 = (x.takeOver.map (fun o => o.returnState.code)).getD 0xFF ∧
          e2 6 = BitVec.ofNat 16 x.length ∧ e 8 = (x.unit.map (fun u => BitVec.ofNat 8 u.val)).getD 0xFF ∧
          (m = none → ∀ o : Fin 59, 9 ≤ o.val → o.val ≤ 24 → e o.val = 0) ∧
          (∀ r ∈ m, e2 9 = BitVec.ofNat 16 r.tag ∧ e 11 = r.role.code ∧
            e2 12 = BitVec.ofNat 16 r.slackLimit ∧ e2 14 = BitVec.ofNat 16 r.highLimit ∧
            e2 16 = BitVec.ofNat 16 r.criticalLimit ∧ e 18 = BitVec.ofNat 8 r.hysteresis ∧
            e 19 = BitVec.ofNat 8 r.windowLength ∧ e 20 = BitVec.ofNat 8 r.excursionCount ∧
            e 21 = BitVec.ofNat 8 r.compliance ∧ e2 22 = BitVec.ofNat 16 r.stepLimit ∧
            e 24 = BitVec.ofNat 8 (r.letGoRank.getD 0)) ∧
          e2 25 = (c.latest.map (BitVec.ofNat 16)).getD 0xFFFF ∧
          e 27 = BitVec.ofNat 8 c.window.length ∧
          (∀ slot : Fin 8, e2 (28 + 2 * slot.val) = BitVec.ofNat 16 (c.window[slot.val]?.getD 0)) ∧
          e 44 = BitVec.ofNat 8 c.overCount ∧ e 45 = BitVec.ofNat 8 c.slackCount ∧
          e 46 = BitVec.ofNat 8 c.critCount ∧ e 47 = BitVec.ofNat 8 c.steady ∧
          e 48 = BitVec.ofNat 8 c.valid ∧
          (s.reportedWork j = none → e 49 = 0 ∧ e 50 = 0 ∧ e2 51 = 0) ∧
          (∀ p ∈ s.reportedWork j, e 49 = p.1.opClass.code ∧
            (e 50).getLsbD 0 = (p.1.direction == .outward) ∧ (e 50).getLsbD 1 = p.1.critical ∧
            (e 50).getLsbD 2 = p.2.1 ∧ (e 50).extractLsb' 4 3 = BitVec.ofNat 3 p.2.2.1 ∧
            remainingReads (e2 51) p.2.2.2) ∧
          (x.parked = none → e 53 = 0 ∧ e 54 = 0 ∧ e2 55 = 0) ∧
          (∀ p ∈ x.parked, e 53 = p.work.opClass.code ∧
            (e 54).getLsbD 0 = (p.work.direction == .outward) ∧ (e 54).getLsbD 2 = p.retryUsed ∧
            remainingReads (e2 55) (match p.work with
              | .slacken length => some length
              | .trim _ _ | .heave | .rewind => none)) ∧
          e 57 = x.stopCause.code)

/-- CLEAR-ERROR answers OK with the code the latch held, or 0, and empties the latch. A record-changing command
taken first is refused with LATCHED; one taken after it meets an empty latch and is checked in full (R175). The
codes are those that UnicastCommandsAreAnswered fixes. -/
def Obligations.ClearErrorEmptiesTheLatch : Prop :=
  ∀ (s : State) (len : Byte), s.serves Command.clearError len →
    exec (.clearError len) s =
      .next ({ s with latch := none }.respond Command.clearError .ok
        [match s.latch with
          | none => 0
          | some code => code.code]) ∧
    ∀ (i : Instr) (c : CommandSpec) (l : Byte) (payload : List Byte),
      i.content = some (c, l, payload) → c.recordChanging = true → l.toNat = c.length →
      (∀ code ∈ s.latch, exec i s = .next (s.respond c .latched [code.code])) ∧
      { s with latch := none }.serves c l

/-- CLEAR-ALERT deasserts the ALERT state in LATCHED mode and changes nothing in the other modes. SET-ALERT-MODE
puts the mode and the polarity in force, starts the write of the alert group, and forms the state anew: the
level of the new mode's sources, or the standing level in LATCHED. It is refused for a code that names nothing,
then for a write in flight (R168, R178, R179). The ALERT output is high while the store is read, and then
follows the ALERT state under the polarity in force (R177). -/
def Obligations.AlertCommandsFormTheAlert : Prop :=
  ∀ s : State,
    (s.phase = .reading → s.alertOutputHigh = true) ∧
    (s.phase = .running →
      s.alertOutputHigh = match s.inForce.alertPolarity with
        | .activeLow => !s.alert
        | .activeHigh => s.alert) ∧
    (∀ len, s.serves Command.clearAlert len →
      exec (.clearAlert len) s =
        .next ({ s with alert := s.alert && s.inForce.alertMode != AlertMode.latched }.respond
          Command.clearAlert .ok [])) ∧
    ∀ len mode polarity, s.serves Command.setAlertMode len →
      (2 < mode.toNat ∨ 1 < polarity.toNat →
        exec (.setAlertMode len mode polarity) s = .next (s.refuse Command.setAlertMode .badWindow)) ∧
      (mode.toNat ≤ 2 → polarity.toNat ≤ 1 → s.write.isSome = true →
        exec (.setAlertMode len mode polarity) s = .next (s.refuse Command.setAlertMode .storeBusy)) ∧
      ∀ m p, m.code = mode → p.code = polarity → s.write = none →
        exec (.setAlertMode len mode polarity) s =
          .next ({ s with
            inForce := { s.inForce with alertMode := m, alertPolarity := p }
            write := some (.alert m p)
            alert := match m with
              | .latched => s.alert
              | .follow => s.followLevel
              | .criticalOnly => s.criticalLevel }.respond Command.setAlertMode .ok [])

/-! ### Resets (chapter 11) -/

/-- POWER_LOSS, POWER_ON and RESTART_BEGIN put everything volatile at its reset value and keep the store, the
inputs and the waiting commands; the straps are read; after RESTART the clutch outputs keep their positions, and
else they are not yet known. RESTART itself needs KEY and is answered OK; its reset begins when the response has
been sent and no store write is in flight (R2, R165, R180, R181). The ALERT output is high while the store is
read (R177). The model's choices: a power loss leaves these values at once, log 5; a POWER_ON in every phase
begins a reset, log 6; RESTART_BEGIN at another time changes nothing, and a reset leaves no response and no
pending RESTART, log 7; the receiver stands outside a frame, log 9; the waiting commands are kept, log 1. -/
def Obligations.ResetsEmptyWhatIsVolatile : Prop :=
  ∀ s : State,
    (∀ c ∈ [Instr.powerLoss, Instr.powerOn, Instr.restartBegin],
      (c = .restartBegin → s.restartPending = true ∧ s.tx = none ∧ s.write = none) →
      ∃ t, exec c s = .next t ∧ t.RestOk ∧
        t.phase = (if c = .powerLoss then .off else .reading) ∧
        (c ≠ .powerLoss → t.alertOutputHigh = true) ∧
        (∀ i, (t.station i).position = none ∧ (t.station i).senLock = none ∧
          (t.station i).senClutch = none ∧
          (t.station i).cmdClutch = if c = .restartBegin then (s.station i).cmdClutch else none) ∧
        t.store = s.store ∧ t.inputs = s.inputs ∧ t.pending = s.pending ∧ t.rx = none ∧
        t.unitAddress = s.inputs.strapAddress ∧ t.bitRate = s.inputs.strapRate) ∧
    (∀ len, s.serves Command.restart len →
      exec (.restart len) s = .next
        (if s.inputs.key then { s with restartPending := true }.respond Command.restart .ok []
        else s.refuse Command.restart .keyAbsent)) ∧
    (s.restartPending = false ∨ s.tx.isSome = true ∨ s.write.isSome = true →
      exec .restartBegin s = .next s)

/-- The completion of the store read puts the stored values in force, sets the hold if its input is asserted,
takes the units whose fault input is asserted to FAULTED, and takes every station that holds a position and both
senses out of UNKNOWN; the ALERT state is asserted only by what it found (R182 to R184, R154, R178). The ALERT
output is driven by the stored polarity (R177). At another time the event changes nothing: log 11. -/
def Obligations.StoreReadStartsThePart : Prop :=
  ∀ s : State, s.Inv →
    (s.phase ≠ .reading → exec .storeReadComplete s = .next s) ∧
    (s.phase = .reading →
      ∃ t, exec .storeReadComplete s = .next t ∧ t.phase = .running ∧ t.inForce = s.store ∧
        t.store = s.store ∧ t.inputs = s.inputs ∧ t.hold = s.inputs.hold ∧ t.queue = [] ∧
        t.calls = [] ∧ t.permitA = false ∧ t.permitB = false ∧
        (∀ u : UnitId, t.unit u = .unserved (if s.inputs.fault[u] then .faulted else .idle)) ∧
        (∀ i : StationId, t.channel i = .afterReset ∧ t.mooring i = none ∧
          t.station i =
            if (s.station i).complete then
              (s.station i).found s.store.calibrations[i] s.store.settings s.inputs.takeOver[i]
            else s.station i) ∧
        t.alert = (s.store.alertMode != .criticalOnly && t.followLevel) ∧
        t.alertOutputHigh = match s.store.alertPolarity with
          | .activeLow => !t.alert
          | .activeHigh => t.alert)

/-- Drum positions and senses are stored in UNKNOWN. The one that completes the three takes the station out of
UNKNOWN: to FAULT, with P and the beyond-Pmax flag worked out and attention SENSOR, where a pending sensor fault
stands, and else as R183 and R184 give. Before the store read has completed the arrival is only stored (R2, R9,
R19, R20, R181, R183, R184). That P is not worked out while the station stays in UNKNOWN is log 21. -/
def Obligations.StationsLeaveUnknownByWhatTheySense : Prop :=
  ∀ (s : State) (i : StationId) (c : Instr) (y : Station), s.Inv →
    ((∃ count : BitVec 24, c = .drumPositionArrival i count ∧
        y = { s.station i with position := some count.toNat }) ∨
      ∃ sense, c = .gearSenseArrival i sense ∧ y = (s.station i).sensed sense) →
    (s.phase = .reading → exec c s = .next (s.setStation i y)) ∧
    (s.phase = .running → (s.station i).state = .unknown →
      (y.complete = false → exec c s = .next (s.setStation i y)) ∧
      (y.complete = true → s.sensorFaultStands i = false →
        exec c s = .next { s.setStation i
            (y.found (s.calibration i) s.settings s.inputs.takeOver[i]) with
          alert := if (s.calibration i).maxPayout < (s.calibration i).rawLength (y.position.getD 0) ∧
              y.beyondPmax = false then s.alertAfter i .limit else s.alert }) ∧
      (y.complete = true → s.sensorFaultStands i = true →
        ∃ t, exec c s = .next t ∧
          t.station i = { (y.measured (s.calibration i) (y.position.getD 0)).faulted .sensor .sensor with
            cmdClutch := y.senClutch } ∧
          t.alert = s.alertAfter i .sensor ∧ t.channel i = s.channel i ∧ t.mooring i = s.mooring i ∧
          t.queue = s.queue ∧ t.units = s.units ∧ s.OnlyAt t i ∧ s.callsKept t))

/-! ### The mooring table (chapter 2) -/

/-- The clamps of R26: W to 1..8, C to 1..W, k to 1..255, the step limit to 10..400, the rank to absent or
1..16; L, H, K and the hysteresis as given, auto-release yes for a nonzero value, stale no. Acceptable fields
make a record whose fields lie in the ranges of R25. -/
def Obligations.RecordFieldsAreClamped : Prop :=
  ∀ (f : RecordFields) (tag : Nat),
    let r := mooringFrom f tag
    r.tag = tag ∧ r.stale = false ∧ r.slackLimit = f.slackLimit.toNat ∧ r.highLimit = f.highLimit.toNat ∧
    r.criticalLimit = f.criticalLimit.toNat ∧ r.hysteresis = f.hysteresis.toNat ∧
    r.windowLength = max 1 (min f.windowLength.toNat 8) ∧
    r.excursionCount = max 1 (min f.excursionCount.toNat r.windowLength) ∧
    r.compliance = max 1 f.compliance.toNat ∧ r.stepLimit = max 10 (min f.stepLimit.toNat 400) ∧
    (r.autoRelease = true ↔ f.autoRelease ≠ 0) ∧
    r.letGoRank = (if f.letGoRank = 0 then none else some (min f.letGoRank.toNat 16)) ∧
    (f.acceptable → r.valid ∧ r.role.code = f.role)

/-- The checks of MAKE-FAST, ADOPT and AMEND in the order of R29, R32 and R33: the first that fails refuses. -/
def Obligations.MooringCommandsRefuseInOrder : Prop :=
  ∀ (s : State) (len st : Byte) (tag : BitVec 16) (f : RecordFields) (i : StationId), s.Inv →
    stationOf st = some i → (s.station i).state ≠ .unknown →
    let state := (s.station i).state
    let callChecks : Status → Prop := fun code =>
      (code = .noCall ∧ ∀ c ∈ s.calls, c.tag ≠ tag.toNat) ∨
      ∃ c ∈ s.calls, c.tag = tag.toNat ∧
        ((code = .wrongBerth ∧ c.berth ≠ berthOf i) ∨
        (code = .callState ∧ c.berth = berthOf i ∧ (c.state = .singling ∨ c.state = .clearing)) ∨
        (code = .badWindow ∧ c.berth = berthOf i ∧ c.state ≠ .singling ∧ c.state ≠ .clearing ∧
          ¬ f.acceptable))
    (s.serves Command.makeFast len → ∀ code : Status,
      ((code = .hold ∧ s.hold = true) ∨
      (code = .inLocal ∧ s.hold = false ∧ state = .inLocal) ∨
      (code = .occupied ∧ s.hold = false ∧ state ≠ .inLocal ∧ (s.mooring i).isSome = true) ∨
      (code = .wrongState ∧ s.hold = false ∧ state ≠ .inLocal ∧ (s.mooring i).isSome = false ∧
        state ≠ .paying) ∨
      (s.hold = false ∧ state = .paying ∧ callChecks code)) →
      exec (.makeFast len st tag f) s = .next (s.refuse Command.makeFast code)) ∧
    (s.serves Command.adopt len → ∀ code : Status,
      ((code = .inLocal ∧ state = .inLocal) ∨
      (code = .occupied ∧ state ≠ .inLocal ∧ (s.mooring i).isSome = true) ∨
      (code = .wrongState ∧ state ≠ .inLocal ∧ (s.mooring i).isSome = false ∧ state ≠ .outUnclaimed) ∨
      (state = .outUnclaimed ∧ callChecks code)) →
      exec (.adopt len st tag f) s = .next (s.refuse Command.adopt code)) ∧
    (s.serves Command.amend len → ∀ code : Status,
      ((code = .noRecord ∧ s.mooring i = none) ∨
      (code = .wrongState ∧ (s.mooring i).isSome = true ∧
        (state = .released ∨ state = .rewinding ∨ state = .easing)) ∨
      (code = .badWindow ∧ (s.mooring i).isSome = true ∧ state ≠ .released ∧ state ≠ .rewinding ∧
        state ≠ .easing ∧ ¬ f.acceptable)) →
      exec (.amend len st f) s = .next (s.refuse Command.amend code))

/-- MAKE-FAST in PAYING creates the record, appends the station to the call's list, starts the make-fast step
toward LOCKED and ENGAGED, submits a HEAVE and takes the station to HEAVING; a HELD call becomes STRAINED (R30).
-/
def Obligations.MakeFastCreatesAMooring : Prop :=
  ∀ (s : State) (len st : Byte) (tag : BitVec 16) (f : RecordFields) (i : StationId), s.Inv →
    s.serves Command.makeFast len → stationOf st = some i → s.hold = false →
    (s.station i).state = .paying → f.acceptable →
    (∃ c ∈ s.calls, c.tag = tag.toNat ∧ c.berth = berthOf i ∧ c.state ≠ .singling ∧
      c.state ≠ .clearing) →
    ∃ t, exec (.makeFast len st tag f) s = .next t ∧
      s.submits t i (((s.station i).entered .heaving).stepping .makeFast .locked .engaged
        s.settings.gearLimit) ⟨i, .heave, false⟩ ∧
      t.mooring i = some (mooringFrom f tag.toNat) ∧
      t.channel i = { s.channel i with readingSinceRecord := false } ∧
      t.calls = s.calls.map (fun c => if c.tag = tag.toNat then c.joined i else c) ∧
      t.permitsOk ∧ t.alert = s.alert ∧ (s.respond Command.makeFast .ok []).OnlyAt t i

/-- ADOPT in OUT-UNCLAIMED creates the record, appends the station to the call's list and takes the station to
FAST; no step starts and no request is submitted (R32). -/
def Obligations.AdoptCreatesAMooring : Prop :=
  ∀ (s : State) (len st : Byte) (tag : BitVec 16) (f : RecordFields) (i : StationId), s.Inv →
    s.serves Command.adopt len → stationOf st = some i →
    (s.station i).state = .outUnclaimed → f.acceptable →
    (∃ c ∈ s.calls, c.tag = tag.toNat ∧ c.berth = berthOf i ∧ c.state ≠ .singling ∧
      c.state ≠ .clearing) →
    ∃ t, exec (.adopt len st tag f) s = .next t ∧
      t.station i = (s.station i).entered .fast ∧ t.mooring i = some (mooringFrom f tag.toNat) ∧
      t.channel i = { s.channel i with readingSinceRecord := false } ∧
      t.calls = s.calls.map (fun c => if c.tag = tag.toNat then c.joined i else c) ∧
      t.permitsOk ∧ t.alert = s.alert ∧ t.queue = s.queue ∧ t.units = s.units ∧
      (s.respond Command.adopt .ok []).OnlyAt t i

/-- AMEND replaces the record's fields but for its tag, clears the stale flag, empties the window, resets the
steady counter and withdraws a pending TRIM; TRIMMING takes the resting state FAST, EASED goes to FAST, and a
HELD call of the record becomes STRAINED (R34, R35). An AMEND that changes L or H discards a parked HEAVE, which
takes a HEAVING station to FAST with its unit, if it still holds one, released (R36; that release is log 15).
The rest of the station record stands. -/
def Obligations.AmendReplacesTheRecord : Prop :=
  ∀ (s : State) (len st : Byte) (f : RecordFields) (i : StationId), s.Inv →
    s.serves Command.amend len → stationOf st = some i → f.acceptable →
    (s.station i).state ≠ .released → (s.station i).state ≠ .rewinding →
    (s.station i).state ≠ .easing → ∀ r ∈ s.mooring i,
    let x := s.station i
    let new := mooringFrom f r.tag
    let discards := x.parked.any (fun p => p.work == .heave) ∧
      (new.slackLimit ≠ r.slackLimit ∨ new.highLimit ≠ r.highLimit)
    ∃ t, exec (.amend len st f) s = .next t ∧ t.mooring i = some new ∧
      t.channel i = { (s.channel i).emptied with steady := 0 } ∧
      ((t.station i).state, (t.station i).resting, (t.station i).parked) =
        (if x.state = .eased ∨ (x.state = .heaving ∧ discards) then .fast else x.state,
         if x.state = .trimming then some .fast
         else if x.state = .eased ∨ (x.state = .heaving ∧ discards) then none else x.resting,
         if discards then none else x.parked) ∧
      (let gives := x.state = .heaving ∧ discards
      t.station i = { x with
        state := (t.station i).state
        resting := (t.station i).resting
        parked := (t.station i).parked
        unit := if gives then none else x.unit
        step := if gives then
            x.step.map (fun g => if g.kind = .motionLock then { g with kind := .handBack } else g)
          else x.step }) ∧
      (x.state = .heaving → discards → ∀ u ∈ x.unit, s.freed t u) ∧
      t.queue.filter (fun q => q.station == i) =
        s.queue.filter (fun q => q.station == i && !q.work.isTrim) ∧
      t.calls = s.calls.map (fun c =>
        if i ∈ c.list ∧ c.state = .held then { c with state := .strained } else c) ∧
      t.permitsOk ∧ t.alert = s.alert ∧ (s.respond Command.amend .ok []).OnlyAt t i

/-! ### The call table (chapter 3) -/

/-- OPEN-CALL adds a call in OPEN with an empty list at the end of the table, its numbers clamped, after the
checks of R49; CLOSE-CALL removes an OPEN or CLEARING call with an empty list, after the checks of R51, and the
calls behind it keep their order (R47, R49 to R51). -/
def Obligations.CallsOpenAndClose : Prop :=
  ∀ (s : State) (len : Byte) (tag : BitVec 16), s.Inv →
    (∀ berth minLines steadyNeed : Byte, s.serves Command.openCall len →
      let refuses := fun code => exec (.openCall len tag berth minLines steadyNeed) s =
        .next (s.refuse Command.openCall code)
      (tag = 0 ∨ 1 < berth.toNat → refuses .badWindow) ∧
      (tag ≠ 0 → berth.toNat ≤ 1 → (∃ c ∈ s.calls, c.tag = tag.toNat) → refuses .duplicateTag) ∧
      ∀ side : Berth, side.code = berth → tag ≠ 0 → (∀ c ∈ s.calls, c.tag ≠ tag.toNat) →
        (4 ≤ s.calls.length ∨ 2 ≤ s.calls.countP (fun c => c.berth == side) → refuses .callFull) ∧
        (s.calls.length < 4 → s.calls.countP (fun c => c.berth == side) < 2 →
          exec (.openCall len tag berth minLines steadyNeed) s =
            .next ({ s with calls := s.calls ++
              [({
                tag := tag.toNat, berth := side, state := .opened
                minLines := max 1 (min minLines.toNat 8)
                steadyNeed := max 1 steadyNeed.toNat, list := [] } : Call)] }.respond Command.openCall .ok []))) ∧
    (s.serves Command.closeCall len →
      let refuses := fun code => exec (.closeCall len tag) s = .next (s.refuse Command.closeCall code)
      ((∀ c ∈ s.calls, c.tag ≠ tag.toNat) → refuses .noCall) ∧
      ∀ c ∈ s.calls, c.tag = tag.toNat →
        (c.state = .held ∨ c.state = .strained ∨ c.state = .singling ∨ c.list ≠ [] →
          refuses .callState) ∧
        (c.state = .opened ∨ c.state = .clearing → c.list = [] →
          exec (.closeCall len tag) s = .next ({ s with
            calls := s.calls.filter (fun (d : Call) => d.tag != tag.toNat) }.respond Command.closeCall .ok [])))

/-- SINGLE-UP takes a call to SINGLING and deasserts the permit it held; with no station of its list holding the
call goes on to CLEARING, and an OPEN call of its berth that now passes the HELD test becomes HELD. It is
refused with NO-CALL, in SINGLING or CLEARING, and for an OPEN call beside an active one with CALL-STATE (R57 to
R59, R61). -/
def Obligations.SingleUpStartsTheDeparture : Prop :=
  ∀ (s : State) (len : Byte) (tag : BitVec 16), s.Inv → s.serves Command.singleUp len →
    let refuses := fun code => exec (.singleUp len tag) s = .next (s.refuse Command.singleUp code)
    ((∀ c ∈ s.calls, c.tag ≠ tag.toNat) → refuses .noCall) ∧
    ∀ c ∈ s.calls, c.tag = tag.toNat →
      let blocked := c.state = .opened ∧
        ∃ d ∈ s.calls, d.tag ≠ c.tag ∧ d.berth = c.berth ∧ d.state.active = true
      (c.state = .singling ∨ c.state = .clearing ∨ blocked → refuses .callState) ∧
      (c.state ≠ .singling → c.state ≠ .clearing → ¬ blocked →
        let holds := c.list.any s.holding
        ∃ a b, exec (.singleUp len tag) s = .next ({ s with
            permitA := a
            permitB := b
            calls := s.calls.map (fun (d : Call) =>
              if d.tag = c.tag then { d with state := if holds then CallState.singling else .clearing }
              else if holds = false ∧ d.berth = c.berth ∧ d.state = CallState.opened ∧
                  d.minLines ≤ d.list.length ∧ d.list.all (s.steadyFor d.steadyNeed) = true then
                { d with state := .held }
              else d) }.respond Command.singleUp .ok []) ∧
          ∀ t, exec (.singleUp len tag) s = .next t → t.permitsOk)

/-- Within a step a call moves only along the transitions of R53, SINGLING is entered by SINGLE-UP only, and
what the record holds beside its state and list stands; a HELD call has its lines, each of them steady (R47,
R53, R55, R56, R58). That each call is evaluated at the end of the event is log 13. -/
def Obligations.CallsMoveAsTheTableAllows : Prop :=
  ∀ (s t : State) (i : Instr) (rest : List Instr), s.Inv → s.pending = i :: rest →
    step s = .next t → ∀ c ∈ s.calls, ∀ d ∈ t.calls, c.tag = d.tag →
    c.berth = d.berth ∧ c.minLines = d.minLines ∧ c.steadyNeed = d.steadyNeed ∧
    (c.state = .opened → d.state ≠ .strained) ∧
    (c.state = .held ∨ c.state = .strained → d.state ≠ .opened) ∧
    (c.state = .singling → d.state = .singling ∨ d.state = .clearing) ∧
    (c.state = .clearing → d.state = .clearing) ∧
    (c.state ≠ .singling → c.state ≠ .clearing → d.state = .singling ∨ d.state = .clearing →
      ∃ len, i = .singleUp len (BitVec.ofNat 16 c.tag)) ∧
    (d.state = .held → d.minLines ≤ d.list.length ∧ ∀ j ∈ d.list, t.steadyFor d.steadyNeed j = true)

/-- The let-go check: RELEASE of a moored line whose call is HELD or STRAINED needs KEY; SLACKEN needs a
SINGLING call; in SINGLING a line waits while another holding line of its call carries a lower rank. A locked
quarter refuses before any let-go check (R63 to R67, R131, R162). -/
def Obligations.LettingGoFollowsTheCall : Prop :=
  ∀ (s : State) (len st : Byte) (n : BitVec 16) (i : StationId) (c : Call), s.Inv →
    stationOf st = some i → c ∈ s.calls → i ∈ c.list →
    (s.serves Command.release len → (s.station i).state.moored = true →
      let refuses := fun code => exec (.release len st) s = .next (s.refuse Command.release code)
      (s.quarterLocked i = true → refuses .locked) ∧
      (s.quarterLocked i = false → c.state = .held ∨ c.state = .strained → s.inputs.key = false →
        refuses .callHeld) ∧
      (s.quarterLocked i = false → c.state = .singling → s.rankBlocked c i → refuses .order)) ∧
    (s.serves Command.slacken len → s.hold = false →
      (s.station i).state = .fast ∨ (s.station i).state = .eased →
      let refuses := fun code => exec (.slacken len st n) s = .next (s.refuse Command.slacken code)
      (s.quarterLocked i = true → refuses .locked) ∧
      (s.quarterLocked i = false → c.state ≠ .singling → refuses .callState) ∧
      (s.quarterLocked i = false → c.state = .singling → s.rankBlocked c i → refuses .order))

/-! ### Stations, letting go and recovering (chapters 1 and 7) -/

/-- RUN-OUT, RELEASE, SLACKEN, RETIRE and CLEAR-FAULT are refused for the station's state, the hold, a pendant,
a release in flight or missing room, in the order their rules list (R17, R21, R129, R135, R139). -/
def Obligations.StationCommandsRefuseInOrder : Prop :=
  ∀ (s : State) (len st : Byte) (n : BitVec 16) (i : StationId), s.Inv →
    stationOf st = some i → (s.station i).state ≠ .unknown →
    let x := s.station i
    let releasing := x.state = .released ∧ x.step.any (fun g => g.kind == .release)
    (s.serves Command.runOut len → ∀ code : Status,
      ((code = .hold ∧ s.hold = true) ∨
      (code = .inLocal ∧ s.hold = false ∧ x.state = .inLocal) ∨
      (code = .wrongState ∧ s.hold = false ∧ x.state ≠ .inLocal ∧ x.state ≠ .stowed)) →
      exec (.runOut len st) s = .next (s.refuse Command.runOut code)) ∧
    (s.serves Command.release len → ∀ code : Status,
      ((code = .inLocal ∧ x.state = .inLocal) ∨ (code = .busy ∧ releasing) ∨
      (code = .wrongState ∧ x.state ≠ .inLocal ∧ ¬ releasing ∧ x.state.moored = false ∧
        x.state ≠ .outUnclaimed)) →
      exec (.release len st) s = .next (s.refuse Command.release code)) ∧
    (s.serves Command.slacken len → ∀ code : Status,
      ((code = .hold ∧ s.hold = true) ∨
      (code = .inLocal ∧ s.hold = false ∧ x.state = .inLocal) ∨
      (code = .wrongState ∧ s.hold = false ∧ x.state ≠ .inLocal ∧ x.state ≠ .fast ∧
        x.state ≠ .eased) ∨
      (code = .limit ∧ s.hold = false ∧ (x.state = .fast ∨ x.state = .eased) ∧
        s.quarterLocked i = false ∧
        (∀ c ∈ s.calls, i ∈ c.list → c.state = .singling ∧ ¬ s.rankBlocked c i) ∧
        (s.calibration i).maxPayout < x.length + 10)) →
      exec (.slacken len st n) s = .next (s.refuse Command.slacken code)) ∧
    (s.serves Command.retire len → ∀ code : Status,
      ((code = .hold ∧ s.hold = true) ∨
      (code = .inLocal ∧ s.hold = false ∧ x.state = .inLocal) ∨
      (code = .busy ∧ s.hold = false ∧ releasing) ∨
      (code = .wrongState ∧ s.hold = false ∧ x.state ≠ .inLocal ∧ x.state ≠ .released ∧
        x.state ≠ .paying)) →
      exec (.retire len st) s = .next (s.refuse Command.retire code)) ∧
    (s.serves Command.clearFault len →
      x.state ≠ .fault ∨ x.senLock ≠ some x.cmdLock ∨ x.senClutch ≠ x.cmdClutch ∨
        (s.channel i).valid ≠ 8 →
      exec (.clearFault len st) s = .next (s.refuse Command.clearFault .wrongState))

/-- RUN-OUT takes a STOWED station to PAYING and starts the run-out step toward UNLOCKED and FREE; nothing else
changes (R17). -/
def Obligations.RunOutFreesTheLine : Prop :=
  ∀ (s : State) (len st : Byte) (i : StationId), s.Inv → s.serves Command.runOut len →
    stationOf st = some i → s.hold = false → (s.station i).state = .stowed →
    exec (.runOut len st) s = .next ((s.setStation i (((s.station i).entered .paying).stepping .runOut
      .unlocked .free s.settings.gearLimit)).respond Command.runOut .ok [])

/-- RELEASE of a moored or unclaimed line drops the station's work, writes WITHDRAWN where a motion was in
progress, frees its unit at once and starts the release step; the station reports RELEASED and keeps its record
(R129, R130, R133). -/
def Obligations.ReleaseLetsTheLineGo : Prop :=
  ∀ (s : State) (len st : Byte) (i : StationId), s.Inv → s.serves Command.release len →
    stationOf st = some i →
    (s.station i).state.moored = true ∨ (s.station i).state = .outUnclaimed →
    s.quarterLocked i = false →
    (∀ c ∈ s.calls, i ∈ c.list → c.state = .opened ∨ c.state = .clearing ∨
      (c.state = .singling ∧ ¬ s.rankBlocked c i) ∨
      ((c.state = .held ∨ c.state = .strained) ∧ s.inputs.key = true)) →
    let x := s.station i
    ∃ t, exec (.release len st) s = .next t ∧
      t.station i = ({ x.idled with
          state := .released
          stopCause := if (s.motionOf i).isSome then .withdrawn else x.stopCause }).stepping .release
        .unlocked .free s.settings.gearLimit ∧
      t.channel i = (s.channel i).leftBand ∧ t.mooring i = s.mooring i ∧
      t.requestOf i = none ∧ (∀ u ∈ x.unit, s.freed t u) ∧ s.sameCalls t ∧ t.permitsOk ∧
      t.alert = s.alert ∧ (s.respond Command.release .ok []).OnlyAt t i

/-- SLACKEN in FAST or EASED, in a SINGLING call whose order allows it and with at least 10 cm of room,
withdraws a pending TRIM, takes the station to EASING and submits a SLACKEN of the length clamped to 10 to 2000
and lowered to the room (R67, R135, R136). -/
def Obligations.SlackenEasesTheLine : Prop :=
  ∀ (s : State) (len st : Byte) (n : BitVec 16) (i : StationId), s.Inv →
    s.serves Command.slacken len → stationOf st = some i → s.hold = false →
    (s.station i).state = .fast ∨ (s.station i).state = .eased → s.quarterLocked i = false →
    (∀ c ∈ s.calls, i ∈ c.list → c.state = .singling ∧ ¬ s.rankBlocked c i) →
    (s.station i).length + 10 ≤ (s.calibration i).maxPayout →
    ∃ t, exec (.slacken len st n) s = .next t ∧
      s.submits t i ((s.station i).entered .easing)
        ⟨i, .slacken (min (max 10 (min n.toNat 2000))
          ((s.calibration i).maxPayout - (s.station i).length)), false⟩ ∧
      t.channel i = (s.channel i).leftBand ∧ t.mooring i = s.mooring i ∧ s.callsKept t ∧
      t.alert = s.alert ∧ (s.respond Command.slacken .ok []).OnlyAt t i

/-- RETIRE in RELEASED or PAYING takes the station to REWINDING and starts the rewind engage step with a REWIND
that awaits it; where the senses already show LOCKED and ENGAGED the step completes at its start and the REWIND
is submitted at once (R139, R140). -/
def Obligations.RetireStartsTheRewind : Prop :=
  ∀ (s : State) (len st : Byte) (i : StationId), s.Inv → s.serves Command.retire len →
    stationOf st = some i → s.hold = false →
    (s.station i).state = .released ∨ (s.station i).state = .paying →
    (s.station i).step.any (fun g => g.kind == .release) = false →
    let x := s.station i
    ∃ t, exec (.retire len st) s = .next t ∧
      (if x.shut then
        s.submits t i ((x.entered .rewinding).stepping .rewindEngage .locked .engaged
          s.settings.gearLimit) ⟨i, .rewind, false⟩
      else
        t.station i = { (x.entered .rewinding).stepping .rewindEngage .locked .engaged
          s.settings.gearLimit with active := some ⟨.rewind, false, .awaiting⟩ } ∧
        t.queue = s.queue ∧ t.units = s.units) ∧
      t.channel i = s.channel i ∧ t.mooring i = s.mooring i ∧ s.callsKept t ∧
      t.alert = s.alert ∧ (s.respond Command.retire .ok []).OnlyAt t i

/-- CLEAR-FAULT of a FAULT station whose gear agrees and whose valid counter is 8 takes it to FAST with a stale
record, to RELEASED, to OUT-UNCLAIMED or to STOWED by its sensed clutch, its record and P; with the take-over
input asserted that state is the return state of a take-over that starts at once (R21, R154). -/
def Obligations.ClearFaultFollowsTheGear : Prop :=
  ∀ (s : State) (len st : Byte) (i : StationId), s.Inv → s.serves Command.clearFault len →
    stationOf st = some i → (s.station i).state = .fault →
    (s.station i).senLock = some (s.station i).cmdLock →
    (s.station i).senClutch = (s.station i).cmdClutch → (s.channel i).valid = 8 →
    let x := s.station i
    let state : LineState :=
      if x.senClutch = some .free then .released
      else if (s.mooring i).isSome then .fast
      else if s.settings.stowTolerance < x.length then .outUnclaimed
      else .stowed
    exec (.clearFault len st) s = .next (((s.setStation i
        (if s.inputs.takeOver[i] then
          { x.entered .inLocal with takeOver := some ⟨state, some s.settings.takeOverLimit⟩ }
        else x.entered state)).setMooring i
        (if state = .fast then (s.mooring i).map (fun r => { r with stale := true })
        else s.mooring i)).respond Command.clearFault .ok [])

/-! ### Gear, drum positions and faults (chapter 1) -/

/-- A sense is stored and serves the station: with no step in flight it starts, keeps or ends a disagreement
wait; it completes a step whose targets both senses now show, and the continuation follows: the drive is let go
after the unlock step, and a REWIND that awaits engagement is submitted after the engage step. In LOCAL and
FAULT it is only stored, though a call may move by it (R5, R11, R12, R15, R16, R140). -/
def Obligations.GearSensesServeTheStation : Prop :=
  ∀ (s : State) (i : StationId) (sense : GearSense), s.Inv → s.phase = .running →
    (s.station i).state ≠ .unknown →
    let x := s.station i
    let y := x.sensed sense
    let done := { y with step := none, gearTimer := none }
    (x.state = .inLocal ∨ x.state = .fault →
      ∃ t, exec (.gearSenseArrival i sense) s = .next t ∧ t.station i = y ∧
        t.channel i = s.channel i ∧ t.mooring i = s.mooring i ∧ t.queue = s.queue ∧
        t.units = s.units ∧ s.sameCalls t ∧ t.permitsOk ∧ t.alert = s.alert ∧ s.OnlyAt t i) ∧
    (x.state ≠ .inLocal → x.state ≠ .fault → x.step = none →
      exec (.gearSenseArrival i sense) s = .next (s.setStation i { y with
        gearTimer := if y.disagrees then some (x.gearTimer.getD s.settings.gearLimit) else none })) ∧
    ∀ g ∈ x.step,
      (¬ (y.senLock = some g.lock ∧ y.senClutch = some g.clutch) →
        exec (.gearSenseArrival i sense) s = .next (s.setStation i y)) ∧
      (y.senLock = some g.lock ∧ y.senClutch = some g.clutch →
        (g.kind ≠ .motionUnlock → g.kind ≠ .motionLock →
          (g.kind = .rewindEngage → x.active.any ActiveOp.isAwaiting = false) →
          exec (.gearSenseArrival i sense) s = .next (s.setStation i done)) ∧
        (g.kind = .motionUnlock → ∀ u ∈ x.unit,
          exec (.gearSenseArrival i sense) s = .next
            ((s.setStation i done).setUnit u { s.unit u with stop := false })) ∧
        (g.kind = .rewindEngage → ∀ a ∈ x.active, a.isAwaiting = true →
          ∃ t, exec (.gearSenseArrival i sense) s = .next t ∧
            s.submits t i { done with active := none } ⟨i, .rewind, a.retryUsed⟩ ∧
            t.channel i = s.channel i ∧ t.mooring i = s.mooring i ∧ s.callsKept t ∧
            t.alert = s.alert ∧ s.OnlyAt t i))

/-- The completion of the motion lock step releases the unit. A TRIM returns to its resting state; a HEAVE goes
to FAST, a SLACKEN to EASED, a REWIND to STOWED after DONE, where its record is retired, and else to RELEASED. A
station that comes to FAST from a CRITICAL stop while its critical condition holds asks for a critical render,
unless the hold is in force. After a DRIVE-FAULT an operation of its own is retried once at the head of its
class, parked under the hold, or abandoned. An operation parked at the stop leaves the station in its state
(R16, R96, R102, R119 to R121, R127, R143, R147); where the hold has been cleared meanwhile it is submitted
here: log 16. That an operation stands with its station through the lock step is log 14. -/
def Obligations.LockStepsEndOperations : Prop :=
  ∀ (s : State) (i : StationId) (sense : GearSense) (u : UnitId), s.Inv → s.phase = .running →
    (s.station i).locking = true → (s.station i).unit = some u →
    ((s.station i).sensed sense).shut = true →
    let x := s.station i
    let y := x.sensed sense
    let freed := { y with step := none, gearTimer := none, unit := none }
    let failed := x.state ≠ .trimming ∧ x.stopCause = .driveFault
    let ends : LineState → Prop := fun state =>
      (x.state = .trimming ∧ x.resting = some state) ∨
        (x.parked = none ∧ (¬ failed ∨ x.active = none) ∧
          ((x.state = .heaving ∧ state = .fast) ∨ (x.state = .easing ∧ state = .eased) ∨
            (x.state = .rewinding ∧ state = if x.stopCause = .done then .stowed else .released)))
    let renders := x.stopCause = .critical ∧ (s.channel i).critCondition = true ∧ s.hold = false
    ∃ t, exec (.gearSenseArrival i sense) s = .next t ∧ s.freed t u ∧ s.OnlyAt t i ∧ t.permitsOk ∧
      (∀ state, ends state → state ≠ .stowed →
        t.channel i = (s.channel i).entering state ∧ t.mooring i = s.mooring i ∧ s.sameCalls t ∧
        t.alert = s.alert ∧
        (if state = .fast ∧ renders then s.submits t i (y.rested .fast) ⟨i, .trim .outward true, false⟩
        else t.station i = y.rested state)) ∧
      (ends .stowed → t.station i = y.rested .stowed ∧ t.mooring i = none ∧
        t.calls.map Call.list = s.calls.map (fun c => c.list.filter (fun j => j != i)) ∧
        (t.channel i).critCount = 0 ∧ (t.channel i).critCondition = false) ∧
      (∀ p ∈ x.parked, t.channel i = s.channel i ∧ t.mooring i = s.mooring i ∧ s.callsKept t ∧
        t.alert = s.alert ∧
        (if s.hold then t.station i = freed
        else s.submits t i { freed with parked := none } ⟨i, p.work, p.retryUsed⟩)) ∧
      (failed → ∀ a ∈ x.active, t.mooring i = s.mooring i ∧
        (a.retryUsed = true →
          t.station i = (y.rested x.state.abandoned).noticing .driveFault ∧
          t.channel i = (s.channel i).entering x.state.abandoned ∧
          t.alert = s.alertAfter i .driveFault ∧ s.sameCalls t) ∧
        (a.retryUsed = false → s.callsKept t ∧ t.alert = s.alert ∧
          (if s.hold then
            t.station i = { freed with active := none, parked := some ⟨a.work, true⟩ }
          else s.requeues t i { freed with active := none } ⟨i, a.work, true⟩)))

/-- A drum position stores the count, P and the beyond-Pmax flag, and raises LIMIT when the line goes beyond
Pmax. In PAYING with the lock commanded UNLOCKED one at or above Pmax starts the payout stop and raises LIMIT.
At a station that is not moving nothing else changes (R8, R9, R18). That a position changes nothing without
power is log 5. -/
def Obligations.DrumPositionsMeasureTheLine : Prop :=
  ∀ (s : State) (i : StationId) (count : BitVec 24), s.Inv →
    (s.phase = .off → exec (.drumPositionArrival i count) s = .next s) ∧
    (s.phase = .running → (s.station i).state ≠ .unknown → s.motionOf i = none →
      let x := s.station i
      let cal := s.calibration i
      let raw := (count.toNat - cal.stowPosition) * 100 / cal.countsPerMetre
      let y := x.measured cal count.toNat
      (y.position, y.length, y.beyondPmax) =
        (some count.toNat, min raw cal.maxPayout, decide (cal.maxPayout < raw)) ∧
      (¬ (x.state = .paying ∧ x.cmdLock = .unlocked ∧ cal.maxPayout ≤ raw) →
        exec (.drumPositionArrival i count) s = .next { s.setStation i y with
          alert := if cal.maxPayout < raw ∧ x.beyondPmax = false then s.alertAfter i .limit
            else s.alert }) ∧
      (x.state = .paying ∧ x.cmdLock = .unlocked ∧ cal.maxPayout ≤ raw →
        exec (.drumPositionArrival i count) s = .next { s.setStation i
            ((y.noticing .limit).stepping .payoutStop .locked .free s.settings.gearLimit) with
          alert := s.alertAfter i .limit }))

/-- A gear timer that expires, and the eighth rail sample in a row outside UNKNOWN, LOCAL and FAULT, take the
station to FAULT: its work is dropped, its unit freed, its lock commanded LOCKED, and the cause and the reason
are written. In UNKNOWN the sensor fault becomes pending; in LOCAL it becomes pending and raises SENSOR; in
FAULT it raises SENSOR (R14, R15, R19, R20, R72). -/
def Obligations.FaultsDropTheWork : Prop :=
  ∀ (s : State) (i : StationId) (raw : BitVec 16), s.Inv → s.phase = .running →
    let x := s.station i
    let railed := { s.channel i with rail := 8, valid := 0, sum := 0, count := 0 }
    let enters : Instr → StopCause → Attention → Channel → Prop := fun c cause reason channel =>
      ∃ t, exec c s = .next t ∧ t.station i = x.faulted cause reason ∧
        t.channel i = channel.leftBand ∧ t.mooring i = s.mooring i ∧ t.requestOf i = none ∧
        (∀ u ∈ x.unit, s.freed t u) ∧ s.sameCalls t ∧ t.permitsOk ∧
        t.alert = s.alertAfter i reason ∧ s.OnlyAt t i
    (x.gearTimer.isSome = true → enters (.gearTimerExpiry i) .gear .gear (s.channel i)) ∧
    ((raw = 0 ∨ raw = 0xFFFF) → (s.channel i).rail = 7 →
      (x.state ≠ .unknown → x.state ≠ .inLocal → x.state ≠ .fault →
        enters (.loadSampleArrival i raw) .sensor .sensor railed) ∧
      (x.state = .unknown → exec (.loadSampleArrival i raw) s =
        .next ((s.setChannel i railed).setStation i { x with pendingSensorFault := true })) ∧
      (x.state = .inLocal ∨ x.state = .fault → exec (.loadSampleArrival i raw) s =
        .next { (s.setChannel i railed).setStation i { x.noticing .sensor with
            pendingSensorFault := x.pendingSensorFault || x.state == .inLocal } with
          alert := s.alertAfter i .sensor }))

/-! ### Samples and readings (chapters 4 and 5) -/

/-- A valid sample r calibrates to floor((r - Z) × S / 4096) above Z, to 0 at or below it, and to at most 20000;
the product is at most 4,294,770,690, a scale of 0 gives 0, and a sample that clamps is no rail sample (R74). -/
def Obligations.SamplesAreCalibrated : Prop :=
  ∀ (c : Calibration) (r : Nat), 1 ≤ r → r ≤ 65534 → c.scale ≤ 65535 →
    (c.zero < r → c.calibrate r = min ((r - c.zero) * c.scale / 4096) 20000) ∧
    (r ≤ c.zero → c.calibrate r = 0) ∧ c.calibrate r ≤ 20000 ∧
    (r - c.zero) * c.scale ≤ 4294770690 ∧ (c.scale = 0 → c.calibrate r = 0) ∧ isRail r = false

/-- A sample that completes no reading changes only counters: a rail sample raises the rail counter, to 8 at
most, and clears the valid counter; a valid one clears the rail counter, raises the valid counter, to 8 at most,
and joins the sum. Before the store read has completed no sample is taken (R70 to R72, R74, R76). Without power
that is log 5. -/
def Obligations.SamplesMoveTheCounters : Prop :=
  ∀ (s : State) (i : StationId) (raw : BitVec 16), s.Inv →
    let c := s.channel i
    (s.phase ≠ .running → exec (.loadSampleArrival i raw) s = .next s) ∧
    (s.phase = .running → raw = 0 ∨ raw = 0xFFFF → c.rail ≠ 7 →
      exec (.loadSampleArrival i raw) s =
        .next (s.setChannel i { c with rail := min 8 (c.rail + 1), valid := 0 })) ∧
    (s.phase = .running → raw ≠ 0 → raw ≠ 0xFFFF → c.count + 1 < (s.calibration i).decimation →
      exec (.loadSampleArrival i raw) s =
        .next (s.setChannel i { c with
          rail := 0
          valid := min 8 (c.valid + 1)
          sum := c.sum + (s.calibration i).calibrate raw.toNat
          count := c.count + 1 }))

/-- The D-th valid sample forms the reading (sum + floor(D / 2)) / D and empties the sum. At a FAST station with
a record and a reading below K: the count of critical readings goes to 0 and the critical condition clears below
K by more than the hysteresis; the reading joins the window of W entries and moves OVER and SLACK by their
counts and the hysteresis, unless the record is stale; the steady counter counts in L ≤ reading < K. Then the
TRIM wanted is submitted at the tail of its class, redirected in its place or withdrawn, and SURGING is raised
at the reading that sets it A raise of SURGING that changes the reason asserts the ALERT state in LATCHED and
FOLLOW mode; in CRITICAL-ONLY mode the state is formed anew from the critical conditions; else it stands (R39,
R76 to R79, R81 to R83, R86, R92, R93, R177, R178). -/
def Obligations.ReadingsInFastRegulate : Prop :=
  ∀ (s : State) (i : StationId) (raw : BitVec 16), s.Inv → s.phase = .running →
    raw ≠ 0 → raw ≠ 0xFFFF → (s.channel i).count + 1 = (s.calibration i).decimation →
    (s.station i).state = .fast → ∀ r ∈ s.mooring i,
    let x := s.station i
    let c := s.channel i
    let cal := s.calibration i
    let v := (c.sum + cal.calibrate raw.toNat + cal.decimation / 2) / cal.decimation
    let holds := c.critCondition && decide (r.criticalLimit ≤ v + r.hysteresis)
    let window := (c.window ++ [v]).drop (c.window.length + 1 - r.windowLength)
    let overs := window.countP (fun e => decide (r.highLimit < e))
    let slacks := window.countP (fun e => decide (e < r.slackLimit))
    let isOver := decide (r.excursionCount ≤ overs) ||
      (c.isOver && decide (r.highLimit < v + r.hysteresis))
    let isSlack := decide (r.excursionCount ≤ slacks) ||
      (c.isSlack && decide (v < r.slackLimit + r.hysteresis))
    let base := { c with
      rail := 0
      valid := min 8 (c.valid + 1)
      sum := 0
      count := 0
      latest := some v
      readingSinceRecord := true
      critCount := 0
      critCondition := holds
      steady := if r.stale then 0 else if r.slackLimit ≤ v then min 255 (c.steady + 1) else 0 }
    let after := if r.stale then base else { base with
      window := window
      overCount := overs
      slackCount := slacks
      isOver := isOver
      isSlack := isSlack
      isSurging := isOver && isSlack }
    let wanted : Option Work :=
      if s.hold then none
      else if (s.requestOf i).any (fun q => q.work.critical) ∧ holds = true then
        some (.trim .outward true)
      else if r.stale then none
      else if isOver = true ∧ isSlack = false then some (.trim .outward false)
      else if isSlack = true ∧ isOver = false then some (.trim .inward false)
      else none
    let surges := r.stale = false ∧ isOver = true ∧ isSlack = true ∧ c.isSurging = false
    let y := if surges then x.noticing .surging else x
    v < r.criticalLimit →
    ∃ t, exec (.loadSampleArrival i raw) s = .next t ∧ t.channel i = after ∧
      t.mooring i = s.mooring i ∧ s.sameCalls t ∧ t.permitsOk ∧ s.OnlyAt t i ∧
      t.alert = (match s.inForce.alertMode with
        | .criticalOnly => holds ||
          allStations.any (fun j => decide (j ≠ i) && (s.channel j).critCondition)
        | .latched | .follow =>
          s.alert || (decide surges && Attention.surging.outranks x.attention)) ∧
      match wanted with
      | none => t.station i = y ∧ t.requestOf i = none
      | some w =>
        t.asks i y ⟨i, w, (s.requestOf i).any Request.retryUsed⟩ ∧
        if (s.requestOf i).isSome then
          t.queue = s.queue.map (fun p => if p.station = i then { p with work := w } else p)
        else s.queuesBy insertTail t ⟨i, w, false⟩

/-- A reading at or above K raises CRITICAL in every state of a station with a record, sets the critical
condition and raises the count to 2 at most. Where it makes no auto-release: FAST and EASED ask for a critical
render unless the hold is in force; a HEAVE that waits, at its grant or parked, is given up and the station goes
to FAST and asks for one; a heave trim at its grant is given back; a render at its grant takes the critical
mark; inward motion stops with cause CRITICAL, and where the gear is still shut the lock step completes at its
start and the station asks for a render in FAST; a REWIND in motion stops for its snag limit only, and keeps
CRITICAL, the higher reason; in the other states the work stands (R78, R79, R95 to R97, R142). That nothing
moves in the lock step of an earlier stop is log 22; which operations are kept and which dropped at a stop is
log 14; what a parked HEAVE given up in a lock step leaves is log 15. -/
def Obligations.CriticalReadingsActByState : Prop :=
  ∀ (s : State) (i : StationId) (raw : BitVec 16), s.Inv → s.phase = .running →
    raw ≠ 0 → raw ≠ 0xFFFF → (s.channel i).count + 1 = (s.calibration i).decimation →
    ∀ r ∈ s.mooring i,
    let x := s.station i
    let c := s.channel i
    let cal := s.calibration i
    let v := (c.sum + cal.calibrate raw.toNat + cal.decimation / 2) / cal.decimation
    let y := x.noticing .critical
    let render : Request := ⟨i, .trim .outward true, (s.requestOf i).any Request.retryUsed⟩
    let limit := s.settings.gearLimit
    r.criticalLimit ≤ v →
    ¬ (x.state.moored = true ∧ 1 ≤ c.critCount ∧ r.autoRelease = true ∧ s.quarterLocked i = false) →
    ∃ t, exec (.loadSampleArrival i raw) s = .next t ∧
      (t.channel i).critCondition = true ∧ (t.channel i).critCount = min 2 (c.critCount + 1) ∧
      (t.channel i).latest = some v ∧ (t.channel i).steady = 0 ∧
      t.mooring i = s.mooring i ∧ s.sameCalls t ∧ t.permitsOk ∧
      t.alert = (if s.inForce.alertMode = .criticalOnly then true else s.alertAfter i .critical) ∧
      s.OnlyAt t i ∧
      (x.state = .fast ∨ x.state = .eased →
        if s.hold then t.station i = y
        else if (s.requestOf i).isSome then t.asks i y render ∧
          t.queue = s.queue.map (fun p => if p.station = i then render else p)
        else s.submits t i y render) ∧
      (x.state = .heaving →
        (x.parked.isSome = true →
          let z := { y.entered .fast with
            parked := none
            unit := none
            step := x.step.map (fun g =>
              if g.kind = .motionLock then { g with kind := .handBack } else g) }
          if s.hold then t.station i = z else s.submits t i z { render with retryUsed := false }) ∧
        ((s.requestOf i).isSome = true → s.submits t i (y.entered .fast) { render with retryUsed := false }) ∧
        (x.active.any ActiveOp.isGranted = true →
          s.submits t i { y.entered .fast with unit := none, active := none }
            { render with retryUsed := false }) ∧
        ((s.motionOf i).isSome = true →
          (x.shut = false → t.station i = y.stopped .critical none limit) ∧
          (x.shut = true →
            s.submits t i ((y.stoppedShut .critical).rested .fast) { render with retryUsed := false })) ∧
        (x.locking = true → x.parked = none → t.station i = y)) ∧
      (x.state = .trimming → x.locking = true → t.station i = y) ∧
      (x.state = .trimming → ∀ a ∈ x.active,
        (a.work = .trim .inward false → a.isGranted = true → ∀ state ∈ x.resting,
          let z := { y.entered state with unit := none, active := none }
          if state = .fast ∧ s.hold = false then s.submits t i z { render with retryUsed := false }
          else t.station i = z) ∧
        (a.work = .trim .inward false → (s.motionOf i).isSome = true →
          (x.shut = false → t.station i = y.stopped .critical (some a.ended) limit) ∧
          (x.shut = true → ∀ state ∈ x.resting,
            let z := (y.stoppedShut .critical).rested state
            if state = .fast then s.submits t i z { render with retryUsed := false }
            else t.station i = z)) ∧
        (a.work.direction = .outward → a.isGranted = true →
          t.station i = { y with active := some { a with work := .trim .outward true } }) ∧
        (a.work.direction = .outward → a.isGranted = false → t.station i = y)) ∧
      (x.state = .rewinding → (s.motionOf i).isSome = true →
        (v < s.settings.snagLimit → t.station i = y ∧ t.units = s.units) ∧
        (s.settings.snagLimit ≤ v →
          (x.shut = false → t.station i = (y.stopped .snag none limit).noticing .snag ∧
            ∀ u ∈ x.unit, t.unit u = { s.unit u with stop := true }) ∧
          (x.shut = true → t.station i = ((y.stoppedShut .snag).rested .released).noticing .snag ∧
            ∀ u ∈ x.unit, s.freed t u))) ∧
      (x.state = .easing ∨ x.state = .released ∨ x.state = .inLocal ∨ x.state = .fault ∨
        (x.state = .rewinding ∧ s.motionOf i = none) → t.station i = y)

/-- The second critical reading in a row, or a later one, releases a line in FAST, TRIMMING, HEAVING, EASED or
EASING whose record allows it and whose quarter is not locked, whatever its call, its rank, KEY and the hold
say: the work is dropped with cause CRITICAL where a motion was in progress, the unit is freed, the release step
starts and AUTO-RELEASED is raised (R106, R130). -/
def Obligations.RepeatedCriticalReadingsReleaseTheLine : Prop :=
  ∀ (s : State) (i : StationId) (raw : BitVec 16), s.Inv → s.phase = .running →
    raw ≠ 0 → raw ≠ 0xFFFF → (s.channel i).count + 1 = (s.calibration i).decimation →
    ∀ r ∈ s.mooring i,
    let x := s.station i
    let c := s.channel i
    let cal := s.calibration i
    let v := (c.sum + cal.calibrate raw.toNat + cal.decimation / 2) / cal.decimation
    r.criticalLimit ≤ v → x.state.moored = true → 1 ≤ c.critCount → r.autoRelease = true →
    s.quarterLocked i = false →
    ∃ t, exec (.loadSampleArrival i raw) s = .next t ∧
      t.station i = ({ x.idled.noticing .autoReleased with
          state := .released
          stopCause := if (s.motionOf i).isSome then .critical else x.stopCause }).stepping .release
        .unlocked .free s.settings.gearLimit ∧
      (t.channel i).critCount = 2 ∧ (t.channel i).critCondition = true ∧
      (t.channel i).window = [] ∧ (t.channel i).steady = 0 ∧ t.mooring i = s.mooring i ∧
      t.requestOf i = none ∧ (∀ u ∈ x.unit, s.freed t u) ∧ s.sameCalls t ∧ t.permitsOk ∧
      t.alert = (if s.inForce.alertMode = .criticalOnly then true
        else s.alertAfter i .autoReleased) ∧
      s.OnlyAt t i

/-- Readings below K. In the motion of a HEAVE one at or above the heave target ends it with DONE; in the motion
of a REWIND one at or above the snag limit ends it with SNAG, discards the operation and raises SNAG; where the
gear is still shut the lock step completes at its start. A HEAVE or REWIND that waits goes on waiting. In every
other state but FAST, and in a station without a record, a reading changes the channel only: the critical
findings, the window kept as it stands, and the steady counter, which counts in TRIMMING (R69, R77 to R80, R86,
R87, R104, R105, R142). That the HEAVE stands as the operation of its station through the lock step, and the
REWIND does not, is log 14. -/
def Obligations.ReadingsEndHeavesAndSnags : Prop :=
  ∀ (s : State) (i : StationId) (raw : BitVec 16), s.Inv → s.phase = .running →
    raw ≠ 0 → raw ≠ 0xFFFF → (s.channel i).count + 1 = (s.calibration i).decimation →
    let x := s.station i
    let c := s.channel i
    let cal := s.calibration i
    let v := (c.sum + cal.calibrate raw.toNat + cal.decimation / 2) / cal.decimation
    let formed := { c with
      rail := 0
      valid := min 8 (c.valid + 1)
      sum := 0
      count := 0
      latest := some v
      readingSinceRecord := true }
    let below : Mooring → Channel := fun r => { formed with
      critCount := 0
      critCondition := c.critCondition && decide (r.criticalLimit ≤ v + r.hysteresis)
      steady := if x.state ≠ .trimming ∨ r.stale = true then 0
        else if r.slackLimit ≤ v then min 255 (c.steady + 1) else 0 }
    let alertIn : State → Bool := fun t =>
      if s.inForce.alertMode = .criticalOnly then t.criticalLevel else s.alert
    let limit := s.settings.gearLimit
    (s.mooring i = none → x.state ≠ .rewinding →
      exec (.loadSampleArrival i raw) s = .next (s.setChannel i formed)) ∧
    (∀ r ∈ s.mooring i, v < r.criticalLimit → x.state ≠ .fast → x.state ≠ .heaving → x.state ≠ .rewinding →
      ∃ t, exec (.loadSampleArrival i raw) s = .next t ∧ s.OnlyAt t i ∧ s.sameCalls t ∧ t.permitsOk ∧
        t.mooring i = s.mooring i ∧ t.channel i = below r ∧ t.alert = alertIn t ∧
        t.station i = x ∧ t.units = s.units ∧ t.queue = s.queue) ∧
    (x.state = .heaving → ∀ r ∈ s.mooring i, v < r.criticalLimit →
      ∃ t, exec (.loadSampleArrival i raw) s = .next t ∧ s.OnlyAt t i ∧ s.sameCalls t ∧ t.permitsOk ∧
        t.mooring i = s.mooring i ∧ t.channel i = below r ∧ t.alert = alertIn t ∧
        (¬ ((r.slackLimit + r.highLimit) / 2 ≤ v ∧ (s.motionOf i).isSome = true) →
          t.station i = x ∧ t.units = s.units ∧ t.queue = s.queue) ∧
        ((r.slackLimit + r.highLimit) / 2 ≤ v → (s.motionOf i).isSome = true → ∀ u ∈ x.unit,
          (x.shut = false → t.station i = x.stopped .done (x.active.map ActiveOp.ended) limit ∧
            t.unit u = { s.unit u with stop := true }) ∧
          (x.shut = true → s.freed t u ∧ t.station i = (x.stoppedShut .done).rested .fast))) ∧
    (x.state = .rewinding → (∀ r ∈ s.mooring i, v < r.criticalLimit) →
      ∃ t, exec (.loadSampleArrival i raw) s = .next t ∧ s.OnlyAt t i ∧ s.sameCalls t ∧ t.permitsOk ∧
        t.mooring i = s.mooring i ∧ t.channel i = ((s.mooring i).map below).getD formed ∧
        (¬ (s.settings.snagLimit ≤ v ∧ (s.motionOf i).isSome = true) →
          t.station i = x ∧ t.units = s.units ∧ t.queue = s.queue ∧ t.alert = alertIn t) ∧
        (s.settings.snagLimit ≤ v → (s.motionOf i).isSome = true →
          t.alert = (if s.inForce.alertMode = .criticalOnly then t.criticalLevel
            else s.alertAfter i .snag) ∧
          ∀ u ∈ x.unit,
            (x.shut = false → t.station i = (x.stopped .snag none limit).noticing .snag ∧
              t.unit u = { s.unit u with stop := true }) ∧
            (x.shut = true → s.freed t u ∧
              t.station i = ((x.stoppedShut .snag).rested .released).noticing .snag)))

/-- The trim planner: target floor((L + H) / 2); error e = R - T for a render, T - R for a heave trim; nothing
to do for e ≤ 0; length ceil(e × k / 100), raised to 5, lowered to the step limit and to the room; no room below
5; count ceil(length × cpm / 100), at most 16,000, from an error product of at most 5,100,000. A critical render
starts from the step limit and is never nothing to do (R99, R100). -/
def Obligations.TrimsArePlanned : Prop :=
  ∀ (d : Direction) (reading : Nat) (r : Mooring) (cal : Calibration) (length : Nat),
    let target : Int := ((r.slackLimit + r.highLimit) / 2 : Nat)
    let e : Int := match d with
      | .outward => (reading : Int) - target
      | .inward => target - (reading : Int)
    let room : Int := match d with
      | .outward => (cal.maxPayout : Int) - length
      | .inward => (length : Int) - cal.minLength
    let answers : Int → PlanAnswer → Prop := fun wanted answer =>
      let n := min wanted room
      (n < 5 → answer = .noRoom) ∧
      (5 ≤ n → ∃ count, answer = .count count ∧
        n * cal.countsPerMetre ≤ count * 100 ∧ (count : Int) * 100 < n * cal.countsPerMetre + 100)
    (e ≤ 0 → planTrim d false reading r cal length = .nothingToDo) ∧
    (0 < e → ∀ raised : Int, e * r.compliance ≤ raised * 100 → raised * 100 < e * r.compliance + 100 →
      answers (min (max raised 5) r.stepLimit) (planTrim d false reading r cal length)) ∧
    (d = .outward → answers r.stepLimit (planTrim d true reading r cal length)) ∧
    (reading ≤ 20000 → r.slackLimit ≤ 20000 → r.highLimit ≤ 20000 → r.compliance ≤ 255 →
      e * r.compliance ≤ 5100000) ∧
    ∀ (critical : Bool) (n : Nat), planTrim d critical reading r cal length = .count n →
      r.stepLimit ≤ 400 → cal.countsPerMetre ≤ 4000 → n ≤ 16000

/-! ### Drive units and motions (chapters 5 and 6) -/

/-- READY for a granted unit is taken by the station: a TRIM by the planner's answer, a HEAVE by its target and
room, a SLACKEN or REWIND goes ahead. A motion that starts resets the stop cause, empties the window, starts the
motion timer and the unlock step and takes the unit to RUNNING; a motion that meets a limit or its terminal
condition on the position standing ends there, with LIMIT or DONE, and its lock step replaces the unlock step or
completes at its start; a grant given back frees the unit and ends the operation, with LIMIT raised for want of
room. READY for a unit that is not GRANTED changes nothing (R16, R98, R101, R103, R114 to R116, R124 to R126,
R151). That the heave target asks for a reading since the record was created is log 18; that the operation
stands through the lock step is log 14. -/
def Obligations.ReadyStartsOrGivesBack : Prop :=
  ∀ (s : State) (u : UnitId), s.Inv → s.phase = .running →
    ((s.unit u).state ≠ .granted → exec (.readyArrival u) s = .next s) ∧
    ∀ i ∈ (s.unit u).served, (s.unit u).state = .granted → ∀ a ∈ (s.station i).active,
      let x := s.station i
      let cal := s.calibration i
      let met := (s.channel i).readingSinceRecord = true ∧
        ∃ v ∈ (s.channel i).latest, ∃ r ∈ s.mooring i, r.target ≤ v
      let plan : Mooring → Option PlanAnswer := fun r =>
        match a.work with
        | .trim d critical =>
          some (planTrim d critical ((s.channel i).latest.getD 0) r cal x.length)
        | .heave | .slacken _ | .rewind => none
      let goes : Nat → Prop := fun n =>
        (∃ r ∈ s.mooring i, plan r = some (.count n)) ∨
        (n = 0 ∧ a.work = .heave ∧ ¬ met ∧ cal.minLength < x.length) ∨
        (n = 0 ∧ (a.work = .rewind ∨ a.work.opClass = .slacken))
      let roomless := (∃ r ∈ s.mooring i, plan r = some .noRoom) ∨
        (a.work = .heave ∧ ¬ met ∧ x.length ≤ cal.minLength)
      let idles := (∃ r ∈ s.mooring i, plan r = some .nothingToDo) ∨ (a.work = .heave ∧ met)
      ∃ t, exec (.readyArrival u) s = .next t ∧ s.OnlyAt t i ∧ t.permitsOk ∧
        (a.work ≠ .rewind → t.mooring i = s.mooring i ∧ s.sameCalls t) ∧
        (∀ n, goes n →
          let m : Motion := ⟨x.position.getD 0, x.length, n, 0⟩
          let m' := { m with remaining := a.work.leftToDo m (x.position.getD 0) x.length }
          a.work.atLimit cal x.state.moored (x.position.getD 0) x.length = false →
          a.work.terminal m' (x.position.getD 0) x.length s.settings.stowTolerance = false →
          let agreed := x.senLock = some .unlocked ∧ x.senClutch = some .engaged
          t.station i = { x.stepping .motionUnlock .unlocked .engaged s.settings.gearLimit with
            stopCause := .none
            motionTimer := some (if a.work = .rewind then s.settings.rewindLimit
              else s.settings.motionLimit)
            active := some { a with phase := .moving m' } } ∧
          t.unit u = { s.unit u with
            state := .running
            readyTimer := none
            stop := if agreed then false else (s.unit u).stop } ∧
          t.channel i = (s.channel i).emptied ∧ t.mooring i = s.mooring i ∧ s.callsKept t ∧
          t.alert = s.alert ∧ t.queue = s.queue) ∧
        (∀ n, goes n →
          let m : Motion := ⟨x.position.getD 0, x.length, n, 0⟩
          let m' := { m with remaining := a.work.leftToDo m (x.position.getD 0) x.length }
          let b := { a with phase := OpPhase.moving m' }
          let atLimit := a.work.atLimit cal x.state.moored (x.position.getD 0) x.length
          atLimit = true ∨
              a.work.terminal m' (x.position.getD 0) x.length s.settings.stowTolerance = true →
          let cause : StopCause := if atLimit then .limit else .done
          (x.shut = false →
            t.station i = x.stopped cause
              (some { a with work := b.remainingWork, phase := .ended m' }) s.settings.gearLimit ∧
            t.unit u = { s.unit u with state := .running, readyTimer := none, stop := true } ∧
            t.channel i = (s.channel i).emptied ∧ t.mooring i = s.mooring i ∧ s.callsKept t ∧
            t.alert = s.alert ∧ t.queue = s.queue) ∧
          (x.shut = true →
            let state := a.work.endState cause (x.resting.getD .fast)
            s.freed t u ∧ t.station i = (x.stoppedShut cause).rested state ∧
            t.mooring i = (if state = .stowed then none else s.mooring i) ∧
            (state ≠ .stowed →
              t.channel i = (s.channel i).entering state ∧ s.sameCalls t ∧ t.alert = s.alert))) ∧
        (roomless ∨ idles → ∀ state, (if a.work = .heave then state = .fast else x.resting = some state) →
          s.freed t u ∧ t.channel i = (s.channel i).entering state ∧
          t.station i = (if roomless then
            { (x.entered state).noticing .limit with unit := none, active := none }
          else { x.entered state with unit := none, active := none }) ∧
          t.alert = if roomless then s.alertAfter i .limit else s.alert)

/-- In a motion a drum position that reaches Pmax going out, or Pmin going in from a moored state, ends it with
LIMIT; one that meets the terminal condition ends it with DONE; any other works out what is left to do. The
motion timer's expiry ends it with TIMEOUT, discards the operation and raises TIMEOUT. At the end the drive is
told to stop and the lock step starts; where the gear is still shut it completes at its start, the unit is freed
and the station takes its end state (R8, R9, R16, R22, R124 to R127, R143). That the operation stands with its
station through the lock step after DONE and LIMIT, and is dropped after TIMEOUT, is log 14. -/
def Obligations.MotionsEnd : Prop :=
  ∀ (s : State) (i : StationId) (count : BitVec 24) (a : ActiveOp) (m : Motion) (u : UnitId), s.Inv →
    s.phase = .running → (s.station i).active = some a → a.phase = .moving m →
    (s.station i).unit = some u →
    let x := s.station i
    let cal := s.calibration i
    let raw := cal.rawLength count.toNat
    let P := min raw cal.maxPayout
    let y := x.measured cal count.toNat
    let m' := { m with remaining := a.work.leftToDo m count.toNat P }
    let b := { a with phase := OpPhase.moving m' }
    let atLimit := match a.work.direction with
      | .outward => decide (cal.maxPayout ≤ raw)
      | .inward => decide (a.work ≠ .rewind) && decide (P ≤ cal.minLength)
    let reached := match a.work with
      | .trim .outward _ => decide (m.startPosition + m.count ≤ count.toNat)
      | .trim .inward _ => decide (count.toNat + m.count ≤ m.startPosition)
      | .heave => false
      | .slacken n => decide (m.startLength + n ≤ P)
      | .rewind => decide (P ≤ s.settings.stowTolerance)
    let cause : StopCause := if atLimit then .limit else .done
    (∃ t, exec (.drumPositionArrival i count) s = .next t ∧ s.OnlyAt t i ∧ t.permitsOk ∧
      (atLimit = false → reached = false →
        t.station i = { y with active := some b } ∧ t.channel i = s.channel i ∧
        t.units = s.units ∧ t.queue = s.queue ∧ t.mooring i = s.mooring i ∧ s.callsKept t) ∧
      (atLimit = true ∨ reached = true →
        (x.shut = false →
          t.station i = y.stopped cause
            (some { a with work := b.remainingWork, phase := .ended m' }) s.settings.gearLimit ∧
          t.unit u = { s.unit u with stop := true } ∧ t.mooring i = s.mooring i ∧ s.callsKept t) ∧
        (x.shut = true →
          let state := a.work.endState cause (x.resting.getD .fast)
          s.freed t u ∧ t.station i = (y.stoppedShut cause).rested state ∧
          t.mooring i = if state = .stowed then none else s.mooring i)) ∧
      (cal.maxPayout < raw ∧ x.beyondPmax = false → s.inForce.alertMode ≠ .criticalOnly →
        t.alert = s.alertAfter i .limit)) ∧
    (∃ t, exec (.motionTimerExpiry i) s = .next t ∧ s.OnlyAt t i ∧ t.mooring i = s.mooring i ∧
      s.sameCalls t ∧ t.permitsOk ∧ t.alert = s.alertAfter i .timeout ∧
      (x.shut = false →
        t.station i = (x.stopped .timeout none s.settings.gearLimit).noticing .timeout ∧
        t.unit u = { s.unit u with stop := true }) ∧
      (x.shut = true → s.freed t u ∧
        t.station i = ((x.stoppedShut .timeout).rested
          (a.work.endState .timeout (x.resting.getD .fast))).noticing .timeout))

/-- A unit in GRANTED that is not ready in time, or whose fault input is asserted, goes to FAULTED and is
released from its station at once. A TRIM goes back to the head of its class and its station to the resting
state; a HEAVE, SLACKEN or REWIND is requeued once, at the head of its class, with retry-used yes and abandoned
at its second failure, with DRIVE-FAULT raised (R117 to R120, R123). -/
def Obligations.FailedGrantsAreRequeued : Prop :=
  ∀ (s : State) (u : UnitId) (c : Instr) (i : StationId) (a : ActiveOp), s.Inv →
    s.phase = .running → c = .readyTimerExpiry u ∨ c = .unitFaultAsserted u →
    (s.unit u).state = .granted → (s.unit u).served = some i → (s.station i).active = some a →
    let x := s.station i
    let z := { x with unit := none, active := none }
    let before := if c = .unitFaultAsserted u then s.setFaultInput u true else s
    ∃ t, exec c s = .next t ∧ t.unit u = .unserved .faulted ∧ before.OnlyAt t i ∧
      t.mooring i = s.mooring i ∧ s.sameCalls t ∧ t.permitsOk ∧
      t.alert = (s.alert || s.inForce.alertMode != .criticalOnly) ∧
      (a.work.isTrim = true → ∀ state ∈ x.resting,
        s.requeues t i (z.entered state) ⟨i, a.work, a.retryUsed⟩ ∧
        t.channel i = (s.channel i).entering state) ∧
      (a.work.isTrim = false → a.retryUsed = false →
        s.requeues t i z ⟨i, a.work, true⟩ ∧ t.channel i = s.channel i) ∧
      (a.work.isTrim = false → a.retryUsed = true →
        t.station i = (z.entered x.state.abandoned).noticing .driveFault ∧
        t.channel i = (s.channel i).entering x.state.abandoned)

/-- The fault input asserted: an IDLE unit goes to FAULTED; a RUNNING one goes to FAULTED with RUN deasserted,
keeps its station, raises DRIVE-FAULT there and ends a motion in progress with that cause, and where the gear is
still shut the lock step completes at its start and the failed operation is requeued at the head of its class,
abandoned, or, a TRIM, discarded; a FAULTED one stands. RESET-DRIVE returns an unserved FAULTED unit whose fault
input is deasserted to IDLE, where it may be granted at once; any other unit is refused with DRIVE-STATE (R111,
R113, R118, R119 to R123, R178). That the operation stands through the lock step is log 14. -/
def Obligations.UnitFaultsAndTheirReset : Prop :=
  ∀ (s : State) (u : UnitId), s.Inv → s.phase = .running →
    let asserted := s.setFaultInput u true
    let out : DriveUnit :=
      { s.unit u with state := .faulted, readyTimer := none, run := none, stop := true }
    let alert := s.alert || s.inForce.alertMode != .criticalOnly
    ((s.unit u).state = .faulted → exec (.unitFaultAsserted u) s = .next asserted) ∧
    ((s.unit u).state = .idle → exec (.unitFaultAsserted u) s =
      .next { asserted.setUnit u (.unserved .faulted) with alert := alert }) ∧
    ((s.unit u).state = .running → ∀ i ∈ (s.unit u).served,
      let x := (s.station i).noticing .driveFault
      (s.motionOf i = none → exec (.unitFaultAsserted u) s =
        .next { (asserted.setUnit u out).setStation i x with alert := alert }) ∧
      ((s.motionOf i).isSome = true → x.shut = false → exec (.unitFaultAsserted u) s =
        .next { (asserted.setUnit u out).setStation i (x.stopped .driveFault
          (x.active.map ActiveOp.ended) s.settings.gearLimit) with alert := alert }) ∧
      ((s.motionOf i).isSome = true → x.shut = true → ∀ a ∈ x.active,
        let z := x.stoppedShut .driveFault
        ∃ t, exec (.unitFaultAsserted u) s = .next t ∧ t.unit u = .unserved .faulted ∧
          asserted.OnlyAt t i ∧ t.mooring i = s.mooring i ∧ s.sameCalls t ∧ t.permitsOk ∧
          t.alert = alert ∧
          (a.work.isTrim = true → ∀ state ∈ x.resting,
            t.station i = z.rested state ∧ t.channel i = (s.channel i).entering state) ∧
          (a.work.isTrim = false → a.retryUsed = true →
            t.station i = z.rested x.state.abandoned ∧
            t.channel i = (s.channel i).entering x.state.abandoned) ∧
          (a.work.isTrim = false → a.retryUsed = false →
            s.requeues t i { z with unit := none, active := none } ⟨i, a.remainingWork, true⟩ ∧
            t.channel i = s.channel i))) ∧
    ∀ len unit : Byte, s.serves Command.resetDrive len →
      (3 < unit.toNat → exec (.resetDrive len unit) s = .next (s.refuse Command.resetDrive .driveState)) ∧
      (unit.toNat = u.val →
        ((s.unit u).state ≠ .faulted ∨ (s.unit u).served.isSome = true ∨ s.inputs.fault[u] = true →
          exec (.resetDrive len unit) s = .next (s.refuse Command.resetDrive .driveState)) ∧
        ((s.unit u).state = .faulted → (s.unit u).served = none → s.inputs.fault[u] = false →
          ∃ t, exec (.resetDrive len unit) s = .next t ∧
            (t.unit u = .unserved .idle ∨ (t.unit u).state = .granted) ∧
            (t.unit u = .unserved .idle → t.queue = [] ∨ s.hold = true) ∧
            (∀ v, v ≠ u → t.unit v = s.unit v) ∧ (∀ j, s.keptAt t j) ∧ s.callsKept t ∧
            t.backdrop = (s.respond Command.resetDrive .ok []).backdrop ∧
            t.alert = if s.inForce.alertMode = .follow then
                allUnits.any (fun v => v != u && (s.unit v).state == .faulted) ||
                  allStations.any (fun j => (s.station j).attention != .none)
              else s.alert))

/-- The drive queue stands in four runs, TRIM, HEAVE, SLACKEN, REWIND. A submission joins behind every request
of its own and the earlier classes, a requeue ahead of every request of its own and the later classes, and the
others keep their order. A grant gives the lowest-numbered IDLE unit to the head of the queue, with RUN, the
ready timer and the station's part in it, and is made exactly when a unit is IDLE, a request waits and the hold
is not in force (R109, R113, R114). -/
def Obligations.TheQueueGrantsInOrder : Prop :=
  (∀ (q : Request) (l : List Request),
    l.Pairwise (fun a b => a.work.opClass.run ≤ b.work.opClass.run) →
    insertTail q l = l.filter (fun p => p.work.opClass.run ≤ q.work.opClass.run) ++
      q :: l.filter (fun p => q.work.opClass.run < p.work.opClass.run) ∧
    insertHead q l = l.filter (fun p => p.work.opClass.run < q.work.opClass.run) ++
      q :: l.filter (fun p => q.work.opClass.run ≤ p.work.opClass.run)) ∧
  ∀ s : State,
    (s.hold = true ∨ s.queue = [] ∨ (∀ u, (s.unit u).state ≠ .idle) → s.grantOne = s) ∧
    ∀ q rest u, s.hold = false → s.queue = q :: rest → (s.unit u).state = .idle →
      (∀ v, v < u → (s.unit v).state ≠ .idle) →
      s.grantOne = (({ s with queue := rest }).setUnit u
        { state := .granted
          served := some q.station
          readyTimer := some s.settings.readyLimit
          run := some (q.station, q.work.direction)
          stop := true }).setStation q.station ((s.station q.station).granted u q)

/-! ### The hold and the pendant (chapter 8) -/

/-- The setting of the hold, by the HOLD input or by a HOLD-ALL frame, empties the queue and takes back the
grants; each station discards its TRIM and parks its HEAVE, SLACKEN or REWIND with the work left, and a motion
in progress ends with cause HOLD; where the gear is still shut its lock step completes at its start. A unit that
moves no drum stands unless it waits for READY. A setting that finds the hold in force changes nothing (R85,
R145 to R148). That an operation is dropped at the stop is log 14. -/
def Obligations.TheHoldParksTheWork : Prop :=
  ∀ (s : State) (c : Instr) (before : State), s.Inv →
    ((c = .holdInputAsserted ∧ s.phase = .running ∧
        before = { s with inputs := { s.inputs with hold := true } }) ∨
      (∃ len, c = .holdAll false len ∧ s.serves Command.holdAll len ∧
        before = s.respond Command.holdAll .ok []) ∨
      (∃ len, c = .holdAll true len ∧ s.serves Command.holdAll len ∧ before = s)) →
    (s.hold = true → exec c s = .next before) ∧
    (s.hold = false →
      ∃ t, exec c s = .next t ∧ t.backdrop = { before with hold := true }.backdrop ∧ t.queue = [] ∧
        s.sameCalls t ∧ t.permitsOk ∧ t.alert = s.alert ∧
        (∀ u, (s.unit u).state = .granted → t.unit u = .unserved .idle) ∧
        (∀ u, (s.unit u).state ≠ .granted → (∀ i ∈ (s.unit u).served, s.motionOf i = none) →
          t.unit u = s.unit u) ∧
        ∀ i, t.mooring i = s.mooring i ∧
          let x := s.station i
          let parks : Work → Bool → Option ParkedOp := fun w r => if w.isTrim then none else some ⟨w, r⟩
          t.channel i = (if x.active.any (fun a =>
              a.work.isTrim && (a.isGranted || (a.moving?.isSome && x.shut))) then
            (s.channel i).entering (x.resting.getD .fast) else s.channel i) ∧
          (x.active = none → t.station i =
            match s.requestOf i with
            | none => x
            | some q => { x with parked := parks q.work q.retryUsed }) ∧
          ∀ a ∈ x.active,
            (a.isAwaiting = true →
              t.station i = { x with active := none, parked := parks a.work a.retryUsed }) ∧
            (a.isGranted = true → t.station i = { x with
              unit := none
              active := none
              parked := parks a.work a.retryUsed
              state := if a.work.isTrim then x.resting.getD .fast else x.state
              resting := none }) ∧
            (a.isGranted = false → a.isAwaiting = false → a.moving? = none → t.station i = x) ∧
            (a.moving?.isSome = true → x.shut = false → t.station i =
              { x with parked := parks a.remainingWork a.retryUsed }.stopped .hold none
                s.settings.gearLimit ∧
              ∀ u ∈ x.unit, t.unit u = { s.unit u with stop := true }) ∧
            (a.moving?.isSome = true → x.shut = true →
              t.station i = (if a.work.isTrim then (x.stoppedShut .hold).rested (x.resting.getD .fast)
                else { x.stoppedShut .hold with
                  unit := none, active := none, parked := some ⟨a.remainingWork, a.retryUsed⟩ }) ∧
              ∀ u ∈ x.unit, t.unit u = .unserved .idle))

/-- RESUME-ALL clears the hold while the HOLD input is deasserted: each station with a parked operation submits
it, in ascending order within its class, but for a station in LOCAL; the units are granted within the
acceptance. With the input asserted a unicast is refused with HOLD and a broadcast ignored; with no hold in
force nothing changes (R145, R146, R150). A station whose lock step is still in flight submits at its
completion: log 16. -/
def Obligations.ResumingSubmitsTheParked : Prop :=
  ∀ (s : State) (broadcast : Bool) (len : Byte) (before : State), s.Inv →
    s.serves Command.resumeAll len →
    before = (if broadcast then s else s.respond Command.resumeAll .ok []) →
    let c := Instr.resumeAll broadcast len
    (s.inputs.hold = true → exec c s = .next (if broadcast then s else s.refuse Command.resumeAll .hold)) ∧
    (s.inputs.hold = false → s.hold = false → exec c s = .next before) ∧
    (s.inputs.hold = false → s.hold = true →
      ∃ t, exec c s = .next t ∧ t.backdrop = { before with hold := false }.backdrop ∧
        t.alert = s.alert ∧ s.callsKept t ∧ t.channels = s.channels ∧ t.moorings = s.moorings ∧
        t.queue.Pairwise (fun p q => p.work.opClass.run < q.work.opClass.run ∨
          (p.work.opClass = q.work.opClass ∧ p.station < q.station)) ∧
        ∀ i,
          (∀ p ∈ (s.station i).parked, (s.station i).state ≠ .inLocal →
            (s.station i).unit = none →
            t.asks i { s.station i with parked := none } ⟨i, p.work, p.retryUsed⟩) ∧
          ((s.station i).parked = none ∨ (s.station i).state = .inLocal ∨
            (s.station i).unit.isSome = true →
            t.station i = s.station i ∧ t.requestOf i = none))

/-- The take-over input asserted outside UNKNOWN, FAULT and LOCAL takes the station to LOCAL: its TRIM is
discarded, its HEAVE, SLACKEN or REWIND parked with the work left, a motion in progress stopped with cause
TAKE-OVER and the lock commanded LOCKED, its unit freed, its step ended, and the return state recorded with the
take-over timer. In UNKNOWN, FAULT and LOCAL only the level changes. The timer's expiry makes a record stale,
raises STALE and discards the parked operation (R153, R154, R156, R38). In the lock step after a DRIVE-FAULT a
first failure is parked with its flag as it stands, a second discarded: log 17. -/
def Obligations.TakeOversParkTheWork : Prop :=
  ∀ (s : State) (i : StationId), s.Inv → s.phase = .running →
    let x := s.station i
    let before := s.setTakeOverInput i true
    let held : Option ParkedOp :=
      match x.active, s.requestOf i with
      | some a, _ =>
        if a.work.isTrim = true then none
        else match a.phase with
          | .awaiting | .granted | .moving _ => some ⟨a.remainingWork, a.retryUsed⟩
          | .ended _ =>
            if x.stopCause = .driveFault ∧ a.retryUsed = false then some ⟨a.work, a.retryUsed⟩
            else none
      | none, some q => if q.work.isTrim = true then none else some ⟨q.work, q.retryUsed⟩
      | none, none => x.parked
    let returns : LineState :=
      match x.state with
      | .fast | .heaving => .fast
      | .trimming => x.resting.getD .fast
      | .easing | .eased => .eased
      | other => other
    let moves := (s.motionOf i).isSome
    (x.state = .unknown ∨ x.state = .fault ∨ x.state = .inLocal →
      exec (.takeOverAsserted i) s = .next before) ∧
    (x.state ≠ .unknown → x.state ≠ .fault → x.state ≠ .inLocal →
      ∃ t, exec (.takeOverAsserted i) s = .next t ∧
        t.station i = { x with
          state := .inLocal
          resting := none
          unit := none
          active := none
          parked := held
          motionTimer := none
          step := none
          gearTimer := none
          stopCause := if moves then .takeOver else x.stopCause
          cmdLock := if moves then .locked else x.cmdLock
          cmdClutch := if moves then some .engaged else x.cmdClutch
          takeOver := some ⟨returns, some s.settings.takeOverLimit⟩ } ∧
        t.channel i = (s.channel i).leftBand ∧ t.mooring i = s.mooring i ∧ t.requestOf i = none ∧
        (∀ u ∈ x.unit, s.freed t u) ∧ s.sameCalls t ∧ t.permitsOk ∧ t.alert = s.alert ∧
        before.OnlyAt t i) ∧
    (x.takeOver.any (fun o => o.timer.isSome) = true →
      let y := { x with takeOver := x.takeOver.map (fun o => { o with timer := none }), parked := none }
      exec (.takeOverTimerExpiry i) s = .next
        (match s.mooring i with
        | none => s.setStation i y
        | some r => { (s.setStation i (y.noticing .stale)).setMooring i (some { r with stale := true }) with
            alert := s.alertAfter i .stale }))

/-- The end of a take-over: a pending sensor fault that still stands takes the station to FAULT. Else the return
state is taken where the sensed clutch and P bear it out, and the first fitting state of R21 where they do not,
a record taken to FAST that way becoming stale. PAYING and RELEASED take the sensed gear as commanded; the other
states start the hand-back step. A parked operation that the state takes back is submitted, or stays parked
under the hold, and is else discarded (R20, R157, R158). In UNKNOWN and FAULT only the level changes (R154). A
station that submits nothing leaves queue and units as they stand, and the channel stands. -/
def Obligations.TakeOversEndByTheGear : Prop :=
  ∀ (s : State) (i : StationId), s.Inv → s.phase = .running →
    let x := s.station i
    let before := s.setTakeOverInput i false
    let out := decide (s.settings.stowTolerance < x.length)
    let engaged := x.senClutch == some .engaged
    let stands : LineState → Bool := fun state =>
      match state with
      | .fast | .eased | .rewinding => engaged
      | .outUnclaimed => engaged && out
      | .paying => !engaged
      | .released => true
      | .stowed => engaged && !out
      | .unknown | .heaving | .trimming | .easing | .inLocal | .fault => false
    let listed : LineState :=
      if (s.mooring i).isSome ∧ engaged then .fast
      else if ¬ engaged then .released
      else if out then .outUnclaimed
      else .stowed
    let rewinds := x.parked.any (fun p => p.work == .rewind)
    (x.state ≠ .inLocal → exec (.takeOverEnded i) s = .next before) ∧
    ∀ o ∈ x.takeOver,
      ∃ t, exec (.takeOverEnded i) s = .next t ∧ before.OnlyAt t i ∧ s.sameCalls t ∧ t.permitsOk ∧
        t.channel i = s.channel i ∧
        (s.sensorFaultStands i = true → t.station i = x.faulted .sensor .sensor ∧
          t.mooring i = s.mooring i ∧ t.alert = s.alertAfter i .sensor ∧ t.queue = s.queue ∧
          t.units = s.units) ∧
        (s.sensorFaultStands i = false →
          let state : LineState :=
            if stands o.returnState then
              if o.returnState = .rewinding ∧ rewinds = false then .released else o.returnState
            else listed
          let y := { x.entered state with takeOver := none, pendingSensorFault := false }
          let geared := if state = .paying ∨ state = .released then
              { y with cmdLock := x.senLock.getD x.cmdLock, cmdClutch := x.senClutch }
            else y.stepping .handBack .locked .engaged s.settings.gearLimit
          (t.mooring i = if stands o.returnState = false ∧ state = .fast then
              (s.mooring i).map (fun r => { r with stale := true })
            else s.mooring i) ∧
          t.alert = s.alert ∧
          match x.parked with
          | none => t.station i = geared ∧ t.queue = s.queue ∧ t.units = s.units
          | some p =>
            match resumeState state p.work with
            | none => t.station i = { geared with parked := none } ∧ t.queue = s.queue ∧ t.units = s.units
            | some goes =>
              if s.hold then t.station i = geared.entered goes ∧ t.queue = s.queue ∧ t.units = s.units
              else s.submits t i { geared.entered goes with parked := none } ⟨i, p.work, p.retryUsed⟩)

/-! ### Locks, stored values and levels (chapter 9) -/

/-- LOCK-QUARTER locks one quarter and starts the write of the lock group with all four locks; on a locked
quarter it changes nothing. UNLOCK-ALL clears the four under KEY. QUERY-LOCKS reports the locks and the write in
flight. A quarter above 3 is refused with BAD-WINDOW, a missing KEY with KEY-ABSENT, a write in flight with
STORE-BUSY (R160, R161, R163). The bytes of the lock report are those of 10 section 10.5; that bits 4 to 7 of
its first byte read 0 is log 19. -/
def Obligations.QuarterLocksAreSetAndCleared : Prop :=
  ∀ (s : State) (len : Byte),
    (∀ quarter : Byte, s.serves Command.lockQuarter len →
      (3 < quarter.toNat →
        exec (.lockQuarter len quarter) s = .next (s.refuse Command.lockQuarter .badWindow)) ∧
      ∀ q : Fin 4, quarter.toNat = q.val →
        exec (.lockQuarter len quarter) s = .next
          (if s.write.isSome then s.refuse Command.lockQuarter .storeBusy
          else if s.inForce.locks[q] then s.respond Command.lockQuarter .ok []
          else { s with
            inForce := { s.inForce with locks := s.inForce.locks.set q.val true q.isLt }
            write := some (.locks (s.inForce.locks.set q.val true q.isLt)) }.respond
              Command.lockQuarter .ok [])) ∧
    (s.serves Command.unlockAll len →
      exec (.unlockAll len) s = .next
        (if s.inputs.key = false then s.refuse Command.unlockAll .keyAbsent
        else if s.write.isSome then s.refuse Command.unlockAll .storeBusy
        else if ∀ q : Fin 4, s.inForce.locks[q] = false then s.respond Command.unlockAll .ok []
        else { s with
          inForce := { s.inForce with locks := .replicate 4 false }
          write := some (.locks (.replicate 4 false)) }.respond Command.unlockAll .ok [])) ∧
    (s.serves Command.queryLocks len →
      ∃ bits : Byte, (∀ q : Fin 4, bits.getLsbD q.val = s.inForce.locks[q]) ∧ bits.toNat < 16 ∧
        exec (.queryLocks len) s = .next (s.respond Command.queryLocks .ok
          (match s.write with
          | none => [bits, 0, 0xFF]
          | some (.locks _) => [bits, 1, 0xFF]
          | some (.station i _) => [bits, 2, BitVec.ofNat 8 i.val]
          | some (.settings _) => [bits, 3, 0xFF]
          | some (.alert _ _) => [bits, 4, 0xFF])))

/-- CALIBRATE-STATION puts a station's clamped calibration in force, empties its decimation sum when D changes,
works out P and the beyond-Pmax flag afresh and starts the write of the group. SET-LIMITS puts the clamped
settings in force and starts their write; running timers keep their limits. Both need KEY and no write in
flight. The completion of a write puts its group in the store and changes no value in force (R10, R75, R164 to
R167). A completion with no write in flight changes nothing: log 11. -/
def Obligations.StoredValuesChange : Prop :=
  ∀ (s : State) (len : Byte), s.Inv →
    (∀ (st : Byte) (f : CalibrationFields) (i : StationId), s.serves Command.calibrateStation len →
      stationOf st = some i → (s.station i).state ≠ .unknown →
      let pmax := max 500 (min f.maxPayout.toNat 12000)
      let pmin := max 50 (min f.minLength.toNat 2000)
      let new : Calibration :=
        { zero := f.zero.toNat
          scale := f.scale.toNat
          decimation := max 4 (min f.decimation.toNat 64)
          countsPerMetre := max 100 (min f.countsPerMetre.toNat 4000)
          stowPosition := f.stowPosition.toNat
          maxPayout := pmax
          minLength := min pmin (pmax - 1) }
      let c := s.channel i
      let x := s.station i
      let count := x.position.getD 0
      exec (.calibrateStation len st f) s = .next
        (if s.inputs.key = false then s.refuse Command.calibrateStation .keyAbsent
        else if s.write.isSome then s.refuse Command.calibrateStation .storeBusy
        else ({ (s.setStation i (x.measured new count)).setChannel i
            (if new.decimation = (s.calibration i).decimation then c
            else { c with sum := 0, count := 0 }) with
          inForce := { s.inForce with
            calibrations := s.inForce.calibrations.set i.val new i.isLt }
          write := some (.station i new)
          alert := if new.maxPayout < new.rawLength count ∧ x.beyondPmax = false then
              s.alertAfter i .limit else s.alert }).respond Command.calibrateStation .ok [])) ∧
    (∀ f : LimitFields, s.serves Command.setLimits len →
      let new : Settings :=
        { stowTolerance := max 5 (min f.stowTolerance.toNat 100)
          takeOverLimit := max 10 (min f.takeOverLimit.toNat 600)
          readyLimit := max 100 (min f.readyLimit.toNat 10000)
          motionLimit := max 5 (min f.motionLimit.toNat 120)
          rewindLimit := max 30 (min f.rewindLimit.toNat 900)
          gearLimit := max 200 (min f.gearLimit.toNat 3000)
          snagLimit := max 50 (min f.snagLimit.toNat 2000) }
      exec (.setLimits len f) s = .next
        (if s.inputs.key = false then s.refuse Command.setLimits .keyAbsent
        else if s.write.isSome then s.refuse Command.setLimits .storeBusy
        else ({ s with
          inForce := { s.inForce with settings := new }
          write := some (.settings new) }).respond Command.setLimits .ok [])) ∧
    exec .storeWriteComplete s = .next
      (match s.write with
      | none => s
      | some (.locks v) => { s with store := { s.store with locks := v }, write := none }
      | some (.station i v) => { s with
          store := { s.store with calibrations := s.store.calibrations.set i.val v i.isLt }
          write := none }
      | some (.settings v) => { s with store := { s.store with settings := v }, write := none }
      | some (.alert m p) =>
        { s with store := { s.store with alertMode := m, alertPolarity := p }, write := none })

/-- The deassertion of HOLD, a change of KEY and the deassertion of a unit's fault input change a level and
nothing else (R66, R111, R145). Before the part is at work so do the other inputs (R181). A timer that does not
run does not expire: log 11. That levels alone follow their events without power is log 5. -/
def Obligations.LevelsAndStoppedTimers : Prop :=
  ∀ s : State, s.Inv →
    exec .holdInputDeasserted s = .next { s with inputs := { s.inputs with hold := false } } ∧
    (∀ level, exec (.keyChange level) s = .next { s with inputs := { s.inputs with key := level } }) ∧
    (∀ u, exec (.unitFaultDeasserted u) s = .next (s.setFaultInput u false)) ∧
    (s.phase ≠ .running →
      exec .holdInputAsserted s = .next { s with inputs := { s.inputs with hold := true } } ∧
      (∀ u, exec (.unitFaultAsserted u) s = .next (s.setFaultInput u true)) ∧
      ∀ i, exec (.takeOverAsserted i) s = .next (s.setTakeOverInput i true) ∧
        exec (.takeOverEnded i) s = .next (s.setTakeOverInput i false)) ∧
    (∀ i, (s.station i).gearTimer = none → exec (.gearTimerExpiry i) s = .next s) ∧
    (∀ i, (s.station i).motionTimer = none → exec (.motionTimerExpiry i) s = .next s) ∧
    (∀ i, (s.station i).takeOver.any (fun o => o.timer.isSome) = false →
      exec (.takeOverTimerExpiry i) s = .next s) ∧
    ∀ u, (s.unit u).readyTimer = none → exec (.readyTimerExpiry u) s = .next s

/-! ### What holds at all times -/

/-- The state after reset meets every invariant; every station is in UNKNOWN with its lock commanded LOCKED, the
tables and the queue are empty, every unit is IDLE with RUN deasserted and stop asserted, and the permits, the
hold, the error latch and the ALERT state are clear (R2, R28, R47, R69, R109, R111, R181). The ALERT output is
high (R177). The model's choices: the store is blank and the inputs are quiet, logs 2 and 4; no response is
under transmission and no RESTART pending, log 7; no command waits, log 1. -/
def Obligations.ResetMeetsEveryInvariant : Prop :=
  State.reset.Inv ∧ State.reset.phase = .reading ∧ State.reset.store = .factory ∧
    (∀ i, (State.reset.station i).state = .unknown ∧ (State.reset.station i).cmdLock = .locked ∧
      (State.reset.station i).length = 0 ∧ (State.reset.station i).attention = .none ∧
      State.reset.mooring i = none ∧ State.reset.channel i = .afterReset) ∧
    (∀ u, State.reset.unit u = .unserved .idle) ∧ State.reset.calls = [] ∧
    State.reset.queue = [] ∧ State.reset.permitA = false ∧ State.reset.permitB = false ∧
    State.reset.inputs = .quiet ∧ State.reset.alertOutputHigh = true ∧
    State.reset.tx = none ∧ State.reset.restartPending = false ∧
    State.reset.hold = false ∧ State.reset.latch = none ∧ State.reset.alert = false ∧
    State.reset.pending = []

/-- Every step keeps the call table as R28, R47, R48, R56, R57 and R61 say: at most four calls and two on a
berth, tags distinct, at most one active call on a berth, every record in exactly one list, on the call's berth,
the permits at what the calls say, and every call where its evaluation leaves it. That evaluations come at the
end of the event is log 13. -/
def Obligations.EveryStepKeepsTheCallTable : Prop :=
  ∀ s t : State, s.Inv → step s = .next t → t.CallsOk

/-- Every step keeps the records and the gear: a record in every moored state and none in UNKNOWN, STOWED,
PAYING and OUT-UNCLAIMED, its fields in range; a return state exactly in LOCAL and a resting state exactly in
TRIMMING; steps and waits under the gear timer and toward the commanded gear; and before the store read
completes everything volatile at its reset value (R3, R4, R11 to R15, R25, R27, R91, R153, R181). The model's
choices in it: a part without power stands at its reset values, log 5; no response and no pending RESTART before
the store read completes, log 7; the resting state stands through the lock step, log 14. -/
def Obligations.EveryStepKeepsRecordsAndGear : Prop :=
  ∀ s t : State, s.Inv → step s = .next t → t.RecordsOk ∧ t.GearOk ∧ t.RestOk

/-- Every step keeps the drive: at most one request or operation at a station and in the state that carries it
out, the queue in its four runs and empty under the hold, units and stations naming each other, a unit's outputs
fitting its state, the drum held still but in motion, and no request waiting beside an IDLE unit unless the hold
is in force (R108, R109, R111 to R114, R126, R147, R148, R151). That grants come at the end of the event is log
12; that an operation stands through its lock step is log 14. -/
def Obligations.EveryStepKeepsTheDrive : Prop :=
  ∀ s t : State, s.Inv → step s = .next t →
    t.WorkOk ∧ t.QueueOk ∧ t.UnitsOk ∧ t.GrantsOk ∧ t.DriveOk

/-- Every step keeps the channels in their ranges, the window empty outside FAST and TRIMMING and never longer
than W, the steady counter 0 outside them and under a stale record, and no critical finding at a station without
a record; the stored values in their ranges; and the ALERT state at the level of its sources in FOLLOW and
CRITICAL-ONLY mode (R69, R80, R81, R83, R85 to R87, R164, R178). -/
def Obligations.EveryStepKeepsChannelsStoreAndAlert : Prop :=
  ∀ s t : State, s.Inv → step s = .next t → t.ChannelsOk ∧ t.StoredOk ∧ t.AlertOk

/-- Within a step a station moves only along the line state machine of R3. UNKNOWN is entered at power-on and
RESTART (R181) and at POWER_LOSS, which is log 5. Every other change of state is one that the table of R3 gives
with the rules it names (the end of a take-over is R157), or two of them in one event: HEAVING to FAST and, by
the grant of a render that follows, to TRIMMING (R96, R113); UNKNOWN or FAULT to the state found and from it to
LOCAL, the take-over input being asserted (R154, R184); LOCAL to FAST or EASED and, with the parked operation
going on, to HEAVING or EASING (R158). That grants come at the end of the event is log 12. -/
def Obligations.StationsMoveAsTheTableAllows : Prop :=
  ∀ (s t : State) (c : Instr) (rest : List Instr) (i : StationId), s.Inv → s.pending = c :: rest →
    step s = .next t →
    let moves : LineState → List LineState := fun state =>
      match state with
      | .unknown => [.stowed, .released, .outUnclaimed, .inLocal, .fault]
      | .stowed => [.paying, .inLocal, .fault]
      | .paying => [.heaving, .rewinding, .inLocal, .fault]
      | .heaving => [.fast, .trimming, .released, .inLocal, .fault]
      | .fast => [.trimming, .easing, .released, .inLocal, .fault]
      | .trimming => [.fast, .eased, .released, .inLocal, .fault]
      | .easing => [.eased, .released, .inLocal, .fault]
      | .eased => [.fast, .easing, .trimming, .released, .inLocal, .fault]
      | .released => [.rewinding, .inLocal, .fault]
      | .rewinding => [.stowed, .released, .inLocal, .fault]
      | .inLocal => [.stowed, .paying, .heaving, .fast, .easing, .eased, .released, .rewinding,
          .outUnclaimed, .fault]
      | .outUnclaimed => [.fast, .released, .inLocal, .fault]
      | .fault => [.stowed, .fast, .released, .outUnclaimed, .inLocal]
    (t.station i).state = (s.station i).state ∨
      (t.station i).state ∈ moves (s.station i).state ∨
      ((t.station i).state = .unknown ∧ (c = .powerLoss ∨ c = .powerOn ∨ c = .restartBegin))
end

