-- ==== Sys2Proof/Laws/State.lean ====
section
/-! SUPPORT. The small laws of the state: what a read gives after an update of one record or one field. They
are simp lemmas, so that no proof unfolds an update. -/

namespace Sys2Proof.Machine

variable (s : State) (i j : StationId) (u v : UnitId)

/-! ### A record read back -/

@[simp] theorem State.station_setStation_self (x : Station) : (s.setStation i x).station i = x := by
  simp [State.setStation, State.station]
@[simp] theorem State.channel_setChannel_self (x : Channel) : (s.setChannel i x).channel i = x := by
  simp [State.setChannel, State.channel]
@[simp] theorem State.mooring_setMooring_self (x : Option Mooring) :
    (s.setMooring i x).mooring i = x := by
  simp [State.setMooring, State.mooring]
@[simp] theorem State.unit_setUnit_self (x : DriveUnit) : (s.setUnit u x).unit u = x := by
  simp [State.setUnit, State.unit]

variable {i j u v} in
theorem State.station_setStation_of_ne (x : Station) (h : j ≠ i) :
    (s.setStation i x).station j = s.station j := by
  simp [State.setStation, State.station, Fin.val_inj, h.symm]
variable {i j u v} in
theorem State.channel_setChannel_of_ne (x : Channel) (h : j ≠ i) :
    (s.setChannel i x).channel j = s.channel j := by
  simp [State.setChannel, State.channel, Fin.val_inj, h.symm]
variable {i j u v} in
theorem State.mooring_setMooring_of_ne (x : Option Mooring) (h : j ≠ i) :
    (s.setMooring i x).mooring j = s.mooring j := by
  simp [State.setMooring, State.mooring, Fin.val_inj, h.symm]
variable {i j u v} in
theorem State.unit_setUnit_of_ne (x : DriveUnit) (h : v ≠ u) :
    (s.setUnit u x).unit v = s.unit v := by
  simp [State.setUnit, State.unit, Fin.val_inj, h.symm]

theorem State.station_setStation (x : Station) :
    (s.setStation i x).station j = if j = i then x else s.station j := by
  split <;> simp_all [State.station_setStation_of_ne]
theorem State.channel_setChannel (x : Channel) :
    (s.setChannel i x).channel j = if j = i then x else s.channel j := by
  split <;> simp_all [State.channel_setChannel_of_ne]
theorem State.mooring_setMooring (x : Option Mooring) :
    (s.setMooring i x).mooring j = if j = i then x else s.mooring j := by
  split <;> simp_all [State.mooring_setMooring_of_ne]
theorem State.unit_setUnit (x : DriveUnit) :
    (s.setUnit u x).unit v = if v = u then x else s.unit v := by
  split <;> simp_all [State.unit_setUnit_of_ne]

theorem State.station_onStation (f : Station → Station) :
    (s.onStation i f).station j = if j = i then f (s.station i) else s.station j :=
  s.station_setStation i j _
theorem State.channel_onChannel (f : Channel → Channel) :
    (s.onChannel i f).channel j = if j = i then f (s.channel i) else s.channel j :=
  s.channel_setChannel i j _
theorem State.unit_onUnit (f : DriveUnit → DriveUnit) :
    (s.onUnit u f).unit v = if v = u then f (s.unit u) else s.unit v :=
  s.unit_setUnit u v _

@[simp] theorem State.station_onStation_self (f : Station → Station) :
    (s.onStation i f).station i = f (s.station i) := s.station_setStation_self i _
@[simp] theorem State.channel_onChannel_self (f : Channel → Channel) :
    (s.onChannel i f).channel i = f (s.channel i) := s.channel_setChannel_self i _
@[simp] theorem State.unit_onUnit_self (f : DriveUnit → DriveUnit) :
    (s.onUnit u f).unit u = f (s.unit u) := s.unit_setUnit_self u _

/-! ### The fields and records an update of another record leaves alone -/

@[simp] theorem State.setStation_phase (x : Station) : (s.setStation i x).phase = s.phase := rfl
@[simp] theorem State.setStation_restartPending (x : Station) :
    (s.setStation i x).restartPending = s.restartPending := rfl
@[simp] theorem State.setStation_channels (x : Station) : (s.setStation i x).channels = s.channels := rfl
@[simp] theorem State.setStation_moorings (x : Station) : (s.setStation i x).moorings = s.moorings := rfl
@[simp] theorem State.setStation_calls (x : Station) : (s.setStation i x).calls = s.calls := rfl
@[simp] theorem State.setStation_permitA (x : Station) : (s.setStation i x).permitA = s.permitA := rfl
@[simp] theorem State.setStation_permitB (x : Station) : (s.setStation i x).permitB = s.permitB := rfl
@[simp] theorem State.setStation_queue (x : Station) : (s.setStation i x).queue = s.queue := rfl
@[simp] theorem State.setStation_units (x : Station) : (s.setStation i x).units = s.units := rfl
@[simp] theorem State.setStation_hold (x : Station) : (s.setStation i x).hold = s.hold := rfl
@[simp] theorem State.setStation_inForce (x : Station) : (s.setStation i x).inForce = s.inForce := rfl
@[simp] theorem State.setStation_store (x : Station) : (s.setStation i x).store = s.store := rfl
@[simp] theorem State.setStation_write (x : Station) : (s.setStation i x).write = s.write := rfl
@[simp] theorem State.setStation_latch (x : Station) : (s.setStation i x).latch = s.latch := rfl
@[simp] theorem State.setStation_alert (x : Station) : (s.setStation i x).alert = s.alert := rfl
@[simp] theorem State.setStation_unitAddress (x : Station) :
    (s.setStation i x).unitAddress = s.unitAddress := rfl
@[simp] theorem State.setStation_bitRate (x : Station) : (s.setStation i x).bitRate = s.bitRate := rfl
@[simp] theorem State.setStation_rx (x : Station) : (s.setStation i x).rx = s.rx := rfl
@[simp] theorem State.setStation_tx (x : Station) : (s.setStation i x).tx = s.tx := rfl
@[simp] theorem State.setStation_inputs (x : Station) : (s.setStation i x).inputs = s.inputs := rfl
@[simp] theorem State.setStation_pending (x : Station) : (s.setStation i x).pending = s.pending := rfl
@[simp] theorem State.setStation_channel (x : Station) (j : StationId) :
    (s.setStation i x).channel j = s.channel j := rfl
@[simp] theorem State.setStation_mooring (x : Station) (j : StationId) :
    (s.setStation i x).mooring j = s.mooring j := rfl
@[simp] theorem State.setStation_unit (x : Station) (v : UnitId) : (s.setStation i x).unit v = s.unit v := rfl
@[simp] theorem State.setStation_calibration (x : Station) (j : StationId) :
    (s.setStation i x).calibration j = s.calibration j := rfl
@[simp] theorem State.setStation_settings (x : Station) : (s.setStation i x).settings = s.settings := rfl
@[simp] theorem State.setStation_requestOf (x : Station) (j : StationId) :
    (s.setStation i x).requestOf j = s.requestOf j := rfl
@[simp] theorem State.setStation_callOf (x : Station) (tag : Nat) :
    (s.setStation i x).callOf tag = s.callOf tag := rfl
@[simp] theorem State.setStation_quarterLocked (x : Station) (j : StationId) :
    (s.setStation i x).quarterLocked j = s.quarterLocked j := rfl
@[simp] theorem State.setChannel_phase (x : Channel) : (s.setChannel i x).phase = s.phase := rfl
@[simp] theorem State.setChannel_restartPending (x : Channel) :
    (s.setChannel i x).restartPending = s.restartPending := rfl
@[simp] theorem State.setChannel_stations (x : Channel) : (s.setChannel i x).stations = s.stations := rfl
@[simp] theorem State.setChannel_moorings (x : Channel) : (s.setChannel i x).moorings = s.moorings := rfl
@[simp] theorem State.setChannel_calls (x : Channel) : (s.setChannel i x).calls = s.calls := rfl
@[simp] theorem State.setChannel_permitA (x : Channel) : (s.setChannel i x).permitA = s.permitA := rfl
@[simp] theorem State.setChannel_permitB (x : Channel) : (s.setChannel i x).permitB = s.permitB := rfl
@[simp] theorem State.setChannel_queue (x : Channel) : (s.setChannel i x).queue = s.queue := rfl
@[simp] theorem State.setChannel_units (x : Channel) : (s.setChannel i x).units = s.units := rfl
@[simp] theorem State.setChannel_hold (x : Channel) : (s.setChannel i x).hold = s.hold := rfl
@[simp] theorem State.setChannel_inForce (x : Channel) : (s.setChannel i x).inForce = s.inForce := rfl
@[simp] theorem State.setChannel_store (x : Channel) : (s.setChannel i x).store = s.store := rfl
@[simp] theorem State.setChannel_write (x : Channel) : (s.setChannel i x).write = s.write := rfl
@[simp] theorem State.setChannel_latch (x : Channel) : (s.setChannel i x).latch = s.latch := rfl
@[simp] theorem State.setChannel_alert (x : Channel) : (s.setChannel i x).alert = s.alert := rfl
@[simp] theorem State.setChannel_unitAddress (x : Channel) :
    (s.setChannel i x).unitAddress = s.unitAddress := rfl
@[simp] theorem State.setChannel_bitRate (x : Channel) : (s.setChannel i x).bitRate = s.bitRate := rfl
@[simp] theorem State.setChannel_rx (x : Channel) : (s.setChannel i x).rx = s.rx := rfl
@[simp] theorem State.setChannel_tx (x : Channel) : (s.setChannel i x).tx = s.tx := rfl
@[simp] theorem State.setChannel_inputs (x : Channel) : (s.setChannel i x).inputs = s.inputs := rfl
@[simp] theorem State.setChannel_pending (x : Channel) : (s.setChannel i x).pending = s.pending := rfl
@[simp] theorem State.setChannel_station (x : Channel) (j : StationId) :
    (s.setChannel i x).station j = s.station j := rfl
@[simp] theorem State.setChannel_mooring (x : Channel) (j : StationId) :
    (s.setChannel i x).mooring j = s.mooring j := rfl
@[simp] theorem State.setChannel_unit (x : Channel) (v : UnitId) : (s.setChannel i x).unit v = s.unit v := rfl
@[simp] theorem State.setChannel_calibration (x : Channel) (j : StationId) :
    (s.setChannel i x).calibration j = s.calibration j := rfl
@[simp] theorem State.setChannel_settings (x : Channel) : (s.setChannel i x).settings = s.settings := rfl
@[simp] theorem State.setChannel_requestOf (x : Channel) (j : StationId) :
    (s.setChannel i x).requestOf j = s.requestOf j := rfl
@[simp] theorem State.setChannel_callOf (x : Channel) (tag : Nat) :
    (s.setChannel i x).callOf tag = s.callOf tag := rfl
@[simp] theorem State.setChannel_quarterLocked (x : Channel) (j : StationId) :
    (s.setChannel i x).quarterLocked j = s.quarterLocked j := rfl
@[simp] theorem State.setMooring_phase (x : Option Mooring) : (s.setMooring i x).phase = s.phase := rfl
@[simp] theorem State.setMooring_restartPending (x : Option Mooring) :
    (s.setMooring i x).restartPending = s.restartPending := rfl
@[simp] theorem State.setMooring_stations (x : Option Mooring) :
    (s.setMooring i x).stations = s.stations := rfl
@[simp] theorem State.setMooring_channels (x : Option Mooring) :
    (s.setMooring i x).channels = s.channels := rfl
@[simp] theorem State.setMooring_calls (x : Option Mooring) : (s.setMooring i x).calls = s.calls := rfl
@[simp] theorem State.setMooring_permitA (x : Option Mooring) : (s.setMooring i x).permitA = s.permitA := rfl
@[simp] theorem State.setMooring_permitB (x : Option Mooring) : (s.setMooring i x).permitB = s.permitB := rfl
@[simp] theorem State.setMooring_queue (x : Option Mooring) : (s.setMooring i x).queue = s.queue := rfl
@[simp] theorem State.setMooring_units (x : Option Mooring) : (s.setMooring i x).units = s.units := rfl
@[simp] theorem State.setMooring_hold (x : Option Mooring) : (s.setMooring i x).hold = s.hold := rfl
@[simp] theorem State.setMooring_inForce (x : Option Mooring) : (s.setMooring i x).inForce = s.inForce := rfl
@[simp] theorem State.setMooring_store (x : Option Mooring) : (s.setMooring i x).store = s.store := rfl
@[simp] theorem State.setMooring_write (x : Option Mooring) : (s.setMooring i x).write = s.write := rfl
@[simp] theorem State.setMooring_latch (x : Option Mooring) : (s.setMooring i x).latch = s.latch := rfl
@[simp] theorem State.setMooring_alert (x : Option Mooring) : (s.setMooring i x).alert = s.alert := rfl
@[simp] theorem State.setMooring_unitAddress (x : Option Mooring) :
    (s.setMooring i x).unitAddress = s.unitAddress := rfl
@[simp] theorem State.setMooring_bitRate (x : Option Mooring) : (s.setMooring i x).bitRate = s.bitRate := rfl
@[simp] theorem State.setMooring_rx (x : Option Mooring) : (s.setMooring i x).rx = s.rx := rfl
@[simp] theorem State.setMooring_tx (x : Option Mooring) : (s.setMooring i x).tx = s.tx := rfl
@[simp] theorem State.setMooring_inputs (x : Option Mooring) : (s.setMooring i x).inputs = s.inputs := rfl
@[simp] theorem State.setMooring_pending (x : Option Mooring) : (s.setMooring i x).pending = s.pending := rfl
@[simp] theorem State.setMooring_station (x : Option Mooring) (j : StationId) :
    (s.setMooring i x).station j = s.station j := rfl
@[simp] theorem State.setMooring_channel (x : Option Mooring) (j : StationId) :
    (s.setMooring i x).channel j = s.channel j := rfl
@[simp] theorem State.setMooring_unit (x : Option Mooring) (v : UnitId) :
    (s.setMooring i x).unit v = s.unit v := rfl
@[simp] theorem State.setMooring_calibration (x : Option Mooring) (j : StationId) :
    (s.setMooring i x).calibration j = s.calibration j := rfl
@[simp] theorem State.setMooring_settings (x : Option Mooring) :
    (s.setMooring i x).settings = s.settings := rfl
@[simp] theorem State.setMooring_requestOf (x : Option Mooring) (j : StationId) :
    (s.setMooring i x).requestOf j = s.requestOf j := rfl
@[simp] theorem State.setMooring_callOf (x : Option Mooring) (tag : Nat) :
    (s.setMooring i x).callOf tag = s.callOf tag := rfl
@[simp] theorem State.setMooring_quarterLocked (x : Option Mooring) (j : StationId) :
    (s.setMooring i x).quarterLocked j = s.quarterLocked j := rfl
@[simp] theorem State.setUnit_phase (x : DriveUnit) : (s.setUnit u x).phase = s.phase := rfl
@[simp] theorem State.setUnit_restartPending (x : DriveUnit) :
    (s.setUnit u x).restartPending = s.restartPending := rfl
@[simp] theorem State.setUnit_stations (x : DriveUnit) : (s.setUnit u x).stations = s.stations := rfl
@[simp] theorem State.setUnit_channels (x : DriveUnit) : (s.setUnit u x).channels = s.channels := rfl
@[simp] theorem State.setUnit_moorings (x : DriveUnit) : (s.setUnit u x).moorings = s.moorings := rfl
@[simp] theorem State.setUnit_calls (x : DriveUnit) : (s.setUnit u x).calls = s.calls := rfl
@[simp] theorem State.setUnit_permitA (x : DriveUnit) : (s.setUnit u x).permitA = s.permitA := rfl
@[simp] theorem State.setUnit_permitB (x : DriveUnit) : (s.setUnit u x).permitB = s.permitB := rfl
@[simp] theorem State.setUnit_queue (x : DriveUnit) : (s.setUnit u x).queue = s.queue := rfl
@[simp] theorem State.setUnit_hold (x : DriveUnit) : (s.setUnit u x).hold = s.hold := rfl
@[simp] theorem State.setUnit_inForce (x : DriveUnit) : (s.setUnit u x).inForce = s.inForce := rfl
@[simp] theorem State.setUnit_store (x : DriveUnit) : (s.setUnit u x).store = s.store := rfl
@[simp] theorem State.setUnit_write (x : DriveUnit) : (s.setUnit u x).write = s.write := rfl
@[simp] theorem State.setUnit_latch (x : DriveUnit) : (s.setUnit u x).latch = s.latch := rfl
@[simp] theorem State.setUnit_alert (x : DriveUnit) : (s.setUnit u x).alert = s.alert := rfl
@[simp] theorem State.setUnit_unitAddress (x : DriveUnit) : (s.setUnit u x).unitAddress = s.unitAddress := rfl
@[simp] theorem State.setUnit_bitRate (x : DriveUnit) : (s.setUnit u x).bitRate = s.bitRate := rfl
@[simp] theorem State.setUnit_rx (x : DriveUnit) : (s.setUnit u x).rx = s.rx := rfl
@[simp] theorem State.setUnit_tx (x : DriveUnit) : (s.setUnit u x).tx = s.tx := rfl
@[simp] theorem State.setUnit_inputs (x : DriveUnit) : (s.setUnit u x).inputs = s.inputs := rfl
@[simp] theorem State.setUnit_pending (x : DriveUnit) : (s.setUnit u x).pending = s.pending := rfl
@[simp] theorem State.setUnit_station (x : DriveUnit) (j : StationId) :
    (s.setUnit u x).station j = s.station j := rfl
@[simp] theorem State.setUnit_channel (x : DriveUnit) (j : StationId) :
    (s.setUnit u x).channel j = s.channel j := rfl
@[simp] theorem State.setUnit_mooring (x : DriveUnit) (j : StationId) :
    (s.setUnit u x).mooring j = s.mooring j := rfl
@[simp] theorem State.setUnit_calibration (x : DriveUnit) (j : StationId) :
    (s.setUnit u x).calibration j = s.calibration j := rfl
@[simp] theorem State.setUnit_settings (x : DriveUnit) : (s.setUnit u x).settings = s.settings := rfl
@[simp] theorem State.setUnit_requestOf (x : DriveUnit) (j : StationId) :
    (s.setUnit u x).requestOf j = s.requestOf j := rfl
@[simp] theorem State.setUnit_callOf (x : DriveUnit) (tag : Nat) :
    (s.setUnit u x).callOf tag = s.callOf tag := rfl
@[simp] theorem State.setUnit_quarterLocked (x : DriveUnit) (j : StationId) :
    (s.setUnit u x).quarterLocked j = s.quarterLocked j := rfl
@[simp] theorem State.onStation_phase (f : Station → Station) : (s.onStation i f).phase = s.phase := rfl
@[simp] theorem State.onStation_restartPending (f : Station → Station) :
    (s.onStation i f).restartPending = s.restartPending := rfl
@[simp] theorem State.onStation_channels (f : Station → Station) :
    (s.onStation i f).channels = s.channels := rfl
@[simp] theorem State.onStation_moorings (f : Station → Station) :
    (s.onStation i f).moorings = s.moorings := rfl
@[simp] theorem State.onStation_calls (f : Station → Station) : (s.onStation i f).calls = s.calls := rfl
@[simp] theorem State.onStation_permitA (f : Station → Station) : (s.onStation i f).permitA = s.permitA := rfl
@[simp] theorem State.onStation_permitB (f : Station → Station) : (s.onStation i f).permitB = s.permitB := rfl
@[simp] theorem State.onStation_queue (f : Station → Station) : (s.onStation i f).queue = s.queue := rfl
@[simp] theorem State.onStation_units (f : Station → Station) : (s.onStation i f).units = s.units := rfl
@[simp] theorem State.onStation_hold (f : Station → Station) : (s.onStation i f).hold = s.hold := rfl
@[simp] theorem State.onStation_inForce (f : Station → Station) : (s.onStation i f).inForce = s.inForce := rfl
@[simp] theorem State.onStation_store (f : Station → Station) : (s.onStation i f).store = s.store := rfl
@[simp] theorem State.onStation_write (f : Station → Station) : (s.onStation i f).write = s.write := rfl
@[simp] theorem State.onStation_latch (f : Station → Station) : (s.onStation i f).latch = s.latch := rfl
@[simp] theorem State.onStation_alert (f : Station → Station) : (s.onStation i f).alert = s.alert := rfl
@[simp] theorem State.onStation_unitAddress (f : Station → Station) :
    (s.onStation i f).unitAddress = s.unitAddress := rfl
@[simp] theorem State.onStation_bitRate (f : Station → Station) : (s.onStation i f).bitRate = s.bitRate := rfl
@[simp] theorem State.onStation_rx (f : Station → Station) : (s.onStation i f).rx = s.rx := rfl
@[simp] theorem State.onStation_tx (f : Station → Station) : (s.onStation i f).tx = s.tx := rfl
@[simp] theorem State.onStation_inputs (f : Station → Station) : (s.onStation i f).inputs = s.inputs := rfl
@[simp] theorem State.onStation_pending (f : Station → Station) : (s.onStation i f).pending = s.pending := rfl
@[simp] theorem State.onStation_channel (f : Station → Station) (j : StationId) :
    (s.onStation i f).channel j = s.channel j := rfl
@[simp] theorem State.onStation_mooring (f : Station → Station) (j : StationId) :
    (s.onStation i f).mooring j = s.mooring j := rfl
@[simp] theorem State.onStation_unit (f : Station → Station) (v : UnitId) :
    (s.onStation i f).unit v = s.unit v := rfl
@[simp] theorem State.onStation_calibration (f : Station → Station) (j : StationId) :
    (s.onStation i f).calibration j = s.calibration j := rfl
@[simp] theorem State.onStation_settings (f : Station → Station) :
    (s.onStation i f).settings = s.settings := rfl
@[simp] theorem State.onStation_requestOf (f : Station → Station) (j : StationId) :
    (s.onStation i f).requestOf j = s.requestOf j := rfl
@[simp] theorem State.onStation_callOf (f : Station → Station) (tag : Nat) :
    (s.onStation i f).callOf tag = s.callOf tag := rfl
@[simp] theorem State.onStation_quarterLocked (f : Station → Station) (j : StationId) :
    (s.onStation i f).quarterLocked j = s.quarterLocked j := rfl
@[simp] theorem State.onChannel_phase (f : Channel → Channel) : (s.onChannel i f).phase = s.phase := rfl
@[simp] theorem State.onChannel_restartPending (f : Channel → Channel) :
    (s.onChannel i f).restartPending = s.restartPending := rfl
@[simp] theorem State.onChannel_stations (f : Channel → Channel) :
    (s.onChannel i f).stations = s.stations := rfl
@[simp] theorem State.onChannel_moorings (f : Channel → Channel) :
    (s.onChannel i f).moorings = s.moorings := rfl
@[simp] theorem State.onChannel_calls (f : Channel → Channel) : (s.onChannel i f).calls = s.calls := rfl
@[simp] theorem State.onChannel_permitA (f : Channel → Channel) : (s.onChannel i f).permitA = s.permitA := rfl
@[simp] theorem State.onChannel_permitB (f : Channel → Channel) : (s.onChannel i f).permitB = s.permitB := rfl
@[simp] theorem State.onChannel_queue (f : Channel → Channel) : (s.onChannel i f).queue = s.queue := rfl
@[simp] theorem State.onChannel_units (f : Channel → Channel) : (s.onChannel i f).units = s.units := rfl
@[simp] theorem State.onChannel_hold (f : Channel → Channel) : (s.onChannel i f).hold = s.hold := rfl
@[simp] theorem State.onChannel_inForce (f : Channel → Channel) : (s.onChannel i f).inForce = s.inForce := rfl
@[simp] theorem State.onChannel_store (f : Channel → Channel) : (s.onChannel i f).store = s.store := rfl
@[simp] theorem State.onChannel_write (f : Channel → Channel) : (s.onChannel i f).write = s.write := rfl
@[simp] theorem State.onChannel_latch (f : Channel → Channel) : (s.onChannel i f).latch = s.latch := rfl
@[simp] theorem State.onChannel_alert (f : Channel → Channel) : (s.onChannel i f).alert = s.alert := rfl
@[simp] theorem State.onChannel_unitAddress (f : Channel → Channel) :
    (s.onChannel i f).unitAddress = s.unitAddress := rfl
@[simp] theorem State.onChannel_bitRate (f : Channel → Channel) : (s.onChannel i f).bitRate = s.bitRate := rfl
@[simp] theorem State.onChannel_rx (f : Channel → Channel) : (s.onChannel i f).rx = s.rx := rfl
@[simp] theorem State.onChannel_tx (f : Channel → Channel) : (s.onChannel i f).tx = s.tx := rfl
@[simp] theorem State.onChannel_inputs (f : Channel → Channel) : (s.onChannel i f).inputs = s.inputs := rfl
@[simp] theorem State.onChannel_pending (f : Channel → Channel) : (s.onChannel i f).pending = s.pending := rfl
@[simp] theorem State.onChannel_station (f : Channel → Channel) (j : StationId) :
    (s.onChannel i f).station j = s.station j := rfl
@[simp] theorem State.onChannel_mooring (f : Channel → Channel) (j : StationId) :
    (s.onChannel i f).mooring j = s.mooring j := rfl
@[simp] theorem State.onChannel_unit (f : Channel → Channel) (v : UnitId) :
    (s.onChannel i f).unit v = s.unit v := rfl
@[simp] theorem State.onChannel_calibration (f : Channel → Channel) (j : StationId) :
    (s.onChannel i f).calibration j = s.calibration j := rfl
@[simp] theorem State.onChannel_settings (f : Channel → Channel) :
    (s.onChannel i f).settings = s.settings := rfl
@[simp] theorem State.onChannel_requestOf (f : Channel → Channel) (j : StationId) :
    (s.onChannel i f).requestOf j = s.requestOf j := rfl
@[simp] theorem State.onChannel_callOf (f : Channel → Channel) (tag : Nat) :
    (s.onChannel i f).callOf tag = s.callOf tag := rfl
@[simp] theorem State.onChannel_quarterLocked (f : Channel → Channel) (j : StationId) :
    (s.onChannel i f).quarterLocked j = s.quarterLocked j := rfl
@[simp] theorem State.onUnit_phase (f : DriveUnit → DriveUnit) : (s.onUnit u f).phase = s.phase := rfl
@[simp] theorem State.onUnit_restartPending (f : DriveUnit → DriveUnit) :
    (s.onUnit u f).restartPending = s.restartPending := rfl
@[simp] theorem State.onUnit_stations (f : DriveUnit → DriveUnit) :
    (s.onUnit u f).stations = s.stations := rfl
@[simp] theorem State.onUnit_channels (f : DriveUnit → DriveUnit) :
    (s.onUnit u f).channels = s.channels := rfl
@[simp] theorem State.onUnit_moorings (f : DriveUnit → DriveUnit) :
    (s.onUnit u f).moorings = s.moorings := rfl
@[simp] theorem State.onUnit_calls (f : DriveUnit → DriveUnit) : (s.onUnit u f).calls = s.calls := rfl
@[simp] theorem State.onUnit_permitA (f : DriveUnit → DriveUnit) : (s.onUnit u f).permitA = s.permitA := rfl
@[simp] theorem State.onUnit_permitB (f : DriveUnit → DriveUnit) : (s.onUnit u f).permitB = s.permitB := rfl
@[simp] theorem State.onUnit_queue (f : DriveUnit → DriveUnit) : (s.onUnit u f).queue = s.queue := rfl
@[simp] theorem State.onUnit_hold (f : DriveUnit → DriveUnit) : (s.onUnit u f).hold = s.hold := rfl
@[simp] theorem State.onUnit_inForce (f : DriveUnit → DriveUnit) : (s.onUnit u f).inForce = s.inForce := rfl
@[simp] theorem State.onUnit_store (f : DriveUnit → DriveUnit) : (s.onUnit u f).store = s.store := rfl
@[simp] theorem State.onUnit_write (f : DriveUnit → DriveUnit) : (s.onUnit u f).write = s.write := rfl
@[simp] theorem State.onUnit_latch (f : DriveUnit → DriveUnit) : (s.onUnit u f).latch = s.latch := rfl
@[simp] theorem State.onUnit_alert (f : DriveUnit → DriveUnit) : (s.onUnit u f).alert = s.alert := rfl
@[simp] theorem State.onUnit_unitAddress (f : DriveUnit → DriveUnit) :
    (s.onUnit u f).unitAddress = s.unitAddress := rfl
@[simp] theorem State.onUnit_bitRate (f : DriveUnit → DriveUnit) : (s.onUnit u f).bitRate = s.bitRate := rfl
@[simp] theorem State.onUnit_rx (f : DriveUnit → DriveUnit) : (s.onUnit u f).rx = s.rx := rfl
@[simp] theorem State.onUnit_tx (f : DriveUnit → DriveUnit) : (s.onUnit u f).tx = s.tx := rfl
@[simp] theorem State.onUnit_inputs (f : DriveUnit → DriveUnit) : (s.onUnit u f).inputs = s.inputs := rfl
@[simp] theorem State.onUnit_pending (f : DriveUnit → DriveUnit) : (s.onUnit u f).pending = s.pending := rfl
@[simp] theorem State.onUnit_station (f : DriveUnit → DriveUnit) (j : StationId) :
    (s.onUnit u f).station j = s.station j := rfl
@[simp] theorem State.onUnit_channel (f : DriveUnit → DriveUnit) (j : StationId) :
    (s.onUnit u f).channel j = s.channel j := rfl
@[simp] theorem State.onUnit_mooring (f : DriveUnit → DriveUnit) (j : StationId) :
    (s.onUnit u f).mooring j = s.mooring j := rfl
@[simp] theorem State.onUnit_calibration (f : DriveUnit → DriveUnit) (j : StationId) :
    (s.onUnit u f).calibration j = s.calibration j := rfl
@[simp] theorem State.onUnit_settings (f : DriveUnit → DriveUnit) :
    (s.onUnit u f).settings = s.settings := rfl
@[simp] theorem State.onUnit_requestOf (f : DriveUnit → DriveUnit) (j : StationId) :
    (s.onUnit u f).requestOf j = s.requestOf j := rfl
@[simp] theorem State.onUnit_callOf (f : DriveUnit → DriveUnit) (tag : Nat) :
    (s.onUnit u f).callOf tag = s.callOf tag := rfl
@[simp] theorem State.onUnit_quarterLocked (f : DriveUnit → DriveUnit) (j : StationId) :
    (s.onUnit u f).quarterLocked j = s.quarterLocked j := rfl

/-! ### The records an update of one field leaves alone -/

@[simp] theorem State.with_phase_station (x : Phase) (j : StationId) :
    ({ s with phase := x } : State).station j = s.station j := rfl
@[simp] theorem State.with_phase_channel (x : Phase) (j : StationId) :
    ({ s with phase := x } : State).channel j = s.channel j := rfl
@[simp] theorem State.with_phase_mooring (x : Phase) (j : StationId) :
    ({ s with phase := x } : State).mooring j = s.mooring j := rfl
@[simp] theorem State.with_phase_unit (x : Phase) (v : UnitId) :
    ({ s with phase := x } : State).unit v = s.unit v := rfl
@[simp] theorem State.with_phase_calibration (x : Phase) (j : StationId) :
    ({ s with phase := x } : State).calibration j = s.calibration j := rfl
@[simp] theorem State.with_phase_settings (x : Phase) :
    ({ s with phase := x } : State).settings = s.settings := rfl
@[simp] theorem State.with_phase_requestOf (x : Phase) (j : StationId) :
    ({ s with phase := x } : State).requestOf j = s.requestOf j := rfl
@[simp] theorem State.with_phase_callOf (x : Phase) (tag : Nat) :
    ({ s with phase := x } : State).callOf tag = s.callOf tag := rfl
@[simp] theorem State.with_phase_quarterLocked (x : Phase) (j : StationId) :
    ({ s with phase := x } : State).quarterLocked j = s.quarterLocked j := rfl
@[simp] theorem State.with_restartPending_station (x : Bool) (j : StationId) :
    ({ s with restartPending := x } : State).station j = s.station j := rfl
@[simp] theorem State.with_restartPending_channel (x : Bool) (j : StationId) :
    ({ s with restartPending := x } : State).channel j = s.channel j := rfl
@[simp] theorem State.with_restartPending_mooring (x : Bool) (j : StationId) :
    ({ s with restartPending := x } : State).mooring j = s.mooring j := rfl
@[simp] theorem State.with_restartPending_unit (x : Bool) (v : UnitId) :
    ({ s with restartPending := x } : State).unit v = s.unit v := rfl
@[simp] theorem State.with_restartPending_calibration (x : Bool) (j : StationId) :
    ({ s with restartPending := x } : State).calibration j = s.calibration j := rfl
@[simp] theorem State.with_restartPending_settings (x : Bool) :
    ({ s with restartPending := x } : State).settings = s.settings := rfl
@[simp] theorem State.with_restartPending_requestOf (x : Bool) (j : StationId) :
    ({ s with restartPending := x } : State).requestOf j = s.requestOf j := rfl
@[simp] theorem State.with_restartPending_callOf (x : Bool) (tag : Nat) :
    ({ s with restartPending := x } : State).callOf tag = s.callOf tag := rfl
@[simp] theorem State.with_restartPending_quarterLocked (x : Bool) (j : StationId) :
    ({ s with restartPending := x } : State).quarterLocked j = s.quarterLocked j := rfl
@[simp] theorem State.with_calls_station (x : List Call) (j : StationId) :
    ({ s with calls := x } : State).station j = s.station j := rfl
@[simp] theorem State.with_calls_channel (x : List Call) (j : StationId) :
    ({ s with calls := x } : State).channel j = s.channel j := rfl
@[simp] theorem State.with_calls_mooring (x : List Call) (j : StationId) :
    ({ s with calls := x } : State).mooring j = s.mooring j := rfl
@[simp] theorem State.with_calls_unit (x : List Call) (v : UnitId) :
    ({ s with calls := x } : State).unit v = s.unit v := rfl
@[simp] theorem State.with_calls_calibration (x : List Call) (j : StationId) :
    ({ s with calls := x } : State).calibration j = s.calibration j := rfl
@[simp] theorem State.with_calls_settings (x : List Call) :
    ({ s with calls := x } : State).settings = s.settings := rfl
@[simp] theorem State.with_calls_requestOf (x : List Call) (j : StationId) :
    ({ s with calls := x } : State).requestOf j = s.requestOf j := rfl
@[simp] theorem State.with_calls_quarterLocked (x : List Call) (j : StationId) :
    ({ s with calls := x } : State).quarterLocked j = s.quarterLocked j := rfl
@[simp] theorem State.with_permitA_station (x : Bool) (j : StationId) :
    ({ s with permitA := x } : State).station j = s.station j := rfl
@[simp] theorem State.with_permitA_channel (x : Bool) (j : StationId) :
    ({ s with permitA := x } : State).channel j = s.channel j := rfl
@[simp] theorem State.with_permitA_mooring (x : Bool) (j : StationId) :
    ({ s with permitA := x } : State).mooring j = s.mooring j := rfl
@[simp] theorem State.with_permitA_unit (x : Bool) (v : UnitId) :
    ({ s with permitA := x } : State).unit v = s.unit v := rfl
@[simp] theorem State.with_permitA_calibration (x : Bool) (j : StationId) :
    ({ s with permitA := x } : State).calibration j = s.calibration j := rfl
@[simp] theorem State.with_permitA_settings (x : Bool) :
    ({ s with permitA := x } : State).settings = s.settings := rfl
@[simp] theorem State.with_permitA_requestOf (x : Bool) (j : StationId) :
    ({ s with permitA := x } : State).requestOf j = s.requestOf j := rfl
@[simp] theorem State.with_permitA_callOf (x : Bool) (tag : Nat) :
    ({ s with permitA := x } : State).callOf tag = s.callOf tag := rfl
@[simp] theorem State.with_permitA_quarterLocked (x : Bool) (j : StationId) :
    ({ s with permitA := x } : State).quarterLocked j = s.quarterLocked j := rfl
@[simp] theorem State.with_permitB_station (x : Bool) (j : StationId) :
    ({ s with permitB := x } : State).station j = s.station j := rfl
@[simp] theorem State.with_permitB_channel (x : Bool) (j : StationId) :
    ({ s with permitB := x } : State).channel j = s.channel j := rfl
@[simp] theorem State.with_permitB_mooring (x : Bool) (j : StationId) :
    ({ s with permitB := x } : State).mooring j = s.mooring j := rfl
@[simp] theorem State.with_permitB_unit (x : Bool) (v : UnitId) :
    ({ s with permitB := x } : State).unit v = s.unit v := rfl
@[simp] theorem State.with_permitB_calibration (x : Bool) (j : StationId) :
    ({ s with permitB := x } : State).calibration j = s.calibration j := rfl
@[simp] theorem State.with_permitB_settings (x : Bool) :
    ({ s with permitB := x } : State).settings = s.settings := rfl
@[simp] theorem State.with_permitB_requestOf (x : Bool) (j : StationId) :
    ({ s with permitB := x } : State).requestOf j = s.requestOf j := rfl
@[simp] theorem State.with_permitB_callOf (x : Bool) (tag : Nat) :
    ({ s with permitB := x } : State).callOf tag = s.callOf tag := rfl
@[simp] theorem State.with_permitB_quarterLocked (x : Bool) (j : StationId) :
    ({ s with permitB := x } : State).quarterLocked j = s.quarterLocked j := rfl
@[simp] theorem State.with_queue_station (x : List Request) (j : StationId) :
    ({ s with queue := x } : State).station j = s.station j := rfl
@[simp] theorem State.with_queue_channel (x : List Request) (j : StationId) :
    ({ s with queue := x } : State).channel j = s.channel j := rfl
@[simp] theorem State.with_queue_mooring (x : List Request) (j : StationId) :
    ({ s with queue := x } : State).mooring j = s.mooring j := rfl
@[simp] theorem State.with_queue_unit (x : List Request) (v : UnitId) :
    ({ s with queue := x } : State).unit v = s.unit v := rfl
@[simp] theorem State.with_queue_calibration (x : List Request) (j : StationId) :
    ({ s with queue := x } : State).calibration j = s.calibration j := rfl
@[simp] theorem State.with_queue_settings (x : List Request) :
    ({ s with queue := x } : State).settings = s.settings := rfl
@[simp] theorem State.with_queue_callOf (x : List Request) (tag : Nat) :
    ({ s with queue := x } : State).callOf tag = s.callOf tag := rfl
@[simp] theorem State.with_queue_quarterLocked (x : List Request) (j : StationId) :
    ({ s with queue := x } : State).quarterLocked j = s.quarterLocked j := rfl
@[simp] theorem State.with_hold_station (x : Bool) (j : StationId) :
    ({ s with hold := x } : State).station j = s.station j := rfl
@[simp] theorem State.with_hold_channel (x : Bool) (j : StationId) :
    ({ s with hold := x } : State).channel j = s.channel j := rfl
@[simp] theorem State.with_hold_mooring (x : Bool) (j : StationId) :
    ({ s with hold := x } : State).mooring j = s.mooring j := rfl
@[simp] theorem State.with_hold_unit (x : Bool) (v : UnitId) :
    ({ s with hold := x } : State).unit v = s.unit v := rfl
@[simp] theorem State.with_hold_calibration (x : Bool) (j : StationId) :
    ({ s with hold := x } : State).calibration j = s.calibration j := rfl
@[simp] theorem State.with_hold_settings (x : Bool) :
    ({ s with hold := x } : State).settings = s.settings := rfl
@[simp] theorem State.with_hold_requestOf (x : Bool) (j : StationId) :
    ({ s with hold := x } : State).requestOf j = s.requestOf j := rfl
@[simp] theorem State.with_hold_callOf (x : Bool) (tag : Nat) :
    ({ s with hold := x } : State).callOf tag = s.callOf tag := rfl
@[simp] theorem State.with_hold_quarterLocked (x : Bool) (j : StationId) :
    ({ s with hold := x } : State).quarterLocked j = s.quarterLocked j := rfl
@[simp] theorem State.with_inForce_station (x : Groups) (j : StationId) :
    ({ s with inForce := x } : State).station j = s.station j := rfl
@[simp] theorem State.with_inForce_channel (x : Groups) (j : StationId) :
    ({ s with inForce := x } : State).channel j = s.channel j := rfl
@[simp] theorem State.with_inForce_mooring (x : Groups) (j : StationId) :
    ({ s with inForce := x } : State).mooring j = s.mooring j := rfl
@[simp] theorem State.with_inForce_unit (x : Groups) (v : UnitId) :
    ({ s with inForce := x } : State).unit v = s.unit v := rfl
@[simp] theorem State.with_inForce_requestOf (x : Groups) (j : StationId) :
    ({ s with inForce := x } : State).requestOf j = s.requestOf j := rfl
@[simp] theorem State.with_inForce_callOf (x : Groups) (tag : Nat) :
    ({ s with inForce := x } : State).callOf tag = s.callOf tag := rfl
@[simp] theorem State.with_store_station (x : Groups) (j : StationId) :
    ({ s with store := x } : State).station j = s.station j := rfl
@[simp] theorem State.with_store_channel (x : Groups) (j : StationId) :
    ({ s with store := x } : State).channel j = s.channel j := rfl
@[simp] theorem State.with_store_mooring (x : Groups) (j : StationId) :
    ({ s with store := x } : State).mooring j = s.mooring j := rfl
@[simp] theorem State.with_store_unit (x : Groups) (v : UnitId) :
    ({ s with store := x } : State).unit v = s.unit v := rfl
@[simp] theorem State.with_store_calibration (x : Groups) (j : StationId) :
    ({ s with store := x } : State).calibration j = s.calibration j := rfl
@[simp] theorem State.with_store_settings (x : Groups) :
    ({ s with store := x } : State).settings = s.settings := rfl
@[simp] theorem State.with_store_requestOf (x : Groups) (j : StationId) :
    ({ s with store := x } : State).requestOf j = s.requestOf j := rfl
@[simp] theorem State.with_store_callOf (x : Groups) (tag : Nat) :
    ({ s with store := x } : State).callOf tag = s.callOf tag := rfl
@[simp] theorem State.with_store_quarterLocked (x : Groups) (j : StationId) :
    ({ s with store := x } : State).quarterLocked j = s.quarterLocked j := rfl
@[simp] theorem State.with_write_station (x : Option GroupWrite) (j : StationId) :
    ({ s with write := x } : State).station j = s.station j := rfl
@[simp] theorem State.with_write_channel (x : Option GroupWrite) (j : StationId) :
    ({ s with write := x } : State).channel j = s.channel j := rfl
@[simp] theorem State.with_write_mooring (x : Option GroupWrite) (j : StationId) :
    ({ s with write := x } : State).mooring j = s.mooring j := rfl
@[simp] theorem State.with_write_unit (x : Option GroupWrite) (v : UnitId) :
    ({ s with write := x } : State).unit v = s.unit v := rfl
@[simp] theorem State.with_write_calibration (x : Option GroupWrite) (j : StationId) :
    ({ s with write := x } : State).calibration j = s.calibration j := rfl
@[simp] theorem State.with_write_settings (x : Option GroupWrite) :
    ({ s with write := x } : State).settings = s.settings := rfl
@[simp] theorem State.with_write_requestOf (x : Option GroupWrite) (j : StationId) :
    ({ s with write := x } : State).requestOf j = s.requestOf j := rfl
@[simp] theorem State.with_write_callOf (x : Option GroupWrite) (tag : Nat) :
    ({ s with write := x } : State).callOf tag = s.callOf tag := rfl
@[simp] theorem State.with_write_quarterLocked (x : Option GroupWrite) (j : StationId) :
    ({ s with write := x } : State).quarterLocked j = s.quarterLocked j := rfl
@[simp] theorem State.with_latch_station (x : Option Status) (j : StationId) :
    ({ s with latch := x } : State).station j = s.station j := rfl
@[simp] theorem State.with_latch_channel (x : Option Status) (j : StationId) :
    ({ s with latch := x } : State).channel j = s.channel j := rfl
@[simp] theorem State.with_latch_mooring (x : Option Status) (j : StationId) :
    ({ s with latch := x } : State).mooring j = s.mooring j := rfl
@[simp] theorem State.with_latch_unit (x : Option Status) (v : UnitId) :
    ({ s with latch := x } : State).unit v = s.unit v := rfl
@[simp] theorem State.with_latch_calibration (x : Option Status) (j : StationId) :
    ({ s with latch := x } : State).calibration j = s.calibration j := rfl
@[simp] theorem State.with_latch_settings (x : Option Status) :
    ({ s with latch := x } : State).settings = s.settings := rfl
@[simp] theorem State.with_latch_requestOf (x : Option Status) (j : StationId) :
    ({ s with latch := x } : State).requestOf j = s.requestOf j := rfl
@[simp] theorem State.with_latch_callOf (x : Option Status) (tag : Nat) :
    ({ s with latch := x } : State).callOf tag = s.callOf tag := rfl
@[simp] theorem State.with_latch_quarterLocked (x : Option Status) (j : StationId) :
    ({ s with latch := x } : State).quarterLocked j = s.quarterLocked j := rfl
@[simp] theorem State.with_alert_station (x : Bool) (j : StationId) :
    ({ s with alert := x } : State).station j = s.station j := rfl
@[simp] theorem State.with_alert_channel (x : Bool) (j : StationId) :
    ({ s with alert := x } : State).channel j = s.channel j := rfl
@[simp] theorem State.with_alert_mooring (x : Bool) (j : StationId) :
    ({ s with alert := x } : State).mooring j = s.mooring j := rfl
@[simp] theorem State.with_alert_unit (x : Bool) (v : UnitId) :
    ({ s with alert := x } : State).unit v = s.unit v := rfl
@[simp] theorem State.with_alert_calibration (x : Bool) (j : StationId) :
    ({ s with alert := x } : State).calibration j = s.calibration j := rfl
@[simp] theorem State.with_alert_settings (x : Bool) :
    ({ s with alert := x } : State).settings = s.settings := rfl
@[simp] theorem State.with_alert_requestOf (x : Bool) (j : StationId) :
    ({ s with alert := x } : State).requestOf j = s.requestOf j := rfl
@[simp] theorem State.with_alert_callOf (x : Bool) (tag : Nat) :
    ({ s with alert := x } : State).callOf tag = s.callOf tag := rfl
@[simp] theorem State.with_alert_quarterLocked (x : Bool) (j : StationId) :
    ({ s with alert := x } : State).quarterLocked j = s.quarterLocked j := rfl
@[simp] theorem State.with_rx_station (x : Option (List Byte)) (j : StationId) :
    ({ s with rx := x } : State).station j = s.station j := rfl
@[simp] theorem State.with_rx_channel (x : Option (List Byte)) (j : StationId) :
    ({ s with rx := x } : State).channel j = s.channel j := rfl
@[simp] theorem State.with_rx_mooring (x : Option (List Byte)) (j : StationId) :
    ({ s with rx := x } : State).mooring j = s.mooring j := rfl
@[simp] theorem State.with_rx_unit (x : Option (List Byte)) (v : UnitId) :
    ({ s with rx := x } : State).unit v = s.unit v := rfl
@[simp] theorem State.with_rx_calibration (x : Option (List Byte)) (j : StationId) :
    ({ s with rx := x } : State).calibration j = s.calibration j := rfl
@[simp] theorem State.with_rx_settings (x : Option (List Byte)) :
    ({ s with rx := x } : State).settings = s.settings := rfl
@[simp] theorem State.with_rx_requestOf (x : Option (List Byte)) (j : StationId) :
    ({ s with rx := x } : State).requestOf j = s.requestOf j := rfl
@[simp] theorem State.with_rx_callOf (x : Option (List Byte)) (tag : Nat) :
    ({ s with rx := x } : State).callOf tag = s.callOf tag := rfl
@[simp] theorem State.with_rx_quarterLocked (x : Option (List Byte)) (j : StationId) :
    ({ s with rx := x } : State).quarterLocked j = s.quarterLocked j := rfl
@[simp] theorem State.with_tx_station (x : Option (List Byte)) (j : StationId) :
    ({ s with tx := x } : State).station j = s.station j := rfl
@[simp] theorem State.with_tx_channel (x : Option (List Byte)) (j : StationId) :
    ({ s with tx := x } : State).channel j = s.channel j := rfl
@[simp] theorem State.with_tx_mooring (x : Option (List Byte)) (j : StationId) :
    ({ s with tx := x } : State).mooring j = s.mooring j := rfl
@[simp] theorem State.with_tx_unit (x : Option (List Byte)) (v : UnitId) :
    ({ s with tx := x } : State).unit v = s.unit v := rfl
@[simp] theorem State.with_tx_calibration (x : Option (List Byte)) (j : StationId) :
    ({ s with tx := x } : State).calibration j = s.calibration j := rfl
@[simp] theorem State.with_tx_settings (x : Option (List Byte)) :
    ({ s with tx := x } : State).settings = s.settings := rfl
@[simp] theorem State.with_tx_requestOf (x : Option (List Byte)) (j : StationId) :
    ({ s with tx := x } : State).requestOf j = s.requestOf j := rfl
@[simp] theorem State.with_tx_callOf (x : Option (List Byte)) (tag : Nat) :
    ({ s with tx := x } : State).callOf tag = s.callOf tag := rfl
@[simp] theorem State.with_tx_quarterLocked (x : Option (List Byte)) (j : StationId) :
    ({ s with tx := x } : State).quarterLocked j = s.quarterLocked j := rfl
@[simp] theorem State.with_inputs_station (x : Inputs) (j : StationId) :
    ({ s with inputs := x } : State).station j = s.station j := rfl
@[simp] theorem State.with_inputs_channel (x : Inputs) (j : StationId) :
    ({ s with inputs := x } : State).channel j = s.channel j := rfl
@[simp] theorem State.with_inputs_mooring (x : Inputs) (j : StationId) :
    ({ s with inputs := x } : State).mooring j = s.mooring j := rfl
@[simp] theorem State.with_inputs_unit (x : Inputs) (v : UnitId) :
    ({ s with inputs := x } : State).unit v = s.unit v := rfl
@[simp] theorem State.with_inputs_calibration (x : Inputs) (j : StationId) :
    ({ s with inputs := x } : State).calibration j = s.calibration j := rfl
@[simp] theorem State.with_inputs_settings (x : Inputs) :
    ({ s with inputs := x } : State).settings = s.settings := rfl
@[simp] theorem State.with_inputs_requestOf (x : Inputs) (j : StationId) :
    ({ s with inputs := x } : State).requestOf j = s.requestOf j := rfl
@[simp] theorem State.with_inputs_callOf (x : Inputs) (tag : Nat) :
    ({ s with inputs := x } : State).callOf tag = s.callOf tag := rfl
@[simp] theorem State.with_inputs_quarterLocked (x : Inputs) (j : StationId) :
    ({ s with inputs := x } : State).quarterLocked j = s.quarterLocked j := rfl
@[simp] theorem State.with_pending_station (x : List Instr) (j : StationId) :
    ({ s with pending := x } : State).station j = s.station j := rfl
@[simp] theorem State.with_pending_channel (x : List Instr) (j : StationId) :
    ({ s with pending := x } : State).channel j = s.channel j := rfl
@[simp] theorem State.with_pending_mooring (x : List Instr) (j : StationId) :
    ({ s with pending := x } : State).mooring j = s.mooring j := rfl
@[simp] theorem State.with_pending_unit (x : List Instr) (v : UnitId) :
    ({ s with pending := x } : State).unit v = s.unit v := rfl
@[simp] theorem State.with_pending_calibration (x : List Instr) (j : StationId) :
    ({ s with pending := x } : State).calibration j = s.calibration j := rfl
@[simp] theorem State.with_pending_settings (x : List Instr) :
    ({ s with pending := x } : State).settings = s.settings := rfl
@[simp] theorem State.with_pending_requestOf (x : List Instr) (j : StationId) :
    ({ s with pending := x } : State).requestOf j = s.requestOf j := rfl
@[simp] theorem State.with_pending_callOf (x : List Instr) (tag : Nat) :
    ({ s with pending := x } : State).callOf tag = s.callOf tag := rfl
@[simp] theorem State.with_pending_quarterLocked (x : List Instr) (j : StationId) :
    ({ s with pending := x } : State).quarterLocked j = s.quarterLocked j := rfl

end Sys2Proof.Machine
end

