-- ==== Sys2Proof/Laws/Ops.lean ====
section
/-! SUPPORT. What each shared operation can do, said once. `State.Local i s t` says that an operation at a
station i leaves everything else alone; the operations that act on the whole part have a law of their own. -/

namespace Sys2Proof.Machine

/-! ### Operations at one station -/

/-- A call with a station struck from its list. -/
def Call.without (i : StationId) (c : Call) : Call := { c with list := c.list.filter (fun j => j != i) }

/-- From `s` to `t` only station `i` has changed: its records, its request and its place in a call's list,
beside the drive units and the ALERT state. -/
structure State.Local (i : StationId) (s t : State) : Prop where
  station : ∀ j, j ≠ i → t.station j = s.station j
  channel : ∀ j, j ≠ i → t.channel j = s.channel j
  mooring : ∀ j, j ≠ i → t.mooring j = s.mooring j
  requests : t.queue.filter (fun q => q.station != i) = s.queue.filter (fun q => q.station != i)
  calls : t.calls.map (Call.without i) = s.calls.map (Call.without i)
  permitA : t.permitA = s.permitA
  permitB : t.permitB = s.permitB
  backdrop : t.backdrop = s.backdrop

namespace State.Local

theorem refl (i : StationId) (s : State) : State.Local i s s :=
  ⟨fun _ _ => rfl, fun _ _ => rfl, fun _ _ => rfl, rfl, rfl, rfl, rfl, rfl⟩

theorem trans {i : StationId} {s t r : State} (h : State.Local i s t) (k : State.Local i t r) :
    State.Local i s r :=
  ⟨fun j hj => (k.station j hj).trans (h.station j hj),
   fun j hj => (k.channel j hj).trans (h.channel j hj),
   fun j hj => (k.mooring j hj).trans (h.mooring j hj),
   k.requests.trans h.requests, k.calls.trans h.calls, k.permitA.trans h.permitA,
   k.permitB.trans h.permitB, k.backdrop.trans h.backdrop⟩

variable {i : StationId} {s t : State}

theorem hold (h : State.Local i s t) : t.hold = s.hold :=
  (congrArg State.hold h.backdrop :)
theorem inForce (h : State.Local i s t) : t.inForce = s.inForce :=
  (congrArg State.inForce h.backdrop :)
theorem phase (h : State.Local i s t) : t.phase = s.phase :=
  (congrArg State.phase h.backdrop :)
theorem inputs (h : State.Local i s t) : t.inputs = s.inputs :=
  (congrArg State.inputs h.backdrop :)
theorem store (h : State.Local i s t) : t.store = s.store :=
  (congrArg State.store h.backdrop :)
theorem write (h : State.Local i s t) : t.write = s.write :=
  (congrArg State.write h.backdrop :)
theorem pending (h : State.Local i s t) : t.pending = s.pending :=
  (congrArg State.pending h.backdrop :)

end State.Local

variable (s : State) (i : StationId)

theorem State.setStation_local (x : Station) : State.Local i s (s.setStation i x) :=
  ⟨fun _ h => s.station_setStation_of_ne x h, fun _ _ => rfl, fun _ _ => rfl, rfl, rfl, rfl, rfl, rfl⟩
theorem State.setChannel_local (x : Channel) : State.Local i s (s.setChannel i x) :=
  ⟨fun _ _ => rfl, fun _ h => s.channel_setChannel_of_ne x h, fun _ _ => rfl, rfl, rfl, rfl, rfl, rfl⟩
theorem State.setMooring_local (x : Option Mooring) : State.Local i s (s.setMooring i x) :=
  ⟨fun _ _ => rfl, fun _ _ => rfl, fun _ h => s.mooring_setMooring_of_ne x h, rfl, rfl, rfl, rfl, rfl⟩
theorem State.setUnit_local (u : UnitId) (x : DriveUnit) : State.Local i s (s.setUnit u x) :=
  ⟨fun _ _ => rfl, fun _ _ => rfl, fun _ _ => rfl, rfl, rfl, rfl, rfl, rfl⟩
theorem State.onStation_local (f : Station → Station) : State.Local i s (s.onStation i f) :=
  s.setStation_local i _
theorem State.onChannel_local (f : Channel → Channel) : State.Local i s (s.onChannel i f) :=
  s.setChannel_local i _
theorem State.onUnit_local (u : UnitId) (f : DriveUnit → DriveUnit) : State.Local i s (s.onUnit u f) :=
  s.setUnit_local i u _
theorem State.withAlert_local (x : Bool) : State.Local i s { s with alert := x } :=
  ⟨fun _ _ => rfl, fun _ _ => rfl, fun _ _ => rfl, rfl, rfl, rfl, rfl, rfl⟩

theorem State.reformFollow_local : State.Local i s s.reformFollow := by
  unfold State.reformFollow; split <;> first | exact .refl i s | exact s.withAlert_local i _
theorem State.reformCritical_local : State.Local i s s.reformCritical := by
  unfold State.reformCritical; split <;> first | exact .refl i s | exact s.withAlert_local i _
theorem State.assertAlert_local : State.Local i s s.assertAlert := by
  unfold State.assertAlert
  split <;> first | exact s.reformFollow_local i | exact s.withAlert_local i _
theorem State.raise_local (reason : Attention) : State.Local i s (s.raise i reason) := by
  unfold State.raise
  split
  · exact (s.onStation_local i _).trans (State.assertAlert_local _ i)
  · exact .refl i s
theorem State.setCritCondition_local (level : Bool) : State.Local i s (s.setCritCondition i level) := by
  unfold State.setCritCondition
  split
  · exact .refl i s
  · exact (s.onChannel_local i _).trans (State.reformCritical_local _ i)
theorem State.emptyWindow_local : State.Local i s (s.emptyWindow i) := s.onChannel_local i _
theorem State.resetSteady_local : State.Local i s (s.resetSteady i) := s.onChannel_local i _

theorem State.enter_local (state : LineState) : State.Local i s (s.enter i state) := by
  unfold State.enter
  dsimp only
  split
  · exact s.onStation_local i _
  · split
    · split
      · exact s.onStation_local i _
      · exact (s.onStation_local i _).trans (State.emptyWindow_local _ i)
    · exact ((s.onStation_local i _).trans (State.emptyWindow_local _ i)).trans
        (State.resetSteady_local _ i)

theorem insertTail_others (q : Request) (l : List Request) (h : q.station = i) :
    (insertTail q l).filter (fun p => p.station != i) = l.filter (fun p => p.station != i) := by
  induction l with
  | nil => simp [insertTail, h]
  | cons x xs ih => unfold insertTail; split <;> simp [List.filter_cons, h, ih]

theorem insertHead_others (q : Request) (l : List Request) (h : q.station = i) :
    (insertHead q l).filter (fun p => p.station != i) = l.filter (fun p => p.station != i) := by
  induction l with
  | nil => simp [insertHead, h]
  | cons x xs ih => unfold insertHead; split <;> simp [List.filter_cons, h, ih]

/-- A change of the queue that leaves the other stations' requests as they were. -/
theorem State.withQueue_local (l : List Request)
    (h : l.filter (fun q => q.station != i) = s.queue.filter (fun q => q.station != i)) :
    State.Local i s { s with queue := l } :=
  ⟨fun _ _ => rfl, fun _ _ => rfl, fun _ _ => rfl, h, rfl, rfl, rfl, rfl⟩

theorem State.submit_local (w : Work) (b : Bool) : State.Local i s (s.submit i w b) :=
  s.withQueue_local i _ (insertTail_others i _ _ rfl)
theorem State.requeue_local (w : Work) (b : Bool) : State.Local i s (s.requeue i w b) :=
  s.withQueue_local i _ (insertHead_others i _ _ rfl)
theorem State.withdraw_local : State.Local i s (s.withdraw i) :=
  s.withQueue_local i _ (by simp [List.filter_filter])
theorem State.redirect_local (d : Direction) (c : Bool) : State.Local i s (s.redirect i d c) := by
  refine s.withQueue_local i _ ?_
  induction s.queue with
  | nil => rfl
  | cons x xs ih => by_cases h : x.station = i <;> by_cases k : x.work.isTrim <;> simp_all
theorem State.withdrawTrim_local : State.Local i s (s.withdrawTrim i) := by
  unfold State.withdrawTrim
  split
  · split <;> first | exact .refl i s | exact s.withdraw_local i
  · exact .refl i s

theorem State.releaseUnit_local : State.Local i s (s.releaseUnit i) := by
  unfold State.releaseUnit
  split
  · exact .refl i s
  · exact (s.setUnit_local i _ _).trans (State.onStation_local _ i _)
theorem State.faultUnit_local (u : UnitId) : State.Local i s (s.faultUnit u) :=
  (s.onUnit_local i u _).trans (State.assertAlert_local _ i)
theorem State.setStop_local (level : Bool) : State.Local i s (s.setStop i level) := by
  unfold State.setStop
  split <;> first | exact .refl i s | exact s.onUnit_local i _ _
theorem State.dropActive_local : State.Local i s (s.dropActive i) := s.onStation_local i _
theorem State.park_local (w : Work) (b : Bool) : State.Local i s (s.park i w b) := s.onStation_local i _
theorem State.unpark_local : State.Local i s (s.unpark i) := s.onStation_local i _
theorem State.giveBack_local : State.Local i s (s.giveBack i) :=
  (s.releaseUnit_local i).trans (State.dropActive_local _ i)
theorem State.parkActive_local (a : ActiveOp) : State.Local i s (s.parkActive i a) :=
  (s.park_local i _ _).trans (State.dropActive_local _ i)

theorem State.commandedFailure_local (a : ActiveOp) : State.Local i s (s.commandedFailure i a) := by
  refine (s.dropActive_local i).trans ?_
  unfold State.commandedFailure
  dsimp only
  split
  · exact (State.enter_local _ i _).trans (State.raise_local _ i _)
  · split
    · exact State.park_local _ i _ _
    · exact State.requeue_local _ i _ _

theorem State.failWaiting_local : State.Local i s (s.failWaiting i) := by
  unfold State.failWaiting
  split
  · exact .refl i s
  · split
    · dsimp only
      split
      · exact (s.dropActive_local i).trans (State.enter_local _ i _)
      · exact ((s.dropActive_local i).trans (State.enter_local _ i _)).trans
          (State.requeue_local _ i _ _)
    · exact s.commandedFailure_local i _

theorem State.submitParked_local : State.Local i s (s.submitParked i) := by
  unfold State.submitParked
  split
  · exact .refl i s
  · exact (s.unpark_local i).trans (State.submit_local _ i _ _)

/-! ### Records -/

/-- A change of the lists of the calls with a tag that only concerns one station. -/
theorem State.onCall_local (tag : Nat) (f : Call → Call) (h : ∀ c, (f c).without i = c.without i) :
    State.Local i s (s.onCall tag f) := by
  refine ⟨fun _ _ => rfl, fun _ _ => rfl, fun _ _ => rfl, rfl, ?_, rfl, rfl, rfl⟩
  simp only [State.onCall, List.map_map]
  refine List.map_congr_left (fun c _ => ?_)
  simp only [Function.comp_apply]
  split
  · exact h c
  · rfl

theorem State.clearCritical_local : State.Local i s (s.clearCritical i) :=
  (s.onChannel_local i _).trans (State.setCritCondition_local _ i _)
theorem State.createRecord_local (r : Mooring) : State.Local i s (s.createRecord i r) :=
  ((s.setMooring_local i _).trans
    (State.onCall_local _ i _ _ (fun c => by simp [Call.without]))).trans
      (State.clearCritical_local _ i)
theorem State.retireRecord_local : State.Local i s (s.retireRecord i) := by
  unfold State.retireRecord
  split
  · exact .refl i s
  · exact ((s.onCall_local i _ _ (fun c => by simp [Call.without, List.filter_filter])).trans
      (State.setMooring_local _ i _)).trans (State.clearCritical_local _ i)
theorem State.stow_local : State.Local i s (s.stow i) :=
  (s.enter_local i _).trans (State.retireRecord_local _ i)
theorem State.setStale_local : State.Local i s (s.setStale i) := by
  unfold State.setStale
  split
  · exact .refl i s
  · exact (s.setMooring_local i _).trans (State.resetSteady_local _ i)

/-! ### Trims and gear steps -/

theorem State.wantTrim_local (wanted : Option (Direction × Bool)) :
    State.Local i s (s.wantTrim i wanted) := by
  unfold State.wantTrim
  split <;> first
    | exact .refl i s | exact s.submit_local i _ _ | exact s.redirect_local i _ _
    | exact s.withdraw_local i
theorem State.wantCriticalRender_local : State.Local i s (s.wantCriticalRender i) := by
  unfold State.wantCriticalRender
  split <;> first | exact .refl i s | exact s.wantTrim_local i _
theorem State.renderIfCritical_local (cause : StopCause) :
    State.Local i s (s.renderIfCritical i cause) := by
  unfold State.renderIfCritical
  split <;> first | exact .refl i s | exact s.wantCriticalRender_local i

theorem State.commandedEnd_local : State.Local i s (s.commandedEnd i) := by
  unfold State.commandedEnd
  dsimp only
  split
  · exact s.commandedFailure_local i _
  · exact ((s.dropActive_local i).trans (State.enter_local _ i _)).trans
      (State.renderIfCritical_local _ i _)
  · exact (s.dropActive_local i).trans (State.enter_local _ i _)
  · exact (s.dropActive_local i).trans (State.stow_local _ i)
  · exact (s.dropActive_local i).trans (State.enter_local _ i _)
  · exact s.dropActive_local i

theorem State.lockStepDone_local : State.Local i s (s.lockStepDone i) := by
  refine (s.releaseUnit_local i).trans ?_
  unfold State.lockStepDone
  dsimp only
  split
  · exact ((State.dropActive_local _ i).trans (State.enter_local _ i _)).trans
      (State.renderIfCritical_local _ i _)
  all_goals first
    | exact .refl i _
    | (split
       · split <;> first | exact .refl i _ | exact State.submitParked_local _ i
       · exact State.commandedEnd_local _ i)

theorem State.engageDone_local : State.Local i s (s.engageDone i) := by
  unfold State.engageDone
  split
  · split
    · exact (s.dropActive_local i).trans (State.submit_local _ i _ _)
    · exact .refl i s
  · exact .refl i s

theorem State.continueStep_local (kind : StepKind) : State.Local i s (s.continueStep i kind) := by
  unfold State.continueStep
  split <;> first
    | exact s.setStop_local i _ | exact s.lockStepDone_local i | exact s.engageDone_local i
    | exact .refl i s

theorem State.tryComplete_local : State.Local i s (s.tryComplete i) := by
  unfold State.tryComplete
  split
  · exact .refl i s
  · split
    · exact (s.onStation_local i _).trans (State.continueStep_local _ i _)
    · exact .refl i s

theorem State.startStep_local (kind : StepKind) (lock : LockPos) (clutch : ClutchPos) :
    State.Local i s (s.startStep i kind lock clutch) :=
  (s.onStation_local i _).trans (State.tryComplete_local _ i)

theorem State.disagreementTest_local : State.Local i s (s.disagreementTest i) := by
  unfold State.disagreementTest
  split
  · split <;> first | exact .refl i s | exact s.onStation_local i _
  · exact s.onStation_local i _

/-! ### Motion -/

theorem State.stopMotion_local (cause : StopCause) : State.Local i s (s.stopMotion i cause) :=
  (s.setStop_local i _).trans (State.onStation_local _ i _)
theorem State.startLockStep_local : State.Local i s (s.startLockStep i) := s.startStep_local i _ _ _
theorem State.endMotion_local (cause : StopCause) : State.Local i s (s.endMotion i cause) :=
  (s.stopMotion_local i cause).trans (State.startLockStep_local _ i)
theorem State.endMotionDiscard_local (cause : StopCause) :
    State.Local i s (s.endMotionDiscard i cause) :=
  ((s.stopMotion_local i cause).trans (State.dropActive_local _ i)).trans
    (State.startLockStep_local _ i)

theorem State.motionTests_local : State.Local i s (s.motionTests i) := by
  unfold State.motionTests
  dsimp only
  split
  · split
    · exact (s.onStation_local i _).trans (State.endMotion_local _ i _)
    · split
      · exact (s.onStation_local i _).trans (State.endMotion_local _ i _)
      · exact s.onStation_local i _
  · exact .refl i s

theorem State.startMotion_local (u : UnitId) (a : ActiveOp) (n : Nat) :
    State.Local i s (s.startMotion i u a n) :=
  ((((s.onUnit_local i u _).trans (State.onStation_local _ i _)).trans
    (State.emptyWindow_local _ i)).trans (State.startStep_local _ i _ _ _)).trans
      (State.motionTests_local _ i)

theorem State.updateLength_local : State.Local i s (s.updateLength i) := by
  unfold State.updateLength
  split
  · exact .refl i s
  · dsimp only
    split
    · exact (s.onStation_local i _).trans (State.raise_local _ i _)
    · exact s.onStation_local i _

/-! ### Fault entry, release and take-over -/

theorem State.dropWork_local : State.Local i s (s.dropWork i) :=
  (s.withdraw_local i).trans (State.onStation_local _ i _)
theorem State.enterFault_local (cause : StopCause) (reason : Attention) :
    State.Local i s (s.enterFault i cause reason) :=
  ((((s.releaseUnit_local i).trans (State.dropWork_local _ i)).trans (State.enter_local _ i _)).trans
    (State.onStation_local _ i _)).trans (State.raise_local _ i _)

theorem State.releaseSequence_local (cause : StopCause) :
    State.Local i s (s.releaseSequence i cause) := by
  unfold State.releaseSequence
  dsimp only
  have rest : ∀ t : State, State.Local i t
      ((((t.releaseUnit i).dropWork i).enter i .released).startStep i .release .unlocked .free) :=
    fun t => (((t.releaseUnit_local i).trans (State.dropWork_local _ i)).trans
      (State.enter_local _ i _)).trans (State.startStep_local _ i _ _ _)
  split
  · exact (s.stopMotion_local i cause).trans (rest _)
  · exact rest s

theorem State.takeOverActive_local : State.Local i s (s.takeOverActive i) := by
  unfold State.takeOverActive
  split
  · exact .refl i s
  · split
    · exact s.dropActive_local i
    · split
      all_goals first
        | exact s.parkActive_local i _
        | (split <;> first | exact s.parkActive_local i _ | exact s.dropActive_local i)
theorem State.takeOverPending_local : State.Local i s (s.takeOverPending i) := by
  unfold State.takeOverPending
  split
  · exact .refl i s
  · split
    · exact s.withdraw_local i
    · exact (s.withdraw_local i).trans (State.park_local _ i _ _)

theorem State.enterLocal_local : State.Local i s (s.enterLocal i) := by
  unfold State.enterLocal
  dsimp only
  have rest : ∀ (t : State) f, State.Local i t
      (((t.releaseUnit i).enter i .inLocal).onStation i f) :=
    fun t f => ((t.releaseUnit_local i).trans (State.enter_local _ i _)).trans
      (State.onStation_local _ i _)
  have work := (s.takeOverPending_local i).trans (State.takeOverActive_local _ i)
  split
  · exact ((work.trans (State.stopMotion_local _ i _)).trans (State.onStation_local _ i _)).trans
      (rest _ _)
  · exact work.trans (rest _ _)

theorem State.deferredTakeOver_local : State.Local i s (s.deferredTakeOver i) := by
  unfold State.deferredTakeOver
  split <;> first | exact .refl i s | exact s.enterLocal_local i

theorem State.discardParkedHeave_local : State.Local i s (s.discardParkedHeave i) := by
  unfold State.discardParkedHeave
  dsimp only
  split
  · exact (((s.unpark_local i).trans (State.releaseUnit_local _ i)).trans
      (State.onStation_local _ i _)).trans (State.enter_local _ i _)
  · exact s.unpark_local i

end Sys2Proof.Machine
end

