-- ==== Sys2Proof/Laws/Settle.lean ====
section
/-! SUPPORT. What the end of an event can do: its grants, and the evaluation of the calls it concerns. -/

namespace Sys2Proof.Machine

/-! ### Grants (R113, R114) -/

theorem State.takeGrant_station (s : State) (u : UnitId) (q : Request) (j : StationId) :
    (s.takeGrant u q).station j =
      if j = q.station then (s.station q.station).granted u q else s.station j := by
  by_cases h : j = q.station
  · subst h
    by_cases k : q.work.isTrim <;> simp [State.takeGrant, State.enter, Station.granted, k]
  · by_cases k : q.work.isTrim <;>
      simp [State.takeGrant, State.enter, k, h, State.station_onStation]

/-- A grant changes the station that is granted, the unit and the queue (R113, R114). -/
structure State.OneGrant (s t : State) (u : UnitId) (q : Request) (rest : List Request) : Prop where
  hold : s.hold = false
  head : s.queue = q :: rest
  idle : s.idleUnit = some u
  queue : t.queue = rest
  station : ∀ j, t.station j = if j = q.station then (s.station q.station).granted u q else s.station j
  unit : ∀ v, t.unit v =
    if v = u then
      { state := .granted, served := some q.station, readyTimer := some s.settings.readyLimit
        run := some (q.station, q.work.direction), stop := true }
    else s.unit v
  channels : t.channels = s.channels
  moorings : t.moorings = s.moorings
  calls : t.calls = s.calls
  permitA : t.permitA = s.permitA
  permitB : t.permitB = s.permitB
  alert : t.alert = s.alert
  backdrop : t.backdrop = s.backdrop

theorem State.grantOne_cases (s : State) :
    s.grantOne = s ∨ ∃ u q rest, s.OneGrant s.grantOne u q rest := by
  unfold State.grantOne
  split
  next u q rest h1 h2 h3 =>
    refine .inr ⟨u, q, rest, h1, h3, h2, ?_, ?_, ?_, ?_, ?_, ?_, ?_, ?_, ?_, ?_⟩
    · by_cases k : q.work.isTrim <;> simp [State.takeGrant, State.enter, k]
    · intro j
      rw [State.takeGrant_station]
      simp
    · intro v
      by_cases k : q.work.isTrim <;>
        simp [State.takeGrant, State.enter, k, State.unit_setUnit]
    all_goals by_cases k : q.work.isTrim <;> simp [State.takeGrant, State.enter, k] <;> rfl
  next => exact .inl rfl

/-- A property of two states that holds between a state and itself, and that a grant extends, holds
between a state and the same state after all its grants. -/
theorem State.grantAll_induct {P : State → State → Prop} (refl : ∀ s, P s s)
    (step : ∀ s t r u q rest, P s t → t.OneGrant r u q rest → P s r) (s : State) :
    P s s.grantAll := by
  have one : ∀ t, P s t → P s t.grantOne := by
    intro t h
    rcases t.grantOne_cases with k | ⟨u, q, rest, k⟩
    · rw [k]; exact h
    · exact step s t _ u q rest h k
  exact one _ (one _ (one _ (one _ (refl s))))

/-- Grants change stations, units and the queue, and nothing else. -/
structure State.GrantsOnly (s t : State) : Prop where
  channels : t.channels = s.channels
  moorings : t.moorings = s.moorings
  calls : t.calls = s.calls
  permitA : t.permitA = s.permitA
  permitB : t.permitB = s.permitB
  alert : t.alert = s.alert
  backdrop : t.backdrop = s.backdrop

theorem State.grantAll_only (s : State) : s.GrantsOnly s.grantAll :=
  State.grantAll_induct (fun _ => ⟨rfl, rfl, rfl, rfl, rfl, rfl, rfl⟩)
    (fun _ _ _ _ _ _ h k =>
      ⟨k.channels.trans h.channels, k.moorings.trans h.moorings, k.calls.trans h.calls,
       k.permitA.trans h.permitA, k.permitB.trans h.permitB, k.alert.trans h.alert,
       k.backdrop.trans h.backdrop⟩) s

/-- The queue after the grants is what is left of it when some of its first requests have gone. -/
theorem State.grantAll_queue (s : State) : ∃ n, s.grantAll.queue = s.queue.drop n :=
  State.grantAll_induct (P := fun s t => ∃ n, t.queue = s.queue.drop n) (fun _ => ⟨0, rfl⟩)
    (fun s t r u q rest h k => by
      obtain ⟨n, h⟩ := h
      refine ⟨n + 1, ?_⟩
      rw [k.queue, ← List.drop_drop, ← h, k.head]
      rfl) s

/-- The grants of one event take at most four requests, from the front of the queue (R113). -/
theorem State.grantAll_drops (s : State) : ∃ grants : Fin 5, s.grantAll.queue = s.queue.drop grants := by
  have one : ∀ t : State, ∃ n, n ≤ 1 ∧ t.grantOne.queue = t.queue.drop n := by
    intro t
    rcases t.grantOne_cases with k | ⟨u, q, rest, k⟩
    · exact ⟨0, by omega, by rw [k]; rfl⟩
    · exact ⟨1, by omega, by rw [k.queue, k.head]; rfl⟩
  obtain ⟨a, ha, ea⟩ := one s
  obtain ⟨b, hb, eb⟩ := one s.grantOne
  obtain ⟨c, hc, ec⟩ := one s.grantOne.grantOne
  obtain ⟨d, hd, ed⟩ := one s.grantOne.grantOne.grantOne
  refine ⟨⟨a + (b + (c + d)), by omega⟩, ?_⟩
  rw [State.grantAll, ed, ec, eb, ea, List.drop_drop, List.drop_drop, List.drop_drop]

/-- A station without a request is not touched by the grants. -/
theorem State.grantAll_station_of_none (s : State) (j : StationId)
    (h : ∀ q ∈ s.queue, q.station ≠ j) : s.grantAll.station j = s.station j := by
  have key : s.grantAll.station j = s.station j ∧ ∀ q ∈ s.grantAll.queue, q.station ≠ j := by
    refine State.grantAll_induct (P := fun s t => (∀ q ∈ s.queue, q.station ≠ j) →
      t.station j = s.station j ∧ ∀ q ∈ t.queue, q.station ≠ j) (fun _ k => ⟨rfl, k⟩) ?_ s h
    intro s t r u q rest ih k hs
    obtain ⟨ih1, ih2⟩ := ih hs
    rw [k.head] at ih2
    refine ⟨?_, fun p hp => ih2 p (by rw [k.queue] at hp; exact List.mem_cons_of_mem _ hp)⟩
    rw [k.station, if_neg (fun e => ih2 q List.mem_cons_self e.symm), ih1]
  exact key.1

/-- A station with one request keeps its record or has that request granted. -/
theorem State.grantAll_station (s : State) (j : StationId) (q : Request)
    (h : s.queue.filter (fun p => p.station == j) = [q]) :
    (s.grantAll.station j = s.station j ∧ s.grantAll.queue.filter (fun p => p.station == j) = [q]) ∨
      ∃ u, s.grantAll.station j = (s.station j).granted u q ∧
        (s.grantAll.unit u).state = .granted ∧ (s.grantAll.unit u).served = some j ∧
        (s.grantAll.unit u).run = some (j, q.work.direction) := by
  have hq : q.station = j := by
    have : q ∈ s.queue.filter (fun p => p.station == j) := by rw [h]; exact List.mem_singleton.2 rfl
    simpa using (List.mem_filter.1 this).2
  have key := State.grantAll_induct (P := fun s t => s.queue.filter (fun p => p.station == j) = [q] →
    (t.station j = s.station j ∧ t.queue.filter (fun p => p.station == j) = [q]) ∨
      (t.queue.filter (fun p => p.station == j) = [] ∧
      ∃ u, t.station j = (s.station j).granted u q ∧
        (t.unit u).state = .granted ∧ (t.unit u).served = some j ∧
        (t.unit u).run = some (j, q.work.direction))) (fun _ k => .inl ⟨rfl, k⟩) ?_ s h
  · rcases key with k | ⟨-, k⟩
    · exact .inl k
    · exact .inr k
  · intro s t r u p rest ih k hs
    rcases ih hs with ⟨ih1, ih2⟩ | ⟨ih1, v, ih2, ih3, ih4, ih5⟩
    · rw [k.head] at ih2
      by_cases e : p.station = j
      · have ep : p = q ∧ rest.filter (fun p => p.station == j) = [] := by
          rw [List.filter_cons_of_pos (by simpa using e)] at ih2
          simpa using ih2
        refine .inr ⟨by rw [k.queue]; exact ep.2, u, ?_, ?_, ?_, ?_⟩
        · rw [k.station, if_pos e.symm, e, ih1, ep.1]
        all_goals simp [k.unit, ep.1, hq]
      · refine .inl ⟨?_, ?_⟩
        · rw [k.station, if_neg (fun x => e x.symm), ih1]
        · rw [k.queue]
          rwa [List.filter_cons_of_neg (by simpa using e)] at ih2
    · have ne : p.station ≠ j := by
        intro e
        rw [k.head, List.filter_cons_of_pos (by simpa using e)] at ih1
        exact absurd ih1 (by simp)
      have uv : v ≠ u := by
        rintro rfl
        have := List.find?_some k.idle
        simp [ih3] at this
      refine .inr ⟨?_, v, ?_, ?_, ?_, ?_⟩
      · rw [k.queue]
        rw [k.head, List.filter_cons_of_neg (by simpa using ne)] at ih1
        exact ih1
      · rw [k.station, if_neg (fun x => ne x.symm), ih2]
      all_goals simp [k.unit, uv, ih3, ih4, ih5]

/-! ### The evaluation of the calls (R56, R61) -/

/-- The evaluation changes the states of calls, and with them the permits. -/
structure State.CallsOnly (s t : State) : Prop where
  stations : t.stations = s.stations
  channels : t.channels = s.channels
  moorings : t.moorings = s.moorings
  queue : t.queue = s.queue
  units : t.units = s.units
  alert : t.alert = s.alert
  calls : s.sameCalls t
  backdrop : t.backdrop = s.backdrop

theorem State.CallsOnly.refl (s : State) : s.CallsOnly s := ⟨rfl, rfl, rfl, rfl, rfl, rfl, rfl, rfl⟩

theorem State.CallsOnly.trans {s t r : State} (h : s.CallsOnly t) (k : t.CallsOnly r) :
    s.CallsOnly r :=
  ⟨k.stations.trans h.stations, k.channels.trans h.channels, k.moorings.trans h.moorings,
   k.queue.trans h.queue, k.units.trans h.units, k.alert.trans h.alert, k.calls.trans h.calls,
   k.backdrop.trans h.backdrop⟩

theorem State.callTo_only (s : State) (c : Call) (state : CallState) : s.CallsOnly (s.callTo c state) := by
  have h : s.CallsOnly (s.onCall c.tag (fun x => { x with state := state })) := by
    refine ⟨rfl, rfl, rfl, rfl, rfl, rfl, ?_, rfl⟩
    simp only [State.sameCalls, State.onCall, List.map_map]
    refine List.map_congr_left (fun d _ => ?_)
    simp only [Function.comp_apply]
    split <;> rfl
  have p : ∀ (t : State) berth l, t.CallsOnly (t.setPermit berth l) := by
    intro t berth l
    cases berth <;> exact ⟨rfl, rfl, rfl, rfl, rfl, rfl, rfl, rfl⟩
  unfold State.callTo
  dsimp only
  split
  · exact h.trans (p _ _ _)
  · split
    · exact h.trans (p _ _ _)
    · exact h

theorem State.evaluateOnce_only (s : State) (tag : Nat) : s.CallsOnly (s.evaluateOnce tag) := by
  unfold State.evaluateOnce
  split
  · exact .refl s
  · split
    · exact .refl s
    · exact s.callTo_only _ _

/-- A fold of changes that each only concern the calls. -/
theorem State.CallsOnly.foldl {f : State → Nat → State} (hf : ∀ (s : State) n, s.CallsOnly (f s n)) (l : List Nat) :
    ∀ s : State, s.CallsOnly (l.foldl f s) := by
  induction l with
  | nil => exact fun s => .refl s
  | cons n l ih => exact fun s => (hf s n).trans (ih _)

theorem State.evaluate_only (s : State) (tag : Nat) : s.CallsOnly (s.evaluate tag) := by
  unfold State.evaluate
  split
  · exact .refl s
  · dsimp only
    split
    · exact (s.evaluateOnce_only tag).trans
        (State.CallsOnly.foldl (fun s n => s.evaluateOnce_only n) _ _)
    · exact s.evaluateOnce_only tag

theorem State.settleCalls_only (before s : State) : s.CallsOnly (State.settleCalls before s) :=
  State.CallsOnly.foldl (fun s n => s.evaluate_only n) _ s

theorem State.CallsOnly.station {s t : State} (h : s.CallsOnly t) (j : StationId) :
    t.station j = s.station j := by simp only [State.station, h.stations]
theorem State.CallsOnly.channel {s t : State} (h : s.CallsOnly t) (j : StationId) :
    t.channel j = s.channel j := by simp only [State.channel, h.channels]
theorem State.CallsOnly.mooring {s t : State} (h : s.CallsOnly t) (j : StationId) :
    t.mooring j = s.mooring j := by simp only [State.mooring, h.moorings]
theorem State.CallsOnly.unit {s t : State} (h : s.CallsOnly t) (u : UnitId) :
    t.unit u = s.unit u := by simp only [State.unit, h.units]

/-! ### The end of an event -/

variable (before s : State)

theorem State.settle_backdrop : (State.settle before s).backdrop = s.backdrop :=
  (State.settleCalls_only before _).backdrop.trans s.grantAll_only.backdrop
theorem State.settle_alert : (State.settle before s).alert = s.alert :=
  (State.settleCalls_only before _).alert.trans s.grantAll_only.alert
theorem State.settle_channels : (State.settle before s).channels = s.channels :=
  (State.settleCalls_only before _).channels.trans s.grantAll_only.channels
theorem State.settle_moorings : (State.settle before s).moorings = s.moorings :=
  (State.settleCalls_only before _).moorings.trans s.grantAll_only.moorings
theorem State.settle_channel (j : StationId) :
    (State.settle before s).channel j = s.channel j := by
  simp only [State.channel, State.settle_channels]
theorem State.settle_mooring (j : StationId) :
    (State.settle before s).mooring j = s.mooring j := by
  simp only [State.mooring, State.settle_moorings]
theorem State.settle_sameCalls : s.sameCalls (State.settle before s) := by
  have h := (State.settleCalls_only before s.grantAll).calls
  unfold State.sameCalls at *
  rw [s.grantAll_only.calls] at h
  exact h
theorem State.settle_station_eq (j : StationId) :
    (State.settle before s).station j = s.grantAll.station j :=
  (State.settleCalls_only before s.grantAll).station j
theorem State.settle_unit_eq (u : UnitId) :
    (State.settle before s).unit u = s.grantAll.unit u :=
  (State.settleCalls_only before s.grantAll).unit u
theorem State.settle_queue : (State.settle before s).queue = s.grantAll.queue :=
  (State.settleCalls_only before s.grantAll).queue
theorem State.settle_hold : (State.settle before s).hold = s.hold :=
  (congrArg State.hold (State.settle_backdrop before s) :)
theorem State.settle_phase : (State.settle before s).phase = s.phase :=
  (congrArg State.phase (State.settle_backdrop before s) :)
theorem State.settle_pending : (State.settle before s).pending = s.pending :=
  (congrArg State.pending (State.settle_backdrop before s) :)

/-- A station without a request is left alone by the end of the event. -/
theorem State.settle_station_of_none (j : StationId) (h : ∀ q ∈ s.queue, q.station ≠ j) :
    (State.settle before s).station j = s.station j :=
  (State.settle_station_eq before s j).trans (s.grantAll_station_of_none j h)

end Sys2Proof.Machine
end

