-- ==== Sys2Proof/Laws/Effects.lean ====
section
/-! SUPPORT. What each shared operation makes of the station it acts on, of its channel, its unit, its request and
the ALERT state. -/

namespace Sys2Proof.Machine

variable (s : State) (i j : StationId)

/-! ### Attention and ALERT (R23, R177, R178) -/

/-- A station whose reason is not NONE raises the level of FOLLOW mode. -/
theorem State.followLevel_of_attention (h : (s.station i).attention ≠ .none) : s.followLevel = true := by
  have hi : i ∈ allStations := (by decide : ∀ j : StationId, j ∈ allStations) i
  simp only [State.followLevel, Bool.or_eq_true, List.any_eq_true]
  exact .inl ⟨i, hi, by simpa using h⟩

/-- Only the ALERT state can differ after it is asserted or formed anew. -/
theorem State.assertAlert_eq : s.assertAlert = { s with alert := s.assertAlert.alert } := by
  unfold State.assertAlert State.reformFollow
  cases s.inForce.alertMode <;> rfl

theorem State.raise_station (reason : Attention) :
    (s.raise i reason).station i = (s.station i).noticing reason := by
  unfold State.raise Station.noticing
  split
  · rename_i h
    rw [State.assertAlert_eq]
    simp [State.station, State.onStation, State.setStation]
  · rfl

theorem State.raise_alert (reason : Attention) :
    (s.raise i reason).alert = s.alertAfter i reason := by
  unfold State.raise State.alertAfter
  split
  · rename_i h
    have hr : reason ≠ .none := by
      rintro rfl
      cases ha : (s.station i).attention <;> simp [Attention.outranks, Attention.priority, ha] at h
    have follow := State.followLevel_of_attention
      (s.onStation i (fun x => { x with attention := reason })) i (by simpa using hr)
    unfold State.assertAlert State.reformFollow
    cases hm : s.inForce.alertMode <;> simp [h, hm, follow]
  · rename_i h
    simp [h]

/-- A raise changes the attention of its station and the ALERT state. -/
theorem State.raise_only (reason : Attention) :
    (s.raise i reason).channels = s.channels ∧ (s.raise i reason).moorings = s.moorings ∧
      (s.raise i reason).units = s.units ∧ (s.raise i reason).queue = s.queue ∧
      (s.raise i reason).calls = s.calls := by
  unfold State.raise
  split
  · rw [State.assertAlert_eq]
    exact ⟨rfl, rfl, rfl, rfl, rfl⟩
  · exact ⟨rfl, rfl, rfl, rfl, rfl⟩

/-! ### Entry to a state (R6, R85, R87, R91) -/

theorem State.enter_station {state : LineState} (h : state ≠ .trimming) :
    (s.enter i state).station i = (s.station i).entered state := by
  unfold State.enter Station.entered
  simp only [h, if_false]
  split
  · split <;> simp [State.emptyWindow, State.onChannel]
  · simp [State.emptyWindow, State.resetSteady, State.onChannel]

/-- Entry to a state other than FAST and TRIMMING, or to FAST from another state. -/
theorem State.enter_channel {state : LineState} (h : state ≠ .trimming)
    (k : state = .fast → (s.station i).state ≠ .fast) :
    (s.enter i state).channel i = (s.channel i).entering state := by
  unfold State.enter Channel.entering Channel.leftBand
  simp only [h, if_false]
  by_cases f : state = .fast
  · simp [f, k f, State.emptyWindow]
  · simp [f, State.emptyWindow, State.resetSteady, State.onChannel, State.onStation]

theorem State.enter_only (state : LineState) :
    (s.enter i state).moorings = s.moorings ∧ (s.enter i state).units = s.units ∧
      (s.enter i state).queue = s.queue ∧ (s.enter i state).calls = s.calls ∧
      (s.enter i state).alert = s.alert := by
  unfold State.enter
  dsimp only
  split
  · exact ⟨rfl, rfl, rfl, rfl, rfl⟩
  · split
    · split <;> exact ⟨rfl, rfl, rfl, rfl, rfl⟩
    · exact ⟨rfl, rfl, rfl, rfl, rfl⟩

/-! ### Units (R111, R115, R121) -/

theorem State.releaseUnit_station :
    (s.releaseUnit i).station i = { s.station i with unit := none } := by
  unfold State.releaseUnit
  split
  · rename_i h
    cases hx : s.station i
    simp_all
  · simp

theorem State.releaseUnit_unit {u : UnitId} (h : (s.station i).unit = some u) :
    (s.releaseUnit i).unit u =
      .unserved (if (s.unit u).state = .faulted then .faulted else .idle) := by
  simp only [State.releaseUnit, h]
  simp [State.onStation]

theorem State.releaseUnit_of_none (h : (s.station i).unit = none) : s.releaseUnit i = s := by
  simp only [State.releaseUnit, h]

theorem State.setStop_unit {u : UnitId} (h : (s.station i).unit = some u) (level : Bool) :
    (s.setStop i level).unit u = { s.unit u with stop := level } := by
  simp only [State.setStop, h]
  simp

theorem State.setStop_station (level : Bool) : (s.setStop i level).station j = s.station j := by
  unfold State.setStop
  split <;> simp [State.onUnit]

/-! ### The drive queue (R109, R110) -/

theorem insertTail_filter (q : Request) (l : List Request)
    (h : ∀ p ∈ l, p.station ≠ q.station) :
    (insertTail q l).filter (fun p => p.station == q.station) = [q] := by
  induction l with
  | nil => simp [insertTail]
  | cons p l ih =>
    have hp : p.station ≠ q.station := h p List.mem_cons_self
    have hl : ∀ r ∈ l, r.station ≠ q.station := fun r hr => h r (List.mem_cons_of_mem _ hr)
    unfold insertTail
    split
    · rw [List.filter_cons_of_neg (by simpa using hp), ih hl]
    · rw [List.filter_cons_of_pos (by simp), List.filter_cons_of_neg (by simpa using hp),
        List.filter_eq_nil_iff.2 (fun r hr => by simpa using hl r hr)]

theorem insertHead_filter (q : Request) (l : List Request)
    (h : ∀ p ∈ l, p.station ≠ q.station) :
    (insertHead q l).filter (fun p => p.station == q.station) = [q] := by
  induction l with
  | nil => simp [insertHead]
  | cons p l ih =>
    have hp : p.station ≠ q.station := h p List.mem_cons_self
    have hl : ∀ r ∈ l, r.station ≠ q.station := fun r hr => h r (List.mem_cons_of_mem _ hr)
    unfold insertHead
    split
    · rw [List.filter_cons_of_neg (by simpa using hp), ih hl]
    · rw [List.filter_cons_of_pos (by simp), List.filter_cons_of_neg (by simpa using hp),
        List.filter_eq_nil_iff.2 (fun r hr => by simpa using hl r hr)]

/-- A station without a request has exactly the submitted one after a submission. -/
theorem State.submit_requests (w : Work) (b : Bool) (h : ∀ q ∈ s.queue, q.station ≠ i) :
    (s.submit i w b).queue.filter (fun p => p.station == i) = [⟨i, w, b⟩] :=
  insertTail_filter ⟨i, w, b⟩ s.queue h

theorem State.requeue_requests (w : Work) (b : Bool) (h : ∀ q ∈ s.queue, q.station ≠ i) :
    (s.requeue i w b).queue.filter (fun p => p.station == i) = [⟨i, w, b⟩] :=
  insertHead_filter ⟨i, w, b⟩ s.queue h

theorem State.withdraw_requests : ∀ q ∈ (s.withdraw i).queue, q.station ≠ i := by
  intro q hq
  simpa using (List.mem_filter.1 hq).2

theorem State.withdraw_requestOf : (s.withdraw i).requestOf i = none :=
  List.find?_eq_none.2 (fun q hq => by simpa using s.withdraw_requests i q hq)

/-! ### Gear steps (R12) -/

theorem State.setStation_setStation (x y : Station) :
    (s.setStation i x).setStation i y = s.setStation i y := by
  simp [State.setStation]

/-- A step that does not complete at its start stands under the gear timer. -/
theorem State.startStep_of_open (kind : StepKind) (lock : LockPos) (clutch : ClutchPos)
    (h : ¬ ((s.station i).senLock = some lock ∧ (s.station i).senClutch = some clutch)) :
    s.startStep i kind lock clutch =
      s.setStation i ((s.station i).stepping kind lock clutch s.settings.gearLimit) := by
  unfold State.startStep State.tryComplete
  simp only [State.station_onStation_self, h, if_false, Station.stepping]
  rfl

/-- A step whose gear already agrees completes at its start; its continuation follows. -/
theorem State.startStep_of_agreed (kind : StepKind) (lock : LockPos) (clutch : ClutchPos)
    (h : (s.station i).senLock = some lock ∧ (s.station i).senClutch = some clutch) :
    s.startStep i kind lock clutch =
      (s.setStation i ((s.station i).stepping kind lock clutch s.settings.gearLimit)).continueStep i
        kind := by
  unfold State.startStep State.tryComplete
  simp only [State.station_onStation_self, h, and_self, if_true, Station.stepping]
  unfold State.onStation
  rw [State.station_setStation_self, State.setStation_setStation]
  obtain ⟨h1, h2⟩ := h
  rw [← h1, ← h2]

/-- A step without a continuation sets the commanded gear and nothing else. -/
theorem State.startStep_plain {kind : StepKind} (lock : LockPos) (clutch : ClutchPos)
    (h : kind ≠ .motionUnlock ∧ kind ≠ .motionLock ∧ kind ≠ .rewindEngage) :
    s.startStep i kind lock clutch =
      s.setStation i ((s.station i).stepping kind lock clutch s.settings.gearLimit) := by
  by_cases k : (s.station i).senLock = some lock ∧ (s.station i).senClutch = some clutch
  · rw [State.startStep_of_agreed s i kind lock clutch k]
    obtain ⟨h1, h2, h3⟩ := h
    cases kind <;> simp_all [State.continueStep]
  · exact State.startStep_of_open s i kind lock clutch k

/-! ### Motions and work (R16, R19, R22, R126, R130) -/

theorem State.stopMotion_station (cause : StopCause) :
    (s.stopMotion i cause).station i = { s.station i with
      stopCause := cause
      motionTimer := none
      active := (s.station i).active.map ActiveOp.ended } := by
  simp [State.stopMotion, State.setStop_station]

theorem State.dropWork_station :
    (s.dropWork i).station i = { s.station i with
      active := none, parked := none, motionTimer := none } := by
  unfold State.dropWork
  rw [State.station_onStation_self]
  rfl

theorem State.dropWork_requestOf : (s.dropWork i).requestOf i = none :=
  s.withdraw_requestOf i

/-- Entry to FAULT (R19). -/
theorem State.enterFault_station (cause : StopCause) (reason : Attention) :
    (s.enterFault i cause reason).station i = (s.station i).faulted cause reason := by
  unfold State.enterFault
  rw [State.raise_station, State.station_onStation_self, State.enter_station _ _ (by decide),
    State.dropWork_station, State.releaseUnit_station]
  simp only [Station.faulted, Station.idled, Station.entered, Station.noticing]
  rfl

/-- The release sequence leaves the station releasing, its work dropped (R130). -/
theorem State.releaseSequence_station (cause : StopCause) :
    (s.releaseSequence i cause).station i = ({ (s.station i).idled with
        state := .released
        stopCause := if (s.motionOf i).isSome then cause else (s.station i).stopCause }).stepping
      .release .unlocked .free s.settings.gearLimit := by
  unfold State.releaseSequence
  rw [State.startStep_plain _ _ _ _ (by decide), State.station_setStation_self,
    State.enter_station _ _ (by decide), State.dropWork_station, State.releaseUnit_station]
  have g : ∀ t : State, t.inForce = s.inForce →
      (((t.releaseUnit i).dropWork i).enter i .released).settings.gearLimit =
        s.settings.gearLimit := by
    intro t ht
    have h := ((t.releaseUnit_local i).trans (State.dropWork_local _ i)).trans
      (State.enter_local _ i .released)
    rw [State.settings, State.settings, h.inForce, ht]
  split
  · rw [g _ (s.stopMotion_local i cause).inForce, State.stopMotion_station]
    simp only [Station.idled, Station.entered]
  · rw [g s rfl]
    simp only [Station.idled, Station.entered]

/-! ### Length (R8, R9) -/

theorem State.updateLength_station {count : Nat} (h : (s.station i).position = some count) :
    (s.updateLength i).station i = (s.station i).measured (s.calibration i) count := by
  unfold State.updateLength Station.measured
  rw [h]
  dsimp only
  split
  · rw [State.raise_station, State.station_onStation_self]
    simp only [Station.noticing, ← h]
  · rw [State.station_onStation_self]
    cases hx : s.station i
    simp_all

end Sys2Proof.Machine
end

