-- ==== Sys2Proof/Laws/Link.lean ====
section
/-! SUPPORT. What the link does around a command's own rule (R7, R173, R174). -/

namespace Sys2Proof.Machine

variable (s : State) (c : CommandSpec) (len : Byte) (rule : State → Verdict)

@[simp] theorem State.setStraps_inputs (a : BitVec 3) (r : BitRate) :
    (s.setStraps a r).inputs = { s.inputs with strapAddress := a, strapRate := r } := rfl
@[simp] theorem State.setStraps_unitAddress (a : BitVec 3) (r : BitRate) :
    (s.setStraps a r).unitAddress = s.unitAddress := rfl
@[simp] theorem State.setStraps_bitRate (a : BitVec 3) (r : BitRate) :
    (s.setStraps a r).bitRate = s.bitRate := rfl

/-- A frame that is not taken changes nothing. -/
theorem State.unicast_of_busy (h : s.takesFrames = false) : s.unicast c len rule = s := by
  simp [State.unicast, h]

/-- A taken frame whose length does not fit is refused with BAD-LENGTH. -/
theorem State.unicast_of_length (h : s.takesFrames = true) (k : len.toNat ≠ c.length) :
    s.unicast c len rule = s.refuse c .badLength := by
  simp [State.unicast, h, k]

/-- A record-changing command met by a latched code is refused with LATCHED, which carries the code. -/
theorem State.unicast_of_latch {code : Status} (h : s.takesFrames = true) (k : len.toNat = c.length)
    (r : c.recordChanging = true) (l : s.latch = some code) :
    s.unicast c len rule = s.respond c .latched [code.code] := by
  simp [State.unicast, h, k, r, l]

/-- A command that is served comes to its own rule. -/
theorem State.unicast_of_serves (h : s.serves c len) :
    s.unicast c len rule =
      match rule s with
      | .refused status => s.refuse c status
      | .accepted payload t => t.respond c .ok payload := by
  obtain ⟨h, k, l⟩ := h
  unfold State.unicast
  simp only [h, k, Bool.true_eq_false, if_false, ne_eq, not_true_eq_false]
  cases r : c.recordChanging
  · rfl
  · have empty := l r
    generalize s.latch = latch at empty ⊢
    subst empty
    rfl

theorem State.unicast_accepted {payload : List Byte} {t : State} (h : s.serves c len)
    (k : rule s = .accepted payload t) : s.unicast c len rule = t.respond c .ok payload := by
  rw [s.unicast_of_serves c len rule h, k]

theorem State.unicast_refused {status : Status} (h : s.serves c len) (k : rule s = .refused status) :
    s.unicast c len rule = s.refuse c status := by
  rw [s.unicast_of_serves c len rule h, k]

/-- A taken unicast frame is answered: one response stands, and the state is that of an acceptance or s itself with
the latch of the refusal. -/
theorem State.unicast_answers (h : s.takesFrames = true) :
    (∃ payload t, rule s = .accepted payload t ∧ s.unicast c len rule = t.respond c .ok payload) ∨
      (∃ status, s.unicast c len rule = s.refuse c status) ∨
      ∃ code ∈ s.latch, s.unicast c len rule = s.respond c .latched [code.code] := by
  by_cases k : len.toNat = c.length
  · by_cases l : c.recordChanging = true → s.latch = none
    · rw [s.unicast_of_serves c len rule ⟨h, k, l⟩]
      cases e : rule s with
      | refused status => exact .inr (.inl ⟨status, rfl⟩)
      | accepted payload t => exact .inl ⟨payload, t, rfl, rfl⟩
    · push Not at l
      obtain ⟨r, l⟩ := l
      obtain ⟨code, e⟩ := Option.ne_none_iff_exists'.1 l
      exact .inr (.inr ⟨code, e, s.unicast_of_latch c len rule h k r e⟩)
  · exact .inr (.inl ⟨.badLength, s.unicast_of_length c len rule h k⟩)

/-- The checks of R7. -/
theorem State.withStation_of_none {station : Byte} (f : StationId → Verdict)
    (h : 15 < station.toNat) : s.withStation station f = .refused .noStation := by
  have : stationOf station = none := by unfold stationOf; rw [dif_neg (by omega)]
  simp [State.withStation, this]

theorem State.withStation_of_unknown {station : Byte} {i : StationId} (f : StationId → Verdict)
    (h : stationOf station = some i) (k : (s.station i).state = .unknown) :
    s.withStation station f = .refused .notReady := by
  simp [State.withStation, h, k]

theorem State.withStation_of_known {station : Byte} {i : StationId} (f : StationId → Verdict)
    (h : stationOf station = some i) (k : (s.station i).state ≠ .unknown) :
    s.withStation station f = f i := by
  simp [State.withStation, h, k]

/-- The first check that fails refuses. -/
theorem checked_cons (fails : Bool) (status : Status) (rest : List (Bool × Status)) (accept : Verdict) :
    checked ((fails, status) :: rest) accept =
      if fails then .refused status else checked rest accept := by
  cases fails <;> rfl

theorem checked_nil (accept : Verdict) : checked [] accept = accept := rfl

end Sys2Proof.Machine
end

