-- ==== Sys2Proof/Laws/PerInstr.lean ====
section
/-! SUPPORT. What is said of every command, one lemma per constructor of `Instr`. -/

namespace Sys2Proof.Laws.PayloadLength

/-- The length byte of a framed command counts its code and its payload (R170, 10 section 10.5). The rows that no
request frame carries have no content to speak of. -/
def Statement (i : Instr) : Prop :=
  ∀ (c : CommandSpec) (len : Byte) (payload : List Byte),
    i.content = some (c, len, payload) → payload.length + 1 = c.length

/-- A command with a content meets the statement when its payload has the length its code asks for. -/
theorem of_content {i : Instr} {c : CommandSpec} {len : Byte} {payload : List Byte}
    (h : i.content = some (c, len, payload)) (k : payload.length + 1 = c.length) : Statement i := by
  intro d l p e
  rw [h] at e
  cases e
  exact k

/-- A command without a content meets the statement. -/
theorem of_none {i : Instr} (h : i.content = none) : Statement i := by
  intro d l p e
  rw [h] at e
  cases e

theorem makeFast (len station : Byte) (tag : BitVec 16) (fields : RecordFields) :
    Statement (.makeFast len station tag fields) := of_content rfl rfl
theorem adopt (len station : Byte) (tag : BitVec 16) (fields : RecordFields) :
    Statement (.adopt len station tag fields) := of_content rfl rfl
theorem amend (len station : Byte) (fields : RecordFields) :
    Statement (.amend len station fields) := of_content rfl rfl
theorem query (len station count : Byte) : Statement (.query len station count) := of_content rfl rfl
theorem release (len station : Byte) : Statement (.release len station) := of_content rfl rfl
theorem slacken (len station : Byte) (length : BitVec 16) :
    Statement (.slacken len station length) := of_content rfl rfl
theorem retire (len station : Byte) : Statement (.retire len station) := of_content rfl rfl
theorem runOut (len station : Byte) : Statement (.runOut len station) := of_content rfl rfl
theorem openCall (len : Byte) (tag : BitVec 16) (berth minLines steadyNeed : Byte) :
    Statement (.openCall len tag berth minLines steadyNeed) := of_content rfl rfl
theorem queryCall (len : Byte) (tag : BitVec 16) : Statement (.queryCall len tag) := of_content rfl rfl
theorem singleUp (len : Byte) (tag : BitVec 16) : Statement (.singleUp len tag) := of_content rfl rfl
theorem closeCall (len : Byte) (tag : BitVec 16) : Statement (.closeCall len tag) := of_content rfl rfl
theorem lockQuarter (len quarter : Byte) : Statement (.lockQuarter len quarter) := of_content rfl rfl
theorem unlockAll (len : Byte) : Statement (.unlockAll len) := of_content rfl rfl
theorem queryLocks (len : Byte) : Statement (.queryLocks len) := of_content rfl rfl
theorem holdAll (broadcast : Bool) (len : Byte) : Statement (.holdAll broadcast len) := of_content rfl rfl
theorem resumeAll (broadcast : Bool) (len : Byte) : Statement (.resumeAll broadcast len) := of_content rfl rfl
theorem resetDrive (len unit : Byte) : Statement (.resetDrive len unit) := of_content rfl rfl
theorem clearFault (len station : Byte) : Statement (.clearFault len station) := of_content rfl rfl
theorem calibrateStation (len station : Byte) (fields : CalibrationFields) :
    Statement (.calibrateStation len station fields) := of_content rfl rfl
theorem setLimits (len : Byte) (fields : LimitFields) :
    Statement (.setLimits len fields) := of_content rfl rfl
theorem setAlertMode (len mode polarity : Byte) :
    Statement (.setAlertMode len mode polarity) := of_content rfl rfl
theorem status (len : Byte) : Statement (.status len) := of_content rfl rfl
theorem clearError (len : Byte) : Statement (.clearError len) := of_content rfl rfl
theorem clearAlert (len : Byte) : Statement (.clearAlert len) := of_content rfl rfl
theorem restart (len : Byte) : Statement (.restart len) := of_content rfl rfl
theorem unknownCommand (code len : Byte) : Statement (.unknownCommand code len) := of_none rfl
theorem broadcastIgnored (code len : Byte) : Statement (.broadcastIgnored code len) := of_none rfl
theorem frameDiscarded (address : Byte) (crcMatches : Bool) :
    Statement (.frameDiscarded address crcMatches) := of_none rfl
theorem frameGapTimeout : Statement .frameGapTimeout := of_none rfl
theorem badFrameLength (len : Byte) : Statement (.badFrameLength len) := of_none rfl
theorem loadSampleArrival (station : StationId) (raw : BitVec 16) :
    Statement (.loadSampleArrival station raw) := of_none rfl
theorem drumPositionArrival (station : StationId) (count : BitVec 24) :
    Statement (.drumPositionArrival station count) := of_none rfl
theorem gearSenseArrival (station : StationId) (sense : GearSense) :
    Statement (.gearSenseArrival station sense) := of_none rfl
theorem takeOverAsserted (station : StationId) : Statement (.takeOverAsserted station) := of_none rfl
theorem takeOverEnded (station : StationId) : Statement (.takeOverEnded station) := of_none rfl
theorem holdInputAsserted : Statement .holdInputAsserted := of_none rfl
theorem holdInputDeasserted : Statement .holdInputDeasserted := of_none rfl
theorem keyChange (asserted : Bool) : Statement (.keyChange asserted) := of_none rfl
theorem readyArrival (unit : UnitId) : Statement (.readyArrival unit) := of_none rfl
theorem unitFaultAsserted (unit : UnitId) : Statement (.unitFaultAsserted unit) := of_none rfl
theorem unitFaultDeasserted (unit : UnitId) : Statement (.unitFaultDeasserted unit) := of_none rfl
theorem gearTimerExpiry (station : StationId) : Statement (.gearTimerExpiry station) := of_none rfl
theorem readyTimerExpiry (unit : UnitId) : Statement (.readyTimerExpiry unit) := of_none rfl
theorem motionTimerExpiry (station : StationId) : Statement (.motionTimerExpiry station) := of_none rfl
theorem takeOverTimerExpiry (station : StationId) : Statement (.takeOverTimerExpiry station) := of_none rfl
theorem storeWriteComplete : Statement .storeWriteComplete := of_none rfl
theorem powerLoss : Statement .powerLoss := of_none rfl
theorem powerOn : Statement .powerOn := of_none rfl
theorem restartBegin : Statement .restartBegin := of_none rfl
theorem storeReadComplete : Statement .storeReadComplete := of_none rfl
theorem responseTransmissionEnd : Statement .responseTransmissionEnd := of_none rfl

end Sys2Proof.Laws.PayloadLength
end

