-- ==== Sys2Proof/Tests/Slice0.lean ====
section
/-! SUPPORT. Tests: worked examples of the manual, one small step per command, and for every statement with
hypotheses a state and operands that meet them. Expected values come from the manual or from hand calculation. -/

namespace Sys2Proof.Tests

open Sys2Proof Sys2Proof.Machine

set_option Elab.async false

/-! ### A check of the invariants that can be evaluated -/

def callsCheck (s : State) : Bool := decide (
  (s.calls.map Call.tag).Nodup ∧
  (∀ c ∈ s.calls, 1 ≤ c.tag ∧ c.tag ≤ 65535 ∧ 1 ≤ c.minLines ∧ c.minLines ≤ 8 ∧
    1 ≤ c.steadyNeed ∧ c.steadyNeed ≤ 255) ∧
  s.calls.length ≤ Config.callsMax ∧
  (∀ berth ∈ [Berth.a, Berth.b], (s.callsOn berth).length ≤ Config.callsPerBerth) ∧
  (∀ c ∈ s.calls, ∀ d ∈ s.calls,
    c.berth = d.berth → c.state.active = true → d.state.active = true → c.tag = d.tag) ∧
  (∀ berth ∈ [Berth.a, Berth.b],
    (s.permit berth = true ↔ ∃ c ∈ s.calls, c.berth = berth ∧ c.state = .held)) ∧
  (∀ c ∈ s.calls, c.list.Nodup ∧
    ∀ i ∈ c.list, berthOf i = c.berth ∧ ∃ r ∈ s.mooring i, r.tag = c.tag) ∧
  (∀ i, ∀ r ∈ s.mooring i, ∃ c ∈ s.calls, c.tag = r.tag ∧ i ∈ c.list) ∧
  (∀ c ∈ s.calls, s.transitionOf c = none))

theorem callsOk_of_check {s : State} (h : callsCheck s = true) : s.CallsOk := by
  obtain ⟨a, b, c, d, e, f, g, i, j⟩ := of_decide_eq_true h
  exact ⟨a, b, c, d, e, f, g, i, j⟩

def recordsCheck (s : State) : Bool := decide (
  (∀ i, ∀ r ∈ s.mooring i,
    (r.slackLimit + 20 ≤ r.highLimit ∧ r.highLimit + 20 ≤ r.criticalLimit ∧
      r.criticalLimit ≤ 20000 ∧ r.hysteresis ∈ [0, 20, 50, 100] ∧ 1 ≤ r.windowLength ∧
      r.windowLength ≤ 8 ∧ 1 ≤ r.excursionCount ∧ r.excursionCount ≤ r.windowLength ∧
      1 ≤ r.compliance ∧ r.compliance ≤ 255 ∧ 10 ≤ r.stepLimit ∧ r.stepLimit ≤ 400 ∧
      ∀ rank ∈ r.letGoRank, 1 ≤ rank ∧ rank ≤ 16)) ∧
  (∀ i, (s.station i).state.moored = true → (s.mooring i).isSome = true) ∧
  (∀ i, (s.station i).state.unmoored = true → s.mooring i = none) ∧
  (∀ i, (s.station i).resting.isSome = true ↔ (s.station i).state = .trimming) ∧
  (∀ i, ∀ state ∈ (s.station i).resting, state = .fast ∨ state = .eased) ∧
  (∀ i, (s.station i).takeOver.isSome = true ↔ (s.station i).state = .inLocal) ∧
  (∀ i, ∀ o ∈ (s.station i).takeOver, o.returnState.returns (s.mooring i).isSome = true))

theorem recordsOk_of_check {s : State} (h : recordsCheck s = true) : s.RecordsOk := by
  obtain ⟨a, b, c, d, e, f, g⟩ := of_decide_eq_true h
  exact ⟨a, b, c, d, e, f, g⟩

def workCheck (s : State) : Bool := decide (
  (s.queue.map Request.station).Nodup ∧
  (∀ q ∈ s.queue, q.work.pendingIn (s.station q.station).state = true ∧
    (s.station q.station).unit = none ∧ (s.station q.station).active = none ∧
    (s.station q.station).parked = none) ∧
  (∀ i, ∀ a ∈ (s.station i).active,
    a.work.activeIn (s.station i).state = true ∧ (s.station i).parked = none) ∧
  (∀ i, ∀ a ∈ (s.station i).active, a.isAwaiting = true →
    (s.station i).unit = none ∧ s.hold = false) ∧
  (∀ i, ∀ p ∈ (s.station i).parked, p.work.parkedIn (s.station i).state = true) ∧
  (∀ i, (s.station i).unit.isSome = true → (s.station i).state.holdsUnit = true) ∧
  (∀ i u, (s.station i).unit = some u ↔ (s.unit u).served = some i) ∧
  (s.hold = true → s.queue = [] ∧ (∀ u, (s.unit u).state ≠ .granted) ∧
    ∀ i, s.motionOf i = none))

theorem workOk_of_check {s : State} (h : workCheck s = true) : s.WorkOk := by
  obtain ⟨a, b, c, d, e, f, g, i⟩ := of_decide_eq_true h
  exact ⟨a, b, c, d, e, f, g, i⟩

def unitCheck (x : DriveUnit) : Bool :=
  match x.state with
  | .idle => decide (x.served = none ∧ x.readyTimer = none ∧ x.run = none ∧ x.stop = true)
  | .granted => decide (x.served.isSome = true ∧ x.readyTimer.isSome = true ∧
      x.run.map Prod.fst = x.served)
  | .running => decide (x.served.isSome = true ∧ x.readyTimer = none ∧ x.run.map Prod.fst = x.served)
  | .faulted => decide (x.readyTimer = none ∧ x.run = none)

theorem unit_ok_of_check {x : DriveUnit} (h : unitCheck x = true) : x.ok := by
  unfold unitCheck at h
  unfold DriveUnit.ok
  split <;> simp_all

def queueCheck (s : State) : Bool :=
  decide (s.queue.Pairwise (fun p q => p.work.opClass.run ≤ q.work.opClass.run)) &&
    decide (∀ u, unitCheck (s.unit u) = true) &&
    decide (s.hold = false → s.queue ≠ [] → ∀ u, (s.unit u).state ≠ .idle)

def gearCheck (s : State) : Bool := decide (
  (∀ i, (s.station i).state ≠ .unknown →
    (s.station i).position.isSome = true ∧ (s.station i).senLock.isSome = true ∧
      (s.station i).senClutch.isSome = true) ∧
  (∀ i, ∀ g ∈ (s.station i).step,
    (s.station i).state.gearAtRest = false ∧ (s.station i).gearTimer.isSome = true ∧
      (g.lock, g.clutch) = g.kind.targets ∧ (s.station i).cmdLock = g.lock ∧
      (s.station i).cmdClutch = some g.clutch ∧ (s.station i).disagrees = true) ∧
  (∀ i, (s.station i).step = none → (s.station i).state.gearAtRest = false →
    (s.station i).gearTimer.isSome = (s.station i).disagrees) ∧
  (∀ i, (s.station i).state.gearAtRest = true → (s.station i).gearTimer = none) ∧
  (∀ i, (s.station i).state = .unknown ∨ (s.station i).state = .fault →
    (s.station i).cmdLock = .locked))

theorem gearOk_of_check {s : State} (h : gearCheck s = true) : s.GearOk := by
  obtain ⟨a, b, c, d, e⟩ := of_decide_eq_true h
  exact ⟨a, b, c, d, e⟩

def driveCheck (s : State) : Bool := decide (
  (∀ i, ∀ u ∈ (s.station i).unit,
    ((s.unit u).state = .granted ↔ (s.station i).active.any ActiveOp.isGranted = true)) ∧
  (∀ i, ∀ u ∈ (s.station i).unit, (s.motionOf i).isSome = true → (s.unit u).state = .running) ∧
  (∀ i, (s.station i).active.any (fun a => !a.isAwaiting) = true →
    (s.station i).unit.isSome = true) ∧
  (∀ i, ∀ u ∈ (s.station i).unit, (s.unit u).state ≠ .granted →
    (s.motionOf i).isSome = true ∨ (s.station i).locking = true) ∧
  (∀ i, (s.station i).locking = true →
    s.motionOf i = none ∧ ∃ u ∈ (s.station i).unit, (s.unit u).state ≠ .granted) ∧
  (∀ i, (s.station i).step.any (fun g => g.kind == .motionUnlock) = true →
    (s.motionOf i).isSome = true) ∧
  (∀ i, (s.station i).state = .trimming → (s.station i).unit.isSome = true)) && decide (
  (∀ i, ∀ a ∈ (s.station i).active, a.isAwaiting = true →
    a.work = .rewind ∧ (s.station i).step.any (fun g => g.kind == .rewindEngage) = true) ∧
  (∀ i, (s.station i).motionTimer.isSome = (s.motionOf i).isSome) ∧
  (∀ u, (s.unit u).stop = false →
    ∃ i ∈ (s.unit u).served, (s.motionOf i).isSome = true))

theorem driveOk_of_check {s : State} (h : driveCheck s = true) : s.DriveOk := by
  obtain ⟨h, k⟩ := Bool.and_eq_true_iff.1 h
  obtain ⟨a, b, c, d, e, f, g⟩ := of_decide_eq_true h
  obtain ⟨i, j, l⟩ := of_decide_eq_true k
  exact ⟨a, b, c, d, e, f, g, i, j, l⟩

def channelsCheck (s : State) : Bool := decide (
  (∀ i, ((s.channel i).sum ≤ Config.readingMax * (s.channel i).count ∧
    (s.channel i).count < (s.calibration i).decimation ∧
    (∀ v ∈ (s.channel i).latest, v ≤ Config.readingMax) ∧ (s.channel i).window.length ≤ 8 ∧
    (∀ v ∈ (s.channel i).window, v ≤ Config.readingMax) ∧
    (s.channel i).overCount ≤ (s.channel i).window.length ∧
    (s.channel i).slackCount ≤ (s.channel i).window.length ∧
    (s.channel i).isSurging = ((s.channel i).isOver && (s.channel i).isSlack) ∧
    (s.channel i).critCount ≤ 2 ∧ (s.channel i).steady ≤ Config.steadyMax ∧
    (s.channel i).rail ≤ Config.sampleRun ∧ (s.channel i).valid ≤ Config.sampleRun)) ∧
  (∀ i, s.mooring i = none →
    (s.channel i).critCount = 0 ∧ (s.channel i).critCondition = false) ∧
  (∀ i, (s.station i).state = .fast ∨ (s.station i).state = .trimming ∨
    ((s.channel i).window = [] ∧ (s.channel i).isOver = false ∧ (s.channel i).isSlack = false)) ∧
  (∀ i, ∀ r ∈ s.mooring i, (s.channel i).window.length ≤ r.windowLength) ∧
  (∀ i, (s.channel i).steady ≠ 0 →
    ((s.station i).state = .fast ∨ (s.station i).state = .trimming) ∧
      ∀ r ∈ s.mooring i, r.stale = false))

theorem channelsOk_of_check {s : State} (h : channelsCheck s = true) : s.ChannelsOk := by
  obtain ⟨a, b, c, d, e⟩ := of_decide_eq_true h
  exact ⟨a, b, c, d, e⟩

def restCheck (s : State) : Bool := decide (s.phase ≠ .running →
  (∀ i, s.station i = { Station.afterReset (s.station i).cmdClutch with
    position := (s.station i).position
    senLock := (s.station i).senLock
    senClutch := (s.station i).senClutch }) ∧
  (∀ i, s.channel i = .afterReset) ∧ (∀ i, s.mooring i = none) ∧
  (∀ u, s.unit u = .unserved .idle) ∧
  (s.calls = [] ∧ s.queue = [] ∧ s.permitA = false ∧ s.permitB = false) ∧
  (s.hold = false ∧ s.alert = false ∧ s.latch = none ∧ s.write = none ∧ s.tx = none ∧
    s.restartPending = false))

theorem restOk_of_check {s : State} (h : restCheck s = true) : s.RestOk := by
  have h := of_decide_eq_true h
  exact ⟨fun k => (h k).1, fun k => (h k).2.1, fun k => (h k).2.2.1, fun k => (h k).2.2.2.1,
    fun k => (h k).2.2.2.2.1, fun k => (h k).2.2.2.2.2⟩

def calibrationCheck (c : Calibration) : Bool := decide (
  c.zero ≤ 65535 ∧ c.scale ≤ 65535 ∧ 4 ≤ c.decimation ∧ c.decimation ≤ 64 ∧
    100 ≤ c.countsPerMetre ∧ c.countsPerMetre ≤ 4000 ∧ c.stowPosition ≤ 16777215 ∧
    500 ≤ c.maxPayout ∧ c.maxPayout ≤ 12000 ∧ 50 ≤ c.minLength ∧ c.minLength ≤ 2000 ∧
    c.minLength < c.maxPayout)

theorem calibration_of_check {c : Calibration} (h : calibrationCheck c = true) : c.inRange :=
  (of_decide_eq_true h : _)

/-- The tests keep the factory settings and an empty write; the ALERT stands at its level. -/
def storedCheck (s : State) : Bool :=
  decide (∀ i : StationId, calibrationCheck s.inForce.calibrations[i] = true ∧
    calibrationCheck s.store.calibrations[i] = true) &&
    decide (s.inForce.settings = .factory ∧ s.store.settings = .factory ∧ s.write = none) &&
    decide ((s.inForce.alertMode = .follow → s.alert = s.followLevel) ∧
      (s.inForce.alertMode = .criticalOnly → s.alert = s.criticalLevel))

def invCheck (s : State) : Bool :=
  callsCheck s && recordsCheck s && workCheck s && queueCheck s && gearCheck s && driveCheck s &&
    channelsCheck s && restCheck s && storedCheck s

theorem inv_of_check {s : State} (h : invCheck s = true) : s.Inv := by
  simp only [invCheck, queueCheck, storedCheck, Bool.and_eq_true, decide_eq_true_eq] at h
  obtain ⟨⟨⟨⟨⟨⟨⟨⟨h1, h2⟩, h3⟩, ⟨h4, h5⟩, h6⟩, h7⟩, h8⟩, h9⟩, h10⟩, ⟨h11, h12, h13, h14⟩, h15⟩ := h
  have settings : Settings.factory.inRange := by unfold Settings.inRange; decide
  refine ⟨callsOk_of_check h1, recordsOk_of_check h2, workOk_of_check h3, h4,
    fun u => unit_ok_of_check (h5 u), h6, gearOk_of_check h7, driveOk_of_check h8,
    channelsOk_of_check h9, restOk_of_check h10, fun _ => ?_,
    ⟨fun i => calibration_of_check (h11 i).1, h12 ▸ settings⟩,
    ⟨fun i => calibration_of_check (h11 i).2, h13 ▸ settings⟩, ?_⟩
  · exact h15
  · rw [h14]; nofun

/-! ### States -/

/-- A part at work: nothing moored, every station in UNKNOWN. -/
def quiet : State := { State.reset with phase := .running }

/-- A record of the tests, on the call with the tag. -/
def line (tag : Nat) (rank : Option Nat) : Mooring where
  tag := tag
  role := .head
  slackLimit := 1500
  highLimit := 2800
  criticalLimit := 4500
  hysteresis := 50
  windowLength := 5
  excursionCount := 3
  compliance := 12
  stepLimit := 80
  autoRelease := true
  letGoRank := rank
  stale := false

/-- A station in a state with its gear at the positions given, and a drum count at 1000 counts a metre. -/
def lying (state : LineState) (lock : LockPos) (clutch : ClutchPos) (count : Nat) : Station :=
  { Station.afterReset (some clutch) with
    state := state
    cmdLock := lock
    senLock := some lock
    senClutch := some clutch
    position := some count
    length := count / 10 }

/-- A station whose gear is LOCKED and ENGAGED. -/
def shutLine (state : LineState) (count : Nat) : Station := lying state .locked .engaged count

/-- A unit that serves a station. -/
def serving (state : UnitState) (i : StationId) (d : Direction) (stop : Bool) : DriveUnit where
  state := state
  served := some i
  readyTimer := if state = .granted then some 2000 else none
  run := some (i, d)
  stop := stop

/-- A deck at work. Berth A departs (tag 1, and tag 4 cleared), berth B holds (tag 2) while another ship of its berth
moors (tag 3). Station 3 waits for its unit, 4 pays out in a trim, 5 locks after a rewind, 9 and 13 wait in the queue, and
14 engages for a rewind. -/
def deck : State :=
  { quiet with
    stations := #v[
      shutLine .stowed 0,
      lying .paying .unlocked .free 30000,
      shutLine .fast 20000,
      { shutLine .heaving 20000 with unit := some 0, active := some ⟨.heave, false, .granted⟩ },
      { lying .trimming .unlocked .engaged 20000 with
        unit := some 1
        active := some ⟨.trim .outward false, false, .moving ⟨20000, 2000, 500, 500⟩⟩
        motionTimer := some 45
        resting := some .fast },
      { shutLine .rewinding 300 with
        unit := some 2
        active := some ⟨.rewind, false, .ended ⟨20000, 2000, 0, 0⟩⟩
        senLock := some .unlocked
        step := some ⟨.motionLock, .locked, .engaged⟩
        gearTimer := some 800
        stopCause := .done },
      shutLine .eased 20000,
      lying .released .unlocked .free 20000,
      shutLine .fast 20000,
      shutLine .easing 20000,
      shutLine .outUnclaimed 20000,
      { shutLine .inLocal 20000 with takeOver := some ⟨.outUnclaimed, some 120⟩ },
      shutLine .fault 20000,
      shutLine .heaving 20000,
      { shutLine .rewinding 20000 with
        senClutch := some .free
        step := some ⟨.rewindEngage, .locked, .engaged⟩
        gearTimer := some 800
        active := some ⟨.rewind, false, .awaiting⟩ },
      Station.afterReset none]
    moorings := #v[none, none, some (line 1 (some 1)), some (line 1 none), some (line 1 none),
      some (line 1 none), some (line 1 (some 2)), some (line 1 none), some (line 2 none),
      some (line 3 none), none, none, none, some (line 3 none), none, none]
    channels := (Vector.replicate 16 { Channel.afterReset with valid := 8, latest := some 2000 }).set 8
      { Channel.afterReset with valid := 8, latest := some 2000, window := [2000], steady := 2 }
    calls := [⟨1, .a, .singling, 1, 2, [2, 3, 4, 5, 6, 7]⟩, ⟨2, .b, .held, 1, 2, [8]⟩,
      ⟨3, .b, .opened, 2, 2, [9, 13]⟩, ⟨4, .a, .clearing, 1, 2, []⟩]
    permitB := true
    queue := [⟨13, .heave, false⟩, ⟨9, .slacken 100, false⟩]
    units := #v[serving .granted 3 .inward true, serving .running 4 .outward false,
      serving .running 5 .inward true, .unserved .faulted] }

theorem deck_inv : deck.Inv := inv_of_check (by decide +kernel)
theorem quiet_inv : quiet.Inv := inv_of_check (by decide +kernel)

/-! ### Worked examples of the manual -/

/-- 10 section 10.1: the CRC over "123456789". -/
theorem test_crc :
    crc16 [0x31, 0x32, 0x33, 0x34, 0x35, 0x36, 0x37, 0x38, 0x39] = 0x29B1 := by decide +kernel

/-- 01: stow position 2000, cpm 640, position 24080 give 3450 cm. -/
theorem test_raw_length :
    { Calibration.factory with countsPerMetre := 640, stowPosition := 2000 }.rawLength 24080 = 3450 := by
  decide

/-- 04: Z = 1000, S = 410 and a sample of 31000 give 3002. -/
theorem test_calibrate :
    { Calibration.factory with zero := 1000, scale := 410 }.calibrate 31000 = 3002 := by decide

/-- 04: with D = 4 a sum of 12026 gives a reading of 3007. -/
theorem test_reading : { Calibration.factory with decimation := 4 }.reading 12026 = 3007 := by decide

/-- The calibration of 05 section 5.7. -/
def drum : Calibration := { Calibration.factory with countsPerMetre := 640 }

/-- 05 section 5.7: a render at 3007 across the range of P, and at 2170 and 2150. -/
theorem test_render_plans :
    (planTrim .outward false 3007 (line 1 none) drum 3450 = .count 512 ∧
      planTrim .outward false 3007 (line 1 none) drum 5950 = .count 320 ∧
      planTrim .outward false 3007 (line 1 none) drum 5997 = .noRoom) ∧
    planTrim .outward false 2170 (line 1 none) drum 3450 = .count 32 ∧
      planTrim .outward false 2150 (line 1 none) drum 3450 = .nothingToDo := by decide

/-- 05 section 5.7: a heave trim at 1420 near Pmin. -/
theorem test_heave_trim_plans :
    planTrim .inward false 1420 (line 1 none) drum 3450 = .count 512 ∧
      planTrim .inward false 1420 (line 1 none) drum 240 = .count 256 ∧
      planTrim .inward false 1420 (line 1 none) drum 203 = .noRoom ∧
      planTrim .inward false 1420 (line 1 none) drum 150 = .noRoom := by decide

/-- 05 section 5.7: a critical render at 4470 with 50 cm of room. -/
theorem test_critical_render_plan :
    planTrim .outward true 4470 (line 1 none) drum 5950 = .count 320 := by decide

/-- The fields of MAKE-FAST in 02 section 2.8. -/
def keyed : RecordFields :=
  ⟨1, 1200, 2600, 4200, 50, 12, 10, 0, 500, 1, 0⟩

/-- 02 section 2.8: the record they make for call 4217. -/
theorem test_record_fields_clamp :
    mooringFrom keyed 4217 =
      { tag := 4217, role := .head, slackLimit := 1200, highLimit := 2600, criticalLimit := 4200
        hysteresis := 50, windowLength := 8, excursionCount := 8, compliance := 1, stepLimit := 400
        autoRelease := true, letGoRank := none, stale := false } := by decide

/-- 10 section 10.1: a RELEASE of station 5 to unit 3, its frame written out byte by byte. -/
theorem test_release_frame :
    decodeFrame 3 ([3, 2, 0x14, 5] ++ beBytes2 (crc16 [3, 2, 0x14, 5])) = .release 2 5 := by
  decide +kernel

/-- 10 sections 10.1 and 10.5: a SLACKEN of 300 cm (0x012C, high byte first) at station 8. -/
theorem test_slacken_frame :
    decodeFrame 3 ([3, 4, 0x15, 8, 0x01, 0x2C] ++ beBytes2 (crc16 [3, 4, 0x15, 8, 0x01, 0x2C])) =
      .slacken 4 8 300 := by decide +kernel

/-- R172: HOLD-ALL is taken from a broadcast, RELEASE is not. -/
theorem test_broadcast_frames :
    decodeFrame 3 ([15, 1, 0x33] ++ beBytes2 (crc16 [15, 1, 0x33])) = .holdAll true 1 ∧
      decodeFrame 3 ([15, 2, 0x14, 5] ++ beBytes2 (crc16 [15, 2, 0x14, 5])) =
        .broadcastIgnored 0x14 2 := by decide +kernel

/-! ### Ill-formed terms -/

theorem test_ill_formed_length : (Instr.status 0).wellFormed = false ∧
    (Instr.release 49 3).wellFormed = false ∧ (Instr.release 48 3).wellFormed = true := by decide
theorem test_ill_formed_unknown : (Instr.unknownCommand 0x14 2).wellFormed = false ∧
    (Instr.unknownCommand 0x99 0).wellFormed = false ∧
    (Instr.unknownCommand 0x99 2).wellFormed = true := by decide
theorem test_ill_formed_broadcast : (Instr.broadcastIgnored 0x33 1).wellFormed = false ∧
    (Instr.broadcastIgnored 0x33 2).wellFormed = true ∧ (Instr.holdAll true 2).wellFormed = false ∧
    (Instr.resumeAll true 2).wellFormed = false := by decide
theorem test_ill_formed_discard : (Instr.frameDiscarded 15 true).wellFormed = false ∧
    (Instr.frameDiscarded 15 false).wellFormed = true := by decide
theorem test_ill_formed_bad_length : (Instr.badFrameLength 1).wellFormed = false ∧
    (Instr.badFrameLength 48).wellFormed = false ∧ (Instr.badFrameLength 49).wellFormed = true ∧
    (Instr.badFrameLength 0).wellFormed = true := by decide

/-! ### One step of each command -/

/-- The command completes and its next state passes the check. -/
def leads (c : Instr) (s : State) (check : State → Bool) : Bool :=
  match exec c s with
  | .next t => check t
  | .fault _ => false
  | .refused _ => false

/-- The status byte of the response that stands, 0xFF when there is none. -/
def statusByte (s : State) : Byte := (s.tx.getD []).getD 4 0xFF

/-- The payload of the response that stands. -/
def payload (s : State) : List Byte := ((s.tx.getD []).drop 5).dropLast.dropLast

/-- The deck with station 10 paying out, for a call of its berth that stands OPEN. -/
def payingDeck : State := deck.setStation 10 (lying .paying .unlocked .free 30000)

/-- 02 section 2.8: the wrong tag is refused with NO-CALL (8) and latched; the right one makes fast. -/
theorem test_makeFast : leads (.makeFast 19 10 9 keyed) payingDeck
      (fun t => statusByte t == Status.noCall.code && t.latch == some .noCall) = true ∧
    leads (.makeFast 19 10 3 keyed) payingDeck (fun t =>
      (t.station 10).state == .heaving && (t.mooring 10).any (fun r => r.tag == 3) &&
        t.calls.any (fun c => c.list == [9, 13, 10]) &&
        t.queue.map Request.station == [13, 10, 9]) = true := by decide +kernel
theorem test_adopt : leads (.adopt 19 10 3 keyed) deck (fun t =>
    (t.station 10).state == .fast && (t.station 10).step == none && t.queue == deck.queue) = true := by
  decide +kernel
theorem test_amend : leads (.amend 17 8 keyed) deck (fun t =>
    (t.channel 8).window == [] && !t.permitB &&
      (t.mooring 8).any (fun r => r.tag == 2 && r.highLimit == 2600)) = true := by decide +kernel
theorem test_query : leads (.query 3 2 4) deck (fun t =>
    statusByte t == 0 && (payload t).length == 237 && (payload t).getD 1 0 == 2) = true := by
  decide +kernel
/-- R65, R66: a line of a HELD call is let go under KEY only. -/
theorem test_release : leads (.release 2 8) deck
      (fun t => statusByte t == Status.callHeld.code) = true ∧
    leads (.release 2 8) { deck with inputs := { deck.inputs with key := true } } (fun t =>
      (t.station 8).state == .released && (t.station 8).cmdLock == .unlocked &&
        (t.station 8).cmdClutch == some .free && (t.mooring 8).isSome && !t.permitB) = true := by
  decide +kernel
/-- R64: station 6 (rank 2) waits for station 2 (rank 1). -/
theorem test_slacken : leads (.slacken 4 6 300) deck
      (fun t => statusByte t == Status.order.code) = true ∧
    leads (.slacken 4 2 5) deck (fun t => (t.station 2).state == .easing &&
      t.queue.getLast? == some ⟨2, .slacken 10, false⟩) = true := by decide +kernel
theorem test_retire : leads (.retire 2 7) deck (fun t =>
    (t.station 7).state == .rewinding && (t.station 7).cmdClutch == some .engaged &&
      (t.station 7).active.any ActiveOp.isAwaiting) = true := by decide +kernel
theorem test_runOut : leads (.runOut 2 0) deck (fun t =>
    (t.station 0).state == .paying && (t.station 0).gearTimer == some 800 &&
      (t.station 0).step == some ⟨.runOut, .unlocked, .free⟩) = true := by decide +kernel
theorem test_openCall : leads (.openCall 6 9 1 0 0) quiet (fun t =>
      t.calls == [⟨9, .b, .opened, 1, 1, []⟩]) = true ∧
    leads (.openCall 6 9 1 3 16) deck (fun t => statusByte t == Status.callFull.code) = true := by
  decide +kernel
theorem test_queryCall : leads (.queryCall 3 2) deck (fun t =>
    payload t == [0, 2, 1, CallState.held.code, 1, 2, 1, 1, 1, 1, 0, 8, LineState.fast.code, 3, 2, 0]) =
      true := by decide +kernel
theorem test_singleUp : leads (.singleUp 3 2) deck (fun t =>
    t.calls.any (fun c => c.tag == 2 && c.state == .singling) && !t.permitB) = true := by
  decide +kernel
theorem test_closeCall : leads (.closeCall 3 4) deck (fun t => t.calls.map Call.tag == [1, 2, 3]) = true ∧
    leads (.closeCall 3 2) deck (fun t => statusByte t == Status.callState.code) = true := by
  decide +kernel
theorem test_lockQuarter : leads (.lockQuarter 2 3) quiet (fun t =>
    t.inForce.locks == #v[false, false, false, true] &&
      t.write == some (.locks #v[false, false, false, true])) = true := by decide +kernel
theorem test_unlockAll : leads (.unlockAll 1) quiet
    (fun t => statusByte t == Status.keyAbsent.code) = true := by decide +kernel
theorem test_queryLocks : leads (.queryLocks 1) quiet (fun t => payload t == [0, 0, 0xFF]) = true := by
  decide +kernel
theorem test_holdAll : leads (.holdAll true 1) deck (fun t =>
    t.hold && t.tx == none && t.queue == [] && (t.station 13).parked == some ⟨.heave, false⟩ &&
      (t.unit 0).state == .idle && (t.station 4).stopCause == .hold) = true := by decide +kernel
theorem test_resumeAll : leads (.resumeAll false 1) { quiet with hold := true }
    (fun t => !t.hold && statusByte t == 0) = true := by decide +kernel
theorem test_resetDrive : leads (.resetDrive 2 3) deck (fun t =>
    (t.unit 3).state == .granted && (t.unit 3).served == some 13 && t.queue.length == 1) = true := by
  decide +kernel
theorem test_clearFault : leads (.clearFault 2 12) deck
    (fun t => (t.station 12).state == .outUnclaimed) = true := by decide +kernel
theorem test_calibrateStation : leads (.calibrateStation 16 10 ⟨0, 410, 2, 640, 2000, 100, 999⟩)
    { deck with inputs := { deck.inputs with key := true } } (fun t =>
      t.calibration 10 == ⟨0, 410, 4, 640, 2000, 500, 499⟩ && (t.station 10).length == 500 &&
        (t.station 10).attention == .limit) = true := by decide +kernel
theorem test_setLimits : leads (.setLimits 13 ⟨4, 601, 99, 121, 29, 3001, 49⟩)
    { quiet with inputs := { quiet.inputs with key := true } } (fun t =>
      t.settings == ⟨5, 600, 100, 120, 30, 3000, 50⟩ && t.store == .factory) = true := by
  decide +kernel
theorem test_setAlertMode : leads (.setAlertMode 3 1 1) deck (fun t => t.alert &&
    t.inForce.alertMode == .follow && t.inForce.alertPolarity == .activeHigh) = true := by
  decide +kernel
theorem test_status : leads (.status 1) deck (fun t =>
    (payload t).length == 31 && (payload t).getD 14 0 == 4 && (payload t).getD 2 0xFF == 1 &&
      (payload t).getD 3 0 == 3) = true := by decide +kernel
theorem test_clearError : leads (.clearError 1) { quiet with latch := some .order } (fun t =>
    payload t == [Status.order.code] && t.latch == none) = true := by decide +kernel
theorem test_clearAlert : leads (.clearAlert 1) { quiet with alert := true }
    (fun t => !t.alert) = true := by decide +kernel
theorem test_restart : leads (.restart 1) { quiet with inputs := { quiet.inputs with key := true } }
    (fun t => t.restartPending && t.phase == .running) = true := by decide +kernel
theorem test_unknownCommand : leads (.unknownCommand 0x99 1) quiet (fun t =>
    (t.tx.getD []).take 5 == [0x3C, 0, 2, 0x99, Status.unknownCommand.code] && t.latch == none) =
      true := by decide +kernel
theorem test_broadcastIgnored : leads (.broadcastIgnored 0x14 2) deck (fun t => t == deck) = true := by
  decide +kernel
theorem test_frameDiscarded : leads (.frameDiscarded 5 true) deck (fun t => t == deck) = true := by
  decide +kernel
theorem test_frameGapTimeout : leads .frameGapTimeout { quiet with rx := some [3, 2] }
    (fun t => t.rx == none) = true := by decide +kernel
theorem test_badFrameLength : leads (.badFrameLength 49) { quiet with rx := some [3] }
    (fun t => t.rx == none) = true := by decide +kernel
/-- R71, R72: the eighth rail sample in a row takes a FAST station to FAULT. -/
theorem test_loadSampleArrival : leads (.loadSampleArrival 8 0xFFFF)
    (deck.onChannel 8 (fun c => { c with rail := 7 })) (fun t =>
      (t.station 8).state == .fault && (t.station 8).attention == .sensor &&
        t.calls.any (fun c => c.tag == 2 && c.state == .strained)) = true := by decide +kernel
/-- R18: at Pmax (6000 cm) the payout stops. -/
theorem test_drumPositionArrival : leads (.drumPositionArrival 1 60000) deck (fun t =>
    (t.station 1).cmdLock == .locked && (t.station 1).cmdClutch == some .free &&
      (t.station 1).attention == .limit && !(t.station 1).beyondPmax) = true := by decide +kernel
/-- R16, R143: the lock step of a REWIND that reached its stow completes; the record is retired. -/
theorem test_gearSenseArrival : leads (.gearSenseArrival 5 (.lock .locked)) deck (fun t =>
    (t.station 5).state == .stowed && t.mooring 5 == none && (t.unit 2).served == some 13) = true := by
  decide +kernel
theorem test_takeOverAsserted : leads (.takeOverAsserted 9) deck (fun t =>
    (t.station 9).state == .inLocal && (t.station 9).parked == some ⟨.slacken 100, false⟩ &&
      (t.station 9).takeOver == some ⟨.eased, some 120⟩) = true := by decide +kernel
theorem test_takeOverEnded : leads (.takeOverEnded 11) deck (fun t =>
    (t.station 11).state == .outUnclaimed && (t.station 11).takeOver == none) = true := by
  decide +kernel
theorem test_holdInputAsserted : leads .holdInputAsserted deck (fun t =>
    t.hold && t.inputs.hold && (t.station 4).resting == some .fast &&
      (t.station 4).step == some ⟨.motionLock, .locked, .engaged⟩) = true := by decide +kernel
theorem test_holdInputDeasserted : leads .holdInputDeasserted { quiet with hold := true }
    (fun t => t.hold && !t.inputs.hold) = true := by decide +kernel
theorem test_keyChange : leads (.keyChange true) quiet (fun t => t.inputs.key) = true := by
  decide +kernel
/-- R103: a HEAVE at READY starts its motion while no reading has been formed since its record was created. -/
theorem test_readyArrival : leads (.readyArrival 0) deck (fun t =>
    (t.unit 0).state == .running && (t.station 3).motionTimer == some 45 &&
      (t.station 3).cmdLock == .unlocked) = true := by decide +kernel
theorem test_unitFaultAsserted : leads (.unitFaultAsserted 1) deck (fun t =>
    (t.unit 1).state == .faulted && (t.unit 1).served == some 4 &&
      (t.station 4).stopCause == .driveFault) = true := by decide +kernel
theorem test_unitFaultDeasserted : leads (.unitFaultDeasserted 3) (deck.setFaultInput 3 true)
    (fun t => t.inputs.fault == .replicate 4 false && (t.unit 3).state == .faulted) = true := by
  decide +kernel
theorem test_gearTimerExpiry : leads (.gearTimerExpiry 14) deck (fun t =>
    (t.station 14).state == .fault && (t.station 14).stopCause == .gear) = true := by decide +kernel
/-- R117, R120: the HEAVE is requeued with retry-used yes ahead of station 13's. -/
theorem test_readyTimerExpiry : leads (.readyTimerExpiry 0) deck (fun t =>
    (t.unit 0).state == .faulted && t.queue.head? == some ⟨3, .heave, true⟩) = true := by
  decide +kernel
theorem test_motionTimerExpiry : leads (.motionTimerExpiry 4) deck (fun t =>
    (t.station 4).stopCause == .timeout && (t.station 4).attention == .timeout &&
      (t.unit 1).stop) = true := by decide +kernel
theorem test_takeOverTimerExpiry : leads (.takeOverTimerExpiry 11) deck (fun t =>
    (t.station 11).takeOver == some ⟨.outUnclaimed, none⟩ &&
      (t.station 11).attention == .none) = true := by decide +kernel
theorem test_storeWriteComplete : leads .storeWriteComplete
    { quiet with write := some (.alert .follow .activeHigh) } (fun t =>
      t.store.alertMode == .follow && t.write == none) = true := by decide +kernel
theorem test_powerLoss : leads .powerLoss deck (fun t =>
    t.phase == .off && t.calls == [] && (t.station 8).state == .unknown) = true := by decide +kernel
theorem test_powerOn : leads .powerOn { State.reset with phase := .off }
    (fun t => t.phase == .reading) = true := by decide +kernel
theorem test_restartBegin : leads .restartBegin { deck with restartPending := true } (fun t =>
    t.phase == .reading && (t.station 1).cmdClutch == some .free) = true := by decide +kernel
theorem test_storeReadComplete : leads .storeReadComplete
    { State.reset with store := { Groups.factory with locks := .replicate 4 true } } (fun t =>
      t.phase == .running && t.quarterLocked 5) = true := by decide +kernel
theorem test_responseTransmissionEnd : leads .responseTransmissionEnd { quiet with tx := some [0x3C] }
    (fun t => t.tx == none) = true := by decide +kernel

/-! ### Further states -/

/-- KEY asserted. -/
def State.withKey (s : State) : State := { s with inputs := { s.inputs with key := true } }

/-- The part reading its store: the HOLD input asserted, the fault input of unit 1 too, and station 0 knows where it lies. -/
def waking : State :=
  ({ State.reset with
    inputs := { Inputs.quiet with hold := true, fault := #v[false, true, false, false] } }).setStation 0
    { Station.afterReset none with
      position := some 20000, senLock := some .locked, senClutch := some .engaged }

/-- The deck under the hold: station 3 has its HEAVE parked, 5 its REWIND with the lock step in flight, 9 its SLACKEN, 13
its HEAVE and 14 its REWIND; 4 lies FAST. -/
def heldDeck : State :=
  ({ deck with
    hold := true
    queue := []
    units := #v[.unserved .idle, .unserved .idle, serving .running 5 .inward true, .unserved .faulted]
    stations := ((((deck.stations.set 3 { shutLine .heaving 20000 with parked := some ⟨.heave, false⟩ }).set
      4 (shutLine .fast 20000)).set
      9 { shutLine .easing 20000 with parked := some ⟨.slacken 100, false⟩ }).set
      13 { shutLine .heaving 20000 with parked := some ⟨.heave, false⟩ }).set
      14 { deck.station 14 with active := none, parked := some ⟨.rewind, false⟩ } }).onStation 5
    (fun x => { x with active := none, stopCause := .hold, parked := some ⟨.rewind, false⟩ })

/-- Station 4 of the deck with another operation on unit 1, and a stop cause. -/
def atFour (state : LineState) (work : Work) (retryUsed : Bool) (phase : OpPhase) (cause : StopCause) : State :=
  (deck.setStation 4
    { lying state (if phase = .granted then .locked else .unlocked) .engaged 20000 with
      unit := some 1
      active := some ⟨work, retryUsed, phase⟩
      motionTimer := match phase with
        | .moving _ => some 45
        | .awaiting | .granted | .ended _ => none
      resting := if state = .trimming then some .fast else none
      cmdLock := match phase with
        | .ended _ => .locked
        | .moving _ => .unlocked
        | .awaiting | .granted => .locked
      step := match phase with
        | .ended _ => some ⟨.motionLock, .locked, .engaged⟩
        | .awaiting | .granted | .moving _ => none
      gearTimer := match phase with
        | .ended _ => some 800
        | .awaiting | .granted | .moving _ => none
      stopCause := cause }).setUnit 1
    (serving (if phase = .granted then .granted else .running) 4 work.direction
      (match phase with
        | .moving _ => false
        | .awaiting | .granted | .ended _ => true))

/-- The measures of a motion from 20 m out with 500 counts to do. -/
def measures : Motion := ⟨20000, 2000, 500, 500⟩

/-- A state whose next sample at a station completes a reading of 16 equal values. -/
def State.due (s : State) (i : StationId) (v : Nat) : State :=
  s.onChannel i (fun c => { c with count := 15, sum := 15 * v })

/-- Station 15 of the deck but for one sense. -/
def nearly : State := deck.setStation 15
  { Station.afterReset none with position := some 60001, senLock := some .locked }

/-- The same with a pending sensor fault that stands. -/
def nearlyFaulted : State :=
  (nearly.onStation 15 (fun x => { x with pendingSensorFault := true })).onChannel 15
    (fun c => { c with valid := 7 })

def locked (s : State) : State := { s with inForce := { s.inForce with locks := .replicate 4 true } }

/-! ### What the statements assume can be met -/

theorem witness_RequestFramesDecodeToTheirCommands :
    (Instr.slacken 4 15 0xFFFF).wellFormed = true ∧ (Instr.slacken 4 15 0xFFFF).lengthFits = true ∧
      (Instr.holdAll true 1).wellFormed = true ∧ (Instr.holdAll true 1).lengthFits = true := by decide

theorem witness_RequestFramesArriveByteByByte :
    (Instr.slacken 4 15 0xFFFF).wellFormed = true ∧ (Instr.slacken 4 15 0xFFFF).lengthFits = true ∧
      quiet.phase = .running ∧ quiet.restartPending = false ∧ quiet.tx = none ∧ quiet.rx = none := by
  decide +kernel

theorem witness_UnicastCommandsAreAnswered :
    (Instr.release 2 8).content = some (Command.release, 2, [8]) ∧
      (Instr.release 2 8).isBroadcast = false ∧ deck.takesFrames = true := by decide +kernel

theorem witness_LinkAndStationChecksComeFirst :
    (Instr.release 2 8).content = some (Command.release, 2, [8]) ∧ State.reset.takesFrames = false ∧
      deck.takesFrames = true ∧ (Instr.release 2 8).isBroadcast = false ∧
      ((3 : Byte).toNat ≠ Command.release.length) ∧ Command.release.recordChanging = true ∧
      { deck with latch := some .order }.latch = some .order ∧ deck.serves Command.release 2 ∧
      (Instr.release 2 16).stationField = some 16 ∧ 15 < (16 : Byte).toNat ∧
      (Instr.release 2 15).stationField = some 15 ∧ (deck.station 15).state = .unknown := by
  decide +kernel

theorem witness_LinkEventsTouchTheLinkOnly :
    deck.takesFrames = true ∧ State.reset.takesFrames = false := by decide +kernel

theorem witness_StatusReportsThePart : deck.calls.length ≤ 4 ∧ deck.serves Command.status 1 ∧
    deck.calls[3]?.isSome = true := by decide +kernel

theorem witness_QueryCallReportsTheCall : deck.Inv ∧ deck.serves Command.queryCall 3 ∧
    deck.calls.all (fun c => c.tag != (5 : BitVec 16).toNat) = true ∧
    ∃ c ∈ deck.calls, c.tag = (1 : BitVec 16).toNat ∧ c.list.length = 6 :=
  ⟨deck_inv, by decide +kernel⟩

theorem witness_QueryReportsAndResetsAttention : deck.Inv ∧ deck.serves Command.query 3 ∧
    stationOf 14 = some 14 ∧ (deck.station 14).state ≠ .unknown :=
  ⟨deck_inv, by decide +kernel⟩

theorem witness_ClearErrorEmptiesTheLatch :
    { deck with latch := some .order }.serves Command.clearError 1 ∧
      (Instr.release 2 8).content = some (Command.release, 2, [8]) ∧
      Command.release.recordChanging = true ∧ (2 : Byte).toNat = Command.release.length := by
  decide +kernel

theorem witness_AlertCommandsFormTheAlert : deck.serves Command.clearAlert 1 ∧
    deck.serves Command.setAlertMode 3 ∧ 2 < (3 : Byte).toNat ∧ 1 < (2 : Byte).toNat ∧
    { deck with write := some (.locks (.replicate 4 true)) }.serves Command.setAlertMode 3 ∧
    (2 : Byte).toNat ≤ 2 ∧ (1 : Byte).toNat ≤ 1 ∧ AlertMode.criticalOnly.code = 2 ∧
    AlertPolarity.activeHigh.code = 1 ∧ deck.write = none := by decide +kernel

theorem witness_ResetsEmptyWhatIsVolatile :
    ({ deck with restartPending := true }.restartPending = true ∧ deck.tx = none ∧ deck.write = none) ∧
      deck.restartPending = false ∧ deck.serves Command.restart 1 := by decide +kernel

theorem waking_inv : waking.Inv := inv_of_check (by decide +kernel)
theorem payingDeck_inv : payingDeck.Inv := inv_of_check (by decide +kernel)
theorem heldDeck_inv : heldDeck.Inv := inv_of_check (by decide +kernel)
theorem nearly_inv : nearly.Inv := inv_of_check (by decide +kernel)
theorem nearlyFaulted_inv : nearlyFaulted.Inv := inv_of_check (by decide +kernel)
theorem lockedDeck_inv : (locked deck).Inv := inv_of_check (by decide +kernel)

theorem witness_StoreReadStartsThePart : waking.Inv ∧ waking.phase = .reading ∧
    (waking.station 0).complete = true ∧ deck.Inv ∧ deck.phase ≠ .reading :=
  ⟨waking_inv, by decide +kernel, by decide +kernel, deck_inv, by decide +kernel⟩

theorem witness_StationsLeaveUnknownByWhatTheySense :
    (waking.Inv ∧ waking.phase = .reading) ∧
    (deck.Inv ∧ deck.phase = .running ∧ (deck.station 15).state = .unknown ∧
      ((deck.station 15).sensed (.clutch .engaged)).complete = false) ∧
    (nearly.Inv ∧ nearly.phase = .running ∧ (nearly.station 15).state = .unknown ∧
      ((nearly.station 15).sensed (.clutch .engaged)).complete = true ∧
      nearly.sensorFaultStands 15 = false ∧
      (nearly.calibration 15).maxPayout < (nearly.calibration 15).rawLength 60010) ∧
    (nearlyFaulted.Inv ∧ ((nearlyFaulted.station 15).sensed (.clutch .engaged)).complete = true ∧
      nearlyFaulted.sensorFaultStands 15 = true) :=
  ⟨⟨waking_inv, by decide +kernel⟩, ⟨deck_inv, by decide +kernel⟩, ⟨nearly_inv, by decide +kernel⟩,
    nearlyFaulted_inv, by decide +kernel⟩

/-- Limits as close as R27 allows, and a rank above the range. -/
def tight : RecordFields := ⟨6, 100, 120, 140, 0, 0, 255, 255, 9, 0, 17⟩

theorem witness_RecordFieldsAreClamped : keyed.acceptable ∧ tight.acceptable := by decide

theorem witness_MooringCommandsRefuseInOrder :
    (payingDeck.Inv ∧ stationOf 10 = some 10 ∧ (payingDeck.station 10).state = .paying ∧
      payingDeck.serves Command.makeFast 19 ∧ payingDeck.hold = false ∧
      (∀ c ∈ payingDeck.calls, c.tag ≠ (9 : BitVec 16).toNat) ∧
      (∃ c ∈ payingDeck.calls, c.tag = (1 : BitVec 16).toNat ∧ c.berth ≠ berthOf 10) ∧
      (∃ c ∈ payingDeck.calls, c.tag = (3 : BitVec 16).toNat ∧ c.berth = berthOf 10 ∧
        c.state = .opened) ∧ ¬ { tight with highLimit := 119 }.acceptable) ∧
    (deck.Inv ∧ deck.serves Command.makeFast 19 ∧ (deck.station 1).state = .paying ∧
      (∃ c ∈ deck.calls, c.tag = (4 : BitVec 16).toNat ∧ c.berth = berthOf 1 ∧ c.state = .clearing) ∧
      (deck.station 11).state = .inLocal ∧ (deck.mooring 8).isSome = true ∧
      (deck.station 0).state = .stowed ∧ deck.serves Command.adopt 19 ∧
      (deck.station 10).state = .outUnclaimed ∧ deck.serves Command.amend 17 ∧
      deck.mooring 0 = none ∧ (deck.mooring 7).isSome = true ∧ (deck.station 7).state = .released ∧
      (deck.station 9).state = .easing ∧ (deck.station 8).state = .fast) ∧
    heldDeck.Inv ∧ heldDeck.serves Command.makeFast 19 ∧ heldDeck.hold = true :=
  ⟨⟨payingDeck_inv, by decide +kernel⟩, ⟨deck_inv, by decide +kernel⟩, heldDeck_inv, by decide +kernel⟩

theorem witness_MakeFastCreatesAMooring : payingDeck.Inv ∧ payingDeck.serves Command.makeFast 19 ∧
    stationOf 10 = some 10 ∧ payingDeck.hold = false ∧ (payingDeck.station 10).state = .paying ∧
    tight.acceptable ∧ ∃ c ∈ payingDeck.calls, c.tag = (3 : BitVec 16).toNat ∧
      c.berth = berthOf 10 ∧ c.state ≠ .singling ∧ c.state ≠ .clearing :=
  ⟨payingDeck_inv, by decide +kernel⟩

theorem witness_AdoptCreatesAMooring : deck.Inv ∧ deck.serves Command.adopt 19 ∧
    stationOf 10 = some 10 ∧ (deck.station 10).state = .outUnclaimed ∧ tight.acceptable ∧
    ∃ c ∈ deck.calls, c.tag = (2 : BitVec 16).toNat ∧ c.berth = berthOf 10 ∧ c.state = .held :=
  ⟨deck_inv, by decide +kernel⟩

theorem witness_AmendReplacesTheRecord :
    (deck.Inv ∧ deck.serves Command.amend 17 ∧ tight.acceptable ∧ (deck.station 8).state = .fast ∧
      deck.mooring 8 = some (line 2 none) ∧ (deck.station 4).state = .trimming ∧
      deck.mooring 4 = some (line 1 none)) ∧
    heldDeck.Inv ∧ heldDeck.serves Command.amend 17 ∧ (heldDeck.station 13).state = .heaving ∧
      (heldDeck.station 13).parked = some ⟨.heave, false⟩ ∧
      heldDeck.mooring 13 = some (line 3 none) ∧
      (mooringFrom tight 3).slackLimit ≠ (line 3 none).slackLimit :=
  ⟨⟨deck_inv, by decide +kernel⟩, heldDeck_inv, by decide +kernel⟩

theorem witness_CallsOpenAndClose :
    (deck.Inv ∧ deck.serves Command.openCall 6 ∧ 1 < (2 : Byte).toNat ∧
      (∃ c ∈ deck.calls, c.tag = (1 : BitVec 16).toNat) ∧ Berth.b.code = 1 ∧
      (∀ c ∈ deck.calls, c.tag ≠ (5 : BitVec 16).toNat) ∧ 4 ≤ deck.calls.length) ∧
    (quiet.Inv ∧ quiet.serves Command.openCall 6 ∧ quiet.calls.length < 4) ∧
    deck.serves Command.closeCall 3 ∧
      (∃ c ∈ deck.calls, c.tag = (2 : BitVec 16).toNat ∧ c.state = .held) ∧
      (∃ c ∈ deck.calls, c.tag = (3 : BitVec 16).toNat ∧ c.state = .opened ∧ c.list ≠ []) ∧
      ∃ c ∈ deck.calls, c.tag = (4 : BitVec 16).toNat ∧ c.state = .clearing ∧ c.list = [] :=
  ⟨⟨deck_inv, by decide +kernel⟩, ⟨quiet_inv, by decide +kernel⟩, by decide +kernel⟩

theorem witness_SingleUpStartsTheDeparture : deck.Inv ∧ deck.serves Command.singleUp 3 ∧
    (∀ c ∈ deck.calls, c.tag ≠ (5 : BitVec 16).toNat) ∧
    (∃ c ∈ deck.calls, c.tag = (1 : BitVec 16).toNat ∧ c.state = .singling) ∧
    (∃ c ∈ deck.calls, c.tag = (3 : BitVec 16).toNat ∧ c.state = .opened ∧
      ∃ d ∈ deck.calls, d.tag ≠ c.tag ∧ d.berth = c.berth ∧ d.state.active = true) ∧
    ∃ c ∈ deck.calls, c.tag = (2 : BitVec 16).toNat ∧ c.state = .held ∧
      c.list.any deck.holding = true :=
  ⟨deck_inv, by decide +kernel⟩

/-- The deck with SINGLE-UP for call 2 waiting. -/
def waiting : State := { deck with pending := [.singleUp 3 2] }

theorem waiting_inv : waiting.Inv := inv_of_check (by decide +kernel)
theorem waiting_steps : ∃ t, step waiting = .next t := ⟨_, rfl⟩

theorem witness_CallsMoveAsTheTableAllows : waiting.Inv ∧ waiting.pending = [.singleUp 3 2] ∧
    (∃ t, step waiting = .next t) ∧ (∃ c ∈ waiting.calls, c.tag = 2 ∧ c.state = .held) ∧
    leads (.singleUp 3 2) waiting (fun t => t.calls.any (fun d => d.tag == 2)) = true :=
  ⟨waiting_inv, by decide +kernel, waiting_steps, by decide +kernel, by decide +kernel⟩

theorem witness_LettingGoFollowsTheCall :
    (deck.Inv ∧ deck.serves Command.release 2 ∧ deck.serves Command.slacken 4 ∧ deck.hold = false ∧
      (∃ c ∈ deck.calls, 8 ∈ c.list ∧ c.state = .held ∧ deck.quarterLocked 8 = false ∧
        deck.inputs.key = false ∧ (deck.station 8).state = .fast) ∧
      ∃ c ∈ deck.calls, 6 ∈ c.list ∧ c.state = .singling ∧ (deck.station 6).state = .eased ∧
        deck.rankBlocked c 6) ∧
    (locked deck).Inv ∧ (locked deck).serves Command.release 2 ∧ (locked deck).quarterLocked 8 = true :=
  ⟨⟨deck_inv, by decide +kernel⟩, lockedDeck_inv, by decide +kernel⟩

/-- Station 7 in its RELEASING period, and station 2 with 9 cm of room, alone in its call's order. -/
def releasing : State :=
  (deck.onStation 7 (fun x =>
    { x with senClutch := some .engaged, step := some ⟨.release, .unlocked, .free⟩, gearTimer := some 800 })).setStation
    2 (shutLine .fast 59910)

theorem releasing_inv : releasing.Inv := inv_of_check (by decide +kernel)

theorem witness_StationCommandsRefuseInOrder :
    (releasing.Inv ∧ stationOf 7 = some 7 ∧ releasing.serves Command.release 2 ∧
      releasing.serves Command.retire 2 ∧ (releasing.station 7).state = .released ∧
      (releasing.station 7).step.any (fun g => g.kind == .release) = true ∧
      releasing.serves Command.slacken 4 ∧ (releasing.station 2).state = .fast ∧
      (releasing.calibration 2).maxPayout < (releasing.station 2).length + 10 ∧
      ∀ c ∈ releasing.calls, 2 ∈ c.list → c.state = .singling ∧ ¬ releasing.rankBlocked c 2) ∧
    (deck.Inv ∧ deck.hold = false ∧ (deck.station 11).state = .inLocal ∧
      (deck.station 0).state = .stowed ∧ (deck.station 8).state = .fast ∧
      deck.serves Command.runOut 2 ∧ deck.serves Command.clearFault 2) ∧
    heldDeck.Inv ∧ heldDeck.hold = true ∧ heldDeck.serves Command.runOut 2 :=
  ⟨⟨releasing_inv, by decide +kernel⟩, ⟨deck_inv, by decide +kernel⟩, heldDeck_inv, by decide +kernel⟩

theorem witness_RunOutFreesTheLine : deck.Inv ∧ deck.serves Command.runOut 2 ∧ stationOf 0 = some 0 ∧
    deck.hold = false ∧ (deck.station 0).state = .stowed := ⟨deck_inv, by decide +kernel⟩

theorem keyDeck_inv : (State.withKey deck).Inv := inv_of_check (by decide +kernel)

theorem witness_ReleaseLetsTheLineGo :
    (deck.Inv ∧ deck.serves Command.release 2 ∧ stationOf 4 = some 4 ∧
      (deck.station 4).state.moored = true ∧ (deck.motionOf 4).isSome = true ∧
      deck.quarterLocked 4 = false ∧
      (∀ c ∈ deck.calls, 4 ∈ c.list → c.state = .singling ∧ ¬ deck.rankBlocked c 4)) ∧
    (deck.station 10).state = .outUnclaimed ∧ (∀ c ∈ deck.calls, 10 ∉ c.list) ∧
    (State.withKey deck).Inv ∧ (State.withKey deck).serves Command.release 2 ∧
      (State.withKey deck).inputs.key = true ∧ ∃ c ∈ (State.withKey deck).calls, 8 ∈ c.list ∧ c.state = .held :=
  ⟨⟨deck_inv, by decide +kernel⟩, by decide +kernel, by decide +kernel, keyDeck_inv, by decide +kernel⟩

/-- Station 2 with exactly 10 cm of room. -/
def roomy : State := deck.setStation 2 (shutLine .fast 59900)

theorem roomy_inv : roomy.Inv := inv_of_check (by decide +kernel)

theorem witness_SlackenEasesTheLine : roomy.Inv ∧ roomy.serves Command.slacken 4 ∧
    stationOf 2 = some 2 ∧ roomy.hold = false ∧ (roomy.station 2).state = .fast ∧
    roomy.quarterLocked 2 = false ∧
    (∀ c ∈ roomy.calls, 2 ∈ c.list → c.state = .singling ∧ ¬ roomy.rankBlocked c 2) ∧
    (roomy.station 2).length + 10 = (roomy.calibration 2).maxPayout := ⟨roomy_inv, by decide +kernel⟩

/-- Station 7 RELEASED with its gear still shut, its release step over. -/
def shutReleased : State := deck.setStation 7 { shutLine .released 20000 with
  cmdLock := .unlocked, cmdClutch := some .free, gearTimer := some 800 }

theorem shutReleased_inv : shutReleased.Inv := inv_of_check (by decide +kernel)

theorem witness_RetireStartsTheRewind :
    (deck.Inv ∧ deck.serves Command.retire 2 ∧ stationOf 7 = some 7 ∧ deck.hold = false ∧
      (deck.station 7).state = .released ∧ (deck.station 1).state = .paying ∧
      (deck.station 7).step = none ∧ (deck.station 7).shut = false) ∧
    shutReleased.Inv ∧ shutReleased.serves Command.retire 2 ∧
      (shutReleased.station 7).state = .released ∧ (shutReleased.station 7).shut = true :=
  ⟨⟨deck_inv, by decide +kernel⟩, shutReleased_inv, by decide +kernel⟩

theorem witness_ClearFaultFollowsTheGear : deck.Inv ∧ deck.serves Command.clearFault 2 ∧
    stationOf 12 = some 12 ∧ (deck.station 12).state = .fault ∧
    (deck.station 12).senLock = some (deck.station 12).cmdLock ∧
    (deck.station 12).senClutch = (deck.station 12).cmdClutch ∧ (deck.channel 12).valid = 8 :=
  ⟨deck_inv, by decide +kernel⟩

/-- Station 4 still unlocking for its motion, and station 13 still making fast. -/
def unlocking : State :=
  ((deck.onStation 4 (fun x =>
    { x with senLock := some .locked, step := some ⟨.motionUnlock, .unlocked, .engaged⟩, gearTimer := some 800 })).onUnit
    1 (fun x => { x with stop := true })).onStation 13 (fun x =>
    { x with senClutch := some .free, step := some ⟨.makeFast, .locked, .engaged⟩, gearTimer := some 800 })

theorem unlocking_inv : unlocking.Inv := inv_of_check (by decide +kernel)

theorem witness_GearSensesServeTheStation :
    (deck.Inv ∧ deck.phase = .running ∧ (deck.station 11).state = .inLocal ∧
      (deck.station 12).state = .fault ∧ (deck.station 8).step = none ∧
      (∃ g ∈ (deck.station 14).step, g.kind = .rewindEngage ∧
        ((deck.station 14).sensed (.clutch .engaged)).senClutch = some g.clutch ∧
        ((deck.station 14).sensed (.clutch .engaged)).senLock = some g.lock) ∧
      (∃ a ∈ (deck.station 14).active, a.isAwaiting = true)) ∧
    unlocking.Inv ∧
      (∃ g ∈ (unlocking.station 4).step, g.kind = .motionUnlock ∧
        ((unlocking.station 4).sensed (.lock .unlocked)).senLock = some g.lock ∧
        ((unlocking.station 4).sensed (.lock .unlocked)).senClutch = some g.clutch ∧
        ((unlocking.station 4).sensed (.lock .locked)).senLock ≠ some g.lock) ∧
      (unlocking.station 4).unit = some 1 ∧
      ∃ g ∈ (unlocking.station 13).step, g.kind = .makeFast ∧
        ((unlocking.station 13).sensed (.clutch .engaged)).senClutch = some g.clutch :=
  ⟨⟨deck_inv, by decide +kernel⟩, unlocking_inv, by decide +kernel⟩

theorem trimEnded_inv : (atFour .trimming (.trim .outward true) false (.ended measures) .critical).Inv :=
  inv_of_check (by decide +kernel)
theorem slackenFailed_inv : (atFour .easing (.slacken 50) true (.ended measures) .driveFault).Inv :=
  inv_of_check (by decide +kernel)
theorem heaveFailed_inv : (atFour .heaving .heave false (.ended measures) .driveFault).Inv :=
  inv_of_check (by decide +kernel)

theorem witness_LockStepsEndOperations :
    (deck.Inv ∧ deck.phase = .running ∧ (deck.station 5).locking = true ∧
      (deck.station 5).unit = some 2 ∧ ((deck.station 5).sensed (.lock .locked)).shut = true ∧
      (deck.station 5).state = .rewinding ∧ (deck.station 5).stopCause = .done) ∧
    (heldDeck.Inv ∧ (heldDeck.station 5).locking = true ∧ (heldDeck.station 5).unit = some 2 ∧
      (heldDeck.station 5).parked.isSome = true) ∧
    (∃ s : State, s.Inv ∧ s.phase = .running ∧ (s.station 4).locking = true ∧
      (s.station 4).unit = some 1 ∧ ((s.station 4).sensed (.lock .locked)).shut = true ∧
      (s.station 4).state = .trimming ∧ (s.station 4).resting = some .fast) ∧
    (∃ s : State, s.Inv ∧ (s.station 4).locking = true ∧
      ((s.station 4).sensed (.lock .locked)).shut = true ∧ (s.station 4).stopCause = .driveFault ∧
      (s.station 4).active.any ActiveOp.retryUsed = true) ∧
    ∃ s : State, s.Inv ∧ (s.station 4).locking = true ∧
      ((s.station 4).sensed (.lock .locked)).shut = true ∧ (s.station 4).stopCause = .driveFault ∧
      (s.station 4).active.any (fun a => !a.retryUsed) = true :=
  ⟨⟨deck_inv, by decide +kernel⟩, ⟨heldDeck_inv, by decide +kernel⟩,
    ⟨_, trimEnded_inv, by decide +kernel⟩, ⟨_, slackenFailed_inv, by decide +kernel⟩,
    _, heaveFailed_inv, by decide +kernel⟩

theorem off_inv : { State.reset with phase := .off, bitRate := .rate115200 }.Inv :=
  inv_of_check (by decide +kernel)

theorem witness_DrumPositionsMeasureTheLine :
    (deck.Inv ∧ deck.phase = .running ∧ deck.motionOf 1 = none ∧ (deck.station 1).state = .paying ∧
      (deck.station 1).cmdLock = .unlocked ∧
      (deck.calibration 1).maxPayout = (deck.calibration 1).rawLength 60000 ∧
      (deck.calibration 1).rawLength 59999 < (deck.calibration 1).maxPayout) ∧
    ∃ s : State, s.Inv ∧ s.phase = .off :=
  ⟨⟨deck_inv, by decide +kernel⟩, _, off_inv, by decide +kernel⟩

/-- Seven rail samples in a row at every station. -/
def railed : State :=
  { deck with channels := deck.channels.map (fun c => { c with rail := 7 }) }

theorem railed_inv : railed.Inv := inv_of_check (by decide +kernel)

theorem witness_FaultsDropTheWork :
    (deck.Inv ∧ deck.phase = .running ∧ (deck.station 14).gearTimer.isSome = true) ∧
    railed.Inv ∧ (railed.channel 8).rail = 7 ∧ (railed.station 8).state = .fast ∧
      (railed.station 15).state = .unknown ∧ (railed.station 11).state = .inLocal ∧
      (railed.station 12).state = .fault :=
  ⟨⟨deck_inv, by decide +kernel⟩, railed_inv, by decide +kernel⟩

theorem witness_SamplesAreCalibrated :
    (1 ≤ 65534 ∧ { Calibration.factory with scale := 65535 }.scale ≤ 65535 ∧
      { Calibration.factory with scale := 65535 }.zero < 65534) ∧
    1 ≤ { Calibration.factory with zero := 1 }.zero := by decide

theorem witness_SamplesMoveTheCounters :
    (deck.Inv ∧ deck.phase = .running ∧ (deck.channel 8).rail ≠ 7 ∧
      (deck.channel 8).count + 1 < (deck.calibration 8).decimation) ∧
    waking.Inv ∧ waking.phase ≠ .running :=
  ⟨⟨deck_inv, by decide +kernel⟩, waking_inv, by decide +kernel⟩

theorem due8_inv : (State.due deck 8 4499).Inv := inv_of_check (by decide +kernel)

theorem witness_ReadingsInFastRegulate : (State.due deck 8 4499).Inv ∧
    (State.due deck 8 4499).phase = .running ∧
    ((State.due deck 8 4499).channel 8).count + 1 =
      ((State.due deck 8 4499).calibration 8).decimation ∧
    ((State.due deck 8 4499).station 8).state = .fast ∧
    (State.due deck 8 4499).mooring 8 = some (line 2 none) ∧
    (((State.due deck 8 4499).channel 8).sum +
      ((State.due deck 8 4499).calibration 8).calibrate 4499 + 8) / 16 + 1 =
      (line 2 none).criticalLimit := ⟨due8_inv, by decide +kernel⟩

/-- A state meets what a statement about a reading at station i asks, for a reading of v. -/
def formsAt (s : State) (i : StationId) (v : Nat) : Bool :=
  s.phase == .running && (s.channel i).count + 1 == (s.calibration i).decimation &&
    ((s.channel i).sum + (s.calibration i).calibrate v + (s.calibration i).decimation / 2) /
      (s.calibration i).decimation == v

theorem due6_inv : (State.due deck 6 4500).Inv := inv_of_check (by decide +kernel)
theorem due3_inv : (State.due deck 3 4500).Inv := inv_of_check (by decide +kernel)
theorem due13_inv : (State.due deck 13 4500).Inv := inv_of_check (by decide +kernel)
theorem dueHeld_inv : (State.due heldDeck 13 4500).Inv := inv_of_check (by decide +kernel)
theorem due4_inv : (State.due deck 4 4500).Inv := inv_of_check (by decide +kernel)
theorem dueHeave_inv : (State.due (atFour .heaving .heave false (.moving measures) .none) 4 4500).Inv :=
  inv_of_check (by decide +kernel)
theorem dueTrimIn_inv :
    (State.due (atFour .trimming (.trim .inward false) false (.moving measures) .none) 4 4500).Inv :=
  inv_of_check (by decide +kernel)
theorem dueTrimWaits_inv :
    (State.due (atFour .trimming (.trim .inward false) false .granted .none) 4 4500).Inv :=
  inv_of_check (by decide +kernel)
theorem dueRenderWaits_inv :
    (State.due (atFour .trimming (.trim .outward false) false .granted .none) 4 4500).Inv :=
  inv_of_check (by decide +kernel)

theorem witness_CriticalReadingsActByState :
    ((line 1 none).criticalLimit = 4500 ∧ (State.due deck 6 4500).Inv ∧
      formsAt (State.due deck 6 4500) 6 4500 = true ∧
      ((State.due deck 6 4500).station 6).state = .eased ∧
      ((State.due deck 6 4500).channel 6).critCount = 0) ∧
    ((State.due deck 3 4500).Inv ∧ formsAt (State.due deck 3 4500) 3 4500 = true ∧
      ((State.due deck 3 4500).station 3).active.any ActiveOp.isGranted = true) ∧
    ((State.due deck 13 4500).Inv ∧ formsAt (State.due deck 13 4500) 13 4500 = true ∧
      ((State.due deck 13 4500).requestOf 13).isSome = true) ∧
    ((State.due heldDeck 13 4500).Inv ∧ formsAt (State.due heldDeck 13 4500) 13 4500 = true ∧
      ((State.due heldDeck 13 4500).station 13).parked.isSome = true) ∧
    ((State.due deck 4 4500).Inv ∧ formsAt (State.due deck 4 4500) 4 4500 = true ∧
      (deck.station 4).active.any (fun a => a.work.direction == .outward && !a.isGranted) = true) ∧
    (∃ s : State, s.Inv ∧ formsAt s 4 4500 = true ∧ (s.station 4).state = .heaving ∧
      (s.motionOf 4).isSome = true ∧ (s.station 4).shut = false) ∧
    (∃ s : State, s.Inv ∧ formsAt s 4 4500 = true ∧ (s.station 4).state = .trimming ∧
      (s.station 4).active.any (fun a => a.work == .trim .inward false) = true ∧
      (s.motionOf 4).isSome = true ∧ (s.station 4).shut = false) ∧
    (∃ s : State, s.Inv ∧ formsAt s 4 4500 = true ∧
      (s.station 4).active.any (fun a => a.work == .trim .inward false && a.isGranted) = true) ∧
    ∃ s : State, s.Inv ∧ formsAt s 4 4500 = true ∧
      (s.station 4).active.any (fun a => a.work == .trim .outward false && a.isGranted) = true :=
  ⟨⟨by decide, due6_inv, by decide +kernel⟩, ⟨due3_inv, by decide +kernel⟩,
    ⟨due13_inv, by decide +kernel⟩, ⟨dueHeld_inv, by decide +kernel⟩, ⟨due4_inv, by decide +kernel⟩,
    ⟨_, dueHeave_inv, by decide +kernel⟩, ⟨_, dueTrimIn_inv, by decide +kernel⟩,
    ⟨_, dueTrimWaits_inv, by decide +kernel⟩, _, dueRenderWaits_inv, by decide +kernel⟩

/-- Station 4 with one critical reading behind it and another due. -/
def secondCritical : State :=
  (State.due deck 4 4500).onChannel 4 (fun c => { c with critCount := 1, critCondition := true })

theorem secondCritical_inv : secondCritical.Inv := inv_of_check (by decide +kernel)

theorem witness_RepeatedCriticalReadingsReleaseTheLine : secondCritical.Inv ∧
    formsAt secondCritical 4 4500 = true ∧ secondCritical.mooring 4 = some (line 1 none) ∧
    (secondCritical.station 4).state.moored = true ∧ 1 ≤ (secondCritical.channel 4).critCount ∧
    (line 1 none).autoRelease = true ∧ secondCritical.quarterLocked 4 = false ∧
    (secondCritical.motionOf 4).isSome = true := ⟨secondCritical_inv, by decide +kernel⟩

theorem due10_inv : (State.due deck 10 20000).Inv := inv_of_check (by decide +kernel)
theorem heaveMeets_inv : (State.due (atFour .heaving .heave false (.moving measures) .none) 4 2150).Inv :=
  inv_of_check (by decide +kernel)
theorem rewindSnags_inv : (State.due (atFour .rewinding .rewind false (.moving measures) .none) 4 150).Inv :=
  inv_of_check (by decide +kernel)

theorem witness_ReadingsEndHeavesAndSnags :
    ((State.due deck 10 20000).Inv ∧ formsAt (State.due deck 10 20000) 10 20000 = true ∧
      (State.due deck 10 20000).mooring 10 = none ∧
      ((State.due deck 10 20000).station 10).state = .outUnclaimed) ∧
    (∃ s : State, s.Inv ∧ formsAt s 4 2150 = true ∧ (s.station 4).state = .heaving ∧
      s.mooring 4 = some (line 1 none) ∧ (line 1 none).target = 2150 ∧ (s.station 4).shut = false ∧
      (s.motionOf 4).isSome = true) ∧
    ∃ s : State, s.Inv ∧ formsAt s 4 150 = true ∧ (s.station 4).state = .rewinding ∧
      s.settings.snagLimit = 150 ∧ (s.station 4).shut = false ∧ (s.motionOf 4).isSome = true :=
  ⟨⟨due10_inv, by decide +kernel⟩, ⟨_, heaveMeets_inv, by decide +kernel⟩,
    _, rewindSnags_inv, by decide +kernel⟩

/-- An error of 0 and of 857; the raised length of 857 at k = 12 is 103; room for 5 and for 4. -/
theorem witness_TrimsArePlanned :
    (2150 : Int) - 2150 ≤ 0 ∧ (0 : Int) < 3007 - 2150 ∧ (857 : Int) * 12 ≤ 103 * 100 ∧
      (103 : Int) * 100 < 857 * 12 + 100 ∧ (5 : Int) ≤ min 80 (6000 - 5995) ∧
      min (80 : Int) (6000 - 5996) < 5 := by decide

theorem trimWaits_inv : (atFour .trimming (.trim .outward true) false .granted .none).Inv :=
  inv_of_check (by decide +kernel)
theorem trimDry_inv : ((atFour .trimming (.trim .outward true) false .granted .none).setStation 4
    { (atFour .trimming (.trim .outward true) false .granted .none).station 4 with length := 5996 }).Inv :=
  inv_of_check (by decide +kernel)

theorem witness_ReadyStartsOrGivesBack :
    (deck.Inv ∧ deck.phase = .running ∧ (deck.unit 1).state ≠ .granted ∧
      (deck.unit 0).state = .granted ∧ (deck.unit 0).served = some 3 ∧
      (deck.station 3).active = some ⟨.heave, false, .granted⟩ ∧
      (deck.calibration 3).minLength < (deck.station 3).length ∧
      (deck.channel 3).readingSinceRecord = false) ∧
    (∃ s : State, s.Inv ∧ (s.unit 1).state = .granted ∧ (s.unit 1).served = some 4 ∧
      planTrim .outward true 2000 (line 1 none) (s.calibration 4) (s.station 4).length = .count 800 ∧
      (Work.trim .outward true).atLimit (s.calibration 4) true 20000 2000 = false ∧
      (Work.trim .outward true).terminal ⟨20000, 2000, 800, 800⟩ 20000 2000 30 = false) ∧
    ∃ s : State, s.Inv ∧ (s.unit 1).state = .granted ∧ (s.station 4).resting = some .fast ∧
      planTrim .outward true 2000 (line 1 none) (s.calibration 4) (s.station 4).length = .noRoom :=
  ⟨⟨deck_inv, by decide +kernel⟩, ⟨_, trimWaits_inv, by decide +kernel⟩,
    _, trimDry_inv, by decide +kernel⟩

theorem witness_MotionsEnd :
    (deck.Inv ∧ deck.phase = .running ∧
      (deck.station 4).active = some ⟨.trim .outward false, false, .moving measures⟩ ∧
      (deck.station 4).unit = some 1 ∧ (deck.station 4).shut = false ∧
      measures.startPosition + measures.count = 20500 ∧
      (deck.calibration 4).rawLength 60000 = (deck.calibration 4).maxPayout) ∧
    unlocking.Inv ∧ (unlocking.station 4).shut = true ∧
      (unlocking.station 4).active = some ⟨.trim .outward false, false, .moving measures⟩ :=
  ⟨⟨deck_inv, by decide +kernel⟩, unlocking_inv, by decide +kernel⟩

theorem heaveWaitsTwice_inv : (atFour .heaving .heave true .granted .none).Inv :=
  inv_of_check (by decide +kernel)

theorem witness_FailedGrantsAreRequeued :
    (deck.Inv ∧ deck.phase = .running ∧ (deck.unit 0).state = .granted ∧
      (deck.unit 0).served = some 3 ∧ (deck.station 3).active = some ⟨.heave, false, .granted⟩) ∧
    (∃ s : State, s.Inv ∧ (s.unit 1).state = .granted ∧ (s.unit 1).served = some 4 ∧
      (s.station 4).active = some ⟨.heave, true, .granted⟩) ∧
    ∃ s : State, s.Inv ∧ (s.unit 1).state = .granted ∧ (s.unit 1).served = some 4 ∧
      (s.station 4).active = some ⟨.trim .outward true, false, .granted⟩ ∧
      (s.station 4).resting = some .fast :=
  ⟨⟨deck_inv, by decide +kernel⟩, ⟨_, heaveWaitsTwice_inv, by decide +kernel⟩,
    _, trimWaits_inv, by decide +kernel⟩

theorem witness_UnitFaultsAndTheirReset :
    (deck.Inv ∧ deck.phase = .running ∧ (deck.unit 3).state = .faulted ∧
      (deck.unit 3).served = none ∧ deck.inputs.fault[3] = false ∧
      deck.serves Command.resetDrive 2 ∧ 3 < (4 : Byte).toNat ∧ (deck.unit 1).state = .running ∧
      (deck.unit 1).served = some 4 ∧ (deck.motionOf 4).isSome = true ∧
      (deck.station 4).shut = false ∧ (deck.unit 2).state = .running ∧ deck.motionOf 5 = none) ∧
    quiet.Inv ∧ (quiet.unit 0).state = .idle :=
  ⟨⟨deck_inv, by decide +kernel⟩, quiet_inv, by decide +kernel⟩

theorem witness_TheQueueGrantsInOrder :
    deck.queue.Pairwise (fun a b => a.work.opClass.run ≤ b.work.opClass.run) ∧
    (heldDeck.hold = true ∧ quiet.queue = [] ∧ ∀ u, (deck.unit u).state ≠ .idle) ∧
    ((deck.setUnit 3 (.unserved .idle)).hold = false ∧
      (deck.setUnit 3 (.unserved .idle)).queue = ⟨13, .heave, false⟩ :: [⟨9, .slacken 100, false⟩] ∧
      ((deck.setUnit 3 (.unserved .idle)).unit 3).state = .idle ∧
      ∀ v, v < 3 → ((deck.setUnit 3 (.unserved .idle)).unit v).state ≠ .idle) := by decide +kernel

theorem witness_TheHoldParksTheWork :
    (deck.Inv ∧ deck.phase = .running ∧ deck.hold = false ∧ deck.serves Command.holdAll 1 ∧
      (deck.station 8).active = none ∧ (deck.requestOf 13).isSome = true ∧
      (deck.station 14).active.any ActiveOp.isAwaiting = true ∧
      (deck.station 3).active.any ActiveOp.isGranted = true ∧
      (deck.station 4).active.any (fun a => a.moving?.isSome) = true ∧
      (deck.station 4).shut = false ∧
      (deck.station 5).active.any (fun a => !a.isGranted && !a.isAwaiting && a.moving?.isNone) = true) ∧
    (unlocking.Inv ∧ (unlocking.station 4).active.any (fun a => a.moving?.isSome) = true ∧
      (unlocking.station 4).shut = true) ∧
    heldDeck.Inv ∧ heldDeck.hold = true ∧ heldDeck.serves Command.holdAll 1 :=
  ⟨⟨deck_inv, by decide +kernel⟩, ⟨unlocking_inv, by decide +kernel⟩, heldDeck_inv, by decide +kernel⟩

theorem witness_ResumingSubmitsTheParked :
    (heldDeck.Inv ∧ heldDeck.serves Command.resumeAll 1 ∧ heldDeck.inputs.hold = false ∧
      heldDeck.hold = true ∧ (heldDeck.station 13).parked.isSome = true ∧
      (heldDeck.station 13).unit = none ∧ (heldDeck.station 5).unit.isSome = true) ∧
    (deck.Inv ∧ deck.serves Command.resumeAll 1 ∧ deck.hold = false) ∧
    ∃ s : State, s.Inv ∧ s.serves Command.resumeAll 1 ∧ s.inputs.hold = true :=
  ⟨⟨heldDeck_inv, by decide +kernel⟩, ⟨deck_inv, by decide +kernel⟩,
    { deck with inputs := { deck.inputs with hold := true } }, inv_of_check (by decide +kernel),
    by decide +kernel⟩

theorem witness_TakeOversParkTheWork : deck.Inv ∧ deck.phase = .running ∧
    (deck.station 15).state = .unknown ∧ (deck.station 9).state = .easing ∧
    (deck.station 4).state = .trimming ∧
    (deck.station 11).takeOver.any (fun o => o.timer.isSome) = true :=
  ⟨deck_inv, by decide +kernel⟩

/-- Station 11 in LOCAL from a PAYING with a REWIND parked, its clutch found ENGAGED. -/
def handed : State := deck.onStation 11 (fun x =>
  { x with parked := some ⟨.rewind, false⟩, takeOver := some ⟨.rewinding, none⟩ })

theorem handed_inv : handed.Inv := inv_of_check (by decide +kernel)

/-- Station 11 in LOCAL with a sensor fault that stands. -/
def handedFaulted : State :=
  (handed.onStation 11 (fun x => { x with pendingSensorFault := true })).onChannel 11
    (fun c => { c with valid := 0 })

theorem handedFaulted_inv : handedFaulted.Inv := inv_of_check (by decide +kernel)

theorem witness_TakeOversEndByTheGear :
    (handed.Inv ∧ handed.phase = .running ∧ (handed.station 11).takeOver = some ⟨.rewinding, none⟩ ∧
      handed.sensorFaultStands 11 = false ∧
      (handed.station 11).parked = some ⟨.rewind, false⟩ ∧
      resumeState .rewinding .rewind = some .rewinding ∧ (handed.station 8).state ≠ .inLocal) ∧
    handedFaulted.Inv ∧ (handedFaulted.station 11).takeOver.isSome = true ∧
      handedFaulted.sensorFaultStands 11 = true :=
  ⟨⟨handed_inv, by decide +kernel⟩, handedFaulted_inv, by decide +kernel⟩

theorem witness_QuarterLocksAreSetAndCleared : deck.serves Command.lockQuarter 2 ∧
    3 < (4 : Byte).toNat ∧ (3 : Byte).toNat = (3 : Fin 4).val ∧ deck.serves Command.unlockAll 1 ∧
    deck.serves Command.queryLocks 1 := by decide +kernel

theorem witness_StoredValuesChange : (State.withKey deck).Inv ∧
    (State.withKey deck).serves Command.calibrateStation 16 ∧ stationOf 10 = some 10 ∧
    ((State.withKey deck).station 10).state ≠ .unknown ∧
    (State.withKey deck).serves Command.setLimits 13 := ⟨keyDeck_inv, by decide +kernel⟩

theorem witness_LevelsAndStoppedTimers :
    (deck.Inv ∧ (deck.station 8).gearTimer = none ∧ (deck.station 8).motionTimer = none ∧
      (deck.station 8).takeOver.any (fun o => o.timer.isSome) = false ∧
      (deck.unit 1).readyTimer = none) ∧ waking.Inv ∧ waking.phase ≠ .running :=
  ⟨⟨deck_inv, by decide +kernel⟩, waking_inv, by decide +kernel⟩

/-- For the four statements that every step keeps the invariants. -/
theorem witness_EveryStepKeeps : waiting.Inv ∧ ∃ t, step waiting = .next t :=
  ⟨waiting_inv, waiting_steps⟩

theorem witness_StationsMoveAsTheTableAllows : waiting.Inv ∧ waiting.pending = .singleUp 3 2 :: [] ∧
    ∃ t, step waiting = .next t := ⟨waiting_inv, by decide +kernel, waiting_steps⟩

/-! ### The wider clauses -/

/-- Station 4 in motion with its gear still shut: the unlock step is in flight and the drum is held still. -/
def State.stillShut (s : State) : State :=
  (s.onStation 4 (fun x =>
    { x with
      senLock := some .locked
      cmdLock := .unlocked
      step := some ⟨.motionUnlock, .unlocked, .engaged⟩
      gearTimer := some 800 })).onUnit 1 (fun y => { y with stop := true })

def movingFour (state : LineState) (work : Work) (retryUsed : Bool) : State :=
  atFour state work retryUsed (.moving measures) .none
def shutFour (state : LineState) (work : Work) (retryUsed : Bool) : State :=
  State.stillShut (movingFour state work retryUsed)

/-- The deck with a TRIM of station 8 waiting at the head of the queue. -/
def redirected : State := { deck with queue := ⟨8, .trim .inward false, false⟩ :: deck.queue }

/-- A rewind in motion under a record whose K lies below the snag limit. -/
def lowLine : State :=
  (movingFour .rewinding .rewind false).setMooring 4
    (some { line 1 none with slackLimit := 100, highLimit := 120, criticalLimit := 140 })

/-- A REWIND of station 4 at its grant with its line on the drum; with the lock sensed UNLOCKED, or shut. -/
def onDrum (lock : LockPos) : State :=
  (atFour .rewinding .rewind false .granted .none).onStation 4 (fun x =>
    { x with
      position := some 300
      length := 30
      senLock := some lock
      gearTimer := if lock = .locked then none else some 800 })

theorem redirected_inv : (State.due redirected 8 4500).Inv := inv_of_check (by decide +kernel)
theorem lowLine_inv : (State.due lowLine 4 149).Inv := inv_of_check (by decide +kernel)
theorem onDrumOpen_inv : (onDrum .unlocked).Inv := inv_of_check (by decide +kernel)
theorem onDrumShut_inv : (onDrum .locked).Inv := inv_of_check (by decide +kernel)
theorem heaveShut_inv (v : Nat) (h : v = 2150 ∨ v = 4500) :
    (State.due (shutFour .heaving .heave false) 4 v).Inv := by
  rcases h with rfl | rfl <;> exact inv_of_check (by decide +kernel)
theorem heaveTwiceShut_inv : (shutFour .heaving .heave true).Inv := inv_of_check (by decide +kernel)
theorem trimShut_inv : (State.due (shutFour .trimming (.trim .inward false) false) 4 4500).Inv :=
  inv_of_check (by decide +kernel)
theorem rewindShut_inv (v : Nat) (h : v = 150 ∨ v = 4500) :
    (State.due (shutFour .rewinding .rewind false) 4 v).Inv := by
  rcases h with rfl | rfl <;> exact inv_of_check (by decide +kernel)
theorem rewindMoves_inv : (State.due (movingFour .rewinding .rewind false) 4 4500).Inv :=
  inv_of_check (by decide +kernel)
theorem heaveLocks_inv :
    (State.due (atFour .heaving .heave false (.ended measures) .done) 4 4500).Inv :=
  inv_of_check (by decide +kernel)
theorem trimLocks_inv :
    (State.due (atFour .trimming (.trim .inward false) false (.ended measures) .done) 4 4500).Inv :=
  inv_of_check (by decide +kernel)
theorem trimReads_inv : (State.due deck 4 2000).Inv := inv_of_check (by decide +kernel)
theorem heaveQueues_inv : (State.due deck 13 2150).Inv := inv_of_check (by decide +kernel)

theorem witness_AlertCommandsFormTheAlert_output : waking.phase = .reading ∧ deck.phase = .running := by
  decide +kernel

theorem redirectedBelow_inv : (State.due redirected 8 4499).Inv := inv_of_check (by decide +kernel)

/-- A pending TRIM met by a reading at K, and by one below it. -/
theorem witness_Redirects :
    ((State.due redirected 8 4500).Inv ∧ formsAt (State.due redirected 8 4500) 8 4500 = true) ∧
    ((State.due redirected 8 4499).Inv ∧ formsAt (State.due redirected 8 4499) 8 4499 = true) ∧
    (redirected.station 8).state = .fast ∧ (redirected.requestOf 8).isSome = true ∧ redirected.hold = false :=
  ⟨⟨redirected_inv, by decide +kernel⟩, ⟨redirectedBelow_inv, by decide +kernel⟩, by decide +kernel⟩

theorem witness_CriticalReadingsActByState_shut :
    (∃ s : State, s.Inv ∧ formsAt s 4 4500 = true ∧ (s.station 4).state = .heaving ∧
      (s.motionOf 4).isSome = true ∧ (s.station 4).shut = true) ∧
    (∃ s : State, s.Inv ∧ formsAt s 4 4500 = true ∧ (s.station 4).resting = some .fast ∧
      (s.station 4).active.any (fun a => a.work == .trim .inward false) = true ∧
      (s.motionOf 4).isSome = true ∧ (s.station 4).shut = true) ∧
    (∃ s : State, s.Inv ∧ formsAt s 4 4500 = true ∧ (s.station 4).state = .heaving ∧
      (s.station 4).locking = true ∧ (s.station 4).parked = none) ∧
    ∃ s : State, s.Inv ∧ formsAt s 4 4500 = true ∧ (s.station 4).state = .trimming ∧
      (s.station 4).locking = true :=
  ⟨⟨_, heaveShut_inv 4500 (.inr rfl), by decide +kernel⟩, ⟨_, trimShut_inv, by decide +kernel⟩,
    ⟨_, heaveLocks_inv, by decide +kernel⟩, _, trimLocks_inv, by decide +kernel⟩

theorem witness_CriticalReadingsActByState_rewind :
    (∃ s : State, s.Inv ∧ formsAt s 4 4500 = true ∧ (s.station 4).state = .rewinding ∧
      (s.motionOf 4).isSome = true ∧ (s.station 4).shut = false ∧ s.settings.snagLimit ≤ 4500) ∧
    (∃ s : State, s.Inv ∧ formsAt s 4 4500 = true ∧ (s.station 4).state = .rewinding ∧
      (s.motionOf 4).isSome = true ∧ (s.station 4).shut = true) ∧
    ∃ s : State, s.Inv ∧ formsAt s 4 149 = true ∧ (s.station 4).state = .rewinding ∧
      (s.motionOf 4).isSome = true ∧ (s.mooring 4).any (fun r => r.isCritical 149) = true ∧
      s.settings.snagLimit = 150 :=
  ⟨⟨_, rewindMoves_inv, by decide +kernel⟩, ⟨_, rewindShut_inv 4500 (.inr rfl), by decide +kernel⟩,
    _, lowLine_inv, by decide +kernel⟩

theorem witness_ReadingsEndHeavesAndSnags_wide :
    (∃ s : State, s.Inv ∧ formsAt s 4 2000 = true ∧ (s.station 4).state = .trimming ∧
      (s.mooring 4).isSome = true) ∧
    (∃ s : State, s.Inv ∧ formsAt s 13 2150 = true ∧ (s.station 13).state = .heaving ∧
      (s.requestOf 13).isSome = true ∧ (s.station 13).shut = true) ∧
    (∃ s : State, s.Inv ∧ formsAt s 4 2150 = true ∧ (s.station 4).state = .heaving ∧
      (s.motionOf 4).isSome = true ∧ (s.station 4).shut = true) ∧
    ∃ s : State, s.Inv ∧ formsAt s 4 150 = true ∧ (s.station 4).state = .rewinding ∧
      (s.motionOf 4).isSome = true ∧ (s.station 4).shut = true :=
  ⟨⟨_, trimReads_inv, by decide +kernel⟩, ⟨_, heaveQueues_inv, by decide +kernel⟩,
    ⟨_, heaveShut_inv 2150 (.inl rfl), by decide +kernel⟩, _, rewindShut_inv 150 (.inl rfl), by decide +kernel⟩

theorem witness_ReadyStartsOrGivesBack_standing :
    (∃ s : State, s.Inv ∧ (s.unit 1).state = .granted ∧ (s.unit 1).served = some 4 ∧
      (s.station 4).active = some ⟨.rewind, false, .granted⟩ ∧
      Work.rewind.terminal ⟨300, 30, 0, 0⟩ 300 30 s.settings.stowTolerance = true ∧
      (s.station 4).shut = false) ∧
    ∃ s : State, s.Inv ∧ (s.unit 1).state = .granted ∧ (s.unit 1).served = some 4 ∧
      (s.station 4).active = some ⟨.rewind, false, .granted⟩ ∧ (s.station 4).length = 30 ∧
      (s.station 4).shut = true :=
  ⟨⟨_, onDrumOpen_inv, by decide +kernel⟩, _, onDrumShut_inv, by decide +kernel⟩

theorem witness_UnitFaultsAndTheirReset_shut :
    (unlocking.Inv ∧ (unlocking.unit 1).state = .running ∧ (unlocking.unit 1).served = some 4 ∧
      (unlocking.motionOf 4).isSome = true ∧ (unlocking.station 4).shut = true ∧
      (unlocking.station 4).resting = some .fast) ∧
    (∃ s : State, s.Inv ∧ (s.unit 1).state = .running ∧ (s.station 4).shut = true ∧
      (s.station 4).active = some ⟨.heave, false, .moving measures⟩) ∧
    ∃ s : State, s.Inv ∧ (s.unit 1).state = .running ∧ (s.station 4).shut = true ∧
      (s.station 4).active = some ⟨.heave, true, .moving measures⟩ :=
  ⟨⟨unlocking_inv, by decide +kernel⟩, ⟨_, heaveShut_inv 2150 (.inl rfl), by decide +kernel⟩,
    _, heaveTwiceShut_inv, by decide +kernel⟩

/-- Station 14 in its rewind engage step with its REWIND granted meanwhile: a hold parked it and RESUME-ALL submitted it. -/
def engagingGranted : State :=
  (deck.onStation 14 (fun x =>
    { x with unit := some 3, active := some ⟨.rewind, false, .granted⟩ })).setUnit 3
    (serving .granted 14 .inward true)

/-- Station 4 in the motion lock step after a stop that dropped its TRIM, with a critical reading due. -/
def trimDropped : State :=
  (State.due (atFour .trimming (.trim .inward false) false (.ended measures) .hold) 4 4500).onStation 4
    (fun x => { x with active := none })

/-- Station 8 with the SLACK condition of one reading in its window and a reading over the high limit due. -/
def surging : State :=
  ((State.due deck 8 3000).setMooring 8 (some { line 2 none with excursionCount := 1 })).onChannel 8
    (fun c => { c with window := [1000], slackCount := 1, isSlack := true })

/-- Station 8 under a mode of the ALERT with its critical condition held, and a reading well below the line due. -/
def clearsCritical (mode : AlertMode) : State :=
  let s := State.due { deck with inForce := { deck.inForce with alertMode := mode }, alert := true } 8 2000
  (s.onChannel 8 (fun c => { c with critCondition := true })).onStation 8
    (fun x => { x with attention := .critical })

/-- Station 4 holds unit 1 in the motion lock step of a HEAVE that a hold has parked. -/
def heaveParked : State :=
  (atFour .heaving .heave false (.ended measures) .hold).onStation 4
    (fun x => { x with active := none, parked := some ⟨.heave, false⟩ })

/-- Station 11 in LOCAL with a HEAVE parked under its record. -/
def localParked : State :=
  let calls := deck.calls.set 2 ⟨3, .b, .opened, 2, 2, [9, 13, 11]⟩
  ({ deck with calls := calls }.setMooring 11 (some (line 3 none))).onStation 11
    (fun x => { x with parked := some ⟨.heave, false⟩, takeOver := some ⟨.fast, none⟩ })

theorem engagingGranted_inv : engagingGranted.Inv := inv_of_check (by decide +kernel)
theorem trimDropped_inv : trimDropped.Inv := inv_of_check (by decide +kernel)
theorem surging_inv : surging.Inv := inv_of_check (by decide +kernel)
theorem clearsCritical_inv (mode : AlertMode) : (clearsCritical mode).Inv := by
  cases mode <;> exact inv_of_check (by decide +kernel)
theorem heaveParked_inv : heaveParked.Inv := inv_of_check (by decide +kernel)
theorem localParked_inv : localParked.Inv := inv_of_check (by decide +kernel)

theorem witness_StatusReportsThePart_unused : quiet.calls.length < 4 ∧ quiet.serves Command.status 1 := by
  decide +kernel

theorem witness_GearSensesServeTheStation_granted : engagingGranted.Inv ∧ engagingGranted.phase = .running ∧
    (∃ g ∈ (engagingGranted.station 14).step, g.kind = .rewindEngage ∧
      ((engagingGranted.station 14).sensed (.clutch .engaged)).senLock = some g.lock ∧
      ((engagingGranted.station 14).sensed (.clutch .engaged)).senClutch = some g.clutch) ∧
    (engagingGranted.station 14).active.any ActiveOp.isGranted = true ∧
    (engagingGranted.station 14).active.any ActiveOp.isAwaiting = false :=
  ⟨engagingGranted_inv, by decide +kernel⟩

theorem witness_CriticalReadingsActByState_dropped : trimDropped.Inv ∧ formsAt trimDropped 4 4500 = true ∧
    (trimDropped.station 4).state = .trimming ∧ (trimDropped.station 4).locking = true ∧
    (trimDropped.station 4).active = none :=
  ⟨trimDropped_inv, by decide +kernel⟩

theorem witness_ReadingsInFastRegulate_alert :
    (surging.Inv ∧ formsAt surging 8 3000 = true ∧ (surging.station 8).state = .fast ∧
      surging.inForce.alertMode = .latched ∧ surging.alert = false) ∧
    ∀ mode, (clearsCritical mode).Inv ∧ formsAt (clearsCritical mode) 8 2000 = true ∧
      (clearsCritical mode).inForce.alertMode = mode ∧ (clearsCritical mode).alert = true ∧
      ((clearsCritical mode).channel 8).critCondition = true :=
  ⟨⟨surging_inv, by decide +kernel⟩,
    fun mode => ⟨clearsCritical_inv mode, by cases mode <;> decide +kernel⟩⟩

theorem witness_AmendReplacesTheRecord_discards :
    (heaveParked.Inv ∧ heaveParked.serves Command.amend 17 ∧ (heaveParked.station 4).state = .heaving ∧
      (heaveParked.station 4).unit = some 1 ∧ (heaveParked.station 4).locking = true ∧
      (heaveParked.station 4).parked = some ⟨.heave, false⟩ ∧ (heaveParked.mooring 4).isSome = true) ∧
    localParked.Inv ∧ localParked.serves Command.amend 17 ∧ (localParked.station 11).state = .inLocal ∧
      (localParked.station 11).parked = some ⟨.heave, false⟩ ∧ (localParked.mooring 11).isSome = true :=
  ⟨⟨heaveParked_inv, by decide +kernel⟩, localParked_inv, by decide +kernel⟩

end Sys2Proof.Tests
end

