-- ==== Sys2Proof/Proofs/Calibrate.lean ====
section
/-! PROOF. The calibration of a valid sample (R71, R74). -/

namespace Sys2Proof.Machine

theorem isRail_eq_false_iff (raw : Nat) : isRail raw = false ↔ raw ≠ 0 ∧ raw ≠ 65535 := by
  simp [isRail]

namespace Calibration

theorem calibrate_of_le_zero {c : Calibration} {raw : Nat} (h : raw ≤ c.zero) :
    c.calibrate raw = 0 := if_pos h

theorem calibrate_of_zero_lt {c : Calibration} {raw : Nat} (h : c.zero < raw) :
    c.calibrate raw = min ((raw - c.zero) * c.scale / 4096) Config.readingMax :=
  if_neg (Nat.not_le.mpr h)

theorem calibrate_le_readingMax (c : Calibration) (raw : Nat) :
    c.calibrate raw ≤ Config.readingMax := by
  rcases Nat.lt_or_ge c.zero raw with above | below
  · exact (calibrate_of_zero_lt above).trans_le (Nat.min_le_right _ _)
  · exact (calibrate_of_le_zero below).trans_le (Nat.zero_le _)

theorem calibrate_of_scale_eq_zero {c : Calibration} (h : c.scale = 0) (raw : Nat) :
    c.calibrate raw = 0 := by
  rcases Nat.lt_or_ge c.zero raw with above | below
  · simp [calibrate_of_zero_lt above, h]
  · exact calibrate_of_le_zero below

/-- The product R74 gives as the largest the channel forms: the bound is 65534 × 65535. -/
theorem product_le {c : Calibration} {raw : Nat} (hraw : raw ≤ 65534) (hscale : c.scale ≤ 65535) :
    (raw - c.zero) * c.scale ≤ 4294770690 :=
  Nat.mul_le_mul ((Nat.sub_le raw c.zero).trans hraw) hscale

end Calibration

/-- Settles O36, from the two branches of the calibration, its clamp and the largest product. -/
theorem samplesAreCalibrated : Obligations.SamplesAreCalibrated := by
  intro c raw hpos hmax hscale
  have notRail : raw ≠ 0 ∧ raw ≠ 65535 := by omega
  exact ⟨Calibration.calibrate_of_zero_lt, Calibration.calibrate_of_le_zero,
    c.calibrate_le_readingMax raw, Calibration.product_le hmax hscale,
    fun hzero => Calibration.calibrate_of_scale_eq_zero hzero raw,
    (isRail_eq_false_iff raw).mpr notRail⟩

end Sys2Proof.Machine
end

