-- ==== Sys2Proof/Proofs/Planner.lean ====
section
/-! PROOF. The trim planner (R99, R100). The model works the error and the room on whole numbers cut off at
zero, the statement on signed ones: `trimError` and `trimRoom` are tied to the signed figures first, and the
steps of the planner are then stated over these. -/

namespace Sys2Proof.Machine

/-! ### Division rounded up -/

/-- Rounding up is pinned by its two bounds, so the statement's raised length is the model's. -/
theorem eq_ceilDiv_hundred_iff (q a : Nat) :
    q = ceilDiv a 100 ↔ a ≤ q * 100 ∧ q * 100 < a + 100 := by
  unfold ceilDiv
  omega

/-- Rounding the product of the error up on signed figures gives the model's raw length. -/
theorem eq_ceilDiv_of_rounded_up {e raised : Int} {k : Nat} (he : 0 ≤ e) (lower : e * k ≤ raised * 100)
    (upper : raised * 100 < e * k + 100) : raised = ceilDiv (e.toNat * k) 100 := by
  have product : ((e.toNat * k : Nat) : Int) = e * k := by
    rw [Int.natCast_mul, Int.toNat_of_nonneg he]
  have raw : raised.toNat = ceilDiv (e.toNat * k) 100 := (eq_ceilDiv_hundred_iff _ _).mpr (by omega)
  omega

/-! ### The signed error and room -/

/-- The error of R99 steps 1 and 2, with its sign. -/
def signedError (d : Direction) (reading target : Nat) : Int :=
  match d with
  | .outward => reading - target
  | .inward => target - reading

/-- The room of R99 step 6, below zero where the length stands beyond its limit. -/
def signedRoom (d : Direction) (cal : Calibration) (length : Nat) : Int :=
  match d with
  | .outward => cal.maxPayout - length
  | .inward => length - cal.minLength

theorem trimError_eq_toNat (d : Direction) (reading target : Nat) :
    trimError d reading target = (signedError d reading target).toNat := by
  cases d
  case outward => exact (Int.toNat_sub reading target).symm
  case inward => exact (Int.toNat_sub target reading).symm

theorem trimRoom_eq_toNat (d : Direction) (cal : Calibration) (length : Nat) :
    trimRoom d cal length = (signedRoom d cal length).toNat := by
  cases d
  case outward => exact (Int.toNat_sub cal.maxPayout length).symm
  case inward => exact (Int.toNat_sub length cal.minLength).symm

theorem signedError_le {d : Direction} {reading target bound : Nat} (hreading : reading ≤ bound)
    (htarget : target ≤ bound) : signedError d reading target ≤ bound := by
  cases d <;> simp only [signedError] <;> omega

theorem Mooring.target_le {r : Mooring} {bound : Nat} (hslack : r.slackLimit ≤ bound)
    (hhigh : r.highLimit ≤ bound) : r.target ≤ bound := by
  unfold Mooring.target
  omega

/-- The largest product of R99 step 3: 20,000 × 255. -/
theorem error_product_le {e : Int} {k : Nat} (he : e ≤ 20000) (hk : k ≤ 255) : e * k ≤ 5100000 :=
  calc e * k ≤ 20000 * k := Int.mul_le_mul_of_nonneg_right he (Int.natCast_nonneg k)
    _ ≤ 5100000 := by omega

/-! ### Room, least length and count -/

/-- What steps 6 to 8 of R99 answer to a length wanted, with a signed room. It is the statement's own `answers`
as a definition; `planWithin_answers` ties it to the model. -/
def Answers (room : Int) (countsPerMetre : Nat) (wanted : Int) (answer : PlanAnswer) : Prop :=
  (min wanted room < 5 → answer = .noRoom) ∧
  (5 ≤ min wanted room → ∃ count, answer = .count count ∧
    min wanted room * countsPerMetre ≤ count * 100 ∧
    (count : Int) * 100 < min wanted room * countsPerMetre + 100)

theorem planWithin_of_short {length room : Nat} (h : min length room < 5) (countsPerMetre : Nat) :
    planWithin length room countsPerMetre = .noRoom := if_pos h

theorem planWithin_of_long {length room : Nat} (h : 5 ≤ min length room) (countsPerMetre : Nat) :
    planWithin length room countsPerMetre = .count (ceilDiv (min length room * countsPerMetre) 100) :=
  if_neg (Nat.not_lt.mpr h)

/-- A room below zero and a room of zero are both no room, so cutting the room off at zero loses nothing. -/
theorem planWithin_answers (length : Nat) (room : Int) (countsPerMetre : Nat) :
    Answers room countsPerMetre length (planWithin length room.toNat countsPerMetre) := by
  constructor
  case left =>
    intro short
    exact planWithin_of_short (by omega) countsPerMetre
  case right =>
    intro long
    have same : min (length : Int) room = (min length room.toNat : Nat) := by omega
    obtain ⟨lower, upper⟩ :=
      (eq_ceilDiv_hundred_iff _ (min length room.toNat * countsPerMetre)).mp rfl
    refine ⟨_, planWithin_of_long (by omega) countsPerMetre, ?_, ?_⟩
    · rw [same]; exact_mod_cast lower
    · rw [same]; exact_mod_cast upper

/-- The largest count of R99 step 8: 400 cm at 4,000 counts to the metre. -/
theorem count_le_of_planWithin {length room countsPerMetre n : Nat}
    (h : planWithin length room countsPerMetre = .count n) (hlength : length ≤ 400)
    (hcounts : countsPerMetre ≤ 4000) : n ≤ 16000 := by
  rcases Nat.lt_or_ge (min length room) 5 with short | long
  · simp [planWithin_of_short short] at h
  · rw [planWithin_of_long long, PlanAnswer.count.injEq, eq_comm, eq_ceilDiv_hundred_iff] at h
    have product : min length room * countsPerMetre ≤ 400 * 4000 :=
      Nat.mul_le_mul ((Nat.min_le_left _ _).trans hlength) hcounts
    omega

/-! ### The planner's branches -/

section
variable (d : Direction) (reading : Nat) (r : Mooring) (cal : Calibration) (length : Nat)

theorem planTrim_critical : planTrim d true reading r cal length =
    planWithin r.stepLimit (signedRoom d cal length).toNat cal.countsPerMetre := by
  rw [← trimRoom_eq_toNat]
  rfl

variable {d reading r}

theorem planTrim_of_error_nonpos (h : signedError d reading r.target ≤ 0) :
    planTrim d false reading r cal length = .nothingToDo := by
  have noError : trimError d reading r.target = 0 := by
    rw [trimError_eq_toNat]
    omega
  simp [planTrim, noError]

theorem planTrim_of_error_pos (h : 0 < signedError d reading r.target) :
    planTrim d false reading r cal length =
      planWithin
        (min (max (ceilDiv ((signedError d reading r.target).toNat * r.compliance) 100) 5) r.stepLimit)
        (signedRoom d cal length).toNat cal.countsPerMetre := by
  have anError : trimError d reading r.target ≠ 0 := by
    rw [trimError_eq_toNat]
    omega
  simp [planTrim, anError, ← trimError_eq_toNat, ← trimRoom_eq_toNat, Config.trimMin]

variable {cal length}

/-- A count comes from a length of at most the step limit, critical or not (R99 step 5, R100). -/
theorem planWithin_of_planTrim_count {critical : Bool} {n : Nat}
    (h : planTrim d critical reading r cal length = .count n) :
    ∃ wanted ≤ r.stepLimit,
      planWithin wanted (signedRoom d cal length).toNat cal.countsPerMetre = .count n := by
  cases critical
  case true => exact ⟨_, Nat.le_refl _, planTrim_critical d reading r cal length ▸ h⟩
  case false =>
    rcases lt_or_ge 0 (signedError d reading r.target) with positive | nonpos
    · exact ⟨_, Nat.min_le_right _ _, planTrim_of_error_pos cal length positive ▸ h⟩
    · simp [planTrim_of_error_nonpos cal length nonpos] at h

end

/-- Settles O42, from the planner's branches, the answer of steps 6 to 8 to each, and the two largest figures. -/
theorem trimsArePlanned : Obligations.TrimsArePlanned := by
  intro d reading r cal length target e room answers
  have answered (wanted : Nat) :
      answers wanted (planWithin wanted (signedRoom d cal length).toNat cal.countsPerMetre) :=
    planWithin_answers wanted (signedRoom d cal length) cal.countsPerMetre
  refine ⟨planTrim_of_error_nonpos cal length, fun positive raised lower upper => ?_, fun _ => ?_,
    fun hreading hslack hhigh hcompliance => ?_, fun critical n hcount hstep hcounts => ?_⟩
  case refine_1 =>
    have raw : raised = ceilDiv ((signedError d reading r.target).toNat * r.compliance) 100 :=
      eq_ceilDiv_of_rounded_up (Int.le_of_lt positive) lower upper
    rw [planTrim_of_error_pos cal length positive, raw]
    exact_mod_cast answered _
  case refine_2 =>
    rw [planTrim_critical]
    exact answered r.stepLimit
  case refine_3 =>
    exact error_product_le (signedError_le hreading (Mooring.target_le hslack hhigh)) hcompliance
  case refine_4 =>
    obtain ⟨wanted, hwanted, within⟩ := planWithin_of_planTrim_count hcount
    exact count_le_of_planWithin within (hwanted.trans hstep) hcounts

end Sys2Proof.Machine
end

