-- ==== Sys2Proof/Proofs/ClearError.lean ====
section
/-! PROOF. CLEAR-ERROR and the latch it empties (R173 to R175). What the latch does to the other commands follows
from one fact about all of them: a unicast frame of a known command goes through `State.unicast`. -/

namespace Sys2Proof.Machine

variable {i : Instr} {c : CommandSpec} {len : Byte} {payload : List Byte}

/-- Only the two hold commands have a broadcast form, and neither is record-changing (R172, R174). -/
theorem isBroadcast_eq_false_of_recordChanging (h : i.content = some (c, len, payload))
    (hc : c.recordChanging = true) : i.isBroadcast = false := by
  cases i
  case holdAll broadcast l => cases h; cases hc
  case resumeAll broadcast l => cases h; cases hc
  all_goals rfl

/-- Every unicast command is checked by the link before its own rule, whose choice does not depend on the
state (R173). -/
theorem exec_eq_unicast (h : i.content = some (c, len, payload)) (hi : i.isBroadcast = false) :
    ∃ rule : State → Verdict, ∀ s, exec i s = .next (s.unicast c len rule) := by
  cases i <;> cases h
  case holdAll broadcast => cases hi; exact ⟨fun s => .ok s.setHold, fun _ => rfl⟩
  case resumeAll broadcast => cases hi; exact ⟨_, fun _ => rfl⟩
  all_goals exact ⟨_, fun _ => rfl⟩

/-- The latch guards every record-changing command before its own rule (R174). -/
theorem exec_of_latch {s : State} {code : Status} (h : i.content = some (c, len, payload))
    (hc : c.recordChanging = true) (taken : s.takesFrames = true) (fits : len.toNat = c.length)
    (latched : s.latch = some code) : exec i s = .next (s.respond c .latched [code.code]) := by
  obtain ⟨rule, hrule⟩ := exec_eq_unicast h (isBroadcast_eq_false_of_recordChanging h hc)
  rw [hrule, s.unicast_of_latch c len rule taken fits hc latched]

theorem serves_of_latch_emptied {s : State} (taken : s.takesFrames = true) (fits : len.toNat = c.length) :
    { s with latch := none }.serves c len := ⟨taken, fits, fun _ => rfl⟩

/-- Settles O12, from the rule of CLEAR-ERROR, the latch in front of every record-changing command, and the
empty latch that lets one through. -/
theorem clearErrorEmptiesTheLatch : Obligations.ClearErrorEmptiesTheLatch := by
  intro s len served
  have ⟨taken, _, _⟩ := served
  constructor
  case left => exact congrArg Host.Outcome.next (s.unicast_accepted _ len _ served rfl)
  case right =>
    intro i c l payload content changes fits
    exact ⟨fun _ latched => exec_of_latch content changes taken fits latched,
      serves_of_latch_emptied taken fits⟩

end Sys2Proof.Machine
end

