-- ==== Sys2Proof/Proofs/Receiver.lean ====
section
/-! PROOF. Request frames: what the decoder makes of a complete frame, that it reads an encoded command back, and
that the receiver assembles it byte by byte (R169 to R172). -/

namespace Sys2Proof

/-! ### A frame and its CRC -/

theorem beBytes2_length (w : BitVec 16) : (beBytes2 w).length = 2 := rfl

/-- Two bytes sent most significant first give the word back (R169). -/
theorem append_extract_word (w : BitVec 16) : w.extractLsb' 8 8 ++ w.extractLsb' 0 8 = w := by
  refine BitVec.eq_of_getLsbD_eq (fun k hk => ?_)
  rw [BitVec.getLsbD_append]
  simp only [BitVec.getLsbD_extractLsb']
  by_cases low : k < 8
  · simp [low]
  · simp [low, show k - 8 < 8 by omega, show 8 + (k - 8) = k by omega]

theorem append_extract_triple (w : BitVec 24) :
    w.extractLsb' 16 8 ++ w.extractLsb' 8 8 ++ w.extractLsb' 0 8 = w := by
  refine BitVec.eq_of_getLsbD_eq (fun k hk => ?_)
  rw [BitVec.getLsbD_append, BitVec.getLsbD_append]
  simp only [BitVec.getLsbD_extractLsb']
  by_cases low : k < 8
  · simp [low]
  · by_cases mid : k < 16
    · simp [low, show k - 8 < 8 by omega, show 8 + (k - 8) = k by omega]
    · simp [low, show ¬ k - 8 < 8 by omega, show k - 8 - 8 < 8 by omega, show 16 + (k - 8 - 8) = k by omega]

theorem beBytes2_inj {v w : BitVec 16} : beBytes2 v = beBytes2 w ↔ v = w := by
  refine ⟨fun h => ?_, congrArg beBytes2⟩
  simp only [beBytes2, List.cons.injEq, and_true] at h
  rw [← append_extract_word v, ← append_extract_word w, h.1, h.2]

/-- What the decoder makes of a complete frame: the CRC and the address first, then the command (R171, R172). -/
theorem decodeFrame_frame (own : BitVec 3) (address len code : Byte) (payload : List Byte) (crc : BitVec 16) :
    decodeFrame own (address :: len :: code :: payload ++ beBytes2 crc) =
      if crc ≠ crc16 (address :: len :: code :: payload) ∨
          (address ≠ own.setWidth 8 ∧ address ≠ Config.broadcastAddress) then
        .frameDiscarded address (crc == crc16 (address :: len :: code :: payload))
      else if address = Config.broadcastAddress then decodeBroadcast code len
      else decodeCommand code len payload := by
  have body : (address :: len :: code :: payload ++ beBytes2 crc).length - 2 =
      (address :: len :: code :: payload).length := by
    rw [List.length_append, beBytes2_length, Nat.add_sub_cancel]
  have crcs : (beBytes2 crc == beBytes2 (crc16 (address :: len :: code :: payload))) =
      (crc == crc16 (address :: len :: code :: payload)) := by
    rw [Bool.eq_iff_iff, beq_iff_eq, beq_iff_eq, beBytes2_inj]
  unfold decodeFrame
  rw [body, List.take_left, List.drop_left]
  simp only [crcs, beq_eq_false_iff_ne]
  rfl

/-! ### Decoding an encoded command -/

theorem own_ne_broadcast (own : BitVec 3) : own.setWidth 8 ≠ Config.broadcastAddress := by
  revert own; decide

/-- An encoded frame passes the CRC and the address check of the unit it is sent to (R171). -/
theorem decodeFrame_encodeFrame {own : BitVec 3} {i : Instr} {c : CommandSpec} {len : Byte} {payload : List Byte}
    (h : i.content = some (c, len, payload)) :
    decodeFrame own (encodeFrame own i) =
      if i.isBroadcast then decodeBroadcast c.code len else decodeCommand c.code len payload := by
  unfold encodeFrame
  simp only [h]
  rw [decodeFrame_frame]
  cases i.isBroadcast
  · simp [own_ne_broadcast own]
  · simp

/-- A byte behind other bytes stands at its place in the rest. -/
theorem byteAt_append (p q : List Byte) (k : Nat) : byteAt (p ++ q) (p.length + k) = byteAt q k := by
  simp only [byteAt, List.getD_eq_getElem?_getD]
  rw [List.getElem?_append_right (Nat.le_add_right _ _), Nat.add_sub_cancel_left]

theorem wordAt_append (p q : List Byte) (k : Nat) : wordAt (p ++ q) (p.length + k) = wordAt q k := by
  simp only [wordAt, Nat.add_assoc, byteAt_append]

theorem tripleAt_append (p q : List Byte) (k : Nat) : tripleAt (p ++ q) (p.length + k) = tripleAt q k := by
  simp only [tripleAt, Nat.add_assoc, byteAt_append]

theorem wordAt_beBytes2 (p q : List Byte) (w : BitVec 16) : wordAt (p ++ beBytes2 w ++ q) p.length = w := by
  rw [List.append_assoc, ← Nat.add_zero p.length, wordAt_append]
  exact append_extract_word w

theorem recordFieldsAt_bytes (p : List Byte) (f : RecordFields) :
    recordFieldsAt (p ++ f.bytes) p.length = f := by
  have at0 : recordFieldsAt (p ++ f.bytes) p.length = recordFieldsAt f.bytes 0 := by
    have first := byteAt_append p f.bytes 0
    rw [Nat.add_zero] at first
    simp only [recordFieldsAt, byteAt_append, wordAt_append, first, Nat.zero_add]
  rw [at0]
  simp [recordFieldsAt, RecordFields.bytes, beBytes2, byteAt, wordAt, append_extract_word]

theorem calibrationFieldsAt_bytes (p : List Byte) (f : CalibrationFields) :
    calibrationFieldsAt (p ++ f.bytes) p.length = f := by
  have at0 : calibrationFieldsAt (p ++ f.bytes) p.length = calibrationFieldsAt f.bytes 0 := by
    have first := wordAt_append p f.bytes 0
    rw [Nat.add_zero] at first
    simp only [calibrationFieldsAt, byteAt_append, wordAt_append, tripleAt_append, first, Nat.zero_add]
  rw [at0]
  simp [calibrationFieldsAt, CalibrationFields.bytes, beBytes2, beBytes3, byteAt, wordAt, tripleAt,
    append_extract_word, append_extract_triple]

theorem limitFieldsAt_bytes (f : LimitFields) : limitFieldsAt f.bytes 0 = f := by
  simp [limitFieldsAt, LimitFields.bytes, beBytes2, byteAt, wordAt, append_extract_word]

section
variable (len : Byte) (p : List Byte)

theorem decodeCommand_makeFast : decodeCommand Command.makeFast.code len p =
    .makeFast len (byteAt p 0) (wordAt p 1) (recordFieldsAt p 3) := rfl
theorem decodeCommand_adopt : decodeCommand Command.adopt.code len p =
    .adopt len (byteAt p 0) (wordAt p 1) (recordFieldsAt p 3) := rfl
theorem decodeCommand_amend : decodeCommand Command.amend.code len p =
    .amend len (byteAt p 0) (recordFieldsAt p 1) := rfl
theorem decodeCommand_slacken : decodeCommand Command.slacken.code len p =
    .slacken len (byteAt p 0) (wordAt p 1) := rfl
theorem decodeCommand_openCall : decodeCommand Command.openCall.code len p =
    .openCall len (wordAt p 0) (byteAt p 2) (byteAt p 3) (byteAt p 4) := rfl
theorem decodeCommand_queryCall : decodeCommand Command.queryCall.code len p = .queryCall len (wordAt p 0) := rfl
theorem decodeCommand_singleUp : decodeCommand Command.singleUp.code len p = .singleUp len (wordAt p 0) := rfl
theorem decodeCommand_closeCall : decodeCommand Command.closeCall.code len p = .closeCall len (wordAt p 0) := rfl
theorem decodeCommand_calibrateStation : decodeCommand Command.calibrateStation.code len p =
    .calibrateStation len (byteAt p 0) (calibrationFieldsAt p 1) := rfl
theorem decodeCommand_setLimits : decodeCommand Command.setLimits.code len p =
    .setLimits len (limitFieldsAt p 0) := rfl

end

/-- A unicast command's code, length byte and payload spell it (10 section 10.5). -/
theorem decodeCommand_content {i : Instr} {c : CommandSpec} {len : Byte} {payload : List Byte}
    (h : i.content = some (c, len, payload)) (hi : i.isBroadcast = false) :
    decodeCommand c.code len payload = i := by
  cases i <;> cases h
  case makeFast st tag f =>
    rw [decodeCommand_makeFast]
    exact congrArg₂ (Instr.makeFast _ _) (wordAt_beBytes2 [st] f.bytes tag)
      (recordFieldsAt_bytes ([st] ++ beBytes2 tag) f)
  case adopt st tag f =>
    rw [decodeCommand_adopt]
    exact congrArg₂ (Instr.adopt _ _) (wordAt_beBytes2 [st] f.bytes tag)
      (recordFieldsAt_bytes ([st] ++ beBytes2 tag) f)
  case amend st f =>
    rw [decodeCommand_amend]
    exact congrArg (Instr.amend _ _) (recordFieldsAt_bytes [st] f)
  case slacken st n =>
    rw [decodeCommand_slacken]
    exact congrArg (Instr.slacken _ _) (wordAt_beBytes2 [st] [] n)
  case openCall tag b m n =>
    rw [decodeCommand_openCall]
    exact congrArg (Instr.openCall _ · _ _ _) (wordAt_beBytes2 [] [b, m, n] tag)
  case queryCall tag =>
    rw [decodeCommand_queryCall]
    exact congrArg (Instr.queryCall _) (append_extract_word tag)
  case singleUp tag =>
    rw [decodeCommand_singleUp]
    exact congrArg (Instr.singleUp _) (append_extract_word tag)
  case closeCall tag =>
    rw [decodeCommand_closeCall]
    exact congrArg (Instr.closeCall _) (append_extract_word tag)
  case calibrateStation st f =>
    rw [decodeCommand_calibrateStation]
    exact congrArg (Instr.calibrateStation _ _) (calibrationFieldsAt_bytes [st] f)
  case setLimits f =>
    rw [decodeCommand_setLimits, limitFieldsAt_bytes]
  case holdAll broadcast => cases hi; rfl
  case resumeAll broadcast => cases hi; rfl
  all_goals rfl

/-- A well-formed broadcast has the length its two commands take (R172). -/
theorem decodeBroadcast_content {i : Instr} {c : CommandSpec} {len : Byte} {payload : List Byte}
    (h : i.content = some (c, len, payload)) (hi : i.isBroadcast = true) (hw : i.wellFormed = true) :
    decodeBroadcast c.code len = i := by
  cases i
  case holdAll broadcast l =>
    cases h; cases hi
    obtain rfl : len = 1 := by simpa [Instr.wellFormed] using (Bool.and_eq_true_iff.1 hw).2
    rfl
  case resumeAll broadcast l =>
    cases h; cases hi
    obtain rfl : len = 1 := by simpa [Instr.wellFormed] using (Bool.and_eq_true_iff.1 hw).2
    rfl
  all_goals cases hi

/-- A command whose length byte fits is one that a request frame carries. -/
theorem content_of_lengthFits {i : Instr} (h : i.lengthFits = true) :
    ∃ c len payload, i.content = some (c, len, payload) ∧ len.toNat = c.length := by
  unfold Instr.lengthFits at h
  split at h
  · cases h
  · next c len payload e => exact ⟨c, len, payload, e, by simpa using h⟩

/-- Settles O3, from the frame's checks and the payload of each command. -/
theorem requestFramesDecodeToTheirCommands : Obligations.RequestFramesDecodeToTheirCommands := by
  intro own i hw hl
  obtain ⟨c, len, payload, hc, _⟩ := content_of_lengthFits hl
  rw [decodeFrame_encodeFrame hc]
  cases hb : i.isBroadcast
  case false => exact decodeCommand_content hc hb
  case true => exact decodeBroadcast_content hc hb hw

/-! ### Frames that do not count (R171) -/

/-- The CRC register after one more byte: the byte joins the high half, and eight bits are divided (R171). -/
theorem crc16_append_byte (body : List Byte) (b : Byte) :
    crc16 (body ++ [b]) = crcShifts 8 (crc16 body ^^^ (b ++ (0 : BitVec 8))) := by
  simp only [crc16, List.foldl_append, List.foldl_cons, List.foldl_nil, crcByte]

theorem crc16_check_value :
    crc16 [0x31, 0x32, 0x33, 0x34, 0x35, 0x36, 0x37, 0x38, 0x39] = 0x29B1 := by decide +kernel

/-- Settles O5, from the decoder's checks and the polynomial step of the CRC. -/
theorem damagedAndForeignFramesAreDiscarded : Obligations.DamagedAndForeignFramesAreDiscarded :=
  ⟨decodeFrame_frame, fun _ _ _ => rfl, ⟨rfl, crc16_append_byte⟩, crc16_check_value⟩

/-! ### The receiver (R170) -/

open Machine

/-- The length byte of a framed command counts its code and its payload. -/
theorem payload_length {i : Instr} {c : CommandSpec} {len : Byte} {payload : List Byte}
    (h : i.content = some (c, len, payload)) : payload.length + 1 = c.length := by
  cases i <;> cases h <;> rfl

/-- A byte inside a frame joins the bytes received so far (R170). -/
theorem receiveByte_inside {s : State} {bytes : List Byte} {byte : Byte} (hphase : s.phase ≠ .off)
    (htx : s.tx = none) (hlen : 2 ≤ (bytes ++ [byte]).length → 1 ≤ (byteAt (bytes ++ [byte]) 1).toNat ∧
      (byteAt (bytes ++ [byte]) 1).toNat ≤ 48 ∧
      (bytes ++ [byte]).length < (byteAt (bytes ++ [byte]) 1).toNat + 4) :
    { s with rx := some bytes }.receiveByte byte = { s with rx := some (bytes ++ [byte]) } := by
  unfold State.receiveByte
  simp only [hphase, htx, Option.isSome_none, Bool.false_eq_true, or_self, if_false]
  by_cases short : (bytes ++ [byte]).length < 2
  · rw [if_pos short]
  · obtain ⟨low, high, inside⟩ := hlen (by omega)
    rw [if_neg short, if_neg (by omega), if_pos inside]

/-- The last byte of a frame puts the command it spells at the end of the waiting commands (R170). -/
theorem receiveByte_last {s : State} {bytes : List Byte} {byte : Byte} (hphase : s.phase = .running)
    (hrestart : s.restartPending = false) (htx : s.tx = none) (low : 1 ≤ (byteAt (bytes ++ [byte]) 1).toNat)
    (full : (bytes ++ [byte]).length = (byteAt (bytes ++ [byte]) 1).toNat + 4) :
    { s with rx := some bytes }.receiveByte byte =
      { s with rx := none, pending := s.pending ++ [decodeFrame s.unitAddress (bytes ++ [byte])] } := by
  unfold State.receiveByte
  simp only [hphase, htx, hrestart, Option.isSome_none, Bool.false_eq_true, or_false, reduceCtorEq, if_false,
    and_self, if_true]
  rw [if_neg (by omega), if_neg (by omega), if_neg (by omega)]

/-- The rest of a frame whose first bytes stand in the receiver. -/
theorem foldl_receiveByte {s : State} {frame : List Byte} (hphase : s.phase = .running)
    (hrestart : s.restartPending = false) (htx : s.tx = none) (low : 1 ≤ (byteAt frame 1).toNat)
    (high : (byteAt frame 1).toNat ≤ 48) (full : frame.length = (byteAt frame 1).toNat + 4) :
    ∀ (rest bytes : List Byte), rest ≠ [] → bytes ++ rest = frame →
      rest.foldl State.receiveByte { s with rx := some bytes } =
        { s with rx := none, pending := s.pending ++ [decodeFrame s.unitAddress frame] } := by
  intro rest
  induction rest with
  | nil => exact fun _ h => absurd rfl h
  | cons byte rest ih =>
    intro bytes _ e
    have split : (bytes ++ [byte]) ++ rest = frame := by rw [List.append_assoc]; exact e
    have count : frame.length = (bytes ++ [byte]).length + rest.length := by
      rw [← split, List.length_append]
    have second : 2 ≤ (bytes ++ [byte]).length → byteAt (bytes ++ [byte]) 1 = byteAt frame 1 := by
      intro h
      rw [← split]
      simp only [byteAt, List.getD_eq_getElem?_getD, List.getElem?_append_left (Nat.lt_of_succ_le h)]
    rw [List.foldl_cons]
    cases rest with
    | nil =>
      obtain rfl : bytes ++ [byte] = frame := e
      exact receiveByte_last hphase hrestart htx low full
    | cons next rest =>
      rw [receiveByte_inside (by simp [hphase]) htx]
      · exact ih (bytes ++ [byte]) (by simp) split
      · intro h
        rw [second h]
        simp only [List.length_cons] at count
        omega

/-- Settles O4, from the receiver's part in each byte and the decoder's reading of the whole frame. -/
theorem requestFramesArriveByteByByte : Obligations.RequestFramesArriveByteByByte := by
  intro s i hw hl hphase hrestart htx hrx
  obtain ⟨c, len, payload, hc, fits⟩ := content_of_lengthFits hl
  have size := payload_length hc
  have ok : 1 ≤ len.toNat ∧ len.toNat ≤ 48 := by
    cases i <;> cases hc <;> rw [fits] <;> decide
  have sync : s.receiveByte 0xC3 = { s with rx := some [] } := by
    unfold State.receiveByte
    simp [hphase, htx, hrx, Config.requestSync]
  have second : byteAt (encodeFrame s.unitAddress i) 1 = len := by
    simp only [encodeFrame, hc]; rfl
  have full : (encodeFrame s.unitAddress i).length = len.toNat + 4 := by
    simp only [encodeFrame, hc, List.length_append, List.length_cons, beBytes2_length]
    omega
  have nonempty : encodeFrame s.unitAddress i ≠ [] := by
    intro h; rw [h] at full; simp at full
  have rest := foldl_receiveByte hphase hrestart htx (second ▸ ok.1) (second ▸ ok.2)
    (second ▸ full) (encodeFrame s.unitAddress i) [] nonempty (List.nil_append _)
  rw [List.foldl_cons, sync, rest, requestFramesDecodeToTheirCommands _ i hw hl, ← hrx]

end Sys2Proof
end

