-- ==== Sys2Proof/Proofs/LinkEvents.lean ====
section
/-! PROOF. Steps, the events of the link itself, the checks the link makes before a command's own rule, and the
clamps of the record fields (R7, R25, R26, R170 to R174). -/

namespace Sys2Proof.Machine

/-- Settles O1: both halves are the two branches of the step. -/
theorem stepRunsTheFrontCommand : Obligations.StepRunsTheFrontCommand :=
  fun _ _ _ => ⟨rfl, rfl⟩

/-- Settles O8, from the meaning of each link event; an unknown code is answered only while frames are taken. -/
theorem linkEventsTouchTheLinkOnly : Obligations.LinkEventsTouchTheLinkOnly := by
  intro s
  refine ⟨fun code len taken => ?_, fun code len busy => ?_, fun _ _ => rfl, rfl, fun _ => rfl, rfl⟩
  · exact congrArg Host.Outcome.next (if_pos taken)
  · exact congrArg Host.Outcome.next (if_neg (by rw [busy]; decide))

variable {i : Instr} {c : CommandSpec} {len : Byte} {payload : List Byte}

/-- A frame that is not taken changes nothing, be it unicast or broadcast (log 8). -/
theorem exec_of_busy {s : State} (h : i.content = some (c, len, payload)) (busy : s.takesFrames = false) :
    exec i s = .next s := by
  cases hb : i.isBroadcast
  case false =>
    obtain ⟨rule, hrule⟩ := exec_eq_unicast h hb
    rw [hrule, s.unicast_of_busy c len rule busy]
  case true =>
    cases i
    case holdAll broadcast l =>
      cases hb
      simp [exec, execHoldAll, busy]
    case resumeAll broadcast l =>
      cases hb
      simp [exec, execResumeAll, busy]
    all_goals cases hb

/-- A command that names a station makes the checks of R7 before its own rule. -/
theorem exec_eq_withStation {st : Byte} (h : i.content = some (c, len, payload)) (hst : st ∈ i.stationField) :
    ∃ rule : State → StationId → Verdict,
      ∀ s, exec i s = .next (s.unicast c len fun s => s.withStation st (rule s)) := by
  cases i <;> cases hst <;> cases h <;> exact ⟨_, fun _ => rfl⟩

theorem stationOf_eq_some {st : Byte} {j : StationId} (h : st.toNat = j.val) : stationOf st = some j := by
  unfold stationOf
  rw [dif_pos (h ▸ j.isLt)]
  exact congrArg some (Fin.ext h)

/-- Settles O7, from the way every unicast frame takes through the link's checks and those of R7. -/
theorem linkAndStationChecksComeFirst : Obligations.LinkAndStationChecksComeFirst := by
  refine ⟨rfl, fun i c len payload s h => ⟨exec_of_busy h, fun taken unicast => ⟨fun wrong => ?_, ?_⟩, ?_⟩⟩
  · obtain ⟨rule, hrule⟩ := exec_eq_unicast h unicast
    rw [hrule, s.unicast_of_length c len rule taken wrong]
  · exact fun fits changes code latched => exec_of_latch h changes taken fits latched
  · intro served st hst
    obtain ⟨rule, hrule⟩ := exec_eq_withStation h hst
    refine ⟨fun above => ?_, fun j hj unknown => ?_⟩
    · rw [hrule, s.unicast_refused c len _ served (s.withStation_of_none _ above)]
    · rw [hrule, s.unicast_refused c len _ served
        (s.withStation_of_unknown _ (stationOf_eq_some hj) unknown)]

/-! ### Clamped fields (R25, R26) -/

theorem clamp_eq_max_min {lo hi : Nat} (h : lo ≤ hi) (v : Nat) : clamp lo hi v = max lo (min v hi) := by
  unfold clamp
  split <;> (try split) <;> omega

theorem clamp_mem {lo hi : Nat} (h : lo ≤ hi) (v : Nat) : lo ≤ clamp lo hi v ∧ clamp lo hi v ≤ hi := by
  rw [clamp_eq_max_min h]
  omega

theorem byte_eq_zero_iff (b : Byte) : b.toNat = 0 ↔ b = 0 :=
  ⟨fun h => BitVec.eq_of_toNat_eq h, fun h => by rw [h]; rfl⟩

/-- A code from 1 to 6 names the role it codes (10 section 10.5). -/
theorem roleOf_code {b : Byte} (low : 1 ≤ b.toNat) (high : b.toNat ≤ 6) :
    ∃ role, roleOf b = some role ∧ role.code = b := by
  have code : ∀ n : Nat, b.toNat = n → b = BitVec.ofNat 8 n := fun n h => by rw [← h, BitVec.ofNat_toNat]; simp
  unfold roleOf
  split
  case h_1 h => exact ⟨_, rfl, (code _ h).symm⟩
  case h_2 h => exact ⟨_, rfl, (code _ h).symm⟩
  case h_3 h => exact ⟨_, rfl, (code _ h).symm⟩
  case h_4 h => exact ⟨_, rfl, (code _ h).symm⟩
  case h_5 h => exact ⟨_, rfl, (code _ h).symm⟩
  case h_6 h => exact ⟨_, rfl, (code _ h).symm⟩
  case h_7 h1 h2 h3 h4 h5 h6 =>
    have : b.toNat = 1 ∨ b.toNat = 2 ∨ b.toNat = 3 ∨ b.toNat = 4 ∨ b.toNat = 5 ∨ b.toNat = 6 := by omega
    rcases this with h | h | h | h | h | h
    · exact absurd h h1
    · exact absurd h h2
    · exact absurd h h3
    · exact absurd h h4
    · exact absurd h h5
    · exact absurd h h6

variable (f : RecordFields) (tag : Nat)

/-- Acceptable fields make a record whose fields lie in their ranges (R25 to R27). -/
theorem mooringFrom_valid (h : f.acceptable) : (mooringFrom f tag).valid := by
  obtain ⟨_, hysteresis, band, critical, top⟩ := h
  have window := clamp_mem (by decide : 1 ≤ 8) f.windowLength.toNat
  have excursion := clamp_mem window.1 f.excursionCount.toNat
  have compliance := clamp_mem (by decide : 1 ≤ 255) f.compliance.toNat
  have limit := clamp_mem (by decide : 10 ≤ 400) f.stepLimit.toNat
  refine ⟨band, critical, top, hysteresis, window.1, window.2, excursion.1, excursion.2, compliance.1,
    compliance.2, limit.1, limit.2, fun rank hrank => ?_⟩
  simp only [mooringFrom, Option.mem_def] at hrank
  split at hrank
  · cases hrank
  · cases hrank; omega

/-- Settles O17, from the clamp as a maximum of a minimum and the role each code names. -/
theorem recordFieldsAreClamped : Obligations.RecordFieldsAreClamped := by
  intro f tag
  have window := clamp_mem (by decide : 1 ≤ 8) f.windowLength.toNat
  refine ⟨rfl, rfl, rfl, rfl, rfl, rfl, clamp_eq_max_min (by decide) _, clamp_eq_max_min window.1 _, ?_,
    clamp_eq_max_min (by decide) _, ?_, ?_, fun ok => ⟨mooringFrom_valid f tag ok, ?_⟩⟩
  · refine (clamp_eq_max_min (by decide) _).trans ?_
    have := f.compliance.isLt
    omega
  · rw [ne_eq, ← byte_eq_zero_iff]
    simp [mooringFrom]
  · simp only [mooringFrom, byte_eq_zero_iff, Nat.min_comm]
  · obtain ⟨role, named, code⟩ := roleOf_code ok.1.1 ok.1.2
    simp only [mooringFrom, named, Option.getD_some, code]

end Sys2Proof.Machine
end

