-- ==== Sys2Proof/Proofs/Acts.lean ====
section
/-! PROOF. What an event does at one station, as a chain of acts: the changes of one record, one request or one unit
that the operations of the model are made of. Every operation is such a chain (this file); what no act breaks, no
operation breaks (the next file). -/

namespace Sys2Proof.Machine

/-! ### The acts -/

/-- One change that an event at station `i` makes. A reason is raised, and the critical condition and a unit's entry to
FAULTED are told to the link (R177); a record keeps its tag, or comes and goes together with its place in its call's
list (R28, R46); a unit changes only where it serves the station. -/
inductive State.Act (i : StationId) : State → State → Prop
  | station (s : State) (x : Station) : x.attention = (s.station i).attention →
      x.unit = (s.station i).unit → Act i s (s.setStation i x)
  | channel (s : State) (c : Channel) : c.critCondition = (s.channel i).critCondition →
      Act i s (s.setChannel i c)
  | raise (s : State) (reason : Attention) : Act i s (s.raise i reason)
  | setCritCondition (s : State) (level : Bool) : Act i s (s.setCritCondition i level)
  | amend (s : State) (old new : Mooring) : s.mooring i = some old → new.tag = old.tag →
      Act i s (s.setMooring i (some new))
  | create (s : State) (r : Mooring) : s.mooring i = none →
      (∃ c ∈ s.calls, c.tag = r.tag ∧ c.berth = berthOf i) →
      Act i s ((s.setMooring i (some r)).onCall r.tag (fun c => { c with list := c.list ++ [i] }))
  | retire (s : State) (r : Mooring) : s.mooring i = some r →
      Act i s ((s.onCall r.tag (fun c => { c with list := c.list.filter (fun j => j != i) })).setMooring i none)
  | submit (s : State) (w : Work) (b : Bool) : Act i s (s.submit i w b)
  | requeue (s : State) (w : Work) (b : Bool) : Act i s (s.requeue i w b)
  | withdraw (s : State) : Act i s (s.withdraw i)
  | redirect (s : State) (d : Direction) (c : Bool) : Act i s (s.redirect i d c)
  | unit (s : State) (u : UnitId) (x : DriveUnit) : (s.station i).unit = some u →
      x.served = (s.unit u).served → (x.state = .faulted ↔ (s.unit u).state = .faulted) →
      ((s.unit u).ok → x.ok) → Act i s (s.setUnit u x)
  | releaseUnit (s : State) : Act i s (s.releaseUnit i)
  | faultUnit (s : State) (u : UnitId) : (s.unit u).served = some i → Act i s (s.faultUnit u)

/-- A chain of acts at station `i`. -/
abbrev State.Acts (i : StationId) : State → State → Prop := Relation.ReflTransGen (State.Act i)

namespace State.Acts

theorem onStation (s : State) (i : StationId) (f : Station → Station)
    (attention : (f (s.station i)).attention = (s.station i).attention)
    (unit : (f (s.station i)).unit = (s.station i).unit) : State.Acts i s (s.onStation i f) :=
  .single (.station s _ attention unit)

theorem onChannel (s : State) (i : StationId) (f : Channel → Channel)
    (critical : (f (s.channel i)).critCondition = (s.channel i).critCondition) :
    State.Acts i s (s.onChannel i f) :=
  .single (.channel s _ critical)

end State.Acts

/-! ### Every operation at a station is a chain of acts -/

variable (s : State) (i : StationId)

theorem State.raise_acts (reason : Attention) : State.Acts i s (s.raise i reason) := .single (.raise s reason)

theorem State.setCritCondition_acts (level : Bool) : State.Acts i s (s.setCritCondition i level) :=
  .single (.setCritCondition s level)

theorem State.emptyWindow_acts : State.Acts i s (s.emptyWindow i) := .onChannel s i _ rfl

theorem State.resetSteady_acts : State.Acts i s (s.resetSteady i) := .onChannel s i _ rfl

theorem State.enter_acts (state : LineState) : State.Acts i s (s.enter i state) := by
  unfold State.enter
  dsimp only
  split
  · exact .onStation s i _ rfl rfl
  · split
    · split
      · exact .onStation s i _ rfl rfl
      · exact (State.Acts.onStation s i _ rfl rfl).trans (State.emptyWindow_acts _ i)
    · exact ((State.Acts.onStation s i _ rfl rfl).trans (State.emptyWindow_acts _ i)).trans
        (State.resetSteady_acts _ i)

theorem State.submit_acts (w : Work) (b : Bool) : State.Acts i s (s.submit i w b) := .single (.submit s w b)

theorem State.requeue_acts (w : Work) (b : Bool) : State.Acts i s (s.requeue i w b) := .single (.requeue s w b)

theorem State.withdraw_acts : State.Acts i s (s.withdraw i) := .single (.withdraw s)

theorem State.redirect_acts (d : Direction) (c : Bool) : State.Acts i s (s.redirect i d c) :=
  .single (.redirect s d c)

theorem State.withdrawTrim_acts : State.Acts i s (s.withdrawTrim i) := by
  unfold State.withdrawTrim
  split
  · split
    · exact s.withdraw_acts i
    · exact .refl
  · exact .refl

theorem State.releaseUnit_acts : State.Acts i s (s.releaseUnit i) := .single (.releaseUnit s)

theorem State.setStop_acts (level : Bool) (h : level = true ∨ ∀ u, (s.station i).unit = some u →
    (s.unit u).state ≠ .idle) : State.Acts i s (s.setStop i level) := by
  unfold State.setStop
  split
  · exact .refl
  · next u hu =>
    refine .single (.unit s u _ hu rfl Iff.rfl fun ok => ?_)
    rcases h with rfl | h
    · revert ok
      simp only [DriveUnit.ok]
      cases (s.unit u).state <;> simp +contextual
    · have busy := h u hu
      revert ok busy
      simp only [DriveUnit.ok]
      cases (s.unit u).state <;> simp +contextual

theorem State.dropActive_acts : State.Acts i s (s.dropActive i) := .onStation s i _ rfl rfl

theorem State.park_acts (w : Work) (b : Bool) : State.Acts i s (s.park i w b) := .onStation s i _ rfl rfl

theorem State.unpark_acts : State.Acts i s (s.unpark i) := .onStation s i _ rfl rfl

theorem State.giveBack_acts : State.Acts i s (s.giveBack i) :=
  (s.releaseUnit_acts i).trans (State.dropActive_acts _ i)

theorem State.parkActive_acts (a : ActiveOp) : State.Acts i s (s.parkActive i a) :=
  (s.park_acts i _ _).trans (State.dropActive_acts _ i)

theorem State.commandedFailure_acts (a : ActiveOp) : State.Acts i s (s.commandedFailure i a) := by
  refine (s.dropActive_acts i).trans ?_
  unfold State.commandedFailure
  dsimp only
  split
  · exact (State.enter_acts _ i _).trans (State.raise_acts _ i _)
  · split
    · exact State.park_acts _ i _ _
    · exact State.requeue_acts _ i _ _

theorem State.failWaiting_acts : State.Acts i s (s.failWaiting i) := by
  unfold State.failWaiting
  split
  · exact .refl
  · split
    · dsimp only
      have back := (s.dropActive_acts i).trans (State.enter_acts (s.dropActive i) i (s.restingOf i))
      split
      · exact back
      · exact back.trans (State.requeue_acts _ i _ _)
    · exact s.commandedFailure_acts i _

theorem State.submitParked_acts : State.Acts i s (s.submitParked i) := by
  unfold State.submitParked
  split
  · exact .refl
  · exact (s.unpark_acts i).trans (State.submit_acts _ i _ _)

theorem State.clearCritical_acts : State.Acts i s (s.clearCritical i) :=
  (State.Acts.onChannel s i _ rfl).trans (State.setCritCondition_acts _ i _)

theorem State.createRecord_acts (r : Mooring) (absent : s.mooring i = none)
    (call : ∃ c ∈ s.calls, c.tag = r.tag ∧ c.berth = berthOf i) :
    State.Acts i s (s.createRecord i r) :=
  .trans (.single (.create s r absent call)) (State.clearCritical_acts _ i)

theorem State.retireRecord_acts : State.Acts i s (s.retireRecord i) := by
  unfold State.retireRecord
  split
  · exact .refl
  · next r hr => exact .trans (.single (.retire s r hr)) (State.clearCritical_acts _ i)

theorem State.stow_acts : State.Acts i s (s.stow i) :=
  (s.enter_acts i _).trans (State.retireRecord_acts _ i)

theorem State.setStale_acts : State.Acts i s (s.setStale i) := by
  unfold State.setStale
  split
  · exact .refl
  · next r hr => exact .trans (.single (.amend s r { r with stale := true } hr rfl)) (State.resetSteady_acts _ i)

theorem State.wantTrim_acts (wanted : Option (Direction × Bool)) : State.Acts i s (s.wantTrim i wanted) := by
  unfold State.wantTrim
  split
  · exact .refl
  · exact s.submit_acts i _ _
  · exact s.redirect_acts i _ _
  · exact s.withdraw_acts i

theorem State.wantCriticalRender_acts : State.Acts i s (s.wantCriticalRender i) := by
  unfold State.wantCriticalRender
  split
  · exact .refl
  · exact s.wantTrim_acts i _

theorem State.renderIfCritical_acts (cause : StopCause) : State.Acts i s (s.renderIfCritical i cause) := by
  unfold State.renderIfCritical
  split
  · exact s.wantCriticalRender_acts i
  · exact .refl

theorem State.commandedEnd_acts : State.Acts i s (s.commandedEnd i) := by
  unfold State.commandedEnd
  dsimp only
  split
  · exact s.commandedFailure_acts i _
  · exact ((s.dropActive_acts i).trans (State.enter_acts _ i _)).trans (State.renderIfCritical_acts _ i _)
  · exact (s.dropActive_acts i).trans (State.enter_acts _ i _)
  · exact (s.dropActive_acts i).trans (State.stow_acts _ i)
  · exact (s.dropActive_acts i).trans (State.enter_acts _ i _)
  · exact s.dropActive_acts i

theorem State.lockStepDone_acts : State.Acts i s (s.lockStepDone i) := by
  refine (s.releaseUnit_acts i).trans ?_
  have commanded : ∀ t : State, State.Acts i t (if (s.station i).parked.isSome then
      (if t.hold then t else t.submitParked i) else t.commandedEnd i) := by
    intro t
    split
    · split
      · exact .refl
      · exact t.submitParked_acts i
    · exact t.commandedEnd_acts i
  unfold State.lockStepDone
  dsimp only
  split
  · exact ((State.dropActive_acts _ i).trans (State.enter_acts _ i _)).trans (State.renderIfCritical_acts _ i _)
  · exact commanded _
  · exact commanded _
  · exact commanded _
  all_goals exact .refl

theorem State.engageDone_acts : State.Acts i s (s.engageDone i) := by
  unfold State.engageDone
  split
  · split
    · exact (s.dropActive_acts i).trans (State.submit_acts _ i _ _)
    · exact .refl
  · exact .refl

/-- A unit that serves a station is not IDLE (R112). -/
def State.busyAt (s : State) (i : StationId) : Prop :=
  ∀ u, (s.station i).unit = some u → (s.unit u).state ≠ .idle

theorem State.continueStep_acts (kind : StepKind) (busy : kind = .motionUnlock → s.busyAt i) :
    State.Acts i s (s.continueStep i kind) := by
  unfold State.continueStep
  split
  · exact s.setStop_acts i false (.inr (busy rfl))
  · exact s.lockStepDone_acts i
  · exact s.engageDone_acts i
  all_goals exact .refl

theorem State.tryComplete_acts (busy : ∀ g ∈ (s.station i).step, g.kind = .motionUnlock → s.busyAt i) :
    State.Acts i s (s.tryComplete i) := by
  unfold State.tryComplete
  split
  · exact .refl
  · next g hg =>
    split
    · refine (State.Acts.onStation s i _ rfl rfl).trans (State.continueStep_acts _ i _ fun unlock u hu => ?_)
      rw [State.station_onStation_self] at hu
      exact busy g hg unlock u hu
    · exact .refl

theorem State.startStep_acts (kind : StepKind) (lock : LockPos) (clutch : ClutchPos)
    (busy : kind = .motionUnlock → s.busyAt i) : State.Acts i s (s.startStep i kind lock clutch) := by
  refine (State.Acts.onStation s i _ rfl rfl).trans (State.tryComplete_acts _ i fun g hg unlock u hu => ?_)
  rw [State.station_onStation_self] at hg hu
  cases hg
  exact busy unlock u hu

theorem State.startStep_acts_of_ne (kind : StepKind) (lock : LockPos) (clutch : ClutchPos)
    (other : kind ≠ .motionUnlock := by decide) : State.Acts i s (s.startStep i kind lock clutch) :=
  s.startStep_acts i kind lock clutch fun h => absurd h other

theorem State.disagreementTest_acts : State.Acts i s (s.disagreementTest i) := by
  unfold State.disagreementTest
  split
  · split
    · exact .onStation s i _ rfl rfl
    · exact .refl
  · exact .onStation s i _ rfl rfl

theorem State.stopMotion_acts (cause : StopCause) : State.Acts i s (s.stopMotion i cause) :=
  (s.setStop_acts i true (.inl rfl)).trans (State.Acts.onStation _ i _ rfl rfl)

theorem State.startLockStep_acts : State.Acts i s (s.startLockStep i) := s.startStep_acts_of_ne i _ _ _

theorem State.endMotion_acts (cause : StopCause) : State.Acts i s (s.endMotion i cause) :=
  (s.stopMotion_acts i cause).trans (State.startLockStep_acts _ i)

theorem State.endMotionDiscard_acts (cause : StopCause) : State.Acts i s (s.endMotionDiscard i cause) :=
  ((s.stopMotion_acts i cause).trans (State.dropActive_acts _ i)).trans (State.startLockStep_acts _ i)

theorem State.motionTests_acts : State.Acts i s (s.motionTests i) := by
  unfold State.motionTests
  dsimp only
  split
  · split
    · exact (State.Acts.onStation s i _ rfl rfl).trans (State.endMotion_acts _ i _)
    · split
      · exact (State.Acts.onStation s i _ rfl rfl).trans (State.endMotion_acts _ i _)
      · exact .onStation s i _ rfl rfl
  · exact .refl

theorem State.startMotion_acts {u : UnitId} (a : ActiveOp) (n : Nat) (hu : (s.station i).unit = some u)
    (granted : (s.unit u).state = .granted) : State.Acts i s (s.startMotion i u a n) := by
  have runs : State.Acts i s (s.onUnit u (fun y => { y with state := .running, readyTimer := none })) := by
    refine .single (.unit s u _ hu rfl (by simp [granted]) fun ok => ?_)
    unfold DriveUnit.ok at ok ⊢
    rw [granted] at ok
    exact ⟨ok.1, rfl, ok.2.2⟩
  refine ((((runs.trans (State.Acts.onStation _ i _ rfl rfl)).trans (State.emptyWindow_acts _ i)).trans
    (State.startStep_acts _ i _ _ _ fun _ v hv => ?_)).trans (State.motionTests_acts _ i))
  have same : (s.station i).unit = some v := by simpa [State.emptyWindow, State.onUnit] using hv
  obtain rfl : u = v := Option.some.inj (hu.symm.trans same)
  simp [State.emptyWindow, State.onStation, State.onChannel]

theorem State.updateLength_acts : State.Acts i s (s.updateLength i) := by
  unfold State.updateLength
  split
  · exact .refl
  · dsimp only
    split
    · exact (State.Acts.onStation s i _ rfl rfl).trans (State.raise_acts _ i _)
    · exact .onStation s i _ rfl rfl

theorem State.dropWork_acts : State.Acts i s (s.dropWork i) :=
  (s.withdraw_acts i).trans (State.Acts.onStation _ i _ rfl rfl)

theorem State.enterFault_acts (cause : StopCause) (reason : Attention) :
    State.Acts i s (s.enterFault i cause reason) :=
  ((((s.releaseUnit_acts i).trans (State.dropWork_acts _ i)).trans (State.enter_acts _ i _)).trans
    (State.Acts.onStation _ i _ rfl rfl)).trans (State.raise_acts _ i _)

theorem State.releaseSequence_acts (cause : StopCause) : State.Acts i s (s.releaseSequence i cause) := by
  have rest : ∀ t : State, State.Acts i t
      ((((t.releaseUnit i).dropWork i).enter i .released).startStep i .release .unlocked .free) :=
    fun t => (((t.releaseUnit_acts i).trans (State.dropWork_acts _ i)).trans
      (State.enter_acts _ i _)).trans (State.startStep_acts_of_ne _ i _ _ _)
  unfold State.releaseSequence
  dsimp only
  split
  · exact (s.stopMotion_acts i cause).trans (rest _)
  · exact rest s

theorem State.takeOverActive_acts : State.Acts i s (s.takeOverActive i) := by
  unfold State.takeOverActive
  split
  · exact .refl
  · split
    · exact s.dropActive_acts i
    · split
      · exact s.parkActive_acts i _
      · exact s.parkActive_acts i _
      · exact s.parkActive_acts i _
      · split
        · exact s.parkActive_acts i _
        · exact s.dropActive_acts i

theorem State.takeOverPending_acts : State.Acts i s (s.takeOverPending i) := by
  unfold State.takeOverPending
  split
  · exact .refl
  · split
    · exact s.withdraw_acts i
    · exact (s.withdraw_acts i).trans (State.park_acts _ i _ _)

theorem State.enterLocal_acts : State.Acts i s (s.enterLocal i) := by
  have rest : ∀ (t : State) (o : TakeOver), State.Acts i t
      (((t.releaseUnit i).enter i .inLocal).onStation i (fun y =>
        { y with step := none, gearTimer := none, motionTimer := none, takeOver := some o })) :=
    fun t o => ((t.releaseUnit_acts i).trans (State.enter_acts _ i _)).trans (State.Acts.onStation _ i _ rfl rfl)
  have work := (s.takeOverPending_acts i).trans (State.takeOverActive_acts _ i)
  unfold State.enterLocal
  dsimp only
  split
  · exact ((work.trans (State.stopMotion_acts _ i _)).trans (State.Acts.onStation _ i _ rfl rfl)).trans (rest _ _)
  · exact work.trans (rest _ _)

theorem State.deferredTakeOver_acts : State.Acts i s (s.deferredTakeOver i) := by
  unfold State.deferredTakeOver
  split
  · exact s.enterLocal_acts i
  · exact .refl

theorem State.discardParkedHeave_acts : State.Acts i s (s.discardParkedHeave i) := by
  unfold State.discardParkedHeave
  dsimp only
  split
  · exact (((s.unpark_acts i).trans (State.releaseUnit_acts _ i)).trans (State.Acts.onStation _ i _ rfl rfl)).trans
      (State.enter_acts _ i _)
  · exact s.unpark_acts i

/-! ### The commands of the lines and the moorings -/

theorem State.slackened_acts (length : Nat) : State.Acts i s (s.slackened i length) :=
  ((s.withdrawTrim_acts i).trans (State.enter_acts _ i _)).trans (State.submit_acts _ i _ _)

theorem State.retired_acts : State.Acts i s (s.retired i) :=
  ((s.enter_acts i _).trans (State.Acts.onStation _ i _ rfl rfl)).trans (State.startStep_acts_of_ne _ i _ _ _)

theorem State.enterByList_acts (state : LineState) : State.Acts i s (s.enterByList i state) := by
  unfold State.enterByList
  split
  · exact (s.enter_acts i _).trans (State.setStale_acts _ i)
  · exact s.stow_acts i
  · exact s.enter_acts i _

theorem State.amendByState_acts : State.Acts i s (s.amendByState i) := by
  unfold State.amendByState
  split
  · exact .onStation s i _ rfl rfl
  · exact s.enter_acts i _
  all_goals exact .refl

theorem State.amendParked_acts (old new : Mooring) : State.Acts i s (s.amendParked i old new) := by
  unfold State.amendParked
  split
  · exact s.discardParkedHeave_acts i
  · exact .refl

theorem State.amended_acts (old new : Mooring) (hr : s.mooring i = some old) (tag : new.tag = old.tag) :
    State.Acts i s (s.amended i old new) :=
  .trans (.trans (.trans (.trans (.trans (.single (.amend s old new hr tag)) (State.emptyWindow_acts _ i))
    (State.resetSteady_acts _ i)) (State.withdrawTrim_acts _ i)) (State.amendByState_acts _ i))
    (State.amendParked_acts _ i old new)

/-! ### Power-up, the field and the pendant -/

theorem State.clearPendingFault_acts : State.Acts i s (s.clearPendingFault i) := .onStation s i _ rfl rfl

theorem State.reconstruct_acts : State.Acts i s (s.reconstruct i) := by
  unfold State.reconstruct
  dsimp only
  have cleared := s.clearPendingFault_acts i
  split
  · exact s.enterFault_acts i _ _
  · split
    · have stowed := (cleared.trans (State.stow_acts _ i)).trans
        (State.Acts.onStation _ i (fun y => { y with cmdClutch := some .engaged }) rfl rfl)
      split
      · exact stowed
      · exact stowed.trans (State.startStep_acts_of_ne _ i _ _ _)
    · split
      · exact (cleared.trans (State.enter_acts _ i _)).trans (State.disagreementTest_acts _ i)
      · exact (cleared.trans (State.enter_acts _ i _)).trans (State.disagreementTest_acts _ i)

theorem State.leaveUnknown_acts : State.Acts i s (s.leaveUnknown i) := by
  unfold State.leaveUnknown
  split
  · exact (((s.updateLength_acts i).trans (State.Acts.onStation _ i _ rfl rfl)).trans (State.reconstruct_acts _ i)).trans
      (State.deferredTakeOver_acts _ i)
  · exact .refl

theorem State.payoutStop_acts : State.Acts i s (s.payoutStop i) := by
  unfold State.payoutStop
  dsimp only
  split
  · exact (s.startStep_acts_of_ne i _ _ _).trans (State.raise_acts _ i _)
  · exact .refl

theorem State.drumMoved_acts : State.Acts i s (s.drumMoved i) := by
  refine (s.updateLength_acts i).trans ?_
  unfold State.drumMoved
  dsimp only
  split
  · exact State.payoutStop_acts _ i
  · exact State.motionTests_acts _ i

theorem State.gearSensed_acts (busy : s.busyAt i) : State.Acts i s (s.gearSensed i) := by
  unfold State.gearSensed
  dsimp only
  split
  · exact s.tryComplete_acts i fun _ _ _ => busy
  · split
    · exact .refl
    · exact s.disagreementTest_acts i

theorem State.takeReturnState_acts (state : LineState) : State.Acts i s (s.takeReturnState i state) := by
  unfold State.takeReturnState
  split
  · split
    · exact s.enter_acts i _
    · split
      · exact s.stow_acts i
      · exact s.enter_acts i _
  · exact s.enterByList_acts i _

theorem State.handBack_acts : State.Acts i s (s.handBack i) := by
  unfold State.handBack
  split
  · exact .onStation s i _ rfl rfl
  · exact .onStation s i _ rfl rfl
  all_goals exact s.startStep_acts_of_ne i _ _ _

theorem State.resumeParked_acts : State.Acts i s (s.resumeParked i) := by
  unfold State.resumeParked
  split
  · exact .refl
  · split
    · exact s.unpark_acts i
    · split
      · exact s.enter_acts i _
      · exact (s.enter_acts i _).trans (State.submitParked_acts _ i)

theorem State.endTakeOver_acts : State.Acts i s (s.endTakeOver i) := by
  unfold State.endTakeOver
  split
  · exact .refl
  · dsimp only
    split
    · exact (State.Acts.onStation s i _ rfl rfl).trans (State.enterFault_acts _ i _ _)
    · exact ((((State.Acts.onStation s i _ rfl rfl).trans (State.clearPendingFault_acts _ i)).trans
        (State.takeReturnState_acts _ i _)).trans (State.handBack_acts _ i)).trans (State.resumeParked_acts _ i)

theorem State.takeOverExpired_acts : State.Acts i s (s.takeOverExpired i) := by
  unfold State.takeOverExpired
  dsimp only
  split
  · exact ((State.Acts.onStation s i _ rfl rfl).trans (State.setStale_acts _ i)).trans (State.raise_acts _ i _)
  · exact .onStation s i _ rfl rfl

/-! ### The hold -/

theorem State.holdStation_acts : State.Acts i s (s.holdStation i) := by
  unfold State.holdStation
  split
  · split
    · exact s.parkActive_acts i _
    · split
      · exact (s.giveBack_acts i).trans (State.enter_acts _ i _)
      · exact (s.releaseUnit_acts i).trans (State.parkActive_acts _ i _)
    · split
      · exact s.endMotionDiscard_acts i _
      · exact (s.park_acts i _ _).trans (State.endMotionDiscard_acts _ i _)
    · exact .refl
  · split
    · exact s.withdraw_acts i
    · exact (s.withdraw_acts i).trans (State.park_acts _ i _ _)
  · exact .refl

theorem State.resumeStation_acts : State.Acts i s (s.resumeStation i) := by
  unfold State.resumeStation
  split
  · exact .refl
  · exact s.submitParked_acts i

/-! ### Samples and readings -/

theorem State.criticalStage_acts (reading : Nat) : State.Acts i s (s.criticalStage i reading) := by
  unfold State.criticalStage
  split
  · exact .refl
  · exact (State.Acts.onChannel s i _ rfl).trans (State.setCritCondition_acts _ i _)

theorem State.windowStage_acts (reading : Nat) : State.Acts i s (s.windowStage i reading) := by
  unfold State.windowStage
  split
  · exact .refl
  · split
    · dsimp only
      split
      · exact (State.Acts.onChannel s i _ rfl).trans (State.raise_acts _ i _)
      · exact .onChannel s i _ rfl
    · exact .refl

theorem State.steadyStage_acts (reading : Nat) : State.Acts i s (s.steadyStage i reading) := by
  unfold State.steadyStage
  split
  · exact .refl
  · split
    · exact .onChannel s i _ rfl
    · exact .refl

theorem State.criticalGiveBack_acts (state : LineState) : State.Acts i s (s.criticalGiveBack i state) := by
  have back := (s.giveBack_acts i).trans (State.enter_acts _ i state)
  unfold State.criticalGiveBack
  dsimp only
  split
  · exact back.trans (State.wantCriticalRender_acts _ i)
  · exact back

theorem State.criticalHeaving_acts : State.Acts i s (s.criticalHeaving i) := by
  unfold State.criticalHeaving
  split
  · exact (s.discardParkedHeave_acts i).trans (State.wantCriticalRender_acts _ i)
  · split
    · split
      · exact ((s.withdraw_acts i).trans (State.enter_acts _ i _)).trans (State.wantCriticalRender_acts _ i)
      · exact .refl
    · split
      · exact s.criticalGiveBack_acts i _
      · exact s.endMotionDiscard_acts i _
      all_goals exact .refl

theorem State.criticalTrimming_acts : State.Acts i s (s.criticalTrimming i) := by
  unfold State.criticalTrimming
  split
  · exact .refl
  · split
    · exact s.criticalGiveBack_acts i _
    · exact s.endMotion_acts i _
    · exact .onStation s i _ rfl rfl
    · exact .refl

theorem State.heaveReading_acts (reading : Nat) : State.Acts i s (s.heaveReading i reading) := by
  unfold State.heaveReading
  split
  · exact s.endMotion_acts i _
  · exact .refl

theorem State.snagReading_acts (reading : Nat) : State.Acts i s (s.snagReading i reading) := by
  unfold State.snagReading
  split
  · exact (s.endMotionDiscard_acts i _).trans (State.raise_acts _ i _)
  · exact .refl

theorem State.readingByState_acts (reading : Nat) (isCritical : Bool) :
    State.Acts i s (s.readingByState i reading isCritical) := by
  unfold State.readingByState
  split
  · exact s.wantTrim_acts i _
  · split
    · exact s.wantCriticalRender_acts i
    · exact .refl
  · split
    · exact s.criticalHeaving_acts i
    · exact s.heaveReading_acts i _
  · split
    · exact s.criticalTrimming_acts i
    · exact .refl
  · exact s.snagReading_acts i _
  all_goals exact .refl

theorem State.controllerReading_acts (reading : Nat) : State.Acts i s (s.controllerReading i reading) := by
  unfold State.controllerReading
  split
  · split
    · exact ((s.raise_acts i _).trans (State.releaseSequence_acts _ i _)).trans (State.raise_acts _ i _)
    · exact (s.raise_acts i _).trans (State.readingByState_acts _ i _ _)
  · exact s.readingByState_acts i _ _

theorem State.readingFormed_acts (reading : Nat) : State.Acts i s (s.readingFormed i reading) :=
  ((((State.Acts.onChannel s i _ rfl).trans (State.criticalStage_acts _ i _)).trans
    (State.windowStage_acts _ i _)).trans (State.steadyStage_acts _ i _)).trans
    (State.controllerReading_acts _ i _)

theorem State.sensorFault_acts : State.Acts i s (s.sensorFault i) := by
  unfold State.sensorFault
  split
  · exact s.raise_acts i _
  · exact .onStation s i _ rfl rfl
  · exact (State.Acts.onStation s i _ rfl rfl).trans (State.raise_acts _ i _)
  all_goals exact s.enterFault_acts i _ _

theorem State.railSample_acts : State.Acts i s (s.railSample i) := by
  have counted := State.Acts.onChannel s i
    (fun c => { c with rail := min Config.sampleRun (c.rail + 1), valid := 0 }) rfl
  unfold State.railSample
  dsimp only
  split
  · exact (counted.trans (State.Acts.onChannel _ i _ rfl)).trans (State.sensorFault_acts _ i)
  · exact counted

theorem State.validSample_acts (raw : Nat) : State.Acts i s (s.validSample i raw) := by
  unfold State.validSample
  dsimp only
  split
  · exact (State.Acts.onChannel s i _ rfl).trans (State.readingFormed_acts _ i _)
  · exact .onChannel s i _ rfl

/-! ### READY and failures -/

section
variable {u : UnitId} (hu : (s.station i).unit = some u)
include hu

theorem State.readyTrim_acts (granted : (s.unit u).state = .granted) (a : ActiveOp) (d : Direction) (c : Bool) :
    State.Acts i s (s.readyTrim i u a d c) := by
  have given := (s.giveBack_acts i).trans (State.enter_acts _ i (s.restingOf i))
  unfold State.readyTrim
  dsimp only
  split
  · exact given
  · split
    · exact s.startMotion_acts i a _ hu granted
    · exact given
    · exact given.trans (State.raise_acts _ i _)

theorem State.readyHeave_acts (granted : (s.unit u).state = .granted) (a : ActiveOp) :
    State.Acts i s (s.readyHeave i u a) := by
  have given := (s.giveBack_acts i).trans (State.enter_acts _ i .fast)
  unfold State.readyHeave
  dsimp only
  split
  · exact given
  · split
    · exact given.trans (State.raise_acts _ i _)
    · exact s.startMotion_acts i a _ hu granted

end

theorem State.failGranted_acts {u : UnitId} (hu : (s.unit u).served = some i) :
    State.Acts i s (s.failGranted u) := by
  unfold State.failGranted
  simp only [hu]
  exact .trans (.trans (.single (.faultUnit s u hu)) (State.releaseUnit_acts _ i))
    (State.failWaiting_acts _ i)

theorem State.failRunning_acts {u : UnitId} (hu : (s.unit u).served = some i) :
    State.Acts i s (s.failRunning u) := by
  have faulted : State.Acts i s ((s.faultUnit u).raise i .driveFault) :=
    .trans (.single (.faultUnit s u hu)) (State.raise_acts _ i _)
  unfold State.failRunning
  simp only [hu]
  split
  · exact faulted.trans (State.endMotion_acts _ i _)
  · exact faulted

end Sys2Proof.Machine
end

