-- ==== Sys2Proof/Proofs/Sound.lean ====
section
/-! PROOF. What no act breaks: units and stations name each other, a unit's outputs fit its state, the drive queue
stands in its four runs, the ALERT state follows its sources, and every record stands in exactly one list. -/

namespace Sys2Proof.Machine

/-! ### The parts of the state that are sound under every act -/

/-- In FOLLOW and CRITICAL-ONLY mode the ALERT state stands at the level of the mode's sources (R178). -/
structure State.AlertFits (s : State) : Prop where
  follow : s.inForce.alertMode = .follow → s.alert = s.followLevel
  critical : s.inForce.alertMode = .criticalOnly → s.alert = s.criticalLevel

/-- Calls have tags of their own, their lists hold stations of their berth with a record of the call, and every record
stands in a list (R28, R47, R48). -/
structure State.ListsOk (s : State) : Prop where
  tagsDiffer : (s.calls.map Call.tag).Nodup
  lists : ∀ c ∈ s.calls, c.list.Nodup ∧
    ∀ i ∈ c.list, berthOf i = c.berth ∧ ∃ r ∈ s.mooring i, r.tag = c.tag
  records : ∀ i, ∀ r ∈ s.mooring i, ∃ c ∈ s.calls, c.tag = r.tag ∧ i ∈ c.list

/-- Stations and units name each other (R112). -/
def State.Linked (s : State) : Prop :=
  ∀ i u, (s.station i).unit = some u ↔ (s.unit u).served = some i

/-- What every act at every station keeps. -/
structure State.Sound (s : State) : Prop where
  linked : s.Linked
  units : s.UnitsOk
  stopped : ∀ u, (s.unit u).served = none → (s.unit u).stop = true
  queue : s.QueueOk
  alert : s.AlertFits
  lists : s.ListsOk

/-! ### The ALERT state -/

theorem mem_allStations (i : StationId) : i ∈ allStations := by revert i; decide

theorem mem_allUnits (u : UnitId) : u ∈ allUnits := by revert u; decide

theorem State.followLevel_iff (s : State) : s.followLevel = true ↔
    (∃ i, (s.station i).attention ≠ .none) ∨ ∃ u, (s.unit u).state = .faulted := by
  simp [State.followLevel, mem_allStations, mem_allUnits]

theorem State.criticalLevel_iff (s : State) : s.criticalLevel = true ↔ ∃ i, (s.channel i).critCondition = true := by
  simp [State.criticalLevel, mem_allStations]

theorem State.followLevel_congr {s t : State}
    (attention : ∀ i, (t.station i).attention = (s.station i).attention)
    (faulted : ∀ u, (t.unit u).state = .faulted ↔ (s.unit u).state = .faulted) :
    t.followLevel = s.followLevel := by
  rw [Bool.eq_iff_iff, State.followLevel_iff, State.followLevel_iff]
  simp only [attention, faulted]

theorem State.criticalLevel_congr {s t : State}
    (critical : ∀ i, (t.channel i).critCondition = (s.channel i).critCondition) :
    t.criticalLevel = s.criticalLevel := by
  rw [Bool.eq_iff_iff, State.criticalLevel_iff, State.criticalLevel_iff]
  simp only [critical]

namespace State.AlertFits

variable {s t : State}

/-- A change of no source keeps the ALERT state where its mode wants it. -/
theorem congr (h : s.AlertFits) (mode : t.inForce.alertMode = s.inForce.alertMode) (alert : t.alert = s.alert)
    (follow : t.followLevel = s.followLevel) (critical : t.criticalLevel = s.criticalLevel) : t.AlertFits :=
  ⟨fun m => by rw [alert, follow, h.follow (mode ▸ m)], fun m => by rw [alert, critical, h.critical (mode ▸ m)]⟩

/-- After a change of the sources of FOLLOW mode the ALERT state is asserted or formed anew. -/
theorem assertAlert (h : s.AlertFits) (mode : t.inForce.alertMode = s.inForce.alertMode)
    (alert : t.alert = s.alert) (critical : t.criticalLevel = s.criticalLevel) : t.assertAlert.AlertFits := by
  unfold State.assertAlert State.reformFollow
  cases m : t.inForce.alertMode
  case latched => exact ⟨fun k => by simp [m] at k, fun k => by simp [m] at k⟩
  case follow => exact ⟨fun _ => rfl, fun k => by simp [m] at k⟩
  case criticalOnly => exact ⟨fun k => by simp [m] at k, fun _ => by
    rw [alert, critical, h.critical (mode ▸ m)]⟩

/-- After a change of the sources of FOLLOW mode the ALERT state is formed anew. -/
theorem reformFollow (h : s.AlertFits) (mode : t.inForce.alertMode = s.inForce.alertMode)
    (alert : t.alert = s.alert) (critical : t.criticalLevel = s.criticalLevel) : t.reformFollow.AlertFits := by
  unfold State.reformFollow
  cases m : t.inForce.alertMode
  case latched => exact ⟨fun k => by simp [m] at k, fun k => by simp [m] at k⟩
  case follow => exact ⟨fun _ => rfl, fun k => by simp [m] at k⟩
  case criticalOnly => exact ⟨fun k => by simp [m] at k, fun _ => by
    rw [alert, critical, h.critical (mode ▸ m)]⟩

/-- After a change of a critical condition the ALERT state is formed anew. -/
theorem reformCritical (h : s.AlertFits) (mode : t.inForce.alertMode = s.inForce.alertMode)
    (alert : t.alert = s.alert) (follow : t.followLevel = s.followLevel) : t.reformCritical.AlertFits := by
  unfold State.reformCritical
  cases m : t.inForce.alertMode
  case latched => exact ⟨fun k => by simp [m] at k, fun k => by simp [m] at k⟩
  case follow => exact ⟨fun _ => by rw [alert, follow, h.follow (mode ▸ m)], fun k => by simp [m] at k⟩
  case criticalOnly => exact ⟨fun k => by simp [m] at k, fun _ => rfl⟩

end State.AlertFits

/-- The ALERT state alone can differ after it is formed anew. -/
theorem State.reformCritical_eq (s : State) : s.reformCritical = { s with alert := s.reformCritical.alert } := by
  unfold State.reformCritical
  cases s.inForce.alertMode <;> rfl

theorem State.reformFollow_eq (s : State) : s.reformFollow = { s with alert := s.reformFollow.alert } := by
  unfold State.reformFollow
  cases s.inForce.alertMode <;> rfl

/-! ### Soundness does not depend on the ALERT state, on stations but for attention and unit, or on channels -/

variable {s t : State} {i : StationId}

theorem State.Linked.congr (h : s.Linked) (station : ∀ j, (t.station j).unit = (s.station j).unit)
    (unit : ∀ u, (t.unit u).served = (s.unit u).served) : t.Linked := by
  intro j u
  rw [station, unit]
  exact h j u

theorem State.ListsOk.congr (h : s.ListsOk) (calls : t.calls = s.calls)
    (mooring : ∀ j, t.mooring j = s.mooring j) : t.ListsOk := by
  refine ⟨calls ▸ h.tagsDiffer, fun c hc => ?_, fun j r hr => ?_⟩
  · simp only [mooring]
    exact h.lists c (calls ▸ hc)
  · rw [calls]
    exact h.records j r (mooring j ▸ hr)

/-- A change of stations and channels alone, which keeps attention and unit of every station. -/
theorem State.Sound.of_stations (h : s.Sound) (alert : t.AlertFits)
    (station : ∀ j, (t.station j).unit = (s.station j).unit) (units : t.units = s.units)
    (queue : t.queue = s.queue) (calls : t.calls = s.calls) (moorings : t.moorings = s.moorings) : t.Sound where
  linked := h.linked.congr station fun u => by simp only [State.unit, units]
  units u := by simpa only [State.unit, units] using h.units u
  stopped u := by simpa only [State.unit, units] using h.stopped u
  queue := by simpa only [State.QueueOk, queue] using h.queue
  alert := alert
  lists := h.lists.congr calls fun j => by simp only [State.mooring, moorings]

/-! ### The queue (R109) -/

/-- The order of the four runs. -/
abbrev inRuns (l : List Request) : Prop := l.Pairwise (fun p q => p.work.opClass.run ≤ q.work.opClass.run)

theorem mem_insertTail {q p : Request} {l : List Request} : p ∈ insertTail q l ↔ p = q ∨ p ∈ l := by
  induction l with
  | nil => simp [insertTail]
  | cons x xs ih =>
    unfold insertTail
    split
    · simp only [List.mem_cons, ih]; tauto
    · simp only [List.mem_cons]

theorem mem_insertHead {q p : Request} {l : List Request} : p ∈ insertHead q l ↔ p = q ∨ p ∈ l := by
  induction l with
  | nil => simp [insertHead]
  | cons x xs ih =>
    unfold insertHead
    split
    · simp only [List.mem_cons, ih]; tauto
    · simp only [List.mem_cons]

theorem insertTail_inRuns (q : Request) {l : List Request} (h : inRuns l) : inRuns (insertTail q l) := by
  induction l with
  | nil => exact List.pairwise_singleton _ _
  | cons x xs ih =>
    obtain ⟨first, rest⟩ := List.pairwise_cons.1 h
    unfold insertTail
    split
    · next le =>
      refine List.pairwise_cons.2 ⟨fun p hp => ?_, ih rest⟩
      rcases mem_insertTail.1 hp with rfl | hp
      · exact le
      · exact first p hp
    · next lt =>
      refine List.pairwise_cons.2 ⟨fun p hp => ?_, h⟩
      rcases List.mem_cons.1 hp with rfl | hp
      · omega
      · have := first p hp
        omega

theorem insertHead_inRuns (q : Request) {l : List Request} (h : inRuns l) : inRuns (insertHead q l) := by
  induction l with
  | nil => exact List.pairwise_singleton _ _
  | cons x xs ih =>
    obtain ⟨first, rest⟩ := List.pairwise_cons.1 h
    unfold insertHead
    split
    · next lt =>
      refine List.pairwise_cons.2 ⟨fun p hp => ?_, ih rest⟩
      rcases mem_insertHead.1 hp with rfl | hp
      · omega
      · exact first p hp
    · next le =>
      refine List.pairwise_cons.2 ⟨fun p hp => ?_, h⟩
      rcases List.mem_cons.1 hp with rfl | hp
      · omega
      · have := first p hp
        omega

/-- A redirected TRIM stays a TRIM, so the runs stand (R110). -/
theorem State.redirect_inRuns (h : s.QueueOk) (d : Direction) (c : Bool) : (s.redirect i d c).QueueOk := by
  have run : ∀ q : Request, (if q.station = i ∧ q.work.isTrim then { q with work := .trim d c } else q).work.opClass =
      q.work.opClass := by
    intro q
    split
    · next hq => cases w : q.work <;> simp_all [Work.isTrim, Work.opClass]
    · rfl
  unfold State.QueueOk State.redirect at *
  rw [List.pairwise_map]
  simpa only [run] using h

theorem State.Sound.of_queue (h : s.Sound) (l : List Request) (runs : inRuns l) :
    ({ s with queue := l } : State).Sound :=
  ⟨h.linked, h.units, h.stopped, runs, ⟨h.alert.follow, h.alert.critical⟩,
    h.lists.congr rfl fun _ => rfl⟩

/-! ### The lists of the calls (R28, R46) -/

theorem State.mem_onCall {tag : Nat} {f : Call → Call} {c : Call} :
    c ∈ (s.onCall tag f).calls ↔ ∃ d ∈ s.calls, (if d.tag = tag then f d else d) = c := List.mem_map

theorem State.onCall_tags {tag : Nat} {f : Call → Call} (h : ∀ c, (f c).tag = c.tag) :
    (s.onCall tag f).calls.map Call.tag = s.calls.map Call.tag := by
  simp only [State.onCall, List.map_map]
  refine List.map_congr_left fun c _ => ?_
  simp only [Function.comp_apply]
  split
  · exact h c
  · rfl

theorem State.ListsOk.tag_inj (h : s.ListsOk) {c d : Call} (hc : c ∈ s.calls) (hd : d ∈ s.calls)
    (tag : c.tag = d.tag) : c = d := List.inj_on_of_nodup_map h.tagsDiffer hc hd tag

theorem State.ListsOk.create (h : s.ListsOk) {r : Mooring} (absent : s.mooring i = none)
    (call : ∃ c ∈ s.calls, c.tag = r.tag ∧ c.berth = berthOf i) :
    ((s.setMooring i (some r)).onCall r.tag (fun c => { c with list := c.list ++ [i] })).ListsOk := by
  obtain ⟨own, hown, htag, hberth⟩ := call
  have alone : ∀ c ∈ s.calls, i ∉ c.list := fun c hc hi => by
    obtain ⟨-, r, hr, -⟩ := (h.lists c hc).2 i hi
    rw [absent] at hr; cases hr
  have others : ∀ c ∈ s.calls, ∀ j ∈ c.list, berthOf j = c.berth ∧
      ∃ r' ∈ (s.setMooring i (some r)).mooring j, r'.tag = c.tag := fun c hc j hj => by
    rw [State.mooring_setMooring_of_ne s _ (fun e : j = i => alone c hc (e ▸ hj))]
    exact (h.lists c hc).2 j hj
  refine ⟨by rw [State.onCall_tags (by intro; rfl)]; exact h.tagsDiffer, fun c hc => ?_, fun j r' hr' => ?_⟩
  · obtain ⟨d, hd, rfl⟩ := State.mem_onCall.1 hc
    split
    case isTrue tag =>
      obtain rfl : d = own := h.tag_inj hd hown (tag.trans htag.symm)
      refine ⟨List.nodup_append'.2 ⟨(h.lists d hd).1, List.nodup_singleton i,
        List.disjoint_singleton.2 (alone d hd)⟩, fun j hj => ?_⟩
      rcases List.mem_append.1 hj with hj | hj
      · exact others d hd j hj
      · obtain rfl := List.mem_singleton.1 hj
        exact ⟨hberth.symm, r, State.mooring_setMooring_self s j _, htag.symm⟩
    case isFalse => exact ⟨(h.lists d hd).1, others d hd⟩
  · by_cases e : j = i
    · subst e
      obtain rfl : r = r' := Option.some.inj ((State.mooring_setMooring_self s j _).symm.trans hr')
      refine ⟨_, State.mem_onCall.2 ⟨own, hown, rfl⟩, ?_⟩
      rw [if_pos htag]
      exact ⟨htag, List.mem_append_right _ (List.mem_singleton.2 rfl)⟩
    · obtain ⟨c, hc, htag', hj⟩ := h.records j r' ((State.mooring_setMooring_of_ne s _ e).symm.trans hr')
      refine ⟨_, State.mem_onCall.2 ⟨c, hc, rfl⟩, ?_⟩
      split
      · exact ⟨htag', List.mem_append_left _ hj⟩
      · exact ⟨htag', hj⟩

theorem State.ListsOk.retire (h : s.ListsOk) {r : Mooring} (present : s.mooring i = some r) :
    ((s.onCall r.tag (fun c => { c with list := c.list.filter (fun j => j != i) })).setMooring i none).ListsOk := by
  have gone : ∀ c ∈ s.calls, i ∈ c.list → c.tag = r.tag := fun c hc hi => by
    obtain ⟨-, r', hr', tag⟩ := (h.lists c hc).2 i hi
    rw [present] at hr'; cases hr'; exact tag.symm
  have stays : ∀ c ∈ s.calls, ∀ j ∈ c.list, j ≠ i → berthOf j = c.berth ∧
      ∃ r' ∈ (s.setMooring i none).mooring j, r'.tag = c.tag := fun c hc j hj e => by
    rw [State.mooring_setMooring_of_ne s _ e]
    exact (h.lists c hc).2 j hj
  refine ⟨by rw [State.setMooring_calls, State.onCall_tags (by intro; rfl)]; exact h.tagsDiffer,
    fun c hc => ?_, fun j r' hr' => ?_⟩
  · obtain ⟨d, hd, rfl⟩ := State.mem_onCall.1 hc
    split
    case isTrue tag =>
      refine ⟨(h.lists d hd).1.filter _, fun j hj => ?_⟩
      obtain ⟨hj, e⟩ := List.mem_filter.1 hj
      exact stays d hd j hj (by simpa using e)
    case isFalse tag =>
      exact ⟨(h.lists d hd).1, fun j hj => stays d hd j hj fun e => tag (gone d hd (e ▸ hj))⟩
  · by_cases e : j = i
    · subst e
      rw [State.mooring_setMooring_self] at hr'
      cases hr'
    · obtain ⟨c, hc, tag, hj⟩ := h.records j r' ((State.mooring_setMooring_of_ne _ _ e).symm.trans hr')
      refine ⟨_, State.mem_onCall.2 ⟨c, hc, rfl⟩, ?_⟩
      split
      · exact ⟨tag, List.mem_filter.2 ⟨hj, by simpa using e⟩⟩
      · exact ⟨tag, hj⟩

theorem State.ListsOk.amend (h : s.ListsOk) {old new : Mooring} (present : s.mooring i = some old)
    (tag : new.tag = old.tag) : (s.setMooring i (some new)).ListsOk := by
  have same : ∀ j, ((s.setMooring i (some new)).mooring j).map Mooring.tag = (s.mooring j).map Mooring.tag := by
    intro j
    rw [State.mooring_setMooring]
    split
    · next e => rw [e, present]; simp [tag]
    · rfl
  have tagged : ∀ (t : State) j n, (∃ r ∈ t.mooring j, r.tag = n) ↔ (t.mooring j).map Mooring.tag = some n := by
    intro t j n
    cases t.mooring j <;> simp
  refine ⟨h.tagsDiffer, fun c hc => ⟨(h.lists c hc).1, fun j hj => ?_⟩, fun j r hr => ?_⟩
  · rw [tagged, same, ← tagged]
    exact (h.lists c hc).2 j hj
  · have : ∃ r' ∈ s.mooring j, r'.tag = r.tag := (tagged s j _).2 ((same j).symm.trans ((tagged _ j _).1 ⟨r, hr, rfl⟩))
    obtain ⟨r', hr', tag'⟩ := this
    rw [← tag']
    exact h.records j r' hr'

/-! ### No act breaks soundness -/

/-- A unit's entry to FAULTED keeps the state sound, whichever station it serves (R117, R118, R177). -/
theorem State.Sound.faultUnit (h : s.Sound) (u : UnitId) : (s.faultUnit u).Sound := by
  unfold State.faultUnit
  have unit : ∀ v, ((s.onUnit u (fun x =>
      { x with state := .faulted, readyTimer := none, run := none, stop := true })).assertAlert.unit v) =
        if v = u then { s.unit u with state := .faulted, readyTimer := none, run := none, stop := true }
        else s.unit v := fun v => by
    rw [State.assertAlert_eq, State.with_alert_unit, State.unit_onUnit]
  refine ⟨h.linked.congr (fun j => ?_) fun v => ?_, fun v => ?_, fun v => ?_, ?_,
    h.alert.assertAlert rfl rfl rfl, h.lists.congr ?_ fun j => ?_⟩
  · rw [State.assertAlert_eq]; rfl
  · rw [unit]
    split
    · next e => rw [e]
    · rfl
  · rw [unit]
    split
    · exact ⟨rfl, rfl⟩
    · exact h.units v
  · rw [unit]
    split
    · exact fun _ => rfl
    · exact h.stopped v
  all_goals rw [State.assertAlert_eq]
  · exact h.queue
  · rfl
  · rfl

theorem State.Act.sound (act : State.Act i s t) (h : s.Sound) : t.Sound := by
  cases act with
  | station x attention unit =>
    have kept : ∀ j, ((s.setStation i x).station j).attention = (s.station j).attention ∧
        ((s.setStation i x).station j).unit = (s.station j).unit := by
      intro j
      rw [State.station_setStation]
      split
      · next e => rw [e]; exact ⟨attention, unit⟩
      · exact ⟨rfl, rfl⟩
    exact h.of_stations (h.alert.congr rfl rfl (State.followLevel_congr (fun j => (kept j).1) fun _ => Iff.rfl) rfl)
      (fun j => (kept j).2) rfl rfl rfl rfl
  | channel c critical =>
    refine h.of_stations (h.alert.congr rfl rfl rfl (State.criticalLevel_congr fun j => ?_)) (fun _ => rfl)
      rfl rfl rfl rfl
    rw [State.channel_setChannel]
    split
    · next e => rw [e, critical]
    · rfl
  | raise reason =>
    unfold State.raise
    split
    case isFalse => exact h
    case isTrue =>
      refine h.of_stations (h.alert.assertAlert rfl rfl rfl) (fun j => ?_) ?_ ?_ ?_ ?_
      · rw [State.assertAlert_eq, State.with_alert_station, State.station_onStation]
        split
        · next e => rw [e]
        · rfl
      all_goals rw [State.assertAlert_eq]; rfl
  | setCritCondition level =>
    unfold State.setCritCondition
    split
    case isTrue => exact h
    case isFalse =>
      refine h.of_stations (h.alert.reformCritical rfl rfl rfl) (fun j => ?_) ?_ ?_ ?_ ?_
      all_goals rw [State.reformCritical_eq]; rfl
  | amend old new present tag =>
    exact ⟨h.linked, h.units, h.stopped, h.queue, ⟨h.alert.follow, h.alert.critical⟩, h.lists.amend present tag⟩
  | create r absent call =>
    exact ⟨h.linked, h.units, h.stopped, h.queue, ⟨h.alert.follow, h.alert.critical⟩, h.lists.create absent call⟩
  | retire r present =>
    exact ⟨h.linked, h.units, h.stopped, h.queue, ⟨h.alert.follow, h.alert.critical⟩, h.lists.retire present⟩
  | submit w b => exact h.of_queue _ (insertTail_inRuns _ h.queue)
  | requeue w b => exact h.of_queue _ (insertHead_inRuns _ h.queue)
  | withdraw => exact h.of_queue _ (h.queue.filter _)
  | redirect d c => exact h.of_queue _ (State.redirect_inRuns h.queue d c)
  | unit u x serves served faulted ok =>
    have kept : ∀ v, ((s.setUnit u x).unit v).served = (s.unit v).served ∧
        (((s.setUnit u x).unit v).state = .faulted ↔ (s.unit v).state = .faulted) := by
      intro v
      rw [State.unit_setUnit]
      split
      · next e => rw [e]; exact ⟨served, faulted⟩
      · exact ⟨rfl, Iff.rfl⟩
    have busy : (s.unit u).served = some i := (h.linked i u).1 serves
    refine ⟨h.linked.congr (fun _ => rfl) fun v => (kept v).1, fun v => ?_, fun v => ?_, h.queue,
      h.alert.congr rfl rfl (State.followLevel_congr (fun _ => rfl) fun v => (kept v).2) rfl,
      h.lists.congr rfl fun _ => rfl⟩
    · rw [State.unit_setUnit]
      split
      · exact ok (h.units u)
      · exact h.units v
    · rw [State.unit_setUnit]
      split
      · intro free; rw [served, busy] at free; cases free
      · exact h.stopped v
  | releaseUnit =>
    unfold State.releaseUnit
    split
    case h_1 => exact h
    case h_2 u hu =>
      dsimp only
      generalize hst : (if (s.unit u).state = .faulted then UnitState.faulted else .idle) = st
      have own : ∀ v, (((s.setUnit u (.unserved st)).onStation i (fun x => { x with unit := none })).unit v) =
          if v = u then .unserved st else s.unit v := fun v => by
        rw [State.onStation_unit, State.unit_setUnit]
      have station : ∀ j, (((s.setUnit u (.unserved st)).onStation i (fun x => { x with unit := none })).station j) =
          if j = i then { s.station i with unit := none } else s.station j := fun j => by
        rw [State.station_onStation]; rfl
      refine ⟨fun j v => ?_, fun v => ?_, fun v => ?_, h.queue, h.alert.congr rfl rfl (State.followLevel_congr
        (fun j => ?_) fun v => ?_) rfl, h.lists.congr rfl fun _ => rfl⟩
      · rw [own, station]
        by_cases ej : j = i <;> by_cases ev : v = u
        · simp [ej, ev, DriveUnit.unserved]
        · have := (h.linked i u).1 hu
          simp only [ej, ev, if_true, if_false, reduceCtorEq, false_iff]
          intro serves
          exact ev (Option.some.inj (((h.linked i v).2 serves).symm.trans hu))
        · simp only [ej, ev, if_true, if_false, DriveUnit.unserved, reduceCtorEq, iff_false]
          intro serves
          exact ej (Option.some.inj (((h.linked j u).1 serves).symm.trans ((h.linked i u).1 hu)))
        · simpa only [ej, ev, if_false] using h.linked j v
      · rw [own]
        split
        · rw [← hst]; split <;> simp [DriveUnit.ok, DriveUnit.unserved]
        · exact h.units v
      · rw [own]
        split
        · exact fun _ => rfl
        · exact h.stopped v
      · rw [station]
        split
        · next e => rw [e]
        · rfl
      · rw [own]
        split
        · next e =>
          rw [e, ← hst]
          by_cases f : (s.unit u).state = .faulted <;> simp [DriveUnit.unserved, f]
        · rfl
  | faultUnit u => exact h.faultUnit u

theorem State.Acts.sound (acts : State.Acts i s t) (h : s.Sound) : t.Sound := by
  induction acts with
  | refl => exact h
  | tail _ act ih => exact act.sound ih

/-! ### What an act leaves alone -/

theorem State.Act.local (act : State.Act i s t) : State.Local i s t := by
  cases act with
  | station x => exact s.setStation_local i x
  | channel c => exact s.setChannel_local i c
  | raise reason => exact s.raise_local i reason
  | setCritCondition level => exact s.setCritCondition_local i level
  | amend old new => exact s.setMooring_local i _
  | create r =>
    exact (s.setMooring_local i _).trans (State.onCall_local _ i _ _ (fun c => by simp [Call.without]))
  | retire r =>
    exact (s.onCall_local i _ _ (fun c => by simp [Call.without, List.filter_filter])).trans
      (State.setMooring_local _ i _)
  | submit w b => exact s.submit_local i w b
  | requeue w b => exact s.requeue_local i w b
  | withdraw => exact s.withdraw_local i
  | redirect d c => exact s.redirect_local i d c
  | unit u x => exact s.setUnit_local i u x
  | releaseUnit => exact s.releaseUnit_local i
  | faultUnit u => exact s.faultUnit_local i u

theorem State.Acts.local (acts : State.Acts i s t) : State.Local i s t := by
  induction acts with
  | refl => exact .refl i s
  | tail _ act ih => exact ih.trans act.local

/-- A unit that does not serve the station is left alone. -/
theorem State.Act.unit_of_ne (act : State.Act i s t) (h : s.Linked) {u : UnitId}
    (other : (s.unit u).served ≠ some i) : t.unit u = s.unit u := by
  have ne : ∀ v, (s.station i).unit = some v → u ≠ v := fun v hv e => other (e ▸ (h i v).1 hv)
  cases act with
  | raise reason => simp only [State.unit, (s.raise_only i reason).2.2.1]
  | setCritCondition level =>
    unfold State.setCritCondition
    split
    · rfl
    · rw [State.reformCritical_eq]; rfl
  | unit v x serves => exact State.unit_setUnit_of_ne s x (ne v serves)
  | releaseUnit =>
    unfold State.releaseUnit
    split
    · rfl
    · next v hv => rw [State.onStation_unit, State.unit_setUnit_of_ne _ _ (ne v hv)]
  | faultUnit v serves =>
    have e : u ≠ v := fun e => other (e ▸ serves)
    unfold State.faultUnit
    rw [State.assertAlert_eq, State.with_alert_unit, State.unit_onUnit, if_neg e]
  | _ => rfl

theorem State.Acts.unit_of_ne (acts : State.Acts i s t) (h : s.Sound) {u : UnitId}
    (other : (s.unit u).served ≠ some i) : t.unit u = s.unit u := by
  induction acts with
  | refl => rfl
  | tail acts act ih =>
    rw [act.unit_of_ne (State.Acts.sound acts h).linked (by rw [ih]; exact other), ih]

/-- Out of service a unit stays, whatever its station does. -/
theorem State.Act.faulted (act : State.Act i s t) {u : UnitId} (h : (s.unit u).state = .faulted) :
    (t.unit u).state = .faulted := by
  cases act with
  | raise reason => simpa only [State.unit, (s.raise_only i reason).2.2.1] using h
  | setCritCondition level =>
    unfold State.setCritCondition
    split
    · exact h
    · rw [State.reformCritical_eq]; exact h
  | unit v x serves served faulted =>
    rw [State.unit_setUnit]
    split
    · next e => exact faulted.2 (e ▸ h)
    · exact h
  | releaseUnit =>
    unfold State.releaseUnit
    split
    · exact h
    · next v hv =>
      rw [State.onStation_unit, State.unit_setUnit]
      split
      · next e => rw [← e, h]; rfl
      · exact h
  | faultUnit v serves =>
    unfold State.faultUnit
    rw [State.assertAlert_eq, State.with_alert_unit, State.unit_onUnit]
    split
    · rfl
    · exact h
  | _ => exact h

theorem State.Acts.faulted (acts : State.Acts i s t) {u : UnitId} (h : (s.unit u).state = .faulted) :
    (t.unit u).state = .faulted := by
  induction acts with
  | refl => exact h
  | tail _ act ih => exact act.faulted ih

end Sys2Proof.Machine
end

