-- ==== Sys2Proof/Proofs/Site.lean ====
section
/-! PROOF. The site of a station: what an event at the station reads and writes, gathered in one record, and what each
operation makes of it. The site is a view of the state; every law below says how one operation of the model changes
that view. -/

namespace Sys2Proof.Machine

/-- What an event at one station works on: the station, its channel, its record, its requests and the unit that serves
it, the ALERT state, and the levels and values it reads. `othersCritical` tells whether a critical condition holds at
another station (R178). -/
structure Site where
  hold : Bool
  settings : Settings
  cal : Calibration
  mode : AlertMode
  input : Bool
  othersCritical : Bool
  alert : Bool
  x : Station
  c : Channel
  r : Option Mooring
  qs : List Request
  v : Option DriveUnit

/-- The site of a station in a state. -/
def State.site (s : State) (i : StationId) : Site where
  hold := s.hold
  settings := s.settings
  cal := s.calibration i
  mode := s.inForce.alertMode
  input := s.inputs.takeOver[i]
  othersCritical := allStations.any (fun j => j != i && (s.channel j).critCondition)
  alert := s.alert
  x := s.station i
  c := s.channel i
  r := s.mooring i
  qs := s.queue.filter (fun q => q.station == i)
  v := (s.station i).unit.map s.unit

variable (s : State) (i : StationId)

/-! ### Reading the state through the site -/

theorem State.hold_eq_site : s.hold = (s.site i).hold := rfl
theorem State.settings_eq_site : s.settings = (s.site i).settings := rfl
theorem State.calibration_eq_site : s.calibration i = (s.site i).cal := rfl
theorem State.station_eq_site : s.station i = (s.site i).x := rfl
theorem State.channel_eq_site : s.channel i = (s.site i).c := rfl
theorem State.mooring_eq_site : s.mooring i = (s.site i).r := rfl

theorem State.requestOf_eq_site : s.requestOf i = (s.site i).qs.head? :=
  List.head?_filter.symm

theorem State.motionOf_eq_site : s.motionOf i = (s.site i).x.active.bind ActiveOp.moving? := rfl

theorem State.site_qs_eq_nil : (s.site i).qs = [] ↔ ∀ q ∈ s.queue, q.station ≠ i := by
  simp [State.site, List.filter_eq_nil_iff]

/-- A critical condition holds somewhere exactly when it holds here or elsewhere. -/
theorem State.criticalLevel_eq_site : s.criticalLevel = ((s.site i).c.critCondition || (s.site i).othersCritical) := by
  rw [Bool.eq_iff_iff, State.criticalLevel_iff]
  simp only [State.site, Bool.or_eq_true, List.any_eq_true, mem_allStations, true_and, Bool.and_eq_true, bne_iff_ne]
  constructor
  · rintro ⟨j, hj⟩
    by_cases e : j = i
    · exact .inl (e ▸ hj)
    · exact .inr ⟨j, e, hj⟩
  · rintro (h | ⟨j, -, hj⟩)
    · exact ⟨i, h⟩
    · exact ⟨j, hj⟩

/-! ### The small changes -/

section
variable {i}

/-- A change of the station that keeps its unit. -/
@[simp] theorem State.site_onStation (f : Station → Station)
    (h : (f (s.site i).x).unit = (s.site i).x.unit) :
    (s.onStation i f).site i = { s.site i with x := f (s.site i).x } := by
  simp only [State.site, State.station_onStation_self] at h ⊢
  simp only [h]
  rfl

theorem State.site_setStation (x : Station) (h : x.unit = (s.site i).x.unit) :
    (s.setStation i x).site i = { s.site i with x := x } :=
  s.site_onStation (fun _ => x) h

theorem othersCritical_onChannel (f : Channel → Channel) :
    allStations.any (fun j => j != i && ((s.onChannel i f).channel j).critCondition) =
      allStations.any (fun j => j != i && (s.channel j).critCondition) := by
  congr 1
  funext j
  by_cases e : j = i
  · simp [e]
  · rw [State.channel_onChannel, if_neg e]

@[simp] theorem State.site_onChannel (f : Channel → Channel) :
    (s.onChannel i f).site i = { s.site i with c := f (s.site i).c } := by
  have others := othersCritical_onChannel s (i := i) f
  simp only [State.site, others, State.channel_onChannel_self]
  rfl

@[simp] theorem State.site_setMooring (r : Option Mooring) :
    (s.setMooring i r).site i = { s.site i with r := r } := by
  simp only [State.site, State.mooring_setMooring_self]
  rfl

@[simp] theorem State.site_onCall (tag : Nat) (f : Call → Call) : (s.onCall tag f).site i = s.site i := rfl

theorem State.site_with_alert (level : Bool) :
    ({ s with alert := level } : State).site i = { s.site i with alert := level } := rfl

@[simp] theorem State.site_with_hold (level : Bool) :
    ({ s with hold := level } : State).site i = { s.site i with hold := level } := rfl

/-- A raised reason at the site (R23, R177). -/
@[simp] theorem State.site_raise (reason : Attention) :
    (s.raise i reason).site i = { s.site i with
      x := (s.site i).x.noticing reason
      alert := (s.site i).alert || (reason.outranks (s.site i).x.attention && (s.site i).mode != .criticalOnly) } := by
  have alert := s.raise_alert i reason
  unfold State.raise at alert ⊢
  unfold State.alertAfter at alert
  split at alert
  · next h =>
    rw [if_pos h, State.assertAlert_eq, State.site_with_alert, alert, State.site_onStation _ _ rfl]
    simp only [Station.noticing, State.site, h, if_true]
  · next h =>
    rw [if_neg h]
    simp only [State.site, Station.noticing, h]
    simp

/-- The critical condition at the site (R79, R178). -/
@[simp] theorem State.site_setCritCondition (level : Bool) :
    (s.setCritCondition i level).site i = { s.site i with
      c := { (s.site i).c with critCondition := level }
      alert := if (s.site i).c.critCondition = level then (s.site i).alert
        else if (s.site i).mode = .criticalOnly then level || (s.site i).othersCritical else (s.site i).alert } := by
  unfold State.setCritCondition
  rw [State.channel_eq_site]
  by_cases same : (s.site i).c.critCondition = level
  · simp only [same, if_true]
    subst same
    rfl
  · simp only [same, if_false]
    have mode : ((s.onChannel i fun c => { c with critCondition := level }).inForce.alertMode) = (s.site i).mode := rfl
    unfold State.reformCritical
    rw [mode]
    split
    · next m =>
      rw [State.site_with_alert, State.criticalLevel_eq_site _ i, State.site_onChannel]
      simp [m]
    · next m => rw [State.site_onChannel]; simp [m]
    · next m => rw [State.site_onChannel]; simp [m]

/-- Entry to a state at the site (R6, R85, R87, R91). -/
@[simp] theorem State.site_enter (state : LineState) :
    (s.enter i state).site i = { s.site i with
      x := { (s.site i).x with
        state := state
        resting := if state = .trimming then (s.site i).x.resting else none }
      c := if state = .trimming then (s.site i).c
        else if state = .fast then (if (s.site i).x.state = .fast then (s.site i).c else (s.site i).c.emptied)
        else (s.site i).c.leftBand } := by
  unfold State.enter
  rw [State.station_eq_site]
  by_cases trimming : state = .trimming
  · simp [trimming]
  · by_cases fast : state = .fast
    · by_cases old : (s.site i).x.state = .fast <;> simp [fast, old, State.emptyWindow]
    · simp [trimming, fast, State.emptyWindow, State.resetSteady, Channel.leftBand]

/-! ### Requests -/

@[simp] theorem State.site_withdraw : (s.withdraw i).site i = { s.site i with qs := [] } := by
  have none : (s.queue.filter (fun q => q.station != i)).filter (fun q => q.station == i) = [] := by
    simp [List.filter_eq_nil_iff]
  simp only [State.withdraw, State.site]
  rw [none]
  rfl

/-- A submission of a station that has no request. -/
theorem State.site_submit (w : Work) (b : Bool) (h : (s.site i).qs = []) :
    (s.submit i w b).site i = { s.site i with qs := [⟨i, w, b⟩] } := by
  have qs := s.submit_requests i w b ((s.site_qs_eq_nil i).1 h)
  simp only [State.site, qs]
  rfl

theorem State.site_requeue (w : Work) (b : Bool) (h : (s.site i).qs = []) :
    (s.requeue i w b).site i = { s.site i with qs := [⟨i, w, b⟩] } := by
  have qs := s.requeue_requests i w b ((s.site_qs_eq_nil i).1 h)
  simp only [State.site, qs]
  rfl

/-- The requests of a station after a TRIM of it is wanted or not (R92). -/
def wantedRequests (i : StationId) (qs : List Request) : Option (Direction × Bool) → List Request
  | none => []
  | some (d, c) =>
    if qs = [] then [⟨i, .trim d c, false⟩]
    else qs.map (fun q => if q.work.isTrim then { q with work := .trim d c } else q)

@[simp] theorem State.site_wantTrim (wanted : Option (Direction × Bool)) :
    (s.wantTrim i wanted).site i = { s.site i with qs := wantedRequests i (s.site i).qs wanted } := by
  unfold State.wantTrim
  rw [State.requestOf_eq_site]
  split
  · have empty : (s.site i).qs = [] := List.head?_eq_none_iff.1 (by assumption)
    simp only [wantedRequests, ← empty]
  · have empty : (s.site i).qs = [] := List.head?_eq_none_iff.1 (by assumption)
    rw [s.site_submit _ _ empty]
    simp only [wantedRequests, empty, if_true]
  · next q d c h =>
    have some : (s.site i).qs ≠ [] := by rintro e; rw [e] at h; cases h
    have qs : (s.redirect i d c).queue.filter (fun q => q.station == i) =
        (s.queue.filter (fun q => q.station == i)).map
          (fun q => if q.work.isTrim then { q with work := .trim d c } else q) := by
      simp only [State.redirect]
      induction s.queue with
      | nil => rfl
      | cons p l ih =>
        by_cases own : p.station = i
        · by_cases trim : p.work.isTrim <;> simp [own, trim, ih]
        · simp [own, ih]
    simp only [wantedRequests, some, if_false]
    simp only [State.site, qs]
    rfl
  · next => simp [wantedRequests]

@[simp] theorem State.site_wantCriticalRender :
    (s.wantCriticalRender i).site i = { s.site i with
      qs := if (s.site i).hold then (s.site i).qs else wantedRequests i (s.site i).qs (some (.outward, true)) } := by
  unfold State.wantCriticalRender
  rw [State.hold_eq_site s i]
  by_cases h : (s.site i).hold = true
  · rw [if_pos h, if_pos h]
  · rw [if_neg h, if_neg h, State.site_wantTrim]

/-- A request that is a TRIM is withdrawn (R34, R136). -/
@[simp] theorem State.site_withdrawTrim :
    (s.withdrawTrim i).site i = { s.site i with
      qs := if (s.site i).qs.head?.any (fun q => q.work.isTrim) then [] else (s.site i).qs } := by
  unfold State.withdrawTrim
  rw [State.requestOf_eq_site]
  split
  · next q h =>
    by_cases trim : q.work.isTrim = true
    · simp [h, trim]
    · simp [h, trim]
  · next h => simp [h]

/-! ### Units -/

@[simp] theorem State.site_releaseUnit :
    (s.releaseUnit i).site i = { s.site i with x := { (s.site i).x with unit := none }, v := none } := by
  unfold State.releaseUnit
  split
  · next h =>
    rw [State.station_eq_site] at h
    have v : (s.site i).v = none := by
      change (s.site i).x.unit.map s.unit = none
      rw [h]; rfl
    rw [← v, ← h]
  · next u h =>
    simp only [State.site, State.station_onStation_self]
    rfl

@[simp] theorem State.site_setStop (level : Bool) :
    (s.setStop i level).site i = { s.site i with v := (s.site i).v.map (fun d => { d with stop := level }) } := by
  unfold State.setStop
  split
  · next h =>
    rw [State.station_eq_site] at h
    have v : (s.site i).v = none := by
      change (s.site i).x.unit.map s.unit = none
      rw [h]; rfl
    simp only [v, Option.map_none]
    rw [← v]
  · next u h =>
    simp only [State.site, State.onUnit, State.setUnit_station, h, Option.map_some, State.unit_setUnit_self]
    rfl

/-- A change of the unit that serves the station. -/
theorem State.site_onUnit {u : UnitId} (f : DriveUnit → DriveUnit) (h : (s.site i).x.unit = some u) :
    (s.onUnit u f).site i = { s.site i with v := (s.site i).v.map f } := by
  change (s.station i).unit = some u at h
  simp only [State.site, State.onUnit, State.setUnit_station, h, Option.map_some, State.unit_setUnit_self]
  rfl

/-- The fault of the unit that serves the station (R118, R177). -/
theorem State.site_faultUnit {u : UnitId} (h : (s.site i).x.unit = some u) :
    (s.faultUnit u).site i = { s.site i with
      v := (s.site i).v.map (fun d => { d with state := .faulted, readyTimer := none, run := none, stop := true })
      alert := (s.site i).alert || (s.site i).mode != .criticalOnly } := by
  unfold State.faultUnit
  have faulted : ((s.onUnit u (fun x =>
      { x with state := .faulted, readyTimer := none, run := none, stop := true })).unit u).state = .faulted := by
    rw [State.unit_onUnit_self]
  have mode : ((s.onUnit u (fun x =>
      { x with state := .faulted, readyTimer := none, run := none, stop := true })).inForce.alertMode) =
        (s.site i).mode := rfl
  unfold State.assertAlert State.reformFollow
  rw [mode]
  have level := (State.followLevel_iff _).2 (.inr ⟨u, faulted⟩)
  split
  · next m => rw [State.site_with_alert, s.site_onUnit _ h]; simp [m]
  · next m => rw [m]; simp only; rw [State.site_with_alert, level, s.site_onUnit _ h]; simp [m]
  · next m => rw [m]; simp only; rw [s.site_onUnit _ h]; simp [m]

/-! ### Operations at the park slot and the active operation -/

@[simp] theorem State.site_dropActive :
    (s.dropActive i).site i = { s.site i with x := { (s.site i).x with active := none } } :=
  s.site_onStation _ rfl

@[simp] theorem State.site_park (w : Work) (b : Bool) :
    (s.park i w b).site i = { s.site i with x := { (s.site i).x with parked := some ⟨w, b⟩ } } :=
  s.site_onStation _ rfl

@[simp] theorem State.site_unpark :
    (s.unpark i).site i = { s.site i with x := { (s.site i).x with parked := none } } :=
  s.site_onStation _ rfl

@[simp] theorem State.site_dropWork :
    (s.dropWork i).site i = { s.site i with
      x := { (s.site i).x with active := none, parked := none, motionTimer := none }, qs := [] } := by
  unfold State.dropWork
  rw [State.site_onStation _ _ rfl, State.site_withdraw]

/-- The parked operation of a station without a request is submitted (R150, R158). -/
theorem State.site_submitParked (h : (s.site i).qs = []) :
    (s.submitParked i).site i = { s.site i with
      x := { (s.site i).x with parked := none }
      qs := ((s.site i).x.parked.map (fun p => (⟨i, p.work, p.retryUsed⟩ : Request))).toList } := by
  unfold State.submitParked
  rw [State.station_eq_site]
  split
  · next e =>
    rw [e, Option.map_none, Option.toList_none, ← h, ← e]
  · next p e =>
    rw [State.site_submit _ _ _ (by rw [State.site_unpark]; exact h), State.site_unpark]
    simp [e]

/-! ### Records -/

@[simp] theorem State.site_clearCritical :
    (s.clearCritical i).site i = { s.site i with
      c := { (s.site i).c with critCount := 0, readingSinceRecord := false, critCondition := false }
      alert := if (s.site i).c.critCondition = false then (s.site i).alert
        else if (s.site i).mode = .criticalOnly then (s.site i).othersCritical else (s.site i).alert } := by
  unfold State.clearCritical
  rw [State.site_setCritCondition, State.site_onChannel]
  simp

@[simp] theorem State.site_createRecord (r : Mooring) :
    (s.createRecord i r).site i = { s.site i with
      r := some r
      c := { (s.site i).c with critCount := 0, readingSinceRecord := false, critCondition := false }
      alert := if (s.site i).c.critCondition = false then (s.site i).alert
        else if (s.site i).mode = .criticalOnly then (s.site i).othersCritical else (s.site i).alert } := by
  unfold State.createRecord
  rw [State.site_clearCritical, State.site_onCall, State.site_setMooring]

theorem State.site_retireRecord_of_none (h : (s.site i).r = none) : s.retireRecord i = s := by
  unfold State.retireRecord
  rw [State.mooring_eq_site, h]

theorem State.site_retireRecord (h : (s.site i).r.isSome = true) :
    (s.retireRecord i).site i = { s.site i with
      r := none
      c := { (s.site i).c with critCount := 0, readingSinceRecord := false, critCondition := false }
      alert := if (s.site i).c.critCondition = false then (s.site i).alert
        else if (s.site i).mode = .criticalOnly then (s.site i).othersCritical else (s.site i).alert } := by
  unfold State.retireRecord
  rw [State.mooring_eq_site]
  split
  · next e => rw [e] at h; cases h
  · rw [State.site_clearCritical, State.site_setMooring, State.site_onCall]

@[simp] theorem State.site_setStale :
    (s.setStale i).site i = { s.site i with
      r := (s.site i).r.map (fun r => { r with stale := true })
      c := if (s.site i).r.isSome then { (s.site i).c with steady := 0 } else (s.site i).c } := by
  unfold State.setStale
  rw [State.mooring_eq_site]
  split
  · next e => simp [e]; rw [← e]
  · next r e => simp [e, State.resetSteady]

/-! ### Gear -/

/-- A step without a continuation at the site (R12). -/
theorem State.site_startStep_plain {kind : StepKind} (lock : LockPos) (clutch : ClutchPos)
    (h : kind ≠ .motionUnlock ∧ kind ≠ .motionLock ∧ kind ≠ .rewindEngage) :
    (s.startStep i kind lock clutch).site i = { s.site i with
      x := (s.site i).x.stepping kind lock clutch (s.site i).settings.gearLimit } := by
  rw [s.startStep_plain i lock clutch h, State.site_setStation]
  · rfl
  · rfl

/-- A station whose disagreement wait stands as its senses ask (R15). -/
def Station.waiting (x : Station) (limit : Nat) : Station :=
  { x with gearTimer := if x.disagrees then some (x.gearTimer.getD limit) else none }

@[simp] theorem State.site_disagreementTest :
    (s.disagreementTest i).site i = { s.site i with x := (s.site i).x.waiting (s.site i).settings.gearLimit } := by
  unfold State.disagreementTest Station.waiting
  rw [State.station_eq_site]
  split
  · next h =>
    split
    · next k =>
      rw [State.site_onStation _ _ rfl]
      simp only [h, if_true, Option.isNone_iff_eq_none.1 k, Option.getD_none]
      rfl
    · next k =>
      obtain ⟨n, hn⟩ := Option.ne_none_iff_exists'.1 (fun e => k (Option.isNone_iff_eq_none.2 e))
      simp only [h, if_true]
      have same : { (s.site i).x with gearTimer := some ((s.site i).x.gearTimer.getD (s.site i).settings.gearLimit) } =
          (s.site i).x := by
        rw [hn, Option.getD_some, ← hn]
      rw [same]
  · rw [State.site_onStation _ _ rfl]

@[simp] theorem State.site_stopMotion (cause : StopCause) :
    (s.stopMotion i cause).site i = { s.site i with
      x := { (s.site i).x with
        stopCause := cause, motionTimer := none, active := (s.site i).x.active.map ActiveOp.ended }
      v := (s.site i).v.map (fun d => { d with stop := true }) } := by
  unfold State.stopMotion
  rw [State.site_onStation _ _ rfl, State.site_setStop]

end

end Sys2Proof.Machine
end

