-- ==== Sys2Proof/Proofs/Fit.lean ====
section
/-! PROOF. The invariant, station by station: what the site of every station holds in a state that meets `State.Inv`,
and that the parts of the invariant follow from the sites and from soundness. What a station is doing is one of seven
cases; the clauses of `State.WorkOk` and `State.DriveOk` describe the same seven. -/

namespace Sys2Proof.Machine

/-! ### What a site holds -/

/-- The clauses of `State.RecordsOk` at one station. -/
structure Station.Recorded (x : Station) (r : Option Mooring) : Prop where
  valid : ∀ m ∈ r, m.valid
  present : x.state.moored = true → r.isSome = true
  absent : x.state.unmoored = true → r = none
  resting : x.resting.isSome = true ↔ x.state = .trimming
  restingState : ∀ state ∈ x.resting, state = .fast ∨ state = .eased
  takeOver : x.takeOver.isSome = true ↔ x.state = .inLocal
  returns : ∀ o ∈ x.takeOver, o.returnState.returns r.isSome = true

/-- The clauses of `State.GearOk` at one station. -/
structure Station.Geared (x : Station) : Prop where
  known : x.state ≠ .unknown →
    x.position.isSome = true ∧ x.senLock.isSome = true ∧ x.senClutch.isSome = true
  step : ∀ g ∈ x.step, x.state.gearAtRest = false ∧ x.gearTimer.isSome = true ∧
    (g.lock, g.clutch) = g.kind.targets ∧ x.cmdLock = g.lock ∧ x.cmdClutch = some g.clutch ∧ x.disagrees = true
  wait : x.step = none → x.state.gearAtRest = false → x.gearTimer.isSome = x.disagrees
  rest : x.state.gearAtRest = true → x.gearTimer = none
  locked : x.state = .unknown ∨ x.state = .fault → x.cmdLock = .locked

/-- The clauses of `State.ChannelsOk` at one station. -/
structure Channel.Watched (c : Channel) (state : LineState) (r : Option Mooring) (decimation : Nat) : Prop where
  inRange : c.inRange decimation
  noRecord : r = none → c.critCount = 0 ∧ c.critCondition = false
  window : state = .fast ∨ state = .trimming ∨ (c.window = [] ∧ c.isOver = false ∧ c.isSlack = false)
  windowLength : ∀ m ∈ r, c.window.length ≤ m.windowLength
  steady : c.steady ≠ 0 → (state = .fast ∨ state = .trimming) ∧ ∀ m ∈ r, m.stale = false

/-- No motion lock step and no motion unlock step is in flight. -/
def Station.still (x : Station) : Bool :=
  !x.step.any (fun g => g.kind == .motionUnlock || g.kind == .motionLock)

/-- What a station is doing (R108, R112, R114, R140, R147, R151): nothing, waiting in the queue, holding a parked
operation, waiting for engagement, waiting for READY, moving, or standing in the lock step of a motion that ended. -/
inductive Site.Doing (k : Site) : Prop
  | free (qs : k.qs = []) (v : k.v = none) (unit : k.x.unit = none) (active : k.x.active = none)
      (parked : k.x.parked = none) (timer : k.x.motionTimer = none) (still : k.x.still = true)
      (state : k.x.state ≠ .trimming)
  | pending (q : Request) (qs : k.qs = [q]) (work : q.work.pendingIn k.x.state = true) (v : k.v = none)
      (unit : k.x.unit = none) (active : k.x.active = none) (parked : k.x.parked = none)
      (timer : k.x.motionTimer = none) (still : k.x.still = true)
  | parked (p : ParkedOp) (qs : k.qs = []) (parked : k.x.parked = some p)
      (work : p.work.parkedIn k.x.state = true) (v : k.v = none) (unit : k.x.unit = none)
      (active : k.x.active = none) (timer : k.x.motionTimer = none) (still : k.x.still = true)
  | awaiting (b : Bool) (qs : k.qs = []) (active : k.x.active = some ⟨.rewind, b, .awaiting⟩)
      (state : k.x.state = .rewinding) (v : k.v = none) (unit : k.x.unit = none) (parked : k.x.parked = none)
      (timer : k.x.motionTimer = none) (engaging : k.x.step.any (fun g => g.kind == .rewindEngage) = true)
  | granted (u : UnitId) (d : DriveUnit) (w : Work) (b : Bool) (qs : k.qs = [])
      (active : k.x.active = some ⟨w, b, .granted⟩) (work : w.activeIn k.x.state = true) (v : k.v = some d)
      (unit : k.x.unit = some u) (parked : k.x.parked = none) (timer : k.x.motionTimer = none)
      (still : k.x.still = true) (state : d.state = .granted) (stop : d.stop = true)
  | moving (u : UnitId) (d : DriveUnit) (w : Work) (b : Bool) (m : Motion) (qs : k.qs = [])
      (active : k.x.active = some ⟨w, b, .moving m⟩) (work : w.activeIn k.x.state = true) (v : k.v = some d)
      (unit : k.x.unit = some u) (parked : k.x.parked = none) (timer : k.x.motionTimer.isSome = true)
      (unlocking : k.x.locking = false) (state : d.state = .running)
  | locking (u : UnitId) (d : DriveUnit) (qs : k.qs = []) (locking : k.x.locking = true)
      (holds : k.x.state.holdsUnit = true)
      (active : ∀ a ∈ k.x.active, a.work.activeIn k.x.state = true ∧ k.x.parked = none ∧ ∃ m, a.phase = .ended m)
      (parked : ∀ p ∈ k.x.parked, p.work.parkedIn k.x.state = true) (v : k.v = some d)
      (unit : k.x.unit = some u) (timer : k.x.motionTimer = none) (state : d.state ≠ .granted)
      (stop : d.stop = true)

/-- Everything the invariant says of one station but for what the hold adds. -/
structure Site.Fit (k : Site) : Prop where
  recorded : k.x.Recorded k.r
  doing : k.Doing
  geared : k.x.Geared
  watched : k.c.Watched k.x.state k.r k.cal.decimation

/-- Under the hold no request waits and no operation is before or in its motion (R147). -/
def Site.Held (k : Site) : Prop :=
  k.hold = true → k.qs = [] ∧ ∀ a ∈ k.x.active, ∃ m, a.phase = .ended m

/-- A state that is sound, with every site fit and held. -/
structure State.Whole (s : State) : Prop where
  sound : s.Sound
  fit : ∀ i, (s.site i).Fit
  held : ∀ i, (s.site i).Held

/-! ### From the invariant to the sites -/

theorem filter_station_length (l : List Request) (i : StationId) :
    (l.filter (fun q => q.station == i)).length = (l.map Request.station).count i := by
  rw [List.count_eq_countP, List.countP_map, List.countP_eq_length_filter]
  rfl

/-- A list with no station twice has at most one request of each. -/
theorem requests_nil_or_singleton {l : List Request} (h : (l.map Request.station).Nodup) (i : StationId) :
    l.filter (fun q => q.station == i) = [] ∨ ∃ q, l.filter (fun q => q.station == i) = [q] := by
  have le := List.nodup_iff_count_le_one.1 h i
  rw [← filter_station_length] at le
  rcases e : l.filter (fun q => q.station == i) with _ | ⟨q, _ | ⟨p, rest⟩⟩
  · exact .inl e
  · exact .inr ⟨q, e⟩
  · rw [e] at le; simp at le

variable {s : State}

theorem Station.still_eq_true_iff (x : Station) : x.still = true ↔
    x.locking = false ∧ x.step.any (fun g => g.kind == .motionUnlock) = false := by
  unfold Station.still Station.locking
  cases x.step <;> simp [and_comm]

theorem ActiveOp.phase_cases (a : ActiveOp) :
    (a.isAwaiting = true ∧ a.isGranted = false ∧ a.moving? = none ∧ a = ⟨a.work, a.retryUsed, .awaiting⟩) ∨
    (a.isAwaiting = false ∧ a.isGranted = true ∧ a.moving? = none ∧ a = ⟨a.work, a.retryUsed, .granted⟩) ∨
    (∃ m, a.isAwaiting = false ∧ a.isGranted = false ∧ a.moving? = some m ∧
      a = ⟨a.work, a.retryUsed, .moving m⟩) ∨
    (∃ m, a.isAwaiting = false ∧ a.isGranted = false ∧ a.moving? = none ∧
      a = ⟨a.work, a.retryUsed, .ended m⟩) := by
  obtain ⟨w, b, p⟩ := a
  cases p <;> simp [ActiveOp.isAwaiting, ActiveOp.isGranted, ActiveOp.moving?]

/-- The motion of an active operation. -/
theorem State.motionOf_of_active {i : StationId} {a : ActiveOp} (h : (s.station i).active = some a) :
    s.motionOf i = a.moving? := by
  rw [State.motionOf, h, Option.bind_some]

theorem State.motionOf_of_none {i : StationId} (h : (s.station i).active = none) : s.motionOf i = none := by
  rw [State.motionOf, h, Option.bind_none]

/-- A station that no unit serves is free, waits, holds a parked operation or waits for engagement. -/
theorem State.Inv.doing_of_unserved (h : s.Inv) {i : StationId} (unit : (s.station i).unit = none) :
    (s.site i).Doing := by
  have v : (s.site i).v = none := by
    change (s.station i).unit.map s.unit = none
    rw [unit]; rfl
  have unlocked : (s.station i).locking = false := by
    rw [Bool.eq_false_iff]
    intro k
    obtain ⟨-, u, hu, -⟩ := h.drive.lockStep i k
    rw [unit] at hu; cases hu
  have requests := requests_nil_or_singleton h.work.oneRequest i
  cases active : (s.station i).active with
  | none =>
    have motion := s.motionOf_of_none active
    have timer : (s.station i).motionTimer = none := by simpa [motion] using h.drive.timer i
    have still : (s.station i).still = true := by
      refine (Station.still_eq_true_iff _).2 ⟨unlocked, ?_⟩
      rw [Bool.eq_false_iff]
      intro k
      have := h.drive.unlockStep i k
      rw [motion] at this; cases this
    rcases requests with none | ⟨q, one⟩
    · cases parked : (s.station i).parked with
      | none =>
        refine .free none v unit active parked timer still fun trimming => ?_
        have := h.drive.trimming i trimming
        rw [unit] at this; cases this
      | some p => exact .parked p none parked (h.work.parked i p parked) v unit active timer still
    · have mem : q ∈ s.queue ∧ q.station = i := by
        have : q ∈ s.queue.filter (fun q => q.station == i) := one ▸ List.mem_singleton.2 rfl
        simpa using this
      obtain ⟨mem, rfl⟩ := mem
      obtain ⟨work, -, -, parked⟩ := h.work.pending q mem
      exact .pending q one work v unit active parked timer still
  | some a =>
    obtain ⟨work, parked⟩ := h.work.active i a active
    have awaiting : a.isAwaiting = true := by
      by_contra k
      have := h.drive.served i (by simp [active, k])
      rw [unit] at this; cases this
    obtain ⟨rewind, engaging⟩ := h.drive.engaging i a active awaiting
    have form : a = ⟨.rewind, a.retryUsed, .awaiting⟩ := by
      rcases a.phase_cases with ⟨-, -, -, e⟩ | ⟨k, -⟩ | ⟨m, k, -⟩ | ⟨m, k, -⟩
      · rw [← rewind]; exact e
      all_goals rw [k] at awaiting; cases awaiting
    have timer : (s.station i).motionTimer = none := by
      have := h.drive.timer i
      rw [s.motionOf_of_active active, form] at this
      simpa [ActiveOp.moving?] using this
    have empty : (s.site i).qs = [] := by
      rw [State.site_qs_eq_nil]
      rintro q hq rfl
      obtain ⟨-, -, none, -⟩ := h.work.pending q hq
      rw [active] at none; cases none
    refine .awaiting a.retryUsed empty (form ▸ active) ?_ v unit parked timer engaging
    rw [rewind] at work
    exact eq_of_beq work

/-- A station that a unit serves waits for READY, moves, or stands in its lock step. -/
theorem State.Inv.doing_of_served (h : s.Inv) {i : StationId} {u : UnitId} (unit : (s.station i).unit = some u) :
    (s.site i).Doing := by
  have v : (s.site i).v = some (s.unit u) := by
    change (s.station i).unit.map s.unit = _
    rw [unit]; rfl
  have empty : (s.site i).qs = [] := by
    rw [State.site_qs_eq_nil]
    rintro q hq rfl
    obtain ⟨-, none, -⟩ := h.work.pending q hq
    rw [unit] at none; cases none
  have stop : s.motionOf i = none → (s.unit u).stop = true := by
    intro motion
    by_contra k
    obtain ⟨j, hj, moves⟩ := h.drive.stop u (by simpa using k)
    obtain rfl : i = j := Option.some.inj (((h.work.served i u).1 unit).symm.trans hj)
    rw [motion] at moves; cases moves
  have timer : s.motionOf i = none → (s.station i).motionTimer = none := by
    intro motion
    simpa [motion] using h.drive.timer i
  by_cases granted : (s.unit u).state = .granted
  · have active := (h.drive.granted i u unit).1 granted
    obtain ⟨a, ha, isGranted⟩ : ∃ a, (s.station i).active = some a ∧ a.isGranted = true := by
      cases e : (s.station i).active with
      | none => rw [e] at active; cases active
      | some a => rw [e] at active; exact ⟨a, rfl, active⟩
    obtain ⟨work, parked⟩ := h.work.active i a ha
    have form : a = ⟨a.work, a.retryUsed, .granted⟩ ∧ a.moving? = none := by
      rcases a.phase_cases with ⟨-, k, -⟩ | ⟨-, -, m, e⟩ | ⟨m, -, k, -⟩ | ⟨m, -, k, -⟩
      · rw [k] at isGranted; cases isGranted
      · exact ⟨e, m⟩
      all_goals rw [k] at isGranted; cases isGranted
    have motion : s.motionOf i = none := (s.motionOf_of_active ha).trans form.2
    have still : (s.station i).still = true := by
      refine (Station.still_eq_true_iff _).2 ⟨?_, ?_⟩ <;> rw [Bool.eq_false_iff] <;> intro k
      · obtain ⟨-, u', hu', other⟩ := h.drive.lockStep i k
        obtain rfl : u = u' := Option.some.inj (unit.symm.trans hu')
        exact other granted
      · have := h.drive.unlockStep i k
        rw [motion] at this; cases this
    exact .granted u _ a.work a.retryUsed empty (form.1 ▸ ha) work v unit parked (timer motion) still granted
      (stop motion)
  · rcases h.drive.locking i u unit granted with moves | locking
    · obtain ⟨m, motion⟩ := Option.isSome_iff_exists.1 moves
      obtain ⟨a, ha, moving⟩ := Option.bind_eq_some_iff.1 motion
      obtain ⟨work, parked⟩ := h.work.active i a ha
      have form : a = ⟨a.work, a.retryUsed, .moving m⟩ := by
        rcases a.phase_cases with ⟨-, -, k, -⟩ | ⟨-, -, k, -⟩ | ⟨m', -, -, k, e⟩ | ⟨m', -, -, k, -⟩
        · rw [k] at moving; cases moving
        · rw [k] at moving; cases moving
        · rw [k] at moving; cases moving; exact e
        · rw [k] at moving; cases moving
      have unlocking : (s.station i).locking = false := by
        rw [Bool.eq_false_iff]
        intro k
        rw [(h.drive.lockStep i k).1] at motion; cases motion
      exact .moving u _ a.work a.retryUsed m empty (form ▸ ha) work v unit parked
        ((h.drive.timer i).trans moves) unlocking (h.drive.moving i u unit moves)
    · have motion := (h.drive.lockStep i locking).1
      refine .locking u _ empty locking (h.work.unitStates i (by rw [unit]; rfl)) (fun a ha => ?_)
        (h.work.parked i) v unit (timer motion) granted (stop motion)
      obtain ⟨work, parked⟩ := h.work.active i a ha
      refine ⟨work, parked, ?_⟩
      rcases a.phase_cases with ⟨k, -⟩ | ⟨-, k, -⟩ | ⟨m, -, -, k, -⟩ | ⟨m, -, -, -, e⟩
      · have := (h.work.awaiting i a ha k).1
        rw [unit] at this; cases this
      · exact absurd ((h.drive.granted i u unit).2 (by change (s.station i).active = some a at ha; simp [ha, k])) granted
      · rw [s.motionOf_of_active ha, k] at motion; cases motion
      · exact ⟨m, by rw [e]⟩

theorem State.Inv.fit (h : s.Inv) (i : StationId) : (s.site i).Fit where
  recorded := ⟨h.records.valid i, h.records.present i, h.records.absent i, h.records.resting i,
    h.records.restingState i, h.records.takeOver i, h.records.returns i⟩
  doing := by
    cases unit : (s.station i).unit with
    | none => exact h.doing_of_unserved unit
    | some u => exact h.doing_of_served unit
  geared := ⟨h.gear.known i, h.gear.step i, h.gear.wait i, h.gear.rest i, h.gear.locked i⟩
  watched := ⟨h.channels.inRange i, h.channels.noRecord i, h.channels.window i, h.channels.windowLength i,
    h.channels.steady i⟩

theorem State.Inv.held (h : s.Inv) (i : StationId) : (s.site i).Held := by
  intro hold
  obtain ⟨empty, granted, motion⟩ := h.work.held hold
  refine ⟨(State.site_qs_eq_nil s i).2 (by rw [empty]; simp), fun a ha => ?_⟩
  have ha' : (s.station i).active = some a := ha
  rcases a.phase_cases with ⟨k, -⟩ | ⟨-, k, -, -⟩ | ⟨m, -, -, k, -⟩ | ⟨m, -, -, -, e⟩
  · exact absurd hold (by rw [show (s.site i).hold = s.hold from rfl, (h.work.awaiting i a ha k).2]; decide)
  · cases unit : (s.station i).unit with
    | none =>
      have away : a.isAwaiting = false := by
        rcases a.phase_cases with ⟨-, k', -⟩ | ⟨k', -⟩ | ⟨m, k', -⟩ | ⟨m, k', -⟩
        · rw [k] at k'; cases k'
        all_goals exact k'
      have := h.drive.served i (by simp [ha', away])
      rw [unit] at this; cases this
    | some u => exact absurd ((h.drive.granted i u unit).2 (by simp [ha', k])) (granted u)
  · have := motion i
    rw [s.motionOf_of_active ha', k] at this; cases this
  · exact ⟨m, by rw [e]⟩

/-! ### From the sites to the invariant -/

namespace State.Whole

theorem recordsOk (h : s.Whole) : s.RecordsOk where
  valid i := (h.fit i).recorded.valid
  present i := (h.fit i).recorded.present
  absent i := (h.fit i).recorded.absent
  resting i := (h.fit i).recorded.resting
  restingState i := (h.fit i).recorded.restingState
  takeOver i := (h.fit i).recorded.takeOver
  returns i := (h.fit i).recorded.returns

theorem gearOk (h : s.Whole) : s.GearOk where
  known i := (h.fit i).geared.known
  step i := (h.fit i).geared.step
  wait i := (h.fit i).geared.wait
  rest i := (h.fit i).geared.rest
  locked i := (h.fit i).geared.locked

theorem channelsOk (h : s.Whole) : s.ChannelsOk where
  inRange i := (h.fit i).watched.inRange
  noRecord i := (h.fit i).watched.noRecord
  window i := (h.fit i).watched.window
  windowLength i := (h.fit i).watched.windowLength
  steady i := (h.fit i).watched.steady

end State.Whole

theorem Work.holdsUnit_of_activeIn {w : Work} {state : LineState} (h : w.activeIn state = true) :
    state.holdsUnit = true := by
  cases w <;> cases state <;> first | rfl | cases h

theorem Site.Doing.requests_le_one {k : Site} (h : k.Doing) : k.qs.length ≤ 1 := by
  cases h <;> rename_i qs _ <;> simp_all

/-- A station with a request has no unit and no other work. -/
theorem Site.Doing.of_request {k : Site} (h : k.Doing) {q : Request} (hq : q ∈ k.qs) :
    k.qs = [q] ∧ q.work.pendingIn k.x.state = true ∧ k.v = none ∧ k.x.unit = none ∧ k.x.active = none ∧
      k.x.parked = none ∧ k.x.motionTimer = none ∧ k.x.still = true := by
  cases h with
  | pending p qs work v unit active parked timer still =>
    rw [qs] at hq
    obtain rfl := List.mem_singleton.1 hq
    exact ⟨qs, work, v, unit, active, parked, timer, still⟩
  | free qs | parked _ qs | awaiting _ qs | granted _ _ _ _ qs | moving _ _ _ _ _ qs | locking _ _ qs =>
    rw [qs] at hq; cases hq

namespace State.Whole

theorem mem_site {q : Request} (hq : q ∈ s.queue) : q ∈ (s.site q.station).qs := by
  simpa [State.site] using hq

theorem workOk (h : s.Whole) : s.WorkOk where
  oneRequest := by
    rw [List.nodup_iff_count_le_one]
    intro i
    rw [← filter_station_length]
    exact (h.fit i).doing.requests_le_one
  pending q hq := by
    obtain ⟨-, work, -, unit, active, parked, -⟩ := (h.fit q.station).doing.of_request (mem_site hq)
    exact ⟨work, unit, active, parked⟩
  active i a ha := by
    change (s.site i).x.active = some a at ha
    cases (h.fit i).doing with
    | free _ _ _ active | pending _ _ _ _ _ active | parked _ _ _ _ _ _ active => rw [active] at ha; cases ha
    | awaiting b _ active state _ _ parked =>
      rw [active] at ha; cases ha
      exact ⟨by change Work.activeIn .rewind (s.site i).x.state = true; rw [state]; rfl, parked⟩
    | granted u d w b _ active work _ _ parked => rw [active] at ha; cases ha; exact ⟨work, parked⟩
    | moving u d w b m _ active work _ _ parked => rw [active] at ha; cases ha; exact ⟨work, parked⟩
    | locking u d _ _ _ active => exact ⟨(active a ha).1, (active a ha).2.1⟩
  awaiting i a ha away := by
    change (s.site i).x.active = some a at ha
    cases (h.fit i).doing with
    | free _ _ _ active | pending _ _ _ _ _ active | parked _ _ _ _ _ _ active => rw [active] at ha; cases ha
    | awaiting b _ active state _ unit parked =>
      refine ⟨unit, Bool.eq_false_iff.2 fun hold => ?_⟩
      obtain ⟨m, phase⟩ := (h.held i hold).2 a ha
      rw [active] at ha; cases ha; cases phase
    | granted u d w b _ active => rw [active] at ha; cases ha; cases away
    | moving u d w b m _ active => rw [active] at ha; cases ha; cases away
    | locking u d _ _ _ active =>
      obtain ⟨-, -, m, phase⟩ := active a ha
      rw [ActiveOp.isAwaiting, phase] at away; cases away
  parked i p hp := by
    change (s.site i).x.parked = some p at hp
    cases (h.fit i).doing with
    | free _ _ _ _ parked | pending _ _ _ _ _ _ parked | awaiting _ _ _ _ _ _ parked
    | granted _ _ _ _ _ _ _ _ _ parked | moving _ _ _ _ _ _ _ _ _ _ parked => rw [parked] at hp; cases hp
    | parked p' _ parked work => rw [parked] at hp; cases hp; exact work
    | locking u d _ _ _ _ parked => exact parked p hp
  unitStates i hu := by
    change (s.site i).x.unit.isSome = true at hu
    cases (h.fit i).doing with
    | free _ _ unit | pending _ _ _ _ unit | parked _ _ _ _ _ unit | awaiting _ _ _ _ _ unit =>
      rw [unit] at hu; cases hu
    | granted u d w b _ _ work => exact Work.holdsUnit_of_activeIn work
    | moving u d w b m _ _ work => exact Work.holdsUnit_of_activeIn work
    | locking u d _ _ holds => exact holds
  served := h.sound.linked
  held hold := by
    refine ⟨List.eq_nil_iff_forall_not_mem.2 fun q hq => ?_, fun u granted => ?_, fun i => ?_⟩
    · have := mem_site hq
      rw [(h.held q.station hold).1] at this; cases this
    · have ok := h.sound.units u
      unfold DriveUnit.ok at ok
      rw [granted] at ok
      obtain ⟨i, served⟩ := Option.isSome_iff_exists.1 ok.1
      have unit : (s.site i).x.unit = some u := (h.sound.linked i u).2 served
      have v : (s.site i).v = some (s.unit u) := by
        change (s.station i).unit.map s.unit = _
        rw [(h.sound.linked i u).2 served]; rfl
      cases (h.fit i).doing with
      | free _ v' | pending _ _ _ v' | parked _ _ _ _ v' | awaiting _ _ _ _ v' => rw [v] at v'; cases v'
      | granted u d w b _ active =>
        obtain ⟨m, phase⟩ := (h.held i hold).2 _ active
        cases phase
      | moving u' d w b m _ _ _ v' _ _ _ _ state => rw [v] at v'; cases v'; rw [granted] at state; cases state
      | locking u' d _ _ _ _ _ v' _ _ state => rw [v] at v'; cases v'; exact state granted
    · cases active : (s.station i).active with
      | none => exact s.motionOf_of_none active
      | some a =>
        obtain ⟨m, phase⟩ := (h.held i hold).2 a active
        rw [s.motionOf_of_active active, ActiveOp.moving?, phase]

/-- What a station does, with its motion and its unit read from the state. -/
theorem doing_cases (h : s.Whole) (i : StationId) :
    ((s.station i).unit = none ∧ s.motionOf i = none ∧ (s.station i).locking = false ∧
        (s.station i).step.any (fun g => g.kind == .motionUnlock) = false ∧ (s.station i).motionTimer = none ∧
        (s.station i).state ≠ .trimming ∧
        ∀ a ∈ (s.station i).active, a.isAwaiting = true ∧ a.work = .rewind ∧
          (s.station i).step.any (fun g => g.kind == .rewindEngage) = true) ∨
    ∃ u, (s.station i).unit = some u ∧
      (((s.unit u).state = .granted ∧ s.motionOf i = none ∧ (s.station i).locking = false ∧
          (s.station i).step.any (fun g => g.kind == .motionUnlock) = false ∧ (s.station i).motionTimer = none ∧
          (s.unit u).stop = true ∧ ∃ a, (s.station i).active = some a ∧ a.isGranted = true ∧ a.isAwaiting = false) ∨
        ((s.unit u).state = .running ∧ (s.motionOf i).isSome = true ∧ (s.station i).locking = false ∧
          (s.station i).motionTimer.isSome = true ∧
          ∃ a, (s.station i).active = some a ∧ a.isGranted = false ∧ a.isAwaiting = false) ∨
        ((s.unit u).state ≠ .granted ∧ s.motionOf i = none ∧ (s.station i).locking = true ∧
          (s.station i).step.any (fun g => g.kind == .motionUnlock) = false ∧ (s.station i).motionTimer = none ∧
          (s.unit u).stop = true ∧ ∀ a ∈ (s.station i).active, a.isGranted = false ∧ a.isAwaiting = false)) := by
  have unitOf : ∀ {u d}, (s.site i).x.unit = some u → (s.site i).v = some d → s.unit u = d := by
    intro u d unit v
    have : (s.site i).v = some (s.unit u) := by
      change (s.station i).unit.map s.unit = _
      rw [show (s.station i).unit = some u from unit]; rfl
    exact Option.some.inj (this.symm.trans v)
  cases (h.fit i).doing with
  | free _ _ unit active _ timer still state =>
    obtain ⟨a, b⟩ := (Station.still_eq_true_iff _).1 still
    exact .inl ⟨unit, s.motionOf_of_none active, a, b, timer, state, fun a ha => by
      rw [show (s.station i).active = none from active] at ha; cases ha⟩
  | pending q _ work _ unit active _ timer still =>
    obtain ⟨a, b⟩ := (Station.still_eq_true_iff _).1 still
    refine .inl ⟨unit, s.motionOf_of_none active, a, b, timer, fun state => ?_, fun a ha => by
      rw [show (s.station i).active = none from active] at ha; cases ha⟩
    change (s.site i).x.state = .trimming at state
    rw [state] at work
    cases w : q.work <;> rw [w] at work <;> cases work
  | parked p _ _ work _ unit active timer still =>
    obtain ⟨a, b⟩ := (Station.still_eq_true_iff _).1 still
    refine .inl ⟨unit, s.motionOf_of_none active, a, b, timer, fun state => ?_, fun a ha => by
      rw [show (s.station i).active = none from active] at ha; cases ha⟩
    change (s.site i).x.state = .trimming at state
    rw [state] at work
    cases w : p.work <;> rw [w] at work <;> cases work
  | awaiting b _ active state _ unit _ timer engaging =>
    have only : (s.station i).step.any (fun g => g.kind == .motionUnlock) = false ∧ (s.station i).locking = false := by
      have e : (s.station i).step.any (fun g => g.kind == .rewindEngage) = true := engaging
      unfold Station.locking
      cases g : (s.station i).step <;> rw [g] at e <;> simp_all
    refine .inl ⟨unit, s.motionOf_of_active active, only.2, only.1, timer, fun t => ?_, fun a ha => ?_⟩
    · rw [show (s.station i).state = .rewinding from state] at t; cases t
    · rw [show (s.station i).active = _ from active] at ha; cases ha
      exact ⟨rfl, rfl, engaging⟩
  | granted u d w b _ active _ v unit _ timer still state stop =>
    obtain ⟨k, l⟩ := (Station.still_eq_true_iff _).1 still
    have e := unitOf unit v
    exact .inr ⟨u, unit, .inl ⟨e ▸ state, s.motionOf_of_active active, k, l, timer, e ▸ stop, _, active, rfl, rfl⟩⟩
  | moving u d w b m _ active _ v unit _ timer unlocking state =>
    have e := unitOf unit v
    refine .inr ⟨u, unit, .inr (.inl ⟨e ▸ state, ?_, unlocking, timer, _, active, rfl, rfl⟩)⟩
    rw [s.motionOf_of_active active]; rfl
  | locking u d _ locking _ active _ v unit timer state stop =>
    have e := unitOf unit v
    have only : (s.station i).step.any (fun g => g.kind == .motionUnlock) = false := by
      have l : (s.station i).locking = true := locking
      unfold Station.locking at l
      cases g : (s.station i).step <;> rw [g] at l <;> simp_all
    have motion : s.motionOf i = none := by
      cases ha : (s.station i).active with
      | none => exact s.motionOf_of_none ha
      | some a =>
        obtain ⟨-, -, m, phase⟩ := active a ha
        rw [s.motionOf_of_active ha, ActiveOp.moving?, phase]
    refine .inr ⟨u, unit, .inr (.inr ⟨e ▸ state, motion, locking, only, timer, e ▸ stop, fun a ha => ?_⟩)⟩
    obtain ⟨-, -, m, phase⟩ := active a ha
    exact ⟨by rw [ActiveOp.isGranted, phase], by rw [ActiveOp.isAwaiting, phase]⟩

theorem driveOk (h : s.Whole) : s.DriveOk where
  granted i u hu := by
    rcases h.doing_cases i with ⟨unit, -⟩ | ⟨u', unit, ⟨state, -, -, -, -, -, a, ha, g, -⟩ | ⟨state, -, -, -, a, ha, g, -⟩ |
        ⟨state, -, -, -, -, -, ended⟩⟩
    · rw [unit] at hu; cases hu
    all_goals obtain rfl : u' = u := Option.some.inj (unit.symm.trans hu)
    · simp [state, ha, g]
    · simp [state, ha, g]
    · refine iff_of_false state ?_
      cases ha : (s.station i).active with
      | none => simp
      | some a => simp [(ended a ha).1]
  moving i u hu moves := by
    rcases h.doing_cases i with ⟨unit, -⟩ | ⟨u', unit, ⟨-, motion, -⟩ | ⟨state, -⟩ | ⟨-, motion, -⟩⟩
    · rw [unit] at hu; cases hu
    · rw [motion] at moves; cases moves
    · obtain rfl : u' = u := Option.some.inj (unit.symm.trans hu)
      exact state
    · rw [motion] at moves; cases moves
  served i hs := by
    rcases h.doing_cases i with ⟨-, -, -, -, -, -, awaits⟩ | ⟨u', unit, -⟩
    · cases ha : (s.station i).active with
      | none => rw [ha] at hs; cases hs
      | some a => rw [ha] at hs; simp [(awaits a ha).1] at hs
    · rw [unit]; rfl
  locking i u hu busy := by
    rcases h.doing_cases i with ⟨unit, -⟩ | ⟨u', unit, ⟨state, -⟩ | ⟨-, motion, -⟩ | ⟨-, -, locking, -⟩⟩
    · rw [unit] at hu; cases hu
    · obtain rfl : u' = u := Option.some.inj (unit.symm.trans hu)
      exact absurd state busy
    · exact .inl motion
    · exact .inr locking
  lockStep i locking := by
    rcases h.doing_cases i with ⟨-, -, k, -⟩ | ⟨u', unit, ⟨-, -, k, -⟩ | ⟨-, -, k, -⟩ | ⟨state, motion, -⟩⟩
    · rw [k] at locking; cases locking
    · rw [k] at locking; cases locking
    · rw [k] at locking; cases locking
    · exact ⟨motion, u', unit, state⟩
  unlockStep i unlocking := by
    rcases h.doing_cases i with ⟨-, -, -, k, -⟩ | ⟨u', unit, ⟨-, -, -, k, -⟩ | ⟨-, motion, -⟩ | ⟨-, -, -, k, -⟩⟩
    · rw [k] at unlocking; cases unlocking
    · rw [k] at unlocking; cases unlocking
    · exact motion
    · rw [k] at unlocking; cases unlocking
  trimming i trimming := by
    rcases h.doing_cases i with ⟨-, -, -, -, -, k, -⟩ | ⟨u', unit, -⟩
    · exact absurd trimming k
    · rw [unit]; rfl
  engaging i a ha away := by
    rcases h.doing_cases i with ⟨-, -, -, -, -, -, k⟩ |
      ⟨u', -, ⟨-, -, -, -, -, -, a', ha', -, k⟩ | ⟨-, -, -, -, a', ha', -, k⟩ | ⟨-, -, -, -, -, -, k⟩⟩
    · exact (k a ha).2
    · obtain rfl : a' = a := Option.some.inj (ha'.symm.trans ha)
      rw [k] at away; cases away
    · obtain rfl : a' = a := Option.some.inj (ha'.symm.trans ha)
      rw [k] at away; cases away
    · rw [(k a ha).2] at away; cases away
  timer i := by
    rcases h.doing_cases i with ⟨-, motion, -, -, timer, -⟩ |
      ⟨u', -, ⟨-, motion, -, -, timer, -⟩ | ⟨-, motion, -, timer, -⟩ | ⟨-, motion, -, -, timer, -⟩⟩
    · rw [motion, timer]; rfl
    · rw [motion, timer]; rfl
    · rw [motion, timer]
    · rw [motion, timer]; rfl
  stop u stop := by
    cases served : (s.unit u).served with
    | none => rw [h.sound.stopped u served] at stop; cases stop
    | some i =>
      refine ⟨i, rfl, ?_⟩
      have serves := (h.sound.linked i u).2 served
      rcases h.doing_cases i with ⟨unit, -⟩ | ⟨u', unit, ⟨-, -, -, -, -, k, -⟩ | ⟨-, motion, -⟩ | ⟨-, -, -, -, -, k, -⟩⟩
      · rw [unit] at serves; cases serves
      · obtain rfl : u' = u := Option.some.inj (unit.symm.trans serves)
        rw [k] at stop; cases stop
      · exact motion
      · obtain rfl : u' = u := Option.some.inj (unit.symm.trans serves)
        rw [k] at stop; cases stop

end State.Whole

end Sys2Proof.Machine
end

