-- ==== Sys2Proof/Proofs/Moves.lean ====
section
/-! PROOF. How the parts of a fit site carry over: which fields each of them reads, and what they become when a station
enters a state, starts a gear step, waits for its gear, or a unit and its work are taken away. -/

namespace Sys2Proof.Machine

/-! ### The record and the states -/

namespace Station.Recorded

variable {x y : Station} {r r' : Option Mooring}

theorem congr (h : x.Recorded r) (state : y.state = x.state) (resting : y.resting = x.resting)
    (takeOver : y.takeOver = x.takeOver) : y.Recorded r where
  valid := h.valid
  present := state ▸ h.present
  absent := state ▸ h.absent
  resting := by rw [state, resting]; exact h.resting
  restingState := by rw [resting]; exact h.restingState
  takeOver := by rw [state, takeOver]; exact h.takeOver
  returns := by rw [takeOver]; exact h.returns

/-- A station outside LOCAL has no take-over. -/
theorem takeOver_none (h : x.Recorded r) (out : x.state ≠ .inLocal) : x.takeOver = none :=
  Option.not_isSome_iff_eq_none.1 fun k => out (h.takeOver.1 k)

/-- A station that has neither a resting state nor a take-over. -/
theorem of_plain (valid : ∀ m ∈ r, m.valid) (resting : x.resting = none) (takeOver : x.takeOver = none)
    (trimming : x.state ≠ .trimming) (inLocal : x.state ≠ .inLocal)
    (present : x.state.moored = true → r.isSome = true) (absent : x.state.unmoored = true → r = none) :
    x.Recorded r where
  valid := valid
  present := present
  absent := absent
  resting := by simp [resting, trimming]
  restingState := by simp [resting]
  takeOver := by simp [takeOver, inLocal]
  returns := by simp [takeOver]

/-- The record in LOCAL may change while the station keeps one. -/
theorem record (h : x.Recorded r) (valid : ∀ m ∈ r', m.valid) (same : r'.isSome = r.isSome) : x.Recorded r' where
  valid := valid
  present := same ▸ h.present
  absent k := by
    have := h.absent k
    rw [this] at same
    exact Option.not_isSome_iff_eq_none.1 (by simp [same])
  resting := h.resting
  restingState := h.restingState
  takeOver := h.takeOver
  returns := same ▸ h.returns

end Station.Recorded

/-! ### The gear -/

/-- What the gear's clauses read, beside the state. -/
def Station.gear (x : Station) : LockPos × Option ClutchPos × Option LockPos × Option ClutchPos × Option GearStep ×
    Option Nat × Option Nat :=
  (x.cmdLock, x.cmdClutch, x.senLock, x.senClutch, x.step, x.gearTimer, x.position)

/-- The position and both senses are there (R2). -/
def Station.sensedAll (x : Station) : Prop :=
  x.position.isSome = true ∧ x.senLock.isSome = true ∧ x.senClutch.isSome = true

theorem LineState.ne_unknown_of_watched {state : LineState} (h : state.gearAtRest = false) :
    state ≠ .unknown ∧ state ≠ .inLocal ∧ state ≠ .fault := by
  cases state <;> first | (cases h; done) | simp

theorem Station.stepping_agreed {x : Station} (kind : StepKind) {lock : LockPos} {clutch : ClutchPos} (limit : Nat)
    (h : x.senLock = some lock ∧ x.senClutch = some clutch) :
    x.stepping kind lock clutch limit =
      { x with cmdLock := lock, cmdClutch := some clutch, step := none, gearTimer := none } := by
  simp [Station.stepping, h]

theorem Station.stepping_open {x : Station} (kind : StepKind) {lock : LockPos} {clutch : ClutchPos} (limit : Nat)
    (h : ¬(x.senLock = some lock ∧ x.senClutch = some clutch)) :
    x.stepping kind lock clutch limit =
      { x with
        cmdLock := lock
        cmdClutch := some clutch
        step := some ⟨kind, lock, clutch⟩
        gearTimer := some limit } := by
  simp [Station.stepping, h]

namespace Station.Geared

variable {x y : Station}

theorem congr (h : x.Geared) (gear : y.gear = x.gear) (state : y.state = x.state) : y.Geared := by
  simp only [Station.gear, Prod.mk.injEq] at gear
  obtain ⟨cmdLock, cmdClutch, senLock, senClutch, step, timer, position⟩ := gear
  have disagrees : y.disagrees = x.disagrees := by simp only [Station.disagrees, cmdLock, cmdClutch, senLock, senClutch]
  refine ⟨?_, ?_, ?_, ?_, ?_⟩
  · rw [state, position, senLock, senClutch]; exact h.known
  · rw [state, step, timer, cmdLock, cmdClutch, disagrees]; exact h.step
  · rw [state, step, timer, disagrees]; exact h.wait
  · rw [state, timer]; exact h.rest
  · rw [state, cmdLock]; exact h.locked

/-- The gear of a station that goes from one watched state to another stands. -/
theorem move (h : x.Geared) (gear : y.gear = x.gear) (old : x.state.gearAtRest = false)
    (new : y.state.gearAtRest = false) : y.Geared := by
  have z : Station.Geared { x with state := y.state } := by
    obtain ⟨known, -, fault⟩ := LineState.ne_unknown_of_watched old
    obtain ⟨known', -, fault'⟩ := LineState.ne_unknown_of_watched new
    refine ⟨fun _ => h.known known, fun g hg => ⟨new, (h.step g hg).2⟩, fun hg _ => h.wait hg old, fun k => ?_,
      fun k => ?_⟩
    · rw [show y.state.gearAtRest = true from k] at new; cases new
    · exact k.elim (fun k => absurd k known') (fun k => absurd k fault')
  exact z.congr gear rfl

/-- No step and no wait in a state that does not watch its gear. -/
theorem of_rest (sensed : y.sensedAll) (rest : y.state.gearAtRest = true) (step : y.step = none)
    (timer : y.gearTimer = none) (locked : y.state = .unknown ∨ y.state = .fault → y.cmdLock = .locked) : y.Geared where
  known _ := sensed
  step g hg := by rw [step] at hg; cases hg
  wait _ k := by rw [rest] at k; cases k
  rest _ := timer
  locked := locked

/-- The start of a gear step of a kind toward its targets (R12). -/
theorem stepping (sensed : x.sensedAll) (watched : x.state.gearAtRest = false) {kind : StepKind} {lock : LockPos}
    {clutch : ClutchPos} (targets : (lock, clutch) = kind.targets) (limit : Nat) :
    (x.stepping kind lock clutch limit).Geared := by
  obtain ⟨known, -, fault⟩ := LineState.ne_unknown_of_watched watched
  have locked : ∀ {P : Prop}, x.state = .unknown ∨ x.state = .fault → P := fun k =>
    (k.elim known fault).elim
  have rest : ∀ {P : Prop}, x.state.gearAtRest = true → P := fun k => by rw [watched] at k; cases k
  by_cases agreed : x.senLock = some lock ∧ x.senClutch = some clutch
  · rw [Station.stepping_agreed kind limit agreed]
    refine ⟨fun _ => sensed, nofun, fun _ _ => ?_, rest, locked⟩
    simp [Station.disagrees, agreed.1, agreed.2]
  · rw [Station.stepping_open kind limit agreed]
    refine ⟨fun _ => sensed, fun g hg => ?_, nofun, rest, locked⟩
    cases hg
    refine ⟨watched, rfl, targets, rfl, rfl, ?_⟩
    simp only [Station.disagrees, Bool.or_eq_true, bne_iff_ne]
    by_contra k
    simp only [not_or, not_not] at k
    exact agreed k

/-- A station without a step whose wait stands as its senses ask (R15). -/
theorem waiting (sensed : x.sensedAll) (watched : x.state.gearAtRest = false) (step : x.step = none) (limit : Nat) :
    (x.waiting limit).Geared := by
  obtain ⟨known, -, fault⟩ := LineState.ne_unknown_of_watched watched
  refine ⟨fun _ => sensed, fun g hg => ?_, fun _ _ => ?_, fun k => ?_, fun k => (k.elim known fault).elim⟩
  · rw [show x.step = some g from hg] at step; cases step
  · have same : (x.waiting limit).disagrees = x.disagrees := rfl
    rw [same]
    unfold Station.waiting
    cases x.disagrees <;> rfl
  · rw [show x.state.gearAtRest = true from k] at watched; cases watched

/-- A station without a step whose senses agree with its commanded gear. -/
theorem of_agreed (sensed : x.sensedAll) (watched : x.state.gearAtRest = false) (step : x.step = none)
    (timer : x.gearTimer = none) (agrees : x.disagrees = false) : x.Geared := by
  obtain ⟨known, -, fault⟩ := LineState.ne_unknown_of_watched watched
  refine ⟨fun _ => sensed, fun g hg => ?_, fun _ _ => ?_, fun _ => timer, fun k => (k.elim known fault).elim⟩
  · rw [step] at hg; cases hg
  · rw [timer, agrees]; rfl

theorem sensedAll (h : x.Geared) (known : x.state ≠ .unknown) : x.sensedAll := h.known known

end Station.Geared

/-! ### The channel -/

namespace Channel.Watched

variable {c : Channel} {state state' : LineState} {r r' : Option Mooring} {d : Nat}

theorem of_band (h : c.Watched state r d) (band : state' = .fast ∨ state' = .trimming) : c.Watched state' r d :=
  ⟨h.inRange, h.noRecord, band.elim .inl (fun k => .inr (.inl k)), h.windowLength, fun k => ⟨band, (h.steady k).2⟩⟩

theorem emptied_inRange {c : Channel} (h : c.inRange d) : c.emptied.inRange d := by
  obtain ⟨sum, count, latest, -, -, -, -, -, crit, steady, rail, valid⟩ := h
  exact ⟨sum, count, latest, Nat.zero_le _, nofun, Nat.zero_le _, Nat.zero_le _, rfl, crit, steady, rail, valid⟩

theorem leftBand_inRange {c : Channel} (h : c.inRange d) : c.leftBand.inRange d := by
  obtain ⟨sum, count, latest, window, entries, above, slack, surging, crit, -, rail, valid⟩ := emptied_inRange h
  exact ⟨sum, count, latest, window, entries, above, slack, surging, crit, Nat.zero_le _, rail, valid⟩

/-- The window is emptied (R85). -/
theorem emptied (h : c.Watched state r d) (band : c.steady ≠ 0 → state' = .fast ∨ state' = .trimming) :
    c.emptied.Watched state' r d :=
  ⟨emptied_inRange h.inRange, h.noRecord, .inr (.inr ⟨rfl, rfl, rfl⟩), fun _ _ => Nat.zero_le _,
    fun k => ⟨band k, (h.steady k).2⟩⟩

theorem emptied_fast (h : c.Watched state r d) : c.emptied.Watched .fast r d := h.emptied fun _ => .inl rfl

/-- The window is emptied and the steady counter reset, whatever the state (R85, R87). -/
theorem leftBand (h : c.Watched state r d) : c.leftBand.Watched state' r d :=
  ⟨leftBand_inRange h.inRange, h.noRecord, .inr (.inr ⟨rfl, rfl, rfl⟩), fun _ _ => Nat.zero_le _,
    fun k => absurd rfl k⟩

/-- The channel at the entry to a state outside TRIMMING (R85, R87). -/
theorem entering (h : c.Watched state r d) : (c.entering state').Watched state' r d := by
  unfold Channel.entering
  split
  · next e => exact e ▸ h.emptied_fast
  · exact h.leftBand

/-- The critical findings are cleared, at the creation and the retirement of a record (R46), in a station outside FAST and
TRIMMING. -/
theorem cleared (h : c.Watched state r d) (out : c.steady = 0) (empty : c.window = []) :
    Channel.Watched { c with critCount := 0, readingSinceRecord := false, critCondition := false } state r' d := by
  obtain ⟨sum, count, latest, window, entries, above, slack, surging, -, steady, rail, valid⟩ := h.inRange
  refine ⟨⟨sum, count, latest, window, entries, above, slack, surging, Nat.zero_le _, steady, rail, valid⟩,
    fun _ => ⟨rfl, rfl⟩, h.window, fun m _ => ?_, fun k => absurd out k⟩
  change c.window.length ≤ _
  rw [empty]
  exact Nat.zero_le _

/-- The record becomes stale and the steady counter 0 (R38). -/
theorem stale (h : c.Watched state r d) :
    Channel.Watched { c with steady := 0 } state (r.map fun m => { m with stale := true }) d := by
  obtain ⟨sum, count, latest, window, entries, above, slack, surging, crit, -, rail, valid⟩ := h.inRange
  refine ⟨⟨sum, count, latest, window, entries, above, slack, surging, crit, Nat.zero_le _, rail, valid⟩,
    fun k => h.noRecord (Option.map_eq_none_iff.1 k), h.window, fun m hm => ?_, fun k => absurd rfl k⟩
  obtain ⟨m', hm', rfl⟩ := Option.map_eq_some_iff.1 hm
  exact h.windowLength m' hm'

/-- Outside FAST and TRIMMING the window is empty and the steady counter 0. -/
theorem out_of_band (h : c.Watched state r d) (out : state ≠ .fast ∧ state ≠ .trimming) :
    c.steady = 0 ∧ c.window = [] ∧ c.isOver = false ∧ c.isSlack = false := by
  refine ⟨?_, ?_⟩
  · by_contra k
    exact ((h.steady k).1.elim out.1 out.2)
  · rcases h.window with k | k | k
    · exact absurd k out.1
    · exact absurd k out.2
    · exact k

/-- Between states outside FAST and TRIMMING. -/
theorem out (h : c.Watched state r d) (old : state ≠ .fast ∧ state ≠ .trimming) : c.Watched state' r d := by
  obtain ⟨steady, window, above, slack⟩ := h.out_of_band old
  exact ⟨h.inRange, h.noRecord, .inr (.inr ⟨window, above, slack⟩), h.windowLength, fun k => absurd steady k⟩

end Channel.Watched

/-! ### What the station is doing -/

namespace Site.Doing

variable {k l : Site}

/-- The fields that tell what a station is doing, with its step's kind. -/
theorem congr (h : k.Doing) (state : l.x.state = k.x.state) (step : l.x.step = k.x.step) (unit : l.x.unit = k.x.unit)
    (active : l.x.active = k.x.active) (parked : l.x.parked = k.x.parked)
    (timer : l.x.motionTimer = k.x.motionTimer) (qs : l.qs = k.qs) (v : l.v = k.v) : l.Doing := by
  have still : l.x.still = k.x.still := by simp only [Station.still, step]
  have locking : l.x.locking = k.x.locking := by simp only [Station.locking, step]
  cases h with
  | free a b c d e f g h =>
    exact .free (qs ▸ a) (v ▸ b) (unit ▸ c) (active ▸ d) (parked ▸ e) (timer ▸ f) (still ▸ g) (state ▸ h)
  | pending q a b c d e f g h =>
    exact .pending q (qs ▸ a) (state ▸ b) (v ▸ c) (unit ▸ d) (active ▸ e) (parked ▸ f) (timer ▸ g) (still ▸ h)
  | parked p a b c d e f g h =>
    exact .parked p (qs ▸ a) (parked ▸ b) (state ▸ c) (v ▸ d) (unit ▸ e) (active ▸ f) (timer ▸ g) (still ▸ h)
  | awaiting b a c d e f g h i =>
    exact .awaiting b (qs ▸ a) (active ▸ c) (state ▸ d) (v ▸ e) (unit ▸ f) (parked ▸ g) (timer ▸ h) (step ▸ i)
  | granted u d w b a c e f g h i j m n =>
    exact .granted u d w b (qs ▸ a) (active ▸ c) (state ▸ e) (v ▸ f) (unit ▸ g) (parked ▸ h) (timer ▸ i) (still ▸ j) m n
  | moving u d w b m a c e f g h i j n =>
    exact .moving u d w b m (qs ▸ a) (active ▸ c) (state ▸ e) (v ▸ f) (unit ▸ g) (parked ▸ h) (timer ▸ i) (locking ▸ j) n
  | locking u d a b c e f g h i j m =>
    exact .locking u d (qs ▸ a) (locking ▸ b) (state ▸ c) (by rw [active, state, parked]; exact e)
      (by rw [parked, state]; exact f) (v ▸ g) (unit ▸ h) (timer ▸ i) j m

end Site.Doing

theorem Station.still_of_none {x : Station} (h : x.step = none) : x.still = true := by
  unfold Station.still; rw [h]; rfl

theorem Station.still_of_kind {x : Station} {g : GearStep} (h : x.step = some g) (unlock : g.kind ≠ .motionUnlock)
    (lock : g.kind ≠ .motionLock) : x.still = true := by
  unfold Station.still; rw [h]; simp [unlock, lock]

theorem Station.stepping_still {x : Station} {kind : StepKind} (lock : LockPos) (clutch : ClutchPos) (limit : Nat)
    (h : kind ≠ .motionUnlock ∧ kind ≠ .motionLock) : (x.stepping kind lock clutch limit).still = true := by
  by_cases agreed : x.senLock = some lock ∧ x.senClutch = some clutch
  · rw [Station.stepping_agreed kind limit agreed]; rfl
  · rw [Station.stepping_open kind limit agreed]; exact Station.still_of_kind rfl h.1 h.2

/-- What the site's clauses read of the site. -/
theorem Site.Fit.congr {k l : Site} (h : k.Fit) (state : l.x.state = k.x.state) (resting : l.x.resting = k.x.resting)
    (takeOver : l.x.takeOver = k.x.takeOver) (gear : l.x.gear = k.x.gear) (unit : l.x.unit = k.x.unit)
    (active : l.x.active = k.x.active) (parked : l.x.parked = k.x.parked)
    (timer : l.x.motionTimer = k.x.motionTimer) (qs : l.qs = k.qs) (v : l.v = k.v) (c : l.c = k.c) (r : l.r = k.r)
    (cal : l.cal.decimation = k.cal.decimation) : l.Fit where
  recorded := r ▸ h.recorded.congr state resting takeOver
  doing := h.doing.congr state (by simp only [Station.gear, Prod.mk.injEq] at gear; exact gear.2.2.2.2.1) unit active
    parked timer qs v
  geared := h.geared.congr gear state
  watched := by rw [c, r, cal, state]; exact h.watched

end Sys2Proof.Machine
end

