-- ==== Sys2Proof/Proofs/Grants.lean ====
section
/-! PROOF. The end of an event, as far as stations and units go: a grant takes a fit site to a fit site, the grants of
an event run until a unit or a request is wanting, and what they leave alone (R113, R114). -/

namespace Sys2Proof.Machine

variable {s t : State} {i : StationId}

/-! ### One grant -/

theorem Station.granted_fields (x : Station) (u : UnitId) (q : Request) :
    (x.granted u q).attention = x.attention ∧ (x.granted u q).unit = some u := ⟨rfl, rfl⟩

/-- A TRIM is granted in FAST or EASED and takes its station to TRIMMING; another operation leaves the state. -/
theorem Work.granted_state {w : Work} {state : LineState} (h : w.pendingIn state = true) :
    (w.isTrim = true ∧ (state = .fast ∨ state = .eased)) ∨
      (w.isTrim = false ∧ w.activeIn state = true ∧ state.gearAtRest = false ∧ state ≠ .trimming) := by
  cases w <;> cases state <;> simp_all [Work.pendingIn, Work.isTrim, Work.activeIn, LineState.gearAtRest]

namespace State.OneGrant

variable {u : UnitId} {q : Request} {rest : List Request} (g : s.OneGrant t u q rest)
include g

theorem idle_unit : (s.unit u).state = .idle := by
  simpa using List.find?_some g.idle

theorem inForce_eq : t.inForce = s.inForce := (congrArg State.inForce g.backdrop :)

theorem hold_eq : t.hold = s.hold := (congrArg State.hold g.backdrop :)

theorem inputs_eq : t.inputs = s.inputs := (congrArg State.inputs g.backdrop :)

theorem sound (h : s.Sound) (unit : (s.station q.station).unit = none) : t.Sound := by
  have idle := g.idle_unit
  have free : (s.unit u).served = none := by
    have ok := h.units u
    unfold DriveUnit.ok at ok
    rw [idle] at ok
    exact ok.1
  refine ⟨fun j v => ?_, fun v => ?_, fun v => ?_, ?_, ?_, ?_⟩
  · rw [g.station, g.unit]
    by_cases ej : j = q.station <;> by_cases ev : v = u
    · simp [ej, ev, Station.granted]
    · simp only [ej, ev, if_true, if_false, Station.granted, Option.some.injEq]
      refine iff_of_false (fun e => ev e.symm) fun serves => ?_
      have := (h.linked q.station v).2 serves
      rw [unit] at this; cases this
    · simp only [ej, ev, if_true, if_false, Option.some.injEq]
      refine iff_of_false (fun serves => ?_) fun e => ej e.symm
      have := (h.linked j u).1 serves
      rw [free] at this; cases this
    · simp only [ej, ev, if_false]
      exact h.linked j v
  · rw [g.unit]
    split
    · exact ⟨rfl, rfl, rfl⟩
    · exact h.units v
  · rw [g.unit]
    split
    · intro e; cases e
    · exact h.stopped v
  · have runs := h.queue
    rw [State.QueueOk, g.head] at runs
    rw [State.QueueOk, g.queue]
    exact (List.pairwise_cons.1 runs).2
  · refine h.alert.congr (by rw [g.inForce_eq]) g.alert (State.followLevel_congr (fun j => ?_) fun v => ?_)
      (State.criticalLevel_congr fun j => by simp only [State.channel, g.channels])
    · rw [g.station]
      split
      · next e => rw [e]; rfl
      · rfl
    · rw [g.unit]
      split
      · next e => rw [e, idle]; simp
      · rfl
  · exact h.lists.congr g.calls fun j => by simp only [State.mooring, g.moorings]

/-- A station that is granted nothing keeps its site. -/
theorem site_of_ne (h : s.Sound) {j : StationId} (hj : j ≠ q.station) : t.site j = s.site j := by
  have free : (s.unit u).served = none := by
    have ok := h.units u
    unfold DriveUnit.ok at ok
    rw [g.idle_unit] at ok
    exact ok.1
  have station : t.station j = s.station j := by rw [g.station, if_neg hj]
  have unit : (s.station j).unit.map t.unit = (s.station j).unit.map s.unit := by
    cases e : (s.station j).unit with
    | none => rfl
    | some v =>
      have ne : v ≠ u := by
        rintro rfl
        have := (h.linked j v).1 e
        rw [free] at this; cases this
      rw [Option.map_some, Option.map_some, g.unit, if_neg ne]
  have queue : t.queue.filter (fun p => p.station == j) = s.queue.filter (fun p => p.station == j) := by
    rw [g.queue, g.head, List.filter_cons_of_neg (by simpa using Ne.symm hj)]
  simp only [State.site, station, unit, queue, g.hold_eq, State.settings, State.calibration, g.inForce_eq,
    g.inputs_eq, State.channel, g.channels, State.mooring, g.moorings, g.alert]

/-- The site of the granted station. -/
theorem site_self (one : s.queue.filter (fun p => p.station == q.station) = [q]) :
    t.site q.station = { s.site q.station with
      x := (s.site q.station).x.granted u q
      qs := []
      v := some { state := .granted, served := some q.station, readyTimer := some (s.site q.station).settings.readyLimit
                  run := some (q.station, q.work.direction), stop := true } } := by
  have station : t.station q.station = (s.station q.station).granted u q := by rw [g.station, if_pos rfl]
  have queue : t.queue.filter (fun p => p.station == q.station) = [] := by
    rw [g.queue]
    rw [g.head, List.filter_cons_of_pos (by simp)] at one
    exact (List.cons.inj one).2
  have unit : ((s.station q.station).granted u q).unit.map t.unit = some
      { state := .granted, served := some q.station, readyTimer := some s.settings.readyLimit
        run := some (q.station, q.work.direction), stop := true } := by
    rw [(Station.granted_fields _ u q).2, Option.map_some, g.unit, if_pos rfl]
  simp only [State.site, station, unit, queue, g.hold_eq, State.settings, State.calibration, g.inForce_eq,
    g.inputs_eq, State.channel, g.channels, State.mooring, g.moorings, g.alert]

end State.OneGrant

/-- The site of a station after its one request has been granted a unit (R91, R114). -/
theorem Site.Fit.granted {k : Site} (h : k.Fit) {q : Request} (hq : q ∈ k.qs) (u : UnitId) {d : DriveUnit}
    (state : d.state = .granted) (stop : d.stop = true) :
    Site.Fit { k with x := k.x.granted u q, qs := [], v := some d } := by
  obtain ⟨-, work, -, unit, active, parked, timer, still⟩ := h.doing.of_request hq
  rcases Work.granted_state work with ⟨trim, hstate⟩ | ⟨other, activeIn, rest, notTrimming⟩
  · have form : k.x.granted u q = { k.x with
        unit := some u, active := some ⟨q.work, q.retryUsed, .granted⟩
        state := .trimming, resting := some k.x.state } := by
      simp only [Station.granted, trim, if_true]
    have watched : k.x.state.gearAtRest = false ∧ k.x.state.moored = true ∧ k.x.state ≠ .inLocal := by
      rcases hstate with e | e <;> rw [e] <;> decide
    obtain ⟨rest, moored, inLocal⟩ := watched
    have takeOver := h.recorded.takeOver_none inLocal
    have activeIn : q.work.activeIn .trimming = true := by
      cases w : q.work <;> rw [w] at trim <;> first | rfl | cases trim
    rw [form]
    exact {
      recorded := {
        valid := h.recorded.valid
        present := fun _ => h.recorded.present moored
        absent := nofun
        resting := by simp
        restingState := fun st hst => by cases hst; exact hstate
        takeOver := by simp [takeOver]
        returns := h.recorded.returns }
      doing := .granted u d q.work q.retryUsed rfl rfl activeIn rfl rfl parked timer still state stop
      geared := h.geared.move rfl rest rfl
      watched := h.watched.of_band (.inr rfl) }
  · have form : k.x.granted u q = { k.x with
        unit := some u, active := some ⟨q.work, q.retryUsed, .granted⟩ } := by
      simp [Station.granted, other]
    rw [form]
    exact ⟨h.recorded.congr rfl rfl rfl,
      .granted u d q.work q.retryUsed rfl rfl activeIn rfl rfl parked timer still state stop,
      h.geared.congr rfl rfl, h.watched⟩

theorem State.OneGrant.whole {u : UnitId} {q : Request} {rest : List Request} (g : s.OneGrant t u q rest)
    (h : s.Whole) : t.Whole := by
  have mem : q ∈ s.queue := by rw [g.head]; exact List.mem_cons_self
  have own := State.Whole.mem_site mem
  obtain ⟨one, -, -, unit, -⟩ := (h.fit q.station).doing.of_request own
  have site : ∀ j, t.site j = if j = q.station then _ else s.site j := fun j => by
    split
    · next e => subst e; exact g.site_self one
    · next e => exact g.site_of_ne h.sound e
  refine ⟨g.sound h.sound unit, fun j => ?_, fun j => ?_⟩
  · rw [site]
    split
    · exact (h.fit q.station).granted own u rfl rfl
    · exact h.fit j
  · intro hold
    rw [show (t.site j).hold = t.hold from rfl, g.hold_eq, g.hold] at hold
    cases hold

theorem State.Whole.grantAll (h : s.Whole) : s.grantAll.Whole :=
  State.grantAll_induct (P := fun s t => s.Whole → t.Whole) (fun _ h => h)
    (fun _ _ _ _ _ _ ih g h => g.whole (ih h)) s h

/-! ### The grants go on until a unit or a request is wanting (R113) -/

/-- No grant can be made. -/
def State.Stuck (s : State) : Prop := s.hold = true ∨ s.idleUnit = none ∨ s.queue = []

theorem State.Stuck.grantOne (h : s.Stuck) : s.grantOne = s := by
  unfold State.grantOne
  split
  · next u q rest hold idle queue =>
    rcases h with h | h | h
    · rw [h] at hold; cases hold
    · rw [h] at idle; cases idle
    · rw [h] at queue; cases queue
  · rfl

theorem State.stuck_or_oneGrant (s : State) : s.Stuck ∨ ∃ u q rest, s.OneGrant s.grantOne u q rest := by
  by_cases h : s.Stuck
  · exact .inl h
  · refine .inr ?_
    rcases s.grantOne_cases with k | k
    · exfalso
      unfold State.Stuck at h
      push Not at h
      obtain ⟨hold, idle, queue⟩ := h
      obtain ⟨u, hu⟩ := Option.ne_none_iff_exists'.1 idle
      obtain ⟨q, rest, hq⟩ := List.exists_cons_of_ne_nil queue
      have shorter : s.grantOne.queue = rest := by
        unfold State.grantOne
        rw [Bool.eq_false_iff.2 hold, hu, hq]
        by_cases w : q.work.isTrim <;> simp [State.takeGrant, State.enter, w]
      have := congrArg List.length (congrArg State.queue k)
      rw [shorter, hq] at this
      simp at this
    · exact k

/-- The units that are IDLE. -/
def State.idleUnits (s : State) : Finset UnitId := Finset.univ.filter (fun u => (s.unit u).state = .idle)

theorem State.idleUnit_eq_none (s : State) : s.idleUnit = none ↔ ∀ u, (s.unit u).state ≠ .idle := by
  simp [State.idleUnit, List.find?_eq_none, mem_allUnits]

theorem State.OneGrant.idleUnits_lt {u : UnitId} {q : Request} {rest : List Request} (g : s.OneGrant t u q rest) :
    t.idleUnits.card < s.idleUnits.card := by
  refine Finset.card_lt_card (Finset.ssubset_iff_subset_ne.2 ⟨fun v hv => ?_, fun e => ?_⟩)
  · simp only [State.idleUnits, Finset.mem_filter, Finset.mem_univ, true_and] at hv ⊢
    rw [g.unit] at hv
    split at hv
    · cases hv
    · exact hv
  · have mem : u ∈ s.idleUnits := by simp [State.idleUnits, g.idle_unit]
    rw [← e] at mem
    simp [State.idleUnits, g.unit] at mem

theorem State.grantOne_stuck_or_fewer (s : State) (n : Nat) (h : s.Stuck ∨ s.idleUnits.card ≤ n + 1) :
    s.grantOne.Stuck ∨ s.grantOne.idleUnits.card ≤ n := by
  rcases s.stuck_or_oneGrant with k | ⟨u, q, rest, k⟩
  · rw [k.grantOne]; exact .inl k
  · rcases h with h | h
    · rw [h.grantOne]; exact .inl h
    · have := k.idleUnits_lt
      exact .inr (by omega)

/-- After the grants of an event no further grant can be made: four units allow four grants. -/
theorem State.grantAll_stuck (s : State) : s.grantAll.Stuck := by
  have few : s.Stuck ∨ s.idleUnits.card ≤ 4 := .inr ((Finset.card_filter_le _ _).trans (by simp))
  rcases State.grantOne_stuck_or_fewer _ 0 (State.grantOne_stuck_or_fewer _ 1 (State.grantOne_stuck_or_fewer _ 2
    (State.grantOne_stuck_or_fewer s 3 few))) with h | h
  · exact h
  · refine .inr (.inl ((State.idleUnit_eq_none _).2 fun u idle => ?_))
    have mem : u ∈ s.grantOne.grantOne.grantOne.grantOne.idleUnits := by
      simp only [State.idleUnits, Finset.mem_filter, Finset.mem_univ, true_and]
      exact idle
    rw [Finset.card_eq_zero.1 (Nat.le_zero.1 h)] at mem
    cases mem

theorem State.grantAll_grantsOk (s : State) : s.grantAll.GrantsOk := by
  intro hold queue
  rcases s.grantAll_stuck with k | k | k
  · rw [hold] at k; cases k
  · exact (State.idleUnit_eq_none _).1 k
  · exact absurd k queue

/-! ### The calls' evaluation leaves sites alone -/

theorem State.CallsOnly.site (h : s.CallsOnly t) (i : StationId) : t.site i = s.site i := by
  have inForce : t.inForce = s.inForce := (congrArg State.inForce h.backdrop :)
  have hold : t.hold = s.hold := (congrArg State.hold h.backdrop :)
  have inputs : t.inputs = s.inputs := (congrArg State.inputs h.backdrop :)
  have unit : t.unit = s.unit := funext h.unit
  simp only [State.site, h.station, h.channel, h.mooring, unit, h.queue, h.alert, inForce, hold, inputs,
    State.settings, State.calibration]

theorem State.settle_site (before s : State) (i : StationId) :
    (State.settle before s).site i = s.grantAll.site i :=
  (State.settleCalls_only before s.grantAll).site i

/-- The end of an event keeps what holds of every station; its lists are those before the evaluation of the calls. -/
theorem State.CallsOnly.whole (h : s.CallsOnly t) (whole : s.Whole) (lists : t.ListsOk) : t.Whole := by
  have inForce : t.inForce = s.inForce := (congrArg State.inForce h.backdrop :)
  refine ⟨⟨fun j u => ?_, fun u => ?_, fun u => ?_, ?_, ?_, lists⟩, fun j => ?_, fun j => ?_⟩
  · rw [h.station, h.unit]; exact whole.sound.linked j u
  · rw [h.unit]; exact whole.sound.units u
  · rw [h.unit]; exact whole.sound.stopped u
  · rw [State.QueueOk, h.queue]; exact whole.sound.queue
  · exact whole.sound.alert.congr (by rw [inForce]) h.alert
      (State.followLevel_congr (fun j => by rw [h.station]) fun u => by rw [h.unit])
      (State.criticalLevel_congr fun j => by rw [h.channel])
  · rw [h.site]; exact whole.fit j
  · rw [h.site]; exact whole.held j

/-! ### What the end of an event does at one station and leaves elsewhere -/

/-- A station with a request that the grants serve has its unit and no request left. -/
theorem State.grantAll_unit_cases (s : State) (u : UnitId) :
    s.grantAll.unit u = s.unit u ∨ ((s.unit u).state = .idle ∧ (s.grantAll.unit u).state = .granted) :=
  State.grantAll_induct
    (P := fun s t => t.unit u = s.unit u ∨ ((s.unit u).state = .idle ∧ (t.unit u).state = .granted))
    (fun _ => .inl rfl)
    (fun s t r v q rest ih g => by
      rw [g.unit]
      split
      · next e =>
        subst e
        have idle := g.idle_unit
        rcases ih with ih | ⟨-, granted⟩
        · exact .inr ⟨ih ▸ idle, rfl⟩
        · rw [granted] at idle; cases idle
      · exact ih) s

/-- What the grants make of the site of one station. -/
theorem State.Whole.grantAll_site (h : s.Whole) (j : StationId) :
    s.grantAll.site j = s.site j ∨
      ∃ u, ∃ q ∈ s.requestOf j, s.grantAll.station j = (s.station j).granted u q ∧
        (s.grantAll.site j).qs = [] ∧ (s.grantAll.unit u).state = .granted ∧ (s.grantAll.unit u).served = some j ∧
        (s.grantAll.unit u).run = some (j, q.work.direction) := by
  cases e : (s.site j).qs with
  | nil =>
    refine .inl ?_
    have key := State.grantAll_induct
      (P := fun s t => s.Whole → (s.site j).qs = [] → t.Whole ∧ t.site j = s.site j)
      (fun _ h _ => ⟨h, rfl⟩) (fun s t r u q rest ih g h none => ?_) s h e
    · exact key.2
    · obtain ⟨whole, site⟩ := ih h none
      refine ⟨g.whole whole, (g.site_of_ne whole.sound ?_).trans site⟩
      rintro rfl
      have mem : q ∈ t.queue := by rw [g.head]; exact List.mem_cons_self
      have := State.Whole.mem_site mem
      rw [site, none] at this
      cases this
  | cons q rest =>
    have one := ((h.fit j).doing.of_request (q := q) (by rw [e]; exact List.mem_cons_self)).1
    have request : s.requestOf j = some q := by rw [State.requestOf_eq_site, one]; rfl
    rcases s.grantAll_station j q one with ⟨station, queue⟩ | ⟨u, station, granted, served, run⟩
    · refine .inl ?_
      have only := s.grantAll_only
      have inForce : s.grantAll.inForce = s.inForce := (congrArg State.inForce only.backdrop :)
      have hold : s.grantAll.hold = s.hold := (congrArg State.hold only.backdrop :)
      have inputs : s.grantAll.inputs = s.inputs := (congrArg State.inputs only.backdrop :)
      have none : (s.station j).unit = none := ((h.fit j).doing.of_request (q := q) (by rw [one]; simp)).2.2.2.1
      simp only [State.site, station, queue, inForce, hold, inputs, State.settings, State.calibration,
        State.channel, only.channels, State.mooring, only.moorings, only.alert, none, Option.map_none,
        show s.queue.filter (fun p => p.station == j) = [q] from one]
    · refine .inr ⟨u, q, request, station, ?_, granted, served, run⟩
      have unit : (s.grantAll.site j).x.unit = some u := by
        change (s.grantAll.station j).unit = some u
        rw [station]; rfl
      cases k : (s.grantAll.site j).qs with
      | nil => rfl
      | cons p l =>
        have := ((h.grantAll.fit j).doing.of_request (q := p) (by rw [k]; exact List.mem_cons_self)).2.2.2.1
        rw [unit] at this; cases this

/-- An event whose acts are all at one station leaves everything else alone, but for the grants at its end. -/
theorem State.Acts.onlyAt (acts : State.Acts i s t) (sound : s.Sound) (whole : t.Whole) (before : State) :
    s.OnlyAt (State.settle before t) i := by
  have only := State.settleCalls_only before t.grantAll
  have grants := t.grantAll_only
  have here := acts.local
  refine ⟨fun j hj => ?_, fun u hu => ?_, ?_⟩
  · have request : t.requestOf j = s.requestOf j := by
      have others : ∀ l : List Request, l.find? (fun q => q.station == j) =
          (l.filter (fun q => q.station != i)).find? (fun q => q.station == j) := by
        intro l
        rw [List.find?_filter]
        congr 1
        funext q
        by_cases e : q.station = j
        · simp [e, hj]
        · simp [e]
      rw [State.requestOf, others, here.requests, ← others]; rfl
    refine ⟨?_, ?_, ?_⟩
    · rw [State.settle_channel]; exact here.channel j hj
    · rw [State.settle_mooring]; exact here.mooring j hj
    · have settled := State.settle_site before t j
      rcases whole.grantAll_site j with same | ⟨u, q, hq, station, none, -, served, run⟩
      · refine .inl ⟨?_, ?_⟩
        · change ((State.settle before t).site j).x = _
          rw [settled, same]
          exact here.station j hj
        · rw [State.requestOf_eq_site, settled, same, ← State.requestOf_eq_site, request]
      · refine .inr ⟨u, q, request ▸ hq, ?_, ?_, ?_, ?_⟩
        · rw [State.settle_station_eq, station, here.station j hj]
        · rw [State.requestOf_eq_site, settled, none]; rfl
        · rw [State.settle_unit_eq]; exact served
        · rw [State.settle_unit_eq]; exact run
  · rw [State.settle_unit_eq, ← acts.unit_of_ne sound hu]
    exact t.grantAll_unit_cases u
  · exact (State.settle_backdrop before t).trans here.backdrop

end Sys2Proof.Machine
end

