-- ==== Sys2Proof/Proofs/CallTable.lean ====
section
/-! PROOF. The evaluation of the calls keeps the call table and leaves every call where its evaluation leaves it
(R56, R57, R61). The clauses that do not read the lists are `State.TableOk`; an evaluation settles its call and keeps
the other calls settled, but for the other call of a berth whose call goes to CLEARING, which it evaluates too. -/

namespace Sys2Proof.Machine

variable {s t : State}

/-! ### The table without its lists -/

/-- A call with its list blanked. -/
def Call.bare (c : Call) : Call := { c with list := [] }

/-- The clauses of `State.CallsOk` that read no list and no station. -/
structure State.TableOk (s : State) : Prop where
  ranges : ∀ c ∈ s.calls, 1 ≤ c.tag ∧ c.tag ≤ 65535 ∧ 1 ≤ c.minLines ∧ c.minLines ≤ 8 ∧
    1 ≤ c.steadyNeed ∧ c.steadyNeed ≤ 255
  size : s.calls.length ≤ Config.callsMax
  sizeOnBerth : ∀ berth ∈ [Berth.a, Berth.b], (s.callsOn berth).length ≤ Config.callsPerBerth
  oneActive : ∀ c ∈ s.calls, ∀ d ∈ s.calls,
    c.berth = d.berth → c.state.active = true → d.state.active = true → c.tag = d.tag
  permits : s.permitsOk

/-- The calls are the same but for their lists, and the permits stand. -/
structure State.SameTable (s t : State) : Prop where
  calls : t.calls.map Call.bare = s.calls.map Call.bare
  permitA : t.permitA = s.permitA
  permitB : t.permitB = s.permitB

theorem State.SameTable.refl (s : State) : s.SameTable s := ⟨rfl, rfl, rfl⟩

theorem State.SameTable.trans {r : State} (h : s.SameTable t) (k : t.SameTable r) : s.SameTable r :=
  ⟨k.calls.trans h.calls, k.permitA.trans h.permitA, k.permitB.trans h.permitB⟩

theorem State.Local.sameTable {i : StationId} (h : State.Local i s t) : s.SameTable t where
  calls := by
    have bare : ∀ l : List Call, l.map Call.bare = (l.map (Call.without i)).map Call.bare := fun l => by
      rw [List.map_map]; rfl
    rw [bare t.calls, h.calls, ← bare]
  permitA := h.permitA
  permitB := h.permitB

theorem State.SameTable.mem (h : s.SameTable t) {d : Call} (hd : d ∈ t.calls) :
    ∃ c ∈ s.calls, c.bare = d.bare := by
  have : d.bare ∈ s.calls.map Call.bare := h.calls ▸ List.mem_map_of_mem hd
  exact List.mem_map.1 this

theorem State.SameTable.symm (h : s.SameTable t) : t.SameTable s :=
  ⟨h.calls.symm, h.permitA.symm, h.permitB.symm⟩

theorem Call.bare_eq {c d : Call} (h : c.bare = d.bare) :
    c.tag = d.tag ∧ c.berth = d.berth ∧ c.state = d.state ∧ c.minLines = d.minLines ∧ c.steadyNeed = d.steadyNeed := by
  simp only [Call.bare, Call.mk.injEq] at h
  tauto

/-- A question about the calls that reads no list has the same answer. -/
theorem State.SameTable.all (h : s.SameTable t) (p : Call → Bool) (bare : ∀ c : Call, p c.bare = p c) :
    t.calls.all p = s.calls.all p := by
  have eq : ∀ l : List Call, l.all p = (l.map Call.bare).all p := fun l => by
    rw [List.all_map]
    exact congrArg l.all (funext fun c => (bare c).symm)
  rw [eq t.calls, h.calls, ← eq]

theorem State.SameTable.permit (h : s.SameTable t) (berth : Berth) : t.permit berth = s.permit berth := by
  cases berth
  · exact h.permitA
  · exact h.permitB

theorem State.TableOk.congr (h : s.TableOk) (same : s.SameTable t) : t.TableOk where
  ranges c hc := by
    obtain ⟨d, hd, e⟩ := same.mem hc
    obtain ⟨tag, -, -, lines, need⟩ := Call.bare_eq e
    rw [← tag, ← lines, ← need]
    exact h.ranges d hd
  size := by
    have := congrArg List.length same.calls
    rw [List.length_map, List.length_map] at this
    exact this ▸ h.size
  sizeOnBerth berth hb := by
    have eq : ∀ l : List Call, (l.filter fun c => c.berth == berth).length =
        ((l.map Call.bare).filter fun c => c.berth == berth).length := fun l => by
      rw [List.filter_map, List.length_map]; rfl
    have := h.sizeOnBerth berth hb
    rw [State.callsOn, eq, ← same.calls, ← eq] at this
    exact this
  oneActive c hc d hd := by
    obtain ⟨c', hc', e⟩ := same.mem hc
    obtain ⟨d', hd', e'⟩ := same.mem hd
    obtain ⟨tag, berth, state, -⟩ := Call.bare_eq e
    obtain ⟨tag', berth', state', -⟩ := Call.bare_eq e'
    rw [← tag, ← tag', ← berth, ← berth', ← state, ← state']
    exact h.oneActive c' hc' d' hd'
  permits berth hb := by
    rw [same.permit, h.permits berth hb]
    constructor
    · rintro ⟨c, hc, b, held⟩
      obtain ⟨d, hd, e⟩ := same.symm.mem hc
      obtain ⟨-, berth, state, -⟩ := Call.bare_eq e
      exact ⟨d, hd, berth.trans b, state.trans held⟩
    · rintro ⟨c, hc, b, held⟩
      obtain ⟨d, hd, e⟩ := same.mem hc
      obtain ⟨-, berth, state, -⟩ := Call.bare_eq e
      exact ⟨d, hd, berth.trans b, state.trans held⟩

theorem State.CallsOk.tableOk (h : s.CallsOk) : s.TableOk :=
  ⟨h.ranges, h.size, h.sizeOnBerth, h.oneActive, h.permits⟩

theorem State.CallsOk.listsOk (h : s.CallsOk) : s.ListsOk := ⟨h.tagsDiffer, h.lists, h.records⟩

theorem State.TableOk.callsOk (h : s.TableOk) (lists : s.ListsOk) (settled : ∀ c ∈ s.calls, s.transitionOf c = none) :
    s.CallsOk :=
  ⟨lists.tagsDiffer, h.ranges, h.size, h.sizeOnBerth, h.oneActive, h.permits, lists.lists, lists.records, settled⟩

theorem mem_berths (b : Berth) : b ∈ [Berth.a, Berth.b] := by cases b <;> simp

/-! ### Reading the calls -/

theorem State.callOf_some {tag : Nat} {c : Call} (h : s.callOf tag = some c) : c ∈ s.calls ∧ c.tag = tag :=
  ⟨List.mem_of_find?_eq_some h, by simpa using List.find?_some h⟩

theorem State.callOf_none {tag : Nat} : s.callOf tag = none ↔ ∀ c ∈ s.calls, c.tag ≠ tag := by
  simp [State.callOf, List.find?_eq_none]

theorem State.ListsOk.callOf (h : s.ListsOk) {c : Call} (hc : c ∈ s.calls) : s.callOf c.tag = some c := by
  cases e : s.callOf c.tag with
  | none => exact absurd rfl (State.callOf_none.1 e c hc)
  | some d =>
    obtain ⟨hd, tag⟩ := State.callOf_some e
    rw [h.tag_inj hd hc tag]

theorem State.noOtherActive_iff (c : Call) :
    s.noOtherActive c = true ↔ ∀ d ∈ s.calls, d.berth = c.berth → d.state.active = true → d.tag = c.tag := by
  simp only [State.noOtherActive, List.all_eq_true, Bool.or_eq_true, beq_iff_eq, bne_iff_ne, Bool.not_eq_true']
  refine forall₂_congr fun d _ => ?_
  cases d.state.active <;> simp <;> tauto

theorem State.TableOk.noOtherActive (h : s.TableOk) {c : Call} (hc : c ∈ s.calls) (active : c.state.active = true) :
    s.noOtherActive c = true :=
  (State.noOtherActive_iff c).2 fun d hd berth act => h.oneActive d hd c hc berth act active

theorem CallState.active_iff (x : CallState) : x.active = true ↔ x ≠ .opened ∧ x ≠ .clearing := by
  cases x <;> simp [CallState.active]

/-- When the evaluation of a call does nothing. -/
theorem State.transitionOf_eq_none (c : Call) : s.transitionOf c = none ↔
    match c.state with
    | .opened | .strained => s.heldTest c = false
    | .held => s.heldTest c = true
    | .singling => c.list.any s.holding = true
    | .clearing => True := by
  unfold State.transitionOf
  cases c.state <;> simp

/-- The transitions an evaluation makes, with what it found (R56). -/
theorem State.transitionOf_eq_some {c : Call} {state : CallState} : s.transitionOf c = some state →
    ((c.state = .opened ∨ c.state = .strained) ∧ state = .held ∧ s.heldTest c = true) ∨
      (c.state = .held ∧ state = .strained ∧ s.heldTest c = false) ∨
      (c.state = .singling ∧ state = .clearing ∧ c.list.any s.holding = false) := by
  unfold State.transitionOf
  cases c.state <;> simp +contextual <;> tauto

theorem State.heldTest_iff (c : Call) : s.heldTest c = true ↔
    (c.minLines ≤ c.list.length ∧ c.list.all (s.steadyFor c.steadyNeed) = true) ∧ s.noOtherActive c = true := by
  simp [State.heldTest]

/-! ### A call goes to a state -/

section
variable (c : Call) (state : CallState)

theorem State.callTo_calls : (s.callTo c state).calls =
    s.calls.map (fun d => if d.tag = c.tag then { d with state := state } else d) := by
  unfold State.callTo
  dsimp only
  split
  · cases c.berth <;> rfl
  · split
    · cases c.berth <;> rfl
    · rfl

theorem State.callTo_permit (berth : Berth) : (s.callTo c state).permit berth =
    if berth = c.berth ∧ state = .held then true
    else if berth = c.berth ∧ c.state = .held then false
    else s.permit berth := by
  unfold State.callTo
  dsimp only
  by_cases held : state = .held
  · rw [if_pos held]
    cases b : c.berth <;> cases berth <;> simp [held, State.setPermit, State.permit, State.onCall]
  · rw [if_neg held]
    by_cases was : c.state = .held
    · rw [if_pos was]
      cases b : c.berth <;> cases berth <;> simp [held, was, State.setPermit, State.permit, State.onCall]
    · rw [if_neg was]
      cases b : c.berth <;> cases berth <;> simp [held, was, State.permit, State.onCall]

variable {c state}

theorem State.mem_callTo {d : Call} : d ∈ (s.callTo c state).calls ↔
    ∃ e ∈ s.calls, (if e.tag = c.tag then { e with state := state } else e) = d := by
  rw [State.callTo_calls]; exact List.mem_map

theorem State.CallsOnly.holding (h : s.CallsOnly t) : t.holding = s.holding := by
  funext j
  simp only [State.holding, h.station, h.mooring]

theorem State.CallsOnly.steadyFor (h : s.CallsOnly t) : t.steadyFor = s.steadyFor := by
  funext n j
  simp only [State.steadyFor, h.station, h.mooring, h.channel]

theorem State.CallsOnly.listsOk (h : s.CallsOnly t) (lists : s.ListsOk) : t.ListsOk := by
  have tags : t.calls.map Call.tag = s.calls.map Call.tag := by
    have := congrArg (List.map Prod.fst) h.calls
    simpa [Call.fixed, Function.comp_def] using this
  have mem : ∀ c ∈ t.calls, ∃ d ∈ s.calls, d.fixed = c.fixed := fun c hc =>
    List.mem_map.1 (h.calls ▸ List.mem_map_of_mem hc)
  have mem' : ∀ c ∈ s.calls, ∃ d ∈ t.calls, d.fixed = c.fixed := fun c hc =>
    List.mem_map.1 (h.calls ▸ List.mem_map_of_mem hc)
  refine ⟨tags ▸ lists.tagsDiffer, fun c hc => ?_, fun j r hr => ?_⟩
  · obtain ⟨d, hd, e⟩ := mem c hc
    simp only [Call.fixed, Prod.mk.injEq] at e
    obtain ⟨tag, berth, -, -, list⟩ := e
    simp only [← list, ← tag, ← berth, h.mooring]
    exact lists.lists d hd
  · rw [h.mooring] at hr
    obtain ⟨c, hc, tag, hj⟩ := lists.records j r hr
    obtain ⟨d, hd, e⟩ := mem' c hc
    simp only [Call.fixed, Prod.mk.injEq] at e
    exact ⟨d, hd, e.1.trans tag, e.2.2.2.2 ▸ hj⟩

/-- A call of the table goes to a state that no other active call of its berth forbids. -/
theorem State.TableOk.callTo (h : s.TableOk) (lists : s.ListsOk) (hc : c ∈ s.calls)
    (alone : state.active = true → s.noOtherActive c = true) : (s.callTo c state).TableOk := by
  have own : ∀ e ∈ s.calls, e.tag = c.tag → e = c := fun e he tag => lists.tag_inj he hc tag
  refine ⟨fun d hd => ?_, ?_, fun berth hb => ?_, fun d hd d' hd' => ?_, fun berth hb => ?_⟩
  · obtain ⟨e, he, rfl⟩ := State.mem_callTo.1 hd
    split <;> exact h.ranges e he
  · rw [State.callTo_calls, List.length_map]; exact h.size
  · have := h.sizeOnBerth berth hb
    have same : (fun e : Call => e.berth == berth) ∘ (fun e => if e.tag = c.tag then { e with state := state } else e) =
        fun e => e.berth == berth := by
      funext e
      simp only [Function.comp_apply]
      split <;> rfl
    rw [State.callsOn, State.callTo_calls, List.filter_map, List.length_map, same]
    exact this
  · obtain ⟨e, he, rfl⟩ := State.mem_callTo.1 hd
    obtain ⟨e', he', rfl⟩ := State.mem_callTo.1 hd'
    by_cases k : e.tag = c.tag <;> by_cases k' : e'.tag = c.tag <;> simp only [k, k', if_true, if_false]
    · exact fun _ _ _ => trivial
    · obtain rfl := own e he k
      intro berth active active'
      exact ((State.noOtherActive_iff e).1 (alone active) e' he' berth.symm active').symm
    · obtain rfl := own e' he' k'
      intro berth active active'
      exact k ((State.noOtherActive_iff e').1 (alone active') e he berth active)
    · exact h.oneActive e he e' he'
  · rw [State.callTo_permit]
    have elsewhere : (∃ d ∈ (s.callTo c state).calls, d.berth = berth ∧ d.state = .held) ↔
        (berth = c.berth ∧ state = .held) ∨ ∃ d ∈ s.calls, d.tag ≠ c.tag ∧ d.berth = berth ∧ d.state = .held := by
      constructor
      · rintro ⟨d, hd, b, held⟩
        obtain ⟨e, he, rfl⟩ := State.mem_callTo.1 hd
        split at b
        · next k =>
          rw [if_pos k] at held
          obtain rfl := own e he k
          exact .inl ⟨b.symm, held⟩
        · next k =>
          rw [if_neg k] at held
          exact .inr ⟨e, he, k, b, held⟩
      · rintro (⟨b, held⟩ | ⟨d, hd, k, b, held⟩)
        · exact ⟨_, State.mem_callTo.2 ⟨c, hc, rfl⟩, by rw [if_pos rfl]; exact b.symm, by rw [if_pos rfl]; exact held⟩
        · exact ⟨_, State.mem_callTo.2 ⟨d, hd, rfl⟩, by rw [if_neg k]; exact b, by rw [if_neg k]; exact held⟩
    rw [elsewhere]
    by_cases now : berth = c.berth ∧ state = .held
    · rw [if_pos now]; exact iff_of_true rfl (.inl now)
    · rw [if_neg now]
      by_cases was : berth = c.berth ∧ c.state = .held
      · rw [if_pos was]
        refine iff_of_false Bool.false_ne_true ?_
        rintro (k | ⟨d, hd, k, b, held⟩)
        · exact now k
        · refine k (h.oneActive d hd c hc (b.trans was.1) ?_ ?_)
          · rw [held]; rfl
          · rw [was.2]; rfl
      · rw [if_neg was, h.permits berth hb]
        constructor
        · rintro ⟨d, hd, b, held⟩
          refine .inr ⟨d, hd, fun k => was ?_, b, held⟩
          obtain rfl := own d hd k
          exact ⟨b.symm, held⟩
        · rintro (k | ⟨d, hd, -, b, held⟩)
          · exact absurd k now
          · exact ⟨d, hd, b, held⟩

/-- No other call of another berth is concerned. -/
theorem State.noOtherActive_callTo_of_berth {d : Call} (berth : d.berth ≠ c.berth) (own : ∀ e ∈ s.calls, e.tag = c.tag →
    e = c) : (s.callTo c state).noOtherActive d = s.noOtherActive d := by
  rw [Bool.eq_iff_iff, State.noOtherActive_iff, State.noOtherActive_iff]
  constructor
  · intro h e he b active
    have k : e.tag ≠ c.tag := fun k => berth (by rw [← own e he k]; exact b.symm)
    exact h e (State.mem_callTo.2 ⟨e, he, if_neg k⟩) b active
  · intro h e he b active
    obtain ⟨e', he', rfl⟩ := State.mem_callTo.1 he
    by_cases k : e'.tag = c.tag
    · rw [if_pos k] at b
      exact absurd (by rw [← own e' he' k]; exact b.symm) berth
    · rw [if_neg k] at b active ⊢
      exact h e' he' b active

/-- What the other calls of the berth ask: without the call in their way they may pass, with it they may not. -/
theorem State.noOtherActive_of_callTo {d : Call} (other : d.tag ≠ c.tag) (own : ∀ e ∈ s.calls, e.tag = c.tag → e = c)
    (stays : state.active = true ∨ c.state.active = false) (h : (s.callTo c state).noOtherActive d = true) :
    s.noOtherActive d = true := by
  rw [State.noOtherActive_iff] at h ⊢
  intro e he b active
  by_cases k : e.tag = c.tag
  · obtain rfl := own e he k
    have := h _ (State.mem_callTo.2 ⟨e, he, rfl⟩) (by rw [if_pos rfl]; exact b) (by
      rw [if_pos rfl]
      rcases stays with stays | stays
      · exact stays
      · rw [stays] at active; cases active)
    rw [if_pos rfl] at this
    exact this
  · exact h e (State.mem_callTo.2 ⟨e, he, if_neg k⟩) b active

/-- A settled call stays settled when another call of the table goes to a state, unless that call frees its berth. -/
theorem State.TableOk.settled_callTo (h : s.TableOk) (lists : s.ListsOk) (hc : c ∈ s.calls)
    (alone : state.active = true → s.noOtherActive c = true) {d : Call} (hd : d ∈ s.calls) (other : d.tag ≠ c.tag)
    (settled : s.transitionOf d = none)
    (stays : d.state = .opened → d.berth = c.berth → state.active = true ∨ c.state.active = false) :
    (s.callTo c state).transitionOf d = none := by
  have own : ∀ e ∈ s.calls, e.tag = c.tag → e = c := fun e he tag => lists.tag_inj he hc tag
  have only := s.callTo_only c state
  have holding := only.holding
  have steady := only.steadyFor
  have active : d.berth = c.berth → d.state.active = true →
      (s.callTo c state).noOtherActive d = s.noOtherActive d := by
    intro berth act
    rw [Bool.eq_iff_iff]
    refine iff_of_true ((State.noOtherActive_iff d).2 fun e he b act' => ?_) (h.noOtherActive hd act)
    obtain ⟨e', he', rfl⟩ := State.mem_callTo.1 he
    by_cases k : e'.tag = c.tag
    · rw [if_pos k] at act'
      exact absurd ((State.noOtherActive_iff c).1 (alone act') d hd berth act) other
    · rw [if_neg k] at b act' ⊢
      exact h.oneActive e' he' d hd b act' act
  have same : d.berth ≠ c.berth ∨ d.state.active = true → (s.callTo c state).heldTest d = s.heldTest d := by
    intro k
    have e : (s.callTo c state).noOtherActive d = s.noOtherActive d := by
      by_cases berth : d.berth = c.berth
      · exact active berth (k.resolve_left (fun n => n berth))
      · exact State.noOtherActive_callTo_of_berth berth own
    simp only [State.heldTest, steady, e]
  rw [State.transitionOf_eq_none] at settled ⊢
  cases e : d.state with
  | opened =>
    rw [e] at settled
    simp only at settled ⊢
    by_cases berth : d.berth = c.berth
    · rw [Bool.eq_false_iff] at settled ⊢
      intro k
      rw [State.heldTest_iff, steady] at k
      exact settled ((State.heldTest_iff d).2 ⟨k.1, State.noOtherActive_of_callTo other own (stays e berth) k.2⟩)
    · rw [same (.inl berth)]; exact settled
  | strained =>
    rw [e] at settled
    simp only at settled ⊢
    rw [same (.inr (by rw [e]; rfl))]; exact settled
  | held =>
    rw [e] at settled
    simp only at settled ⊢
    rw [same (.inr (by rw [e]; rfl))]; exact settled
  | singling =>
    rw [e] at settled
    simp only at settled ⊢
    rw [holding]; exact settled
  | clearing => trivial

/-- A call that an evaluation moves is settled after it. -/
theorem State.settled_of_transition (own : ∀ e ∈ s.calls, e.tag = c.tag → e = c)
    (h : s.transitionOf c = some state) : (s.callTo c state).transitionOf { c with state := state } = none := by
  have only := s.callTo_only c state
  have held : (s.callTo c state).heldTest { c with state := state } = s.heldTest c := by
    have alone : (s.callTo c state).noOtherActive { c with state := state } = s.noOtherActive c := by
      rw [Bool.eq_iff_iff, State.noOtherActive_iff, State.noOtherActive_iff]
      constructor
      · intro k e he b active
        by_cases tag : e.tag = c.tag
        · exact tag
        · exact k e (State.mem_callTo.2 ⟨e, he, if_neg tag⟩) b active
      · intro k e he b active
        obtain ⟨e', he', rfl⟩ := State.mem_callTo.1 he
        by_cases tag : e'.tag = c.tag
        · rw [if_pos tag]; exact tag
        · rw [if_neg tag] at b active ⊢
          exact k e' he' b active
    simp only [State.heldTest, only.steadyFor, alone]
  rw [State.transitionOf_eq_none]
  rcases State.transitionOf_eq_some h with ⟨-, rfl, test⟩ | ⟨-, rfl, test⟩ | ⟨-, rfl, -⟩
  · exact held.trans test
  · exact held.trans test
  · trivial

end

/-! ### One evaluation and the evaluations of an event -/

/-- A berth has at most one other call (R47). -/
theorem State.TableOk.othersOf (h : s.TableOk) {c : Call} (hc : c ∈ s.calls) :
    (s.othersOf c).length ≤ 1 := by
  have le := h.sizeOnBerth c.berth (mem_berths c.berth)
  have lt : (s.calls.filter (fun d => d.tag != c.tag && d.berth == c.berth)).length < (s.callsOn c.berth).length := by
    have sub : s.calls.filter (fun d => d.tag != c.tag && d.berth == c.berth) =
        (s.callsOn c.berth).filter (fun d => d.tag != c.tag) := by
      rw [State.callsOn, List.filter_filter]
    rw [sub]
    exact List.length_filter_lt_length_iff_exists.2 ⟨c, by simp [State.callsOn, hc], by simp⟩
  rw [State.othersOf, List.length_map]
  have : Config.callsPerBerth = 2 := rfl
  omega

/-- The moves an evaluation makes of a call's state (R56). -/
def CallState.moves (state state' : CallState) : Prop :=
  (state = .opened ∨ state = .strained) ∧ state' = .held ∨ state = .held ∧ state' = .strained ∨
    state = .singling ∧ state' = .clearing

/-- Calls in the course of an event's evaluations: the table and the lists stand, every call but those of the tags still to
be evaluated is settled, and a call either stands as it was at the start or has made one move and is settled. -/
structure State.Evaluating (start s : State) (left : List Nat) : Prop where
  table : s.TableOk
  lists : s.ListsOk
  settled : ∀ c ∈ s.calls, c.tag ∉ left → s.transitionOf c = none
  moved : ∀ c ∈ s.calls, ∃ d ∈ start.calls, d.fixed = c.fixed ∧
    (d.state = c.state ∨ d.state.moves c.state ∧ s.transitionOf c = none)

namespace State.Evaluating

variable {start : State} {left : List Nat}

/-- What one evaluation asks: a call whose move frees its berth has the other call of the berth evaluated next. -/
theorem evaluateOnce {tag : Nat} (h : State.Evaluating start s (tag :: left))
    (frees : ∀ c ∈ s.calls, c.tag = tag → s.transitionOf c = some .clearing →
      ∀ d ∈ s.calls, d.tag ≠ tag → d.berth = c.berth → d.tag ∈ left) :
    State.Evaluating start (s.evaluateOnce tag) left := by
  unfold State.evaluateOnce
  cases e : s.callOf tag with
  | none =>
    refine ⟨h.table, h.lists, fun c hc k => h.settled c hc fun m => ?_, h.moved⟩
    rcases List.mem_cons.1 m with m | m
    · exact State.callOf_none.1 e c hc m
    · exact k m
  | some c =>
    obtain ⟨hc, rfl⟩ := State.callOf_some e
    have own : ∀ d ∈ s.calls, d.tag = c.tag → d = c := fun d hd tag => h.lists.tag_inj hd hc tag
    dsimp only
    cases move : s.transitionOf c with
    | none =>
      refine ⟨h.table, h.lists, fun d hd k => ?_, h.moved⟩
      by_cases tag : d.tag = c.tag
      · rw [own d hd tag]; exact move
      · exact h.settled d hd fun m => (List.mem_cons.1 m).elim tag k
    | some state =>
      dsimp only
      have made := State.transitionOf_eq_some move
      have alone : state.active = true → s.noOtherActive c = true := by
        rcases made with ⟨-, -, test⟩ | ⟨was, -⟩ | ⟨-, rfl, -⟩
        · exact fun _ => ((State.heldTest_iff c).1 test).2
        · exact fun _ => h.table.noOtherActive hc (by rw [was]; rfl)
        · intro k; cases k
      have moves : c.state.moves state := by
        rcases made with ⟨was, rfl, -⟩ | ⟨was, rfl, -⟩ | ⟨was, rfl, -⟩
        · exact .inl ⟨was, rfl⟩
        · exact .inr (.inl ⟨was, rfl⟩)
        · exact .inr (.inr ⟨was, rfl⟩)
      have keeps : ∀ d ∈ s.calls, d.tag ≠ c.tag → s.transitionOf d = none →
          (d.state = .opened → d.berth = c.berth → state ≠ .clearing) →
          (s.callTo c state).transitionOf d = none := by
        intro d hd other settled stays
        refine h.table.settled_callTo h.lists hc alone hd other settled fun opened berth => ?_
        rcases made with ⟨-, rfl, -⟩ | ⟨-, rfl, -⟩ | ⟨-, rfl, -⟩
        · exact .inl rfl
        · exact .inl rfl
        · exact absurd rfl (stays opened berth)
      refine ⟨h.table.callTo h.lists hc alone, (s.callTo_only c state).listsOk h.lists, fun d hd k => ?_,
        fun d hd => ?_⟩
      · obtain ⟨e, he, rfl⟩ := State.mem_callTo.1 hd
        by_cases tag : e.tag = c.tag
        · rw [if_pos tag, own e he tag]
          exact State.settled_of_transition own move
        · rw [if_neg tag] at k ⊢
          refine keeps e he tag (h.settled e he fun m => (List.mem_cons.1 m).elim tag k) fun _ berth clearing => ?_
          exact k (frees c hc rfl (clearing ▸ move) e he tag berth)
      · obtain ⟨e, he, rfl⟩ := State.mem_callTo.1 hd
        obtain ⟨f, hf, fixed, state⟩ := h.moved e he
        refine ⟨f, hf, ?_⟩
        by_cases tag : e.tag = c.tag
        · obtain rfl := own e he tag
          rw [if_pos rfl]
          refine ⟨fixed, .inr ?_⟩
          rcases state with state | ⟨-, settled⟩
          · exact ⟨state ▸ moves, State.settled_of_transition own move⟩
          · rw [settled] at move; cases move
        · rw [if_neg tag]
          refine ⟨fixed, ?_⟩
          rcases state with state | ⟨was, settled⟩
          · exact .inl state
          · refine .inr ⟨was, keeps e he tag settled fun opened => ?_⟩
            exfalso
            rcases was with ⟨-, k⟩ | ⟨-, k⟩ | ⟨-, k⟩ <;> rw [k] at opened <;> cases opened

theorem weaken {more : List Nat} (h : State.Evaluating start s left) (sub : left ⊆ more) :
    State.Evaluating start s more :=
  ⟨h.table, h.lists, fun c hc k => h.settled c hc fun m => k (sub m), h.moved⟩

theorem mem_othersOf {c d : Call} (hd : d ∈ s.calls) (tag : d.tag ≠ c.tag) (berth : d.berth = c.berth) :
    d.tag ∈ s.othersOf c :=
  List.mem_map_of_mem (List.mem_filter.2 ⟨hd, by simp [tag, berth]⟩)

/-- The evaluation of a call settles it, and the other call of its berth where it may be concerned (R56, R57). -/
theorem evaluate {tag : Nat} (h : State.Evaluating start s (tag :: left)) :
    State.Evaluating start (s.evaluate tag) left := by
  unfold State.evaluate
  cases e : s.callOf tag with
  | none =>
    refine ⟨h.table, h.lists, fun c hc k => h.settled c hc fun m => ?_, h.moved⟩
    rcases List.mem_cons.1 m with m | m
    · exact State.callOf_none.1 e c hc m
    · exact k m
  | some c =>
    obtain ⟨hc, rfl⟩ := State.callOf_some e
    dsimp only
    by_cases clearing : s.transitionOf c = some .clearing
    · rw [if_pos clearing]
      have one : State.Evaluating start (s.evaluateOnce c.tag) (s.othersOf c ++ left) := by
        refine evaluateOnce (h.weaken fun n hn => ?_) fun d hd tag _ f hf other berth => ?_
        · rcases List.mem_cons.1 hn with rfl | hn
          · exact List.mem_cons_self
          · exact List.mem_cons_of_mem _ (List.mem_append_right _ hn)
        · obtain rfl := h.lists.tag_inj hd hc tag
          exact List.mem_append_left _ (mem_othersOf hf other berth)
      have few := h.table.othersOf hc
      rcases list : s.othersOf c with _ | ⟨n, _ | ⟨m, rest⟩⟩
      · rw [list] at one; exact one
      · rw [list] at one
        refine evaluateOnce one fun d hd tag freed => ?_
        have was : c.state = .singling := by
          rcases State.transitionOf_eq_some clearing with ⟨-, k, -⟩ | ⟨-, k, -⟩ | ⟨was, -⟩
          · cases k
          · cases k
          · exact was
        exfalso
        have mem : n ∈ s.othersOf c := by rw [list]; exact List.mem_cons_self
        obtain ⟨f, hf, rfl⟩ := List.mem_map.1 mem
        obtain ⟨hf, k⟩ := List.mem_filter.1 hf
        simp only [Bool.and_eq_true, bne_iff_ne, beq_iff_eq] at k
        have same : d.state = f.state := by
          have e : s.evaluateOnce c.tag = s.callTo c .clearing := by
            simp only [State.evaluateOnce, e, clearing]
          rw [e] at hd
          obtain ⟨d', hd', rfl⟩ := State.mem_callTo.1 hd
          split at tag
          · next own => exact absurd (tag.symm.trans own) k.1
          · next own => rw [if_neg own, h.lists.tag_inj hd' hf tag]
        rcases State.transitionOf_eq_some freed with ⟨-, k', -⟩ | ⟨-, k', -⟩ | ⟨singling, -⟩
        · cases k'
        · cases k'
        · exact k.1 (h.table.oneActive f hf c hc k.2 (by rw [← same, singling]; rfl) (by rw [was]; rfl))
      · rw [list] at few; simp at few
    · rw [if_neg clearing]
      refine evaluateOnce h fun d hd tag freed => ?_
      obtain rfl := h.lists.tag_inj hd hc tag
      exact absurd freed clearing

theorem foldl (tags : List Nat) (h : State.Evaluating start s (tags ++ left)) :
    State.Evaluating start (tags.foldl State.evaluate s) left := by
  induction tags generalizing s with
  | nil => exact h
  | cons n tags ih => exact ih h.evaluate

theorem callsOk (h : State.Evaluating start s []) : s.CallsOk :=
  h.table.callsOk h.lists fun c hc => h.settled c hc List.not_mem_nil

end State.Evaluating

/-- A call that the event does not concern is settled, as it was. -/
theorem State.settled_of_not_due {before : State} (h : before.CallsOk) (same : before.SameTable s) {c : Call}
    (hc : c ∈ s.calls) (due : State.evaluationDue before s c = false) : s.transitionOf c = none := by
  unfold State.evaluationDue at due
  split at due
  · cases due
  · next d hd =>
    obtain ⟨mem, tag⟩ := State.callOf_some hd
    simp only [Bool.or_eq_false_iff, bne_eq_false_iff_eq, List.any_eq_false, Bool.or_eq_true, bne_iff_ne, not_or,
      not_not] at due
    obtain ⟨list, stations⟩ := due
    obtain ⟨d', hd', bare⟩ := same.mem hc
    obtain ⟨tag', berth, state, lines, need⟩ := Call.bare_eq bare
    obtain rfl := h.listsOk.tag_inj hd' mem (tag'.trans tag.symm)
    have settled := h.settled d' hd'
    have alone : s.noOtherActive c = before.noOtherActive d' := by
      unfold State.noOtherActive
      rw [← tag', ← berth]
      exact same.all _ fun _ => rfl
    have test : s.heldTest c = before.heldTest d' := by
      unfold State.heldTest
      rw [alone, ← list, ← need, ← lines]
      congr 2
      rw [Bool.eq_iff_iff, List.all_eq_true, List.all_eq_true]
      refine forall₂_congr fun j hj => ?_
      rw [need, (stations j (list ▸ hj)).2]
    have holds : c.list.any s.holding = d'.list.any before.holding := by
      rw [← list, Bool.eq_iff_iff, List.any_eq_true, List.any_eq_true]
      refine exists_congr fun j => and_congr_right fun hj => ?_
      rw [(stations j (list ▸ hj)).1]
    rw [State.transitionOf_eq_none] at settled ⊢
    rw [test, holds, ← state]
    exact settled

/-- The evaluations of an event that leaves the table alone but for the lists (R56). -/
theorem State.settleCalls_evaluating {before : State} (h : before.CallsOk) (same : before.SameTable s)
    (lists : s.ListsOk) : State.Evaluating s (State.settleCalls before s) [] := by
  refine State.Evaluating.foldl _ ⟨h.tableOk.congr same, lists, fun c hc k => ?_, fun c hc => ⟨c, hc, rfl, .inl rfl⟩⟩
  refine State.settled_of_not_due h same hc (Bool.eq_false_iff.2 fun due => k ?_)
  rw [List.append_nil]
  exact List.mem_map_of_mem (List.mem_filter.2 ⟨hc, due⟩)

end Sys2Proof.Machine
end

