-- ==== Sys2Proof/Proofs/Afterwards.lean ====
section
/-! PROOF. What an event leaves at its station: the site is fit and held, and its state is one that the table of R3
allows (`Site.After`). The rules here are about entering states, submissions, faults and releases; the ends of motions
follow in the next file. -/

namespace Sys2Proof.Machine

/-! ### The moves of a station (R3) -/

/-- The states that a state goes to within an event (R3). -/
def LineState.next : LineState → List LineState
  | .unknown => [.stowed, .released, .outUnclaimed, .inLocal, .fault]
  | .stowed => [.paying, .inLocal, .fault]
  | .paying => [.heaving, .rewinding, .inLocal, .fault]
  | .heaving => [.fast, .trimming, .released, .inLocal, .fault]
  | .fast => [.trimming, .easing, .released, .inLocal, .fault]
  | .trimming => [.fast, .eased, .released, .inLocal, .fault]
  | .easing => [.eased, .released, .inLocal, .fault]
  | .eased => [.fast, .easing, .trimming, .released, .inLocal, .fault]
  | .released => [.rewinding, .inLocal, .fault]
  | .rewinding => [.stowed, .released, .inLocal, .fault]
  | .inLocal => [.stowed, .paying, .heaving, .fast, .easing, .eased, .released, .rewinding, .outUnclaimed, .fault]
  | .outUnclaimed => [.fast, .released, .inLocal, .fault]
  | .fault => [.stowed, .fast, .released, .outUnclaimed, .inLocal]

/-- A state stands or goes to one of the states the table gives. -/
def LineState.goes (old new : LineState) : Bool := new == old || old.next.contains new

theorem LineState.goes_refl (state : LineState) : state.goes state = true := by simp [LineState.goes]

theorem LineState.goes_iff {old new : LineState} : old.goes new = true ↔ new = old ∨ new ∈ old.next := by
  simp [LineState.goes]

/-- What an event leaves at its station, before the grants at its end. -/
structure Site.After (old : LineState) (k : Site) : Prop where
  fit : k.Fit
  held : k.Held
  goes : old.goes k.x.state = true
  trims : ∀ q ∈ k.qs, q.work.isTrim = true → old.goes .trimming = true

variable {k l : Site} {old : LineState}

theorem LineState.goes_trimming_of_pending {w : Work} {state : LineState} (h : w.pendingIn state = true)
    (trim : w.isTrim = true) : state.goes .trimming = true := by
  cases w with
  | trim d c => cases state <;> first | rfl | (cases h; done)
  | heave | slacken n | rewind => cases trim

/-- A station that stays in its state. -/
theorem Site.After.stay (fit : k.Fit) (held : k.Held) (state : k.x.state = old) : k.After old where
  fit := fit
  held := held
  goes := state ▸ LineState.goes_refl _
  trims q hq trim := state ▸ LineState.goes_trimming_of_pending (fit.doing.of_request hq).2.1 trim

/-- A station that no request is left of. -/
theorem Site.After.of_empty (fit : k.Fit) (held : k.Held) (goes : old.goes k.x.state = true) (qs : k.qs = []) :
    k.After old :=
  ⟨fit, held, goes, fun q hq => by rw [qs] at hq; cases hq⟩

/-- The clauses of the hold read the requests and the operation only. -/
theorem Site.Held.congr (h : k.Held) (hold : l.hold = k.hold) (qs : l.qs = k.qs) (active : l.x.active = k.x.active) :
    l.Held := by
  unfold Site.Held
  rw [hold, qs, active]
  exact h

/-- A station without requests and operation is held. -/
theorem Site.held_of_none (qs : k.qs = []) (active : k.x.active = none) : k.Held := fun _ =>
  ⟨qs, fun a ha => by rw [active] at ha; cases ha⟩

theorem Site.held_of_free (hold : k.hold = false) : k.Held := fun h => by rw [hold] at h; cases h

/-! ### Idle stations and their submissions -/

/-- No unit serves the station and it has no work. -/
structure Site.Idle (k : Site) : Prop where
  qs : k.qs = []
  v : k.v = none
  unit : k.x.unit = none
  active : k.x.active = none
  parked : k.x.parked = none
  timer : k.x.motionTimer = none
  still : k.x.still = true

namespace Site.Idle

theorem doing (h : k.Idle) (state : k.x.state ≠ .trimming) : k.Doing :=
  .free h.qs h.v h.unit h.active h.parked h.timer h.still state

theorem held (h : k.Idle) : k.Held := Site.held_of_none h.qs h.active

theorem submitted {q : Request} (h : k.Idle) (work : q.work.pendingIn k.x.state = true) :
    Site.Doing { k with qs := [q] } :=
  .pending q rfl work h.v h.unit h.active h.parked h.timer h.still

end Site.Idle

/-- The one request of a fit site of an idle station. -/
theorem Site.Fit.submitted {q : Request} (h : k.Fit) (idle : k.Idle) (work : q.work.pendingIn k.x.state = true) :
    Site.Fit { k with qs := [q] } :=
  ⟨h.recorded, idle.submitted work, h.geared, h.watched⟩

/-- What an idle station, or one with a pending request, becomes by a wanted TRIM in FAST or EASED. -/
theorem Site.Fit.wanted {i : StationId} {wanted : Option (Direction × Bool)} (h : k.Fit)
    (state : k.x.state = .fast ∨ k.x.state = .eased) : Site.Fit { k with qs := wantedRequests i k.qs wanted } := by
  have rest : k.x.state.holdsUnit = false ∧ k.x.state ≠ .trimming ∧ k.x.state ≠ .rewinding ∧
      (∀ w : Work, w.parkedIn k.x.state = false) ∧ (∀ w : Work, w.activeIn k.x.state = false) := by
    rcases state with e | e <;> rw [e] <;> refine ⟨rfl, nofun, nofun, fun w => ?_, fun w => ?_⟩ <;> cases w <;> rfl
  obtain ⟨holds, trimming, rewinding, noPark, noActive⟩ := rest
  have pendingIn : ∀ d c, (Work.trim d c).pendingIn k.x.state = true := by
    rcases state with e | e <;> rw [e] <;> intros <;> rfl
  refine ⟨h.recorded, ?_, h.geared, h.watched⟩
  cases h.doing with
  | free qs v unit active parked timer still _ =>
    cases wanted with
    | none => exact .free rfl v unit active parked timer still trimming
    | some dc =>
      obtain ⟨d, c⟩ := dc
      exact .pending ⟨i, .trim d c, false⟩ (by simp [wantedRequests, qs]) (pendingIn d c) v unit active parked timer still
  | pending q qs work v unit active parked timer still =>
    cases wanted with
    | none => exact .free rfl v unit active parked timer still trimming
    | some dc =>
      obtain ⟨d, c⟩ := dc
      refine .pending (if q.work.isTrim then { q with work := .trim d c } else q) (by simp [wantedRequests, qs]) ?_ v unit
        active parked timer still
      split
      · exact pendingIn d c
      · exact work
  | parked p _ _ work => rw [noPark] at work; cases work
  | awaiting b _ _ state => exact absurd state rewinding
  | granted u d w b _ _ work => rw [noActive] at work; cases work
  | moving u d w b m _ _ work => rw [noActive] at work; cases work
  | locking u d _ _ holds' => rw [holds] at holds'; cases holds'

/-! ### Entering states -/

theorem LineState.endState_watched {state : LineState} (h : state.holdsUnit = true) :
    state.gearAtRest = false ∧ state ≠ .inLocal ∧ state ≠ .unknown ∧ state ≠ .fault ∧ state.unmoored = false := by
  cases state <;> first | (cases h; done) | simp [LineState.gearAtRest, LineState.unmoored]

/-- The record's clauses of a station that has entered a state outside TRIMMING and LOCAL. -/
theorem Station.Recorded.enter {x y : Station} {r : Option Mooring} (h : x.Recorded r) (out : x.state ≠ .inLocal)
    (resting : y.resting = none) (takeOver : y.takeOver = x.takeOver)
    (new : y.state ≠ .trimming ∧ y.state ≠ .inLocal) (present : y.state.moored = true → r.isSome = true)
    (absent : y.state.unmoored = true → r = none) : y.Recorded r :=
  .of_plain h.valid resting (takeOver.trans (h.takeOver_none out)) new.1 new.2 present absent

end Sys2Proof.Machine
end

