-- ==== Sys2Proof/Proofs/Endings.lean ====
section
/-! PROOF. The ends of operations: a grant given back, an operation that fails at its grant, a motion that stops, its lock
step, and what the station does next. -/

namespace Sys2Proof.Machine

variable {s : State} {i : StationId} {k : Site}

/-! ### A station gives up its unit and its operation -/

/-- The site of a station outside FAST that enters a state outside TRIMMING. -/
theorem State.site_enter_of {state : LineState} (new : state ≠ .trimming) (old : (s.site i).x.state ≠ .fast) :
    (s.enter i state).site i = { s.site i with
      x := (s.site i).x.entered state
      c := (s.site i).c.entering state } := by
  rw [State.site_enter]
  simp only [new, old, if_false, Station.entered, Channel.entering]

/-- A site that has given up its unit and its operation, in a state outside TRIMMING. -/
def Site.quit (k : Site) (state : LineState) : Site :=
  { k with
    x := { k.x with state := state, resting := none, unit := none, active := none }
    c := k.c.entering state
    v := none }

/-- What the end of an operation asks of the site, its unit perhaps still serving: everything but the unit and the active
operation is in order, no request waits, no motion is in progress and no motion step is in flight. -/
structure Site.Ending (k : Site) : Prop where
  recorded : k.x.Recorded k.r
  geared : k.x.Geared
  watched : k.c.Watched k.x.state k.r k.cal.decimation
  qs : k.qs = []
  timer : k.x.motionTimer = none
  still : k.x.still = true
  holds : k.x.state.holdsUnit = true
  active : ∀ a ∈ k.x.active, a.work.activeIn k.x.state = true ∧ k.x.parked = none
  parked : ∀ p ∈ k.x.parked, p.work.parkedIn k.x.state = true

/-- The states an operation's end leads to. -/
def LineState.endsIn (state new : LineState) : Bool :=
  match state, new with
  | .trimming, .fast | .trimming, .eased | .heaving, .fast | .easing, .eased | .rewinding, .released => true
  | _, _ => false

theorem LineState.endsIn_cases {state new : LineState} (h : state.endsIn new = true) :
    state.goes new = true ∧ state.holdsUnit = true ∧ new ≠ .trimming ∧ new ≠ .inLocal ∧ new.gearAtRest = false ∧
      new.unmoored = false ∧ (new.moored = true → state.moored = true) ∧
      (new = .fast → state.goes .trimming = true) := by
  cases state <;> cases new <;> first | (cases h; done) | (refine ⟨rfl, rfl, ?_⟩ <;> simp [LineState.gearAtRest,
    LineState.unmoored, LineState.moored, LineState.goes, LineState.next])

namespace Site.Ending

variable {new : LineState}

theorem quit_fit (h : k.Ending) (parked : k.x.parked = none) (ends : k.x.state.endsIn new = true) :
    (k.quit new).Fit ∧ (k.quit new).Idle := by
  obtain ⟨-, -, trimming, inLocal, watched, unmoored, moored, -⟩ := LineState.endsIn_cases ends
  obtain ⟨rest, out, -⟩ := LineState.endState_watched h.holds
  have idle : (k.quit new).Idle := ⟨h.qs, rfl, rfl, rfl, parked, h.timer, h.still⟩
  refine ⟨⟨h.recorded.enter out rfl rfl ⟨trimming, inLocal⟩ (fun m => h.recorded.present (moored m)) fun m => ?_,
    idle.doing trimming, h.geared.move rfl rest watched, h.watched.entering⟩, idle⟩
  rw [show new.unmoored = true from m] at unmoored; cases unmoored

theorem trimming_parked (h : k.Ending) (state : k.x.state = .trimming) : k.x.parked = none := by
  rw [Option.eq_none_iff_forall_not_mem]
  intro p hp
  have := h.parked p hp
  rw [state] at this
  cases w : p.work <;> rw [w] at this <;> cases this

/-- The resting state of a TRIM (R91). -/
theorem restingOf (h : k.Ending) (state : k.x.state = .trimming) :
    k.x.state.endsIn (k.x.resting.getD .fast) = true := by
  obtain ⟨rest, e⟩ := Option.isSome_iff_exists.1 (h.recorded.resting.2 state)
  rw [e, Option.getD_some, state]
  rcases h.recorded.restingState rest e with rfl | rfl <;> rfl

end Site.Ending

theorem State.site_renderIfCritical (cause : StopCause) :
    (s.renderIfCritical i cause).site i = { s.site i with
      qs := if cause = .critical ∧ (s.site i).c.critCondition = true ∧ (s.site i).x.state = .fast ∧ (s.site i).hold = false
        then wantedRequests i (s.site i).qs (some (.outward, true)) else (s.site i).qs } := by
  unfold State.renderIfCritical
  rw [State.channel_eq_site, State.station_eq_site]
  split
  · next h =>
    rw [State.site_wantCriticalRender]
    cases hold : (s.site i).hold <;> simp [h]
  · next h =>
    rw [if_neg fun c => h ⟨c.1, c.2.1, c.2.2.1⟩]

/-- A station that has come to rest and asks for a critical render, where it is in FAST (R96). -/
theorem State.renderIfCritical_after {old : LineState} (fit : (s.site i).Fit) (idle : (s.site i).Idle)
    (goes : old.goes (s.site i).x.state = true) (trims : (s.site i).x.state = .fast → old.goes .trimming = true)
    (cause : StopCause) : ((s.renderIfCritical i cause).site i).After old := by
  rw [State.site_renderIfCritical]
  split
  · next h =>
    obtain ⟨-, -, fast, hold⟩ := h
    exact ⟨fit.wanted (.inl fast), Site.held_of_free hold, goes, fun _ _ _ => trims fast⟩
  · exact .of_empty fit idle.held goes idle.qs

theorem State.restingOf_eq_site : s.restingOf i = (s.site i).x.resting.getD .fast := rfl

/-- A grant given back leaves the station in a state without an operation (R115). -/
theorem State.site_giveBack_enter {state : LineState} (new : state ≠ .trimming) (old : (s.site i).x.state ≠ .fast) :
    ((s.giveBack i).enter i state).site i = (s.site i).quit state := by
  unfold State.giveBack
  have e : ((s.releaseUnit i).dropActive i).site i =
      { s.site i with x := { (s.site i).x with unit := none, active := none }, v := none } := by
    rw [State.site_dropActive, State.site_releaseUnit]
  rw [State.site_enter_of new (by rw [e]; exact old), e]
  rfl

theorem LineState.ne_fast_of_holdsUnit {state : LineState} (h : state.holdsUnit = true) : state ≠ .fast := by
  rintro rfl; cases h

/-! ### Failures (R119, R120) -/

/-- The work that a commanded operation still has, in the state that carries the operation out (R124, R151). -/
theorem ActiveOp.remainingWork_waits {a : ActiveOp} {state : LineState} (trim : a.work.isTrim = false)
    (work : a.work.activeIn state = true) : a.remainingWork.pendingIn state = true ∧
      a.remainingWork.parkedIn state = true ∧ a.remainingWork.parkedIn .inLocal = true ∧ state ≠ .trimming := by
  obtain ⟨w, b, p⟩ := a
  cases w with
  | trim d c => cases trim
  | rewind =>
    obtain rfl : state = .rewinding := by simpa [Work.activeIn] using work
    cases p <;> exact ⟨rfl, rfl, rfl, nofun⟩
  | heave =>
    obtain rfl : state = .heaving := by simpa [Work.activeIn] using work
    cases p <;> exact ⟨rfl, rfl, rfl, nofun⟩
  | slacken n =>
    obtain rfl : state = .easing := by simpa [Work.activeIn] using work
    cases p <;> exact ⟨rfl, rfl, rfl, nofun⟩

/-- A commanded operation that fails, its unit given up (R120). -/
theorem State.commandedFailure_after (h : (s.site i).Ending) (v : (s.site i).v = none)
    (unit : (s.site i).x.unit = none) (parked : (s.site i).x.parked = none) (a : ActiveOp)
    (active : (s.site i).x.active = some a) (trim : a.work.isTrim = false) :
    ((s.commandedFailure i a).site i).After (s.site i).x.state := by
  have work := (h.active a active).1
  have e : (s.dropActive i).site i = { s.site i with x := { (s.site i).x with active := none } } := s.site_dropActive
  obtain ⟨rest, out, -⟩ := LineState.endState_watched h.holds
  obtain ⟨pendingIn, parkedIn, -, noTrim⟩ := ActiveOp.remainingWork_waits trim work
  have idle : ((s.dropActive i).site i).Idle := by
    rw [e]; exact ⟨h.qs, v, unit, rfl, parked, h.timer, h.still⟩
  have fit : ((s.dropActive i).site i).Fit := by
    rw [e] at idle ⊢
    exact ⟨h.recorded.congr rfl rfl rfl, idle.doing noTrim, h.geared.congr rfl rfl, h.watched⟩
  have state : ((s.dropActive i).site i).x.state = (s.site i).x.state := by rw [e]
  unfold State.commandedFailure
  dsimp only
  split
  · rw [State.station_eq_site, state]
    have ends : (s.site i).x.state.endsIn (s.site i).x.state.abandoned = true := by
      have := h.holds
      cases st : (s.site i).x.state <;> rw [st] at this noTrim <;> first | rfl | (cases this; done) | exact absurd rfl noTrim
    have ending : ((s.dropActive i).site i).Ending := by
      rw [e]
      exact ⟨h.recorded.congr rfl rfl rfl, h.geared.congr rfl rfl, h.watched, h.qs, h.timer, h.still, h.holds, nofun,
        h.parked⟩
    have quit := ending.quit_fit (new := (s.site i).x.state.abandoned) (by rw [e]; exact parked) (by rw [state]; exact ends)
    have site : ((s.dropActive i).enter i (s.site i).x.state.abandoned).site i =
        ((s.dropActive i).site i).quit (s.site i).x.state.abandoned := by
      rw [State.site_enter_of (LineState.endsIn_cases ends).2.2.1
        (by rw [state]; exact LineState.ne_fast_of_holdsUnit h.holds), Site.quit, e]
      simp only [Station.entered, unit, v]
    rw [State.site_raise, site]
    exact .of_empty (quit.1.congr rfl rfl rfl rfl rfl rfl rfl rfl rfl rfl rfl rfl rfl) (quit.2.held.congr rfl rfl rfl)
      (LineState.endsIn_cases ends).1 quit.2.qs
  · split
    · next hold =>
      rw [State.site_park, e]
      refine .stay ⟨h.recorded.congr rfl rfl rfl, ?_, h.geared.congr rfl rfl, h.watched⟩
        (Site.held_of_none h.qs rfl) rfl
      exact .parked ⟨a.remainingWork, true⟩ h.qs rfl parkedIn v unit rfl h.timer h.still
    · next hold =>
      rw [State.site_requeue _ _ _ idle.qs, e]
      refine .stay ?_ (Site.held_of_free (Bool.eq_false_iff.2 hold)) rfl
      rw [← e]
      exact fit.submitted idle (state ▸ pendingIn)

/-- The state in which an operation is active. -/
theorem Work.activeIn_cases {w : Work} {state : LineState} (h : w.activeIn state = true) :
    state.holdsUnit = true ∧ (w.isTrim = true ↔ state = .trimming) := by
  cases w <;> cases state <;> first | (cases h; done) | simp [LineState.holdsUnit, Work.isTrim]

/-- An operation that fails at its grant, its unit given up (R117, R119, R120). -/
theorem State.failWaiting_after (h : (s.site i).Ending) (v : (s.site i).v = none)
    (unit : (s.site i).x.unit = none) {a : ActiveOp} (active : (s.site i).x.active = some a) :
    ((s.failWaiting i).site i).After (s.site i).x.state := by
  obtain ⟨work, parked⟩ := h.active a active
  unfold State.failWaiting
  rw [State.station_eq_site, active]
  dsimp only
  by_cases trim : a.work.isTrim = true
  · rw [if_pos trim, State.restingOf_eq_site]
    have state := (Work.activeIn_cases work).2.1 trim
    have ends := h.restingOf state
    obtain ⟨fit, idle⟩ := h.quit_fit parked ends
    have site : ((s.dropActive i).enter i ((s.site i).x.resting.getD .fast)).site i =
        (s.site i).quit ((s.site i).x.resting.getD .fast) := by
      rw [State.site_enter_of (LineState.endsIn_cases ends).2.2.1
        (by rw [State.site_dropActive]; exact LineState.ne_fast_of_holdsUnit h.holds), State.site_dropActive, Site.quit]
      simp only [Station.entered, unit, v]
    have goes := (LineState.endsIn_cases ends).1
    split
    · rw [site]
      exact .of_empty fit idle.held goes idle.qs
    · next hold =>
      have free : ((s.site i).quit ((s.site i).x.resting.getD .fast)).hold = false := by
        rw [State.hold_eq_site _ i, site] at hold
        exact Bool.eq_false_iff.2 hold
      have pendingIn : a.work.pendingIn ((s.site i).x.resting.getD .fast) = true := by
        have : (s.site i).x.resting.getD .fast = .fast ∨ (s.site i).x.resting.getD .fast = .eased := by
          cases e : (s.site i).x.resting with
          | none => exact .inl rfl
          | some r => exact h.recorded.restingState r e
        cases w : a.work <;> rw [w] at trim <;> first
          | (cases trim; done)
          | (rcases this with e | e <;> rw [e] <;> rfl)
      rw [State.site_requeue _ _ _ (by rw [site]; exact idle.qs), site]
      exact ⟨fit.submitted idle pendingIn, Site.held_of_free free, goes,
        fun _ _ _ => by rw [state]; rfl⟩
  · rw [if_neg trim]
    exact s.commandedFailure_after h v unit parked a active (Bool.eq_false_iff.2 trim)

/-! ### The motion lock step (R16, R127, R143, R147) -/

/-- The unit is released from an ending station. -/
theorem Site.Ending.released (h : (s.site i).Ending) : ((s.releaseUnit i).site i).Ending := by
  rw [State.site_releaseUnit]
  exact ⟨h.recorded.congr rfl rfl rfl, h.geared.congr rfl rfl, h.watched, h.qs, h.timer, h.still, h.holds, h.active,
    h.parked⟩

theorem State.site_stow (k : (s.site i).x.state ≠ .fast) :
    (s.stow i).site i = if (s.site i).r.isSome then { s.site i with
        x := (s.site i).x.entered .stowed
        r := none
        c := { (s.site i).c.leftBand with critCount := 0, readingSinceRecord := false, critCondition := false }
        alert := if (s.site i).c.critCondition = false then (s.site i).alert
          else if (s.site i).mode = .criticalOnly then (s.site i).othersCritical else (s.site i).alert }
      else { s.site i with x := (s.site i).x.entered .stowed, c := (s.site i).c.leftBand } := by
  unfold State.stow
  have e := s.site_enter_of (i := i) (state := .stowed) nofun k
  split
  · next r =>
    rw [State.site_retireRecord _ (by rw [e]; exact r), e]
    rfl
  · next r =>
    rw [State.site_retireRecord_of_none _ (by rw [e]; exact Option.not_isSome_iff_eq_none.1 r), e]
    rfl

/-- The record is gone from a station that has gone to STOWED, and the channel is in order (R44, R46). -/
theorem State.stow_site (k : (s.site i).x.state ≠ .fast)
    (watched : (s.site i).c.Watched (s.site i).x.state (s.site i).r (s.site i).cal.decimation) :
    ∃ c alert, (s.stow i).site i =
        { s.site i with x := (s.site i).x.entered .stowed, r := none, c := c, alert := alert } ∧
      c.Watched .stowed none (s.site i).cal.decimation := by
  have left : (s.site i).c.leftBand.Watched .stowed (s.site i).r (s.site i).cal.decimation := watched.leftBand
  rw [State.site_stow k]
  split
  · exact ⟨_, _, rfl, left.cleared rfl rfl⟩
  · next r =>
    have none := Option.not_isSome_iff_eq_none.1 r
    rw [none] at left
    exact ⟨(s.site i).c.leftBand, (s.site i).alert, by rw [← none], left⟩

/-- An idle station in order that goes to STOWED (R44, R143). -/
theorem State.stow_fit (recorded : (s.site i).x.Recorded (s.site i).r) (idle : (s.site i).Idle)
    (geared : Station.Geared { (s.site i).x with state := .stowed })
    (watched : (s.site i).c.Watched (s.site i).x.state (s.site i).r (s.site i).cal.decimation)
    (out : (s.site i).x.state ≠ .inLocal) (fast : (s.site i).x.state ≠ .fast) :
    ((s.stow i).site i).Fit ∧ ((s.stow i).site i).Idle ∧ ((s.stow i).site i).x.state = .stowed := by
  obtain ⟨c, alert, site, watched⟩ := State.stow_site fast watched
  have idle' : ((s.stow i).site i).Idle := by
    rw [site]; exact ⟨idle.qs, idle.v, idle.unit, idle.active, idle.parked, idle.timer, idle.still⟩
  rw [site] at idle' ⊢
  exact ⟨⟨.of_plain nofun rfl (recorded.takeOver_none out) nofun nofun nofun fun _ => rfl, idle'.doing nofun,
    geared.congr rfl rfl, watched⟩, idle', rfl⟩

section
variable (i)

theorem State.commandedEnd_of_failure {a : ActiveOp} (cause : (s.station i).stopCause = .driveFault)
    (active : (s.station i).active = some a) : s.commandedEnd i = s.commandedFailure i a := by
  simp only [State.commandedEnd, cause, active]

/-- No failure in motion ends the operation (R120). -/
def Station.endsWell (x : Station) : Prop := x.stopCause = .driveFault → x.active = none

theorem State.commandedEnd_heaving (well : (s.station i).endsWell) (state : (s.station i).state = .heaving) :
    s.commandedEnd i = ((s.dropActive i).enter i .fast).renderIfCritical i (s.station i).stopCause := by
  unfold Station.endsWell at well
  unfold State.commandedEnd
  dsimp only
  split <;> simp_all

theorem State.commandedEnd_easing (well : (s.station i).endsWell) (state : (s.station i).state = .easing) :
    s.commandedEnd i = (s.dropActive i).enter i .eased := by
  unfold Station.endsWell at well
  unfold State.commandedEnd
  dsimp only
  split <;> simp_all

theorem State.commandedEnd_rewinding (well : (s.station i).endsWell) (state : (s.station i).state = .rewinding) :
    s.commandedEnd i =
      if (s.station i).stopCause = .done then (s.dropActive i).stow i else (s.dropActive i).enter i .released := by
  unfold Station.endsWell at well
  unfold State.commandedEnd
  dsimp only
  split <;> simp_all

end

/-- The end of a commanded operation, its unit released (R120, R127, R143). -/
theorem State.commandedEnd_after (h : (s.site i).Ending) (v : (s.site i).v = none) (unit : (s.site i).x.unit = none)
    (parked : (s.site i).x.parked = none) (trimming : (s.site i).x.state ≠ .trimming) :
    ((s.commandedEnd i).site i).After (s.site i).x.state := by
  have e : (s.dropActive i).site i = { s.site i with x := { (s.site i).x with active := none } } := s.site_dropActive
  have ends : ∀ new, (s.site i).x.state.endsIn new = true →
      ((s.dropActive i).enter i new).site i = (s.site i).quit new := by
    intro new ends
    rw [State.site_enter_of (LineState.endsIn_cases ends).2.2.1
      (by rw [e]; exact LineState.ne_fast_of_holdsUnit h.holds), Site.quit, e]
    simp only [Station.entered, unit, v]
  by_cases well : (s.station i).endsWell
  · have into : ∀ new, (s.site i).x.state.endsIn new = true →
        (((s.dropActive i).enter i new).site i).After (s.site i).x.state := by
      intro new into
      obtain ⟨fit, idle⟩ := h.quit_fit parked into
      rw [ends _ into]
      exact .of_empty fit idle.held (LineState.endsIn_cases into).1 idle.qs
    have holds := h.holds
    cases state : (s.site i).x.state with
    | heaving =>
      have fast : (s.site i).x.state.endsIn .fast = true := by rw [state]; rfl
      obtain ⟨fit, idle⟩ := h.quit_fit parked fast
      rw [s.commandedEnd_heaving i well state, ← state]
      refine State.renderIfCritical_after ?_ ?_ ?_ (fun _ => by rw [state]; rfl) _
      all_goals rw [ends _ fast]
      · exact fit
      · exact idle
      · exact (LineState.endsIn_cases fast).1
    | easing =>
      rw [s.commandedEnd_easing i well state, ← state]
      exact into _ (by rw [state]; rfl)
    | rewinding =>
      rw [s.commandedEnd_rewinding i well state]
      split
      · have rest : (s.site i).x.state.gearAtRest = false := by rw [state]; rfl
        have idle : ((s.dropActive i).site i).Idle := by
          rw [e]; exact ⟨h.qs, v, unit, rfl, parked, h.timer, h.still⟩
        have still : ((s.dropActive i).site i).x.state = .rewinding := by rw [e]; exact state
        obtain ⟨fit, idle, stowed⟩ := State.stow_fit (s := s.dropActive i) (by rw [e]; exact h.recorded.congr rfl rfl rfl)
          idle (by rw [e]; exact h.geared.move rfl rest rfl) (by rw [e]; exact h.watched) (by rw [still]; exact nofun)
          (by rw [still]; exact nofun)
        exact .of_empty fit idle.held (by rw [stowed]; rfl) idle.qs
      · rw [← state]; exact into _ (by rw [state]; rfl)
    | trimming => exact absurd state trimming
    | _ => rw [state] at holds; cases holds
  · unfold Station.endsWell at well
    push Not at well
    obtain ⟨cause, some⟩ := well
    obtain ⟨a, active⟩ := Option.ne_none_iff_exists'.1 some
    rw [s.commandedEnd_of_failure i cause active]
    refine s.commandedFailure_after h v unit parked a active (Bool.eq_false_iff.2 fun trim => trimming ?_)
    exact (Work.activeIn_cases (h.active a active).1).2.1 trim

/-- A parked operation that its station's state takes back waits in that state. -/
theorem Work.pendingIn_of_parkedIn {w : Work} {state : LineState} (h : w.parkedIn state = true)
    (out : state ≠ .inLocal) : w.pendingIn state = true := by
  cases w with
  | trim d c => cases h
  | heave | slacken n | rewind => simpa [Work.parkedIn, Work.pendingIn, out] using h

/-- The end of the motion lock step, or of a motion whose lock step completes at its start (R16). -/
theorem State.lockStepDone_after (h : (s.site i).Ending) : ((s.lockStepDone i).site i).After (s.site i).x.state := by
  have e := s.site_releaseUnit (i := i)
  have released := h.released
  have state : ((s.releaseUnit i).site i).x.state = (s.site i).x.state := by rw [e]
  have holds := h.holds
  unfold State.lockStepDone
  rw [State.station_eq_site]
  dsimp only
  have commanded : (s.site i).x.state ≠ .trimming →
      ((if (s.site i).x.parked.isSome = true then
          if (s.releaseUnit i).hold = true then s.releaseUnit i else (s.releaseUnit i).submitParked i
        else (s.releaseUnit i).commandedEnd i).site i).After (s.site i).x.state := by
    intro trimming
    have noWork : ∀ p ∈ (s.site i).x.parked, (s.site i).x.active = none := fun p hp => by
      rw [Option.eq_none_iff_forall_not_mem]
      intro a ha
      rw [(h.active a ha).2] at hp; cases hp
    split
    · next some =>
      obtain ⟨p, hp⟩ := Option.isSome_iff_exists.1 some
      have active := noWork p hp
      split
      · rw [e]
        refine .stay ⟨h.recorded.congr rfl rfl rfl, ?_, h.geared.congr rfl rfl, h.watched⟩
          (Site.held_of_none h.qs active) rfl
        exact .parked p h.qs hp (h.parked p hp) rfl rfl active h.timer h.still
      · next hold =>
        have free : (s.site i).hold = false := by
          rw [State.hold_eq_site _ i, e] at hold
          exact Bool.eq_false_iff.2 hold
        rw [State.site_submitParked _ (by rw [e]; exact h.qs), e]
        refine .stay ⟨h.recorded.congr rfl rfl rfl, ?_, h.geared.congr rfl rfl, h.watched⟩ (Site.held_of_free free) rfl
        exact .pending ⟨i, p.work, p.retryUsed⟩ (by simp [hp])
          (Work.pendingIn_of_parkedIn (h.parked p hp) (LineState.endState_watched holds).2.1) rfl rfl active rfl h.timer
          h.still
    · next none =>
      rw [← state]
      exact State.commandedEnd_after released (by rw [e]) (by rw [e])
        (by rw [e]; exact Option.not_isSome_iff_eq_none.1 none) (by rw [state]; exact trimming)
  cases st : (s.site i).x.state with
  | trimming =>
    dsimp only
    have ends := h.restingOf st
    obtain ⟨fit, idle⟩ := h.quit_fit (h.trimming_parked st) ends
    have site : (((s.releaseUnit i).dropActive i).enter i ((s.releaseUnit i).restingOf i)).site i =
        (s.site i).quit ((s.site i).x.resting.getD .fast) := by
      rw [State.restingOf_eq_site, e]
      exact s.site_giveBack_enter (LineState.endsIn_cases ends).2.2.1 (LineState.ne_fast_of_holdsUnit h.holds)
    rw [← site] at fit idle
    refine State.renderIfCritical_after fit idle ?_ (fun _ => rfl) _
    rw [site, ← st]; exact (LineState.endsIn_cases ends).1
  | heaving => rw [st] at commanded; exact commanded nofun
  | easing => rw [st] at commanded; exact commanded nofun
  | rewinding => rw [st] at commanded; exact commanded nofun
  | _ => rw [st] at holds; cases holds

/-! ### A motion stops (R16, R126) -/

/-- A site whose motion has stopped, its lock step about to start: the operation has ended, is parked or is gone. -/
structure Site.Stopping (k : Site) : Prop where
  recorded : k.x.Recorded k.r
  sensed : k.x.sensedAll
  watched : k.c.Watched k.x.state k.r k.cal.decimation
  qs : k.qs = []
  timer : k.x.motionTimer = none
  holds : k.x.state.holdsUnit = true
  active : ∀ a ∈ k.x.active, a.work.activeIn k.x.state = true ∧ k.x.parked = none ∧ ∃ m, a.phase = .ended m
  parked : ∀ p ∈ k.x.parked, p.work.parkedIn k.x.state = true
  served : ∃ u d, k.x.unit = some u ∧ k.v = some d ∧ d.state ≠ .granted ∧ d.stop = true

theorem Station.shut_iff (x : Station) :
    x.shut = true ↔ x.senLock = some .locked ∧ x.senClutch = some .engaged := by
  simp [Station.shut]

/-- The station once its lock step has completed, the work of its end still to come. -/
def Station.lockedUp (x : Station) : Station :=
  { x with cmdLock := .locked, cmdClutch := some .engaged, step := none, gearTimer := none }

/-- The start of the lock step with the gear still shut: the step completes at its start (R12, R16). -/
theorem State.startLockStep_of_shut (h : (s.station i).shut = true) :
    s.startLockStep i = (s.setStation i (s.station i).lockedUp).lockStepDone i := by
  have agreed := (Station.shut_iff _).1 h
  unfold State.startLockStep
  rw [s.startStep_of_agreed i _ _ _ agreed, Station.stepping_agreed _ _ agreed]
  rfl

theorem State.startLockStep_of_open (h : (s.station i).shut = false) :
    s.startLockStep i = s.setStation i { s.station i with
      cmdLock := .locked
      cmdClutch := some .engaged
      step := some ⟨.motionLock, .locked, .engaged⟩
      gearTimer := some s.settings.gearLimit } := by
  have differs : ¬((s.station i).senLock = some .locked ∧ (s.station i).senClutch = some .engaged) := by
    rw [← Station.shut_iff, h]; exact Bool.false_ne_true
  unfold State.startLockStep
  rw [s.startStep_of_open i _ _ _ differs, Station.stepping_open _ _ differs]

theorem Site.Stopping.lockedUp (h : k.Stopping) (shut : k.x.shut = true) :
    Site.Ending { k with x := k.x.lockedUp } := by
  obtain ⟨rest, -⟩ := LineState.endState_watched h.holds
  obtain ⟨lock, clutch⟩ := (Station.shut_iff _).1 shut
  have agrees : k.x.lockedUp.disagrees = false := by simp [Station.lockedUp, Station.disagrees, lock, clutch]
  exact ⟨h.recorded.congr rfl rfl rfl, .of_agreed h.sensed rest rfl rfl agrees, h.watched, h.qs, h.timer, rfl, h.holds,
    fun a ha => ⟨(h.active a ha).1, (h.active a ha).2.1⟩, h.parked⟩

/-- The lock step of a motion that has stopped (R16). -/
theorem State.startLockStep_after (h : (s.site i).Stopping) :
    ((s.startLockStep i).site i).After (s.site i).x.state := by
  by_cases shut : (s.station i).shut = true
  · rw [s.startLockStep_of_shut shut]
    have site : (s.setStation i (s.station i).lockedUp).site i = { s.site i with x := (s.site i).x.lockedUp } :=
      s.site_setStation _ rfl
    have ending : ((s.setStation i (s.station i).lockedUp).site i).Ending := by rw [site]; exact h.lockedUp shut
    have := State.lockStepDone_after ending
    rw [site] at this
    exact this
  · have differs := Bool.eq_false_iff.2 shut
    rw [s.startLockStep_of_open differs, State.site_setStation _ _ (by rfl)]
    obtain ⟨u, d, unit, v, state, stop⟩ := h.served
    obtain ⟨rest, -⟩ := LineState.endState_watched h.holds
    have geared := Station.Geared.stepping h.sensed rest (kind := .motionLock) rfl (s.site i).settings.gearLimit
    rw [Station.stepping_open _ _ (by rw [← Station.shut_iff]; exact shut)] at geared
    exact .stay ⟨h.recorded.congr rfl rfl rfl,
      .locking u d h.qs rfl h.holds h.active h.parked v unit h.timer state stop, geared, h.watched⟩
      (fun _ => ⟨h.qs, fun a ha => (h.active a ha).2.2⟩) rfl

/-- What a motion in progress leaves of its operation at its end. -/
theorem ActiveOp.ended_moving (w : Work) (b : Bool) (m : Motion) :
    ∃ w', (ActiveOp.mk w b (.moving m)).ended = ⟨w', b, .ended m⟩ ∧ ∀ state, w'.activeIn state = w.activeIn state :=
  ⟨_, rfl, fun state => by cases w <;> rfl⟩

/-- A motion in progress stops (R16, R126); what `f` makes of the station concerns its operation only. -/
theorem Site.Fit.stopping (h : k.Fit) (moves : (k.x.active.bind ActiveOp.moving?).isSome = true) (cause : StopCause)
    {active : Option ActiveOp} {parked : Option ParkedOp}
    (ops : (active = k.x.active.map ActiveOp.ended ∧ parked = none) ∨
      (active = none ∧ ∀ p ∈ parked, p.work.parkedIn k.x.state = true)) :
    Site.Stopping { k with
      x := { k.x with stopCause := cause, motionTimer := none, active := active, parked := parked }
      v := k.v.map (fun d => { d with stop := true }) } := by
  cases h.doing with
  | free _ _ _ a | pending _ _ _ _ _ a | parked _ _ _ _ _ _ a => rw [a] at moves; cases moves
  | awaiting b _ a => rw [a] at moves; cases moves
  | granted u d w b _ a => rw [a] at moves; cases moves
  | locking u d _ _ _ a =>
    cases e : k.x.active with
    | none => rw [e] at moves; cases moves
    | some op =>
      obtain ⟨-, -, m, phase⟩ := a op e
      rw [e, Option.bind_some, ActiveOp.moving?, phase] at moves; cases moves
  | moving u d w b m qs a work v unit park timer unlocking state =>
    have holds := (Work.activeIn_cases work).1
    have known := (LineState.endState_watched holds).2.2.1
    refine ⟨h.recorded.congr rfl rfl rfl, h.geared.known known, h.watched, qs, rfl, holds, fun op hop => ?_, fun p hp => ?_,
      u, _, unit, by rw [v]; rfl, by rw [state]; exact nofun, rfl⟩
    · rcases ops with ⟨e, none⟩ | ⟨e, -⟩
      · obtain ⟨w', ended, same⟩ := ActiveOp.ended_moving w b m
        have hop : active = some op := hop
        rw [e, a, Option.map_some, ended] at hop
        cases hop
        exact ⟨(same _).trans work, none, m, rfl⟩
      · have hop : active = some op := hop
        rw [e] at hop; cases hop
    · have hp : parked = some p := hp
      rcases ops with ⟨-, none⟩ | ⟨-, ok⟩
      · rw [none] at hp; cases hp
      · exact ok p hp

/-- A station in motion has nothing parked. -/
theorem Site.Fit.moving_parked (h : k.Fit) (moves : (k.x.active.bind ActiveOp.moving?).isSome = true) :
    k.x.parked = none := by
  cases h.doing with
  | moving u d w b m qs a work v unit park => exact park
  | free _ _ _ a | pending _ _ _ _ _ a | parked _ _ _ _ _ _ a => rw [a] at moves; cases moves
  | awaiting b _ a => rw [a] at moves; cases moves
  | granted u d w b _ a => rw [a] at moves; cases moves
  | locking u d _ _ _ a =>
    cases e : k.x.active with
    | none => rw [e] at moves; cases moves
    | some op =>
      obtain ⟨-, -, m, phase⟩ := a op e
      rw [e, Option.bind_some, ActiveOp.moving?, phase] at moves; cases moves

theorem State.endMotion_after (h : (s.site i).Fit) (moves : (s.motionOf i).isSome = true) (cause : StopCause) :
    ((s.endMotion i cause).site i).After (s.site i).x.state := by
  have site := s.site_stopMotion (i := i) cause
  have stopping : ((s.stopMotion i cause).site i).Stopping := by
    rw [site]
    have := h.stopping moves cause (parked := (s.site i).x.parked) (.inl ⟨rfl, h.moving_parked moves⟩)
    exact this
  have := State.startLockStep_after stopping
  rw [site] at this
  exact this

theorem State.endMotionDiscard_after (h : (s.site i).Fit) (moves : (s.motionOf i).isSome = true) (cause : StopCause) :
    ((s.endMotionDiscard i cause).site i).After (s.site i).x.state := by
  have site : ((s.stopMotion i cause).dropActive i).site i = _ := State.site_dropActive _
  rw [State.site_stopMotion] at site
  have stopping : (((s.stopMotion i cause).dropActive i).site i).Stopping := by
    rw [site]
    refine h.stopping moves cause (parked := (s.site i).x.parked) (.inr ⟨rfl, fun p hp => ?_⟩)
    rw [h.moving_parked moves] at hp; cases hp
  have := State.startLockStep_after stopping
  rw [site] at this
  exact this

end Sys2Proof.Machine
end

