-- ==== Sys2Proof/Proofs/LeavingWork.lean ====
section
/-! PROOF. The events that take a station out of its work: entry to FAULT, the release sequence, a take-over, and the
setting and the clearing of the hold. -/

namespace Sys2Proof.Machine

variable {s : State} {i : StationId} {k l : Site} {old : LineState}

/-! ### Raised reasons -/

theorem Site.After.congr (h : k.After old) (state : l.x.state = k.x.state) (resting : l.x.resting = k.x.resting)
    (takeOver : l.x.takeOver = k.x.takeOver) (gear : l.x.gear = k.x.gear) (unit : l.x.unit = k.x.unit)
    (active : l.x.active = k.x.active) (parked : l.x.parked = k.x.parked)
    (timer : l.x.motionTimer = k.x.motionTimer) (qs : l.qs = k.qs) (v : l.v = k.v) (c : l.c = k.c) (r : l.r = k.r)
    (cal : l.cal.decimation = k.cal.decimation) (hold : l.hold = k.hold) : l.After old :=
  ⟨h.fit.congr state resting takeOver gear unit active parked timer qs v c r cal, h.held.congr hold qs active,
    state ▸ h.goes, qs ▸ h.trims⟩

/-- A raised reason concerns nothing but the attention. -/
theorem State.raise_after (h : (s.site i).After old) (reason : Attention) : ((s.raise i reason).site i).After old := by
  rw [State.site_raise]
  exact h.congr rfl rfl rfl rfl rfl rfl rfl rfl rfl rfl rfl rfl rfl rfl

theorem State.raise_fit (h : (s.site i).Fit) (reason : Attention) : ((s.raise i reason).site i).Fit := by
  rw [State.site_raise]
  exact h.congr rfl rfl rfl rfl rfl rfl rfl rfl rfl rfl rfl rfl rfl

/-! ### FAULT (R19) -/

theorem State.site_enterFault (cause : StopCause) (reason : Attention) :
    (s.enterFault i cause reason).site i = { s.site i with
      x := (s.site i).x.faulted cause reason
      c := (s.site i).c.leftBand
      qs := []
      v := none
      alert := (s.site i).alert || (reason.outranks (s.site i).x.attention && (s.site i).mode != .criticalOnly) } := by
  unfold State.enterFault
  rw [State.site_raise, State.site_onStation _ _ rfl, State.site_enter, State.site_dropWork, State.site_releaseUnit]
  rfl

theorem LineState.goes_fault (state : LineState) : state.goes .fault = true := by cases state <;> rfl

/-- Entry to FAULT asks for a valid record, a channel in order and the senses (R19). -/
theorem State.enterFault_after_of (valid : ∀ m ∈ (s.site i).r, m.valid) {state : LineState}
    (watched : (s.site i).c.Watched state (s.site i).r (s.site i).cal.decimation) (sensed : (s.site i).x.sensedAll)
    (cause : StopCause) (reason : Attention) (old : LineState) :
    ((s.enterFault i cause reason).site i).After old := by
  rw [State.site_enterFault]
  have recorded : ((s.site i).x.faulted cause reason).Recorded (s.site i).r :=
    .of_plain valid rfl rfl nofun nofun nofun nofun
  exact .of_empty ⟨recorded, .free rfl rfl rfl rfl rfl rfl rfl nofun, .of_rest sensed rfl rfl rfl fun _ => rfl,
    watched.leftBand⟩ (Site.held_of_none rfl rfl) (LineState.goes_fault _) rfl

theorem State.enterFault_after (h : (s.site i).Fit) (sensed : (s.site i).x.sensedAll) (cause : StopCause)
    (reason : Attention) : ((s.enterFault i cause reason).site i).After (s.site i).x.state :=
  State.enterFault_after_of h.recorded.valid h.watched sensed cause reason _

/-! ### The release sequence (R130) -/

theorem State.site_releaseSequence (cause : StopCause) :
    (s.releaseSequence i cause).site i = { s.site i with
      x := ({ (s.site i).x.idled with
        state := .released
        stopCause := if ((s.site i).x.active.bind ActiveOp.moving?).isSome then cause
          else (s.site i).x.stopCause }).stepping .release .unlocked .free (s.site i).settings.gearLimit
      c := (s.site i).c.leftBand
      qs := []
      v := none } := by
  unfold State.releaseSequence
  rw [State.motionOf_eq_site]
  dsimp only
  rw [State.site_startStep_plain _ _ _ (by decide), State.site_enter, State.site_dropWork, State.site_releaseUnit]
  split
  · next h => rw [State.site_stopMotion]; simp only [h, if_true]; rfl
  · next h => simp only [h]; rfl

theorem LineState.goes_released {state : LineState} (h : state.moored = true ∨ state = .outUnclaimed) :
    state.goes .released = true ∧ state ≠ .unknown ∧ state ≠ .inLocal := by
  rcases h with h | rfl
  · cases state <;> first | (cases h; done) | exact ⟨rfl, nofun, nofun⟩
  · exact ⟨rfl, nofun, nofun⟩

theorem State.releaseSequence_after (h : (s.site i).Fit)
    (state : (s.site i).x.state.moored = true ∨ (s.site i).x.state = .outUnclaimed) (cause : StopCause) :
    ((s.releaseSequence i cause).site i).After (s.site i).x.state := by
  obtain ⟨goes, known, out⟩ := LineState.goes_released state
  rw [State.site_releaseSequence]
  have takeOver := h.recorded.takeOver_none out
  have sensed := h.geared.known known
  refine .of_empty ⟨?_, ?_, .stepping (by exact sensed) (by rfl) (by rfl) _, h.watched.leftBand⟩
    (Site.held_of_none rfl rfl) goes rfl
  · exact .of_plain h.recorded.valid rfl takeOver nofun nofun nofun nofun
  · exact .free rfl rfl rfl rfl rfl rfl (Station.stepping_still _ _ _ ⟨nofun, nofun⟩) nofun

/-! ### A take-over (R153) -/

theorem Work.parkedIn_inLocal {w : Work} {state : LineState} (h : w.parkedIn state = true) :
    w.parkedIn .inLocal = true := by
  cases w with
  | trim d c => cases h
  | heave | slacken n | rewind => rfl

theorem Work.parkedIn_inLocal_of_not_trim {w : Work} (h : w.isTrim = false) : w.parkedIn .inLocal = true := by
  cases w with
  | trim d c => cases h
  | heave | slacken n | rewind => rfl

/-- What a take-over makes of an active operation and the request of a station: nothing but what is parked is left. -/
theorem State.takeOver_work (h : (s.site i).Fit) : ∃ parked : Option ParkedOp,
    (∀ p ∈ parked, p.work.parkedIn .inLocal = true) ∧
      ((s.takeOverPending i).takeOverActive i).site i = { s.site i with
        x := { (s.site i).x with active := none, parked := parked }
        qs := [] } := by
  have none_of : ∀ {o : Option ParkedOp}, o = none → ∀ p ∈ o, p.work.parkedIn .inLocal = true := by
    rintro _ rfl p hp; cases hp
  have pending : (s.site i).qs = [] → s.takeOverPending i = s := fun qs => by
    unfold State.takeOverPending
    rw [State.requestOf_eq_site, qs]
    rfl
  have parks : ∀ a : ActiveOp, a.work.isTrim = false → a.work.activeIn (s.site i).x.state = true →
      (s.site i).qs = [] → ∃ parked : Option ParkedOp, (∀ p ∈ parked, p.work.parkedIn .inLocal = true) ∧
        (s.parkActive i a).site i = { s.site i with
          x := { (s.site i).x with active := none, parked := parked }
          qs := [] } := fun a trim work qs => by
    refine ⟨some ⟨a.remainingWork, a.retryUsed⟩, fun p hp => ?_, ?_⟩
    · cases hp; exact (ActiveOp.remainingWork_waits trim work).2.2.1
    · rw [State.parkActive, State.site_dropActive, State.site_park, ← qs]
  have drops : (s.site i).x.parked = none → (s.site i).qs = [] → ∃ parked : Option ParkedOp,
      (∀ p ∈ parked, p.work.parkedIn .inLocal = true) ∧ (s.dropActive i).site i = { s.site i with
        x := { (s.site i).x with active := none, parked := parked }
        qs := [] } := fun park qs => ⟨(s.site i).x.parked, none_of park, by rw [State.site_dropActive, ← qs]⟩
  have stays : (s.site i).x.active = none → (s.site i).qs = [] →
      (∀ p ∈ (s.site i).x.parked, p.work.parkedIn .inLocal = true) → ∃ parked : Option ParkedOp,
        (∀ p ∈ parked, p.work.parkedIn .inLocal = true) ∧ (s.takeOverActive i).site i = { s.site i with
          x := { (s.site i).x with active := none, parked := parked }
          qs := [] } := fun active qs park => by
    refine ⟨(s.site i).x.parked, park, ?_⟩
    unfold State.takeOverActive
    rw [State.station_eq_site, active]
    change s.site i = _
    rw [← qs, ← active]
  have active : ∀ a, (s.site i).x.active = some a → a.work.activeIn (s.site i).x.state = true →
      (s.site i).x.parked = none → (s.site i).qs = [] → ∃ parked : Option ParkedOp,
        (∀ p ∈ parked, p.work.parkedIn .inLocal = true) ∧ (s.takeOverActive i).site i = { s.site i with
          x := { (s.site i).x with active := none, parked := parked }
          qs := [] } := fun a e work park qs => by
    unfold State.takeOverActive
    rw [State.station_eq_site, e]
    dsimp only
    split
    · exact drops park qs
    · next trim =>
      have trim := Bool.eq_false_iff.2 trim
      split
      · exact parks a trim work qs
      · exact parks a trim work qs
      · exact parks a trim work qs
      · split
        · exact parks a trim work qs
        · exact drops park qs
  cases h.doing with
  | free qs v unit act park timer still state =>
    rw [pending qs]
    exact stays act qs (none_of park)
  | parked p qs park work v unit act =>
    rw [pending qs]
    exact stays act qs fun p' hp => by rw [park] at hp; cases hp; exact Work.parkedIn_inLocal work
  | pending q qs work v unit act park =>
    have site : ∃ parked : Option ParkedOp, (∀ p ∈ parked, p.work.parkedIn .inLocal = true) ∧
        (s.takeOverPending i).site i = { s.site i with
          x := { (s.site i).x with active := none, parked := parked }
          qs := [] } := by
      unfold State.takeOverPending
      rw [State.requestOf_eq_site, qs]
      dsimp only [List.head?_cons]
      split
      · exact ⟨(s.site i).x.parked, none_of park, by rw [State.site_withdraw, ← act]⟩
      · next trim =>
        refine ⟨some ⟨q.work, q.retryUsed⟩, fun p hp => ?_, ?_⟩
        · cases hp; exact Work.parkedIn_inLocal_of_not_trim (Bool.eq_false_iff.2 trim)
        · rw [State.site_park, State.site_withdraw, ← act]
    obtain ⟨parked, ok, site⟩ := site
    refine ⟨parked, ok, ?_⟩
    rw [← site]
    have none : ((s.takeOverPending i).station i).active = none := by rw [State.station_eq_site, site]
    unfold State.takeOverActive
    rw [none]
  | awaiting b qs act state v unit park =>
    rw [pending qs]
    refine active _ act ?_ park qs
    rw [state]; rfl
  | granted u d w b qs act work v unit park => rw [pending qs]; exact active _ act work park qs
  | moving u d w b m qs act work v unit park => rw [pending qs]; exact active _ act work park qs
  | locking u d qs _ _ act park =>
    rw [pending qs]
    cases e : (s.site i).x.active with
    | none =>
      rw [e] at stays
      exact stays rfl qs fun p hp => Work.parkedIn_inLocal (park p hp)
    | some a =>
      obtain ⟨work, none, -⟩ := act a e
      exact active a e work none qs

/-- The state a take-over returns to fits the record (R4, R153). -/
theorem Station.returnState_returns {x : Station} {r : Option Mooring} (h : x.Recorded r) (known : x.state ≠ .unknown)
    (inLocal : x.state ≠ .inLocal) (fault : x.state ≠ .fault) : x.returnState.returns r.isSome = true := by
  have present := h.present
  have absent := h.absent
  unfold Station.returnState
  cases state : x.state <;> rw [state] at present absent
  case trimming =>
    have rest : x.resting.getD .fast = .fast ∨ x.resting.getD .fast = .eased := by
      cases e : x.resting with
      | none => exact .inl rfl
      | some r => exact h.restingState r e
    rcases rest with e | e <;> simp only [e] <;> exact present rfl
  case unknown => exact absurd state known
  case inLocal => exact absurd state inLocal
  case fault => exact absurd state fault
  case released | rewinding => rfl
  case stowed | paying | outUnclaimed => rw [absent rfl]; rfl
  case heaving | fast | easing | eased => exact present rfl

theorem State.enterLocal_fit (h : (s.site i).Fit) (known : (s.site i).x.state ≠ .unknown)
    (inLocal : (s.site i).x.state ≠ .inLocal) (fault : (s.site i).x.state ≠ .fault) :
    ((s.enterLocal i).site i).Fit ∧ ((s.enterLocal i).site i).Held ∧ ((s.enterLocal i).site i).x.state = .inLocal ∧
      ((s.enterLocal i).site i).qs = [] := by
  obtain ⟨parked, ok, site⟩ := s.takeOver_work h
  have sensed := h.geared.known known
  have returns := Station.returnState_returns h.recorded known inLocal fault
  have goal : ∀ (t : State) (lock : LockPos) (clutch : Option ClutchPos) (cause : StopCause) (timer : Option Nat),
      (∃ v, t.site i = { s.site i with
        x := { (s.site i).x with
          active := none, parked := parked, cmdLock := lock, cmdClutch := clutch, stopCause := cause, motionTimer := timer }
        qs := []
        v := v }) →
      let x := s.station i
      let l := (((t.releaseUnit i).enter i .inLocal).onStation i (fun y =>
        { y with
          step := none
          gearTimer := none
          motionTimer := none
          takeOver := some ⟨x.returnState, some t.settings.takeOverLimit⟩ })).site i
      l.Fit ∧ l.Held ∧ l.x.state = .inLocal ∧ l.qs = [] := by
    rintro t lock clutch cause timer ⟨v, e⟩
    dsimp only
    rw [State.site_onStation _ _ (by rfl), State.site_enter, State.site_releaseUnit, e]
    refine ⟨⟨⟨h.recorded.valid, nofun, nofun, iff_of_false nofun nofun, nofun, iff_of_true rfl rfl, fun o ho => ?_⟩, ?_,
      .of_rest sensed rfl rfl rfl nofun, h.watched.leftBand⟩, Site.held_of_none rfl rfl, rfl, rfl⟩
    · cases ho; exact returns
    · cases park : parked with
      | none => exact .free rfl rfl rfl rfl rfl rfl rfl nofun
      | some p => exact .parked p rfl rfl (ok p park) rfl rfl rfl rfl rfl
  unfold State.enterLocal
  dsimp only
  split
  · refine goal _ .locked (some .engaged) .takeOver none ⟨(s.site i).v.map (fun d => { d with stop := true }), ?_⟩
    rw [State.site_onStation _ _ (by rfl), State.site_stopMotion, site]
    rfl
  · exact goal _ (s.site i).x.cmdLock (s.site i).x.cmdClutch (s.site i).x.stopCause (s.site i).x.motionTimer ⟨_, site⟩

theorem LineState.goes_inLocal (state : LineState) : state.goes .inLocal = true := by cases state <;> rfl

theorem State.enterLocal_after (h : (s.site i).Fit) (known : (s.site i).x.state ≠ .unknown)
    (inLocal : (s.site i).x.state ≠ .inLocal) (fault : (s.site i).x.state ≠ .fault) (old : LineState) :
    ((s.enterLocal i).site i).After old := by
  obtain ⟨fit, held, state, qs⟩ := State.enterLocal_fit h known inLocal fault
  exact .of_empty fit held (by rw [state]; exact LineState.goes_inLocal old) qs

/-- A take-over whose input is asserted as the station leaves UNKNOWN or FAULT (R154). -/
theorem State.deferredTakeOver_after (h : (s.site i).After old) (known : (s.site i).x.state ≠ .unknown)
    (inLocal : (s.site i).x.state ≠ .inLocal) : ((s.deferredTakeOver i).site i).After old := by
  unfold State.deferredTakeOver
  split
  · next asserted =>
    simp only [Bool.and_eq_true, bne_iff_ne] at asserted
    exact State.enterLocal_after h.fit known inLocal asserted.2 old
  · exact h

/-! ### The hold (R147, R150) -/

theorem Station.still_of_engaging {x : Station} (h : x.step.any (fun g => g.kind == .rewindEngage) = true) :
    x.still = true := by
  unfold Station.still
  cases e : x.step <;> rw [e] at h <;> simp_all

/-- What a grant that is given back leaves to end. -/
theorem Site.Fit.ending_of_granted (h : k.Fit) {w : Work} {b : Bool} (act : k.x.active = some ⟨w, b, .granted⟩) :
    k.Ending := by
  cases h.doing with
  | free _ _ _ a | pending _ _ _ _ _ a | parked _ _ _ _ _ _ a => rw [act] at a; cases a
  | awaiting b _ a => rw [act] at a; cases a
  | moving u d w b m _ a => rw [act] at a; cases a
  | locking u d _ _ _ a => obtain ⟨-, -, m, phase⟩ := a _ act; cases phase
  | granted u d w' b' qs a work v unit park timer still =>
    refine ⟨h.recorded, h.geared, h.watched, qs, timer, still, (Work.activeIn_cases work).1, fun o ho => ?_, fun p hp => ?_⟩
    · rw [a] at ho; cases ho; exact ⟨work, park⟩
    · rw [park] at hp; cases hp

/-- What the setting of the hold does at one station (R147). The hold is in force already, the station not yet held. -/
theorem State.holdStation_after (h : (s.site i).Fit) : ((s.holdStation i).site i).After (s.site i).x.state := by
  unfold State.holdStation
  rw [State.station_eq_site, State.requestOf_eq_site]
  have holds : ∀ {a}, (s.site i).x.active = some a → a.work.activeIn (s.site i).x.state = true →
      (s.site i).x.state ≠ .fast := fun _ work => LineState.ne_fast_of_holdsUnit (Work.activeIn_cases work).1
  cases h.doing with
  | free qs v unit act park timer still state =>
    rw [act, qs]
    exact .stay h (Site.held_of_none qs act) rfl
  | parked p qs park work v unit act =>
    rw [act, qs]
    exact .stay h (Site.held_of_none qs act) rfl
  | pending q qs work v unit act park timer still =>
    rw [act, qs]
    dsimp only [List.head?_cons]
    have trimming : (s.site i).x.state ≠ .trimming := by
      intro e; rw [e] at work; cases w : q.work <;> rw [w] at work <;> cases work
    split
    · rw [State.site_withdraw]
      exact .stay ⟨h.recorded, .free rfl v unit act park timer still trimming, h.geared, h.watched⟩
        (Site.held_of_none rfl act) rfl
    · next trim =>
      rw [State.site_park, State.site_withdraw]
      refine .stay ⟨h.recorded.congr rfl rfl rfl, ?_, h.geared.congr rfl rfl, h.watched⟩ (Site.held_of_none rfl act) rfl
      refine .parked ⟨q.work, q.retryUsed⟩ rfl rfl ?_ v unit act timer still
      cases w : q.work with
      | trim d c => rw [w] at trim; exact absurd rfl trim
      | heave | slacken n | rewind => rw [w] at work; exact Bool.or_eq_true_iff.2 (.inl work)
  | awaiting b qs act state v unit park timer engaging =>
    rw [act]
    dsimp only
    rw [State.parkActive, State.site_dropActive, State.site_park]
    refine .stay ⟨h.recorded.congr rfl rfl rfl, ?_, h.geared.congr rfl rfl, h.watched⟩ (Site.held_of_none qs rfl) rfl
    exact .parked ⟨.rewind, b⟩ qs rfl (by change Work.parkedIn .rewind (s.site i).x.state = true; rw [state]; rfl) v unit
      rfl timer (Station.still_of_engaging engaging)
  | granted u d w b qs act work v unit park timer still =>
    rw [act]
    dsimp only
    split
    · next trim =>
      have state := (Work.activeIn_cases work).2.1 trim
      have ending := h.ending_of_granted act
      have ends := ending.restingOf state
      obtain ⟨fit, idle⟩ := ending.quit_fit park ends
      rw [State.restingOf_eq_site, s.site_giveBack_enter (LineState.endsIn_cases ends).2.2.1 (holds act work)]
      exact .of_empty fit idle.held (LineState.endsIn_cases ends).1 idle.qs
    · next trim =>
      obtain ⟨-, parkedIn, -⟩ := ActiveOp.remainingWork_waits (a := ⟨w, b, .granted⟩) (Bool.eq_false_iff.2 trim) work
      rw [State.parkActive, State.site_dropActive, State.site_park, State.site_releaseUnit]
      refine .stay ⟨h.recorded.congr rfl rfl rfl, ?_, h.geared.congr rfl rfl, h.watched⟩ (Site.held_of_none qs rfl) rfl
      exact .parked _ qs rfl parkedIn rfl rfl rfl timer still
  | moving u d w b m qs act work v unit park timer =>
    have moves : ((s.site i).x.active.bind ActiveOp.moving?).isSome = true := by rw [act]; rfl
    rw [act]
    dsimp only
    split
    · exact State.endMotionDiscard_after h moves _
    · next trim =>
      obtain ⟨-, parkedIn, -⟩ := ActiveOp.remainingWork_waits (a := ⟨w, b, .moving m⟩) (Bool.eq_false_iff.2 trim) work
      have site : (((s.park i (ActiveOp.remainingWork ⟨w, b, .moving m⟩) b).stopMotion i .hold).dropActive i).site i = _ :=
        State.site_dropActive _
      rw [State.site_stopMotion, State.site_park] at site
      have stopping := h.stopping moves .hold (active := none)
        (parked := some ⟨ActiveOp.remainingWork ⟨w, b, .moving m⟩, b⟩) (.inr ⟨rfl, fun p hp => by cases hp; exact parkedIn⟩)
      have after := State.startLockStep_after (s := ((s.park i (ActiveOp.remainingWork ⟨w, b, .moving m⟩) b).stopMotion i
        .hold).dropActive i) (i := i) (by rw [site]; exact stopping)
      rw [site] at after
      exact after
  | locking u d qs l holds act =>
    have held : (s.site i).Held := fun _ => ⟨qs, fun a ha => (act a ha).2.2⟩
    cases e : (s.site i).x.active with
    | none => rw [qs]; exact .stay h held rfl
    | some a =>
      obtain ⟨-, -, m, phase⟩ := act a e
      dsimp only
      rw [phase]
      exact .stay h held rfl

/-- A station submits its parked operation as the hold is cleared (R150). -/
theorem State.resumeStation_after (h : (s.site i).Fit) (free : (s.site i).hold = false) :
    ((s.resumeStation i).site i).After (s.site i).x.state := by
  unfold State.resumeStation
  rw [State.station_eq_site]
  split
  · exact .stay h (Site.held_of_free free) rfl
  · next out =>
    simp only [not_or, Bool.not_eq_true, Option.isSome_eq_false_iff, Option.isNone_iff_eq_none] at out
    cases e : (s.site i).x.parked with
    | none =>
      have : s.submitParked i = s := by
        unfold State.submitParked
        rw [State.station_eq_site, e]
      rw [this]
      exact .stay h (Site.held_of_free free) rfl
    | some p =>
      cases h.doing with
      | parked p' qs park work v unit act timer still =>
        rw [State.site_submitParked _ qs, park]
        refine .stay ⟨h.recorded.congr rfl rfl rfl, ?_, h.geared.congr rfl rfl, h.watched⟩ (Site.held_of_free free) rfl
        exact .pending ⟨i, p'.work, p'.retryUsed⟩ rfl (Work.pendingIn_of_parkedIn work out.1) v unit act rfl timer still
      | free _ _ _ _ park | pending _ _ _ _ _ _ park | awaiting _ _ _ _ _ _ park
      | granted _ _ _ _ _ _ _ _ _ park | moving _ _ _ _ _ _ _ _ _ _ park => rw [park] at e; cases e
      | locking u d _ _ _ _ _ _ unit => rw [unit] at out; cases out.2

end Sys2Proof.Machine
end

