-- ==== Sys2Proof/Proofs/Motions.lean ====
section
/-! PROOF. The events of the gear, the drum and the units: a sense completes a step, a motion starts, drum positions end
it, a unit fails, and a station leaves UNKNOWN. -/

namespace Sys2Proof.Machine

variable {s : State} {i : StationId} {k l : Site} {old : LineState}

/-! ### Stations without work -/

/-- The states in which a station can have no work. -/
def LineState.workless : LineState → Bool
  | .unknown | .stowed | .paying | .released | .outUnclaimed | .fault => true
  | .heaving | .fast | .trimming | .easing | .eased | .rewinding | .inLocal => false

theorem Work.workless {w : Work} {state : LineState} (h : state.workless = true) :
    w.pendingIn state = false ∧ w.activeIn state = false ∧ w.parkedIn state = false := by
  cases w <;> cases state <;> first | (cases h; done) | exact ⟨rfl, rfl, rfl⟩

theorem Site.Doing.idle (h : k.Doing) (state : k.x.state.workless = true) : k.Idle := by
  cases h with
  | free qs v unit act park timer still => exact ⟨qs, v, unit, act, park, timer, still⟩
  | pending q qs work => rw [(Work.workless state).1] at work; cases work
  | parked p qs park work => rw [(Work.workless state).2.2] at work; cases work
  | awaiting b qs act rewinding => rw [rewinding] at state; cases state
  | granted u d w b qs act work => rw [(Work.workless state).2.1] at work; cases work
  | moving u d w b m qs act work => rw [(Work.workless state).2.1] at work; cases work
  | locking u d qs l holds =>
    cases e : k.x.state <;> rw [e] at holds state <;> first | (cases holds; done) | (cases state; done)

/-! ### Gear steps complete (R12) -/

theorem State.site_startStep_of_agreed (kind : StepKind) (lock : LockPos) (clutch : ClutchPos)
    (agreed : (s.site i).x.senLock = some lock ∧ (s.site i).x.senClutch = some clutch) :
    ∃ t, s.startStep i kind lock clutch = State.continueStep t i kind ∧ t.site i = { s.site i with
      x := (s.site i).x.stepping kind lock clutch (s.site i).settings.gearLimit } :=
  ⟨_, s.startStep_of_agreed i kind lock clutch agreed, s.site_setStation _ (by rfl)⟩

theorem State.site_startStep_of_open (kind : StepKind) (lock : LockPos) (clutch : ClutchPos)
    (differs : ¬((s.site i).x.senLock = some lock ∧ (s.site i).x.senClutch = some clutch)) :
    (s.startStep i kind lock clutch).site i = { s.site i with
      x := (s.site i).x.stepping kind lock clutch (s.site i).settings.gearLimit } := by
  rw [s.startStep_of_open i kind lock clutch differs]
  exact s.site_setStation _ (by rfl)

/-- The motion unlock step: at its completion the drum is let go (R16). -/
theorem State.site_startUnlockStep :
    (s.startStep i .motionUnlock .unlocked .engaged).site i = { s.site i with
      x := (s.site i).x.stepping .motionUnlock .unlocked .engaged (s.site i).settings.gearLimit
      v := if (s.site i).x.senLock = some .unlocked ∧ (s.site i).x.senClutch = some .engaged
        then (s.site i).v.map (fun d => { d with stop := false }) else (s.site i).v } := by
  by_cases agreed : (s.site i).x.senLock = some .unlocked ∧ (s.site i).x.senClutch = some .engaged
  · obtain ⟨t, e, site⟩ := State.site_startStep_of_agreed .motionUnlock _ _ agreed
    rw [e, State.continueStep, State.site_setStop, site, if_pos agreed]
  · rw [State.site_startStep_of_open _ _ _ agreed, if_neg agreed]

/-- The rewind engage step: at its completion a REWIND that awaits it is submitted (R140). -/
theorem State.site_startEngageStep {b : Bool} (qs : (s.site i).qs = [])
    (act : (s.site i).x.active = some ⟨.rewind, b, .awaiting⟩) :
    (s.startStep i .rewindEngage .locked .engaged).site i =
      if (s.site i).x.shut = true then { s.site i with
        x := { (s.site i).x.lockedUp with active := none }
        qs := [⟨i, .rewind, b⟩] }
      else { s.site i with
        x := (s.site i).x.stepping .rewindEngage .locked .engaged (s.site i).settings.gearLimit } := by
  by_cases agreed : (s.site i).x.senLock = some .locked ∧ (s.site i).x.senClutch = some .engaged
  · rw [if_pos ((Station.shut_iff _).2 agreed)]
    obtain ⟨t, e, site⟩ := State.site_startStep_of_agreed .rewindEngage _ _ agreed
    rw [e, State.continueStep, State.engageDone, State.station_eq_site, site]
    have active : ((s.site i).x.stepping .rewindEngage .locked .engaged (s.site i).settings.gearLimit).active =
        some ⟨.rewind, b, .awaiting⟩ := act
    rw [active]
    simp only [ActiveOp.isAwaiting, if_true]
    rw [State.site_submit _ _ _ (by rw [State.site_dropActive, site]; exact qs), State.site_dropActive, site,
      Station.stepping_agreed _ _ agreed]
    rfl
  · rw [if_neg (by rw [Station.shut_iff]; exact agreed), State.site_startStep_of_open _ _ _ agreed]

/-- A step that a sense completes takes no part in what the station is doing, but for the motion steps and the rewind
engage step. -/
theorem Site.Doing.stepDone (h : k.Doing) {g : GearStep} (step : k.x.step = some g)
    (plain : g.kind ≠ .motionUnlock ∧ g.kind ≠ .motionLock)
    (engaged : g.kind = .rewindEngage → ∀ a ∈ k.x.active, a.isAwaiting = false) :
    Site.Doing { k with x := { k.x with step := none, gearTimer := none } } := by
  cases h with
  | free a b c d e f _ h => exact .free a b c d e f rfl h
  | pending q a b c d e f g _ => exact .pending q a b c d e f g rfl
  | parked p a b c d e f g _ => exact .parked p a b c d e f g rfl
  | awaiting b a c d e f g h engaging =>
    rw [step] at engaging
    have := engaged (by simpa using engaging) _ c
    cases this
  | granted u d w b a c e f g h i _ m n => exact .granted u d w b a c e f g h i rfl m n
  | moving u d w b m a c e f g h i _ n => exact .moving u d w b m a c e f g h i rfl n
  | locking u d a locking =>
    unfold Station.locking at locking
    rw [step] at locking
    exact absurd (by simpa using locking) plain.2

/-- Which station has the motion unlock step in flight. -/
theorem Site.Doing.unlocked (h : k.Doing) {g : GearStep} (step : k.x.step = some g) (kind : g.kind = .motionUnlock) :
    Site.Doing { k with
      x := { k.x with step := none, gearTimer := none }
      v := k.v.map (fun d => { d with stop := false }) } := by
  have moving : k.x.still = false := by unfold Station.still; rw [step]; simp [kind]
  cases h with
  | free _ _ _ _ _ _ still | pending _ _ _ _ _ _ _ _ still | parked _ _ _ _ _ _ _ _ still
  | granted _ _ _ _ _ _ _ _ _ _ _ still => rw [moving] at still; cases still
  | awaiting b _ _ _ _ _ _ _ engaging => rw [step] at engaging; simp [kind] at engaging
  | moving u d w b m a c e f g h i _ n =>
    exact .moving u { d with stop := false } w b m a c e (by rw [f]; rfl) g h i rfl n
  | locking u d _ locking =>
    unfold Station.locking at locking
    rw [step] at locking
    simp [kind] at locking

/-- Which station has the motion lock step in flight. -/
theorem Site.Fit.locked (h : k.Fit) {g : GearStep} (step : k.x.step = some g) (kind : g.kind = .motionLock)
    {y : Station} (gear : y.Geared) (e : y = { k.x with
      senLock := y.senLock, senClutch := y.senClutch, step := none, gearTimer := none }) :
    Site.Ending { k with x := y } := by
  have moving : k.x.still = false := by unfold Station.still; rw [step]; simp [kind]
  cases h.doing with
  | free _ _ _ _ _ _ still | pending _ _ _ _ _ _ _ _ still | parked _ _ _ _ _ _ _ _ still
  | granted _ _ _ _ _ _ _ _ _ _ _ still => rw [moving] at still; cases still
  | awaiting b _ _ _ _ _ _ _ engaging => rw [step] at engaging; simp [kind] at engaging
  | moving u d w b m _ _ _ _ _ _ _ locking =>
    unfold Station.locking at locking
    rw [step] at locking
    simp [kind] at locking
  | locking u d qs _ holds act park _ _ timer =>
    rw [e] at gear ⊢
    exact ⟨h.recorded.congr rfl rfl rfl, gear, h.watched, qs, timer, rfl, holds,
      fun a ha => ⟨(act a ha).1, (act a ha).2.1⟩, park⟩

/-- A station record after a sense is the old one but for its senses. -/
theorem Station.sensed_eq (x : Station) (g : GearSense) : x.sensed g =
    { x with senLock := (x.sensed g).senLock, senClutch := (x.sensed g).senClutch } := by
  cases g <;> rfl

theorem Station.sensed_known {x : Station} (h : x.sensedAll) (g : GearSense) : (x.sensed g).sensedAll := by
  obtain ⟨position, lock, clutch⟩ := h
  cases g
  · exact ⟨position, rfl, clutch⟩
  · exact ⟨position, lock, rfl⟩

/-- A sense at a station that has left UNKNOWN (R11, R12, R15). -/
theorem State.gearSensed_after {s : State} (h : (s.site i).Fit) (held : (s.site i).Held)
    (known : (s.site i).x.state ≠ .unknown) (g : GearSense) :
    (((s.onStation i (fun x => x.sensed g)).gearSensed i).site i).After (s.site i).x.state := by
  have sensedEq := Station.sensed_eq (s.site i).x g
  have sensed := Station.sensed_known (h.geared.known known) g
  have site : (s.onStation i (fun x => x.sensed g)).site i = { s.site i with x := (s.site i).x.sensed g } :=
    s.site_onStation _ (by cases g <;> rfl)
  generalize s.onStation i (fun x => x.sensed g) = t at site
  generalize (s.site i).x.sensed g = y at sensedEq sensed site
  generalize y.senLock = lock, y.senClutch = clutch at sensedEq
  subst sensedEq
  have stays : Station.Geared _ → (t.site i).After (s.site i).x.state := fun geared => by
    rw [site]
    refine .stay ⟨h.recorded.congr rfl rfl rfl, h.doing.congr rfl rfl rfl rfl rfl rfl rfl rfl, geared, h.watched⟩
      (held.congr rfl rfl rfl) rfl
  unfold State.gearSensed
  rw [State.station_eq_site, site]
  dsimp only
  cases step : (s.site i).x.step with
  | none =>
    rw [if_neg (by simp)]
    split
    · next rest =>
      have rest : (s.site i).x.state.gearAtRest = true := by rcases rest with e | e <;> rw [e] <;> rfl
      exact stays (.of_rest sensed rest step (h.geared.rest rest) h.geared.locked)
    · next rest =>
      have watched : (s.site i).x.state.gearAtRest = false := by
        cases e : (s.site i).x.state <;> rw [e] at rest known <;> simp_all [LineState.gearAtRest]
      rw [State.site_disagreementTest, site]
      refine .stay ⟨h.recorded.congr rfl rfl rfl, h.doing.congr rfl rfl rfl rfl rfl rfl rfl rfl,
        .waiting sensed watched step _, h.watched⟩ (held.congr rfl rfl rfl) rfl
  | some g =>
    obtain ⟨watched, timer, targets, cmdLock, cmdClutch, -⟩ := h.geared.step g step
    rw [if_pos (by simp)]
    unfold State.tryComplete
    rw [State.station_eq_site, site]
    dsimp only
    rw [step]
    dsimp only
    by_cases agreed : lock = some g.lock ∧ clutch = some g.clutch
    · rw [if_pos agreed]
      have agrees : Station.Geared { (s.site i).x with
          senLock := lock, senClutch := clutch, step := none, gearTimer := none } :=
        .of_agreed sensed watched rfl rfl (by simp [Station.disagrees, agreed.1, agreed.2, cmdLock, cmdClutch])
      have done : (t.onStation i (fun x => { x with step := none, gearTimer := none })).site i = { s.site i with
          x := { (s.site i).x with senLock := lock, senClutch := clutch, step := none, gearTimer := none } } := by
        rw [State.site_onStation _ _ (by rfl), site]
      have plain : g.kind ≠ .motionUnlock → g.kind ≠ .motionLock →
          (g.kind = .rewindEngage → ∀ a ∈ (s.site i).x.active, a.isAwaiting = false) →
          ((t.onStation i (fun x => { x with step := none, gearTimer := none })).site i).After (s.site i).x.state := by
        intro a b c
        rw [done]
        exact .stay ⟨h.recorded.congr rfl rfl rfl,
          (h.doing.stepDone step ⟨a, b⟩ c).congr rfl rfl rfl rfl rfl rfl rfl rfl, agrees, h.watched⟩
          (held.congr rfl rfl rfl) rfl
      cases kind : g.kind with
      | motionUnlock =>
        rw [State.continueStep, State.site_setStop, done]
        exact .stay ⟨h.recorded.congr rfl rfl rfl,
          (h.doing.unlocked step kind).congr rfl rfl rfl rfl rfl rfl rfl rfl, agrees, h.watched⟩
          (held.congr rfl rfl rfl) rfl
      | motionLock =>
        have ending := h.locked step kind agrees rfl
        rw [← done] at ending
        have := State.lockStepDone_after ending
        rw [done] at this
        exact this
      | rewindEngage =>
        rw [State.continueStep, State.engageDone, State.station_eq_site, done]
        dsimp only
        cases act : (s.site i).x.active with
        | none => exact plain (by rw [kind]; exact nofun) (by rw [kind]; exact nofun) fun _ a ha => by rw [act] at ha; cases ha
        | some a =>
          dsimp only
          split
          · next away =>
            cases h.doing with
            | free _ _ _ none | pending _ _ _ _ _ none | parked _ _ _ _ _ _ none => rw [act] at none; cases none
            | granted u d w b _ op => rw [act] at op; cases op; cases away
            | moving u d w b m _ op => rw [act] at op; cases op; cases away
            | locking u d _ _ _ op =>
              obtain ⟨-, -, m, phase⟩ := op a act
              rw [ActiveOp.isAwaiting, phase] at away; cases away
            | awaiting b qs op state v unit park timer =>
              rw [act] at op; cases op
              rw [State.site_submit _ _ _ (by rw [State.site_dropActive, done]; exact qs), State.site_dropActive, done]
              refine .stay ⟨h.recorded.congr rfl rfl rfl, ?_, agrees.congr rfl rfl, h.watched⟩ (fun hold => ?_) rfl
              · refine .pending ⟨i, .rewind, b⟩ rfl ?_ v unit rfl park timer rfl
                change Work.pendingIn .rewind (s.site i).x.state = true
                rw [state]; rfl
              · obtain ⟨m, phase⟩ := (held hold).2 _ act
                cases phase
          · next other =>
            refine plain (by rw [kind]; exact nofun) (by rw [kind]; exact nofun) fun _ b hb => ?_
            rw [act] at hb; cases hb
            exact Bool.eq_false_iff.2 other
      | runOut | payoutStop | makeFast | release | stow | handBack =>
        refine plain (by rw [kind]; exact nofun) (by rw [kind]; exact nofun) fun e => ?_
        rw [kind] at e; cases e
    · rw [if_neg agreed]
      refine stays ⟨fun _ => sensed, fun g' hg => ?_, fun none => ?_, fun rest => ?_, fun locked => h.geared.locked locked⟩
      · have hg : (s.site i).x.step = some g' := hg
        rw [step] at hg; cases hg
        refine ⟨watched, timer, targets, cmdLock, cmdClutch, ?_⟩
        simp only [Station.disagrees, cmdLock, cmdClutch, Bool.or_eq_true, bne_iff_ne]
        by_contra k
        simp only [not_or, not_not] at k
        exact agreed k
      · have none : (s.site i).x.step = Option.none := none
        rw [step] at none; cases none
      · have rest : (s.site i).x.state.gearAtRest = true := rest
        rw [watched] at rest; cases rest

end Sys2Proof.Machine
end

