-- ==== Sys2Proof/Proofs/Starts.lean ====
section
/-! PROOF. READY and the failures of units, drum positions and the tests of a motion, and the ways out of UNKNOWN. -/

namespace Sys2Proof.Machine

variable {s : State} {i : StationId} {k l : Site} {old : LineState}

/-! ### Drum positions and the tests of a motion (R8, R9, R124, R125) -/

theorem Site.Fit.moving_cases (h : k.Fit) (moves : (k.x.active.bind ActiveOp.moving?).isSome = true) :
    ∃ w b m, k.x.active = some ⟨w, b, .moving m⟩ ∧ ∀ m', Site.Fit { k with
      x := { k.x with active := some ⟨w, b, .moving m'⟩ } } := by
  cases h.doing with
  | free _ _ _ a | pending _ _ _ _ _ a | parked _ _ _ _ _ _ a => rw [a] at moves; cases moves
  | awaiting b _ a => rw [a] at moves; cases moves
  | granted u d w b _ a => rw [a] at moves; cases moves
  | locking u d _ _ _ a =>
    cases e : k.x.active with
    | none => rw [e] at moves; cases moves
    | some op =>
      obtain ⟨-, -, m, phase⟩ := a op e
      rw [e, Option.bind_some, ActiveOp.moving?, phase] at moves; cases moves
  | moving u d w b m qs a work v unit park timer unlocking state =>
    exact ⟨w, b, m, a, fun m' => ⟨h.recorded.congr rfl rfl rfl,
      .moving u d w b m' qs rfl work v unit park timer unlocking state, h.geared.congr rfl rfl, h.watched⟩⟩

/-- A motion in progress is not held. -/
theorem Site.Held.free_of_moving (h : k.Held) (moves : (k.x.active.bind ActiveOp.moving?).isSome = true) :
    k.hold = false := by
  rw [Bool.eq_false_iff]
  intro hold
  cases e : k.x.active with
  | none => rw [e] at moves; cases moves
  | some a =>
    obtain ⟨m, phase⟩ := (h hold).2 a e
    rw [e, Option.bind_some, ActiveOp.moving?, phase] at moves; cases moves

/-- The tests of a motion on the standing position (R124, R125). -/
theorem State.motionTests_after (h : (s.site i).Fit) (held : (s.site i).Held) :
    ((s.motionTests i).site i).After (s.site i).x.state := by
  unfold State.motionTests
  dsimp only
  split
  · next a m active motion =>
    have moves : ((s.site i).x.active.bind ActiveOp.moving?).isSome = true := by
      change (s.motionOf i).isSome = true
      rw [motion]; rfl
    have free := held.free_of_moving moves
    obtain ⟨w, b, m', act, fit⟩ := h.moving_cases moves
    rw [State.station_eq_site, act] at active
    cases active
    generalize e : { m with remaining := _ } = n
    have site : (s.onStation i (fun y => { y with active := some ⟨w, b, .moving n⟩ })).site i =
        { s.site i with x := { (s.site i).x with active := some ⟨w, b, .moving n⟩ } } := s.site_onStation _ rfl
    have fit' : ((s.onStation i (fun y => { y with active := some ⟨w, b, .moving n⟩ })).site i).Fit := by
      rw [site]; exact fit n
    have moves' : ((s.onStation i (fun y => { y with active := some ⟨w, b, .moving n⟩ })).motionOf i).isSome = true := by
      rw [State.motionOf_eq_site, site]; rfl
    have ends := fun cause => State.endMotion_after fit' moves' cause
    rw [site] at ends
    split
    · exact ends _
    · split
      · exact ends _
      · rw [site]
        exact .stay (fit n) (Site.held_of_free free) rfl
  · exact .stay h held rfl

theorem State.site_updateLength {count : Nat} (h : (s.site i).x.position = some count) :
    ∃ alert, (s.updateLength i).site i =
      { s.site i with x := (s.site i).x.measured (s.site i).cal count, alert := alert } := by
  have position : (s.station i).position = some count := h
  have changes : ∃ x alert, (s.updateLength i).site i = { s.site i with x := x, alert := alert } := by
    unfold State.updateLength
    rw [position]
    dsimp only
    split
    · rw [State.site_raise, State.site_onStation _ _ (by rfl)]
      exact ⟨_, _, rfl⟩
    · rw [State.site_onStation _ _ (by rfl)]
      exact ⟨_, (s.site i).alert, rfl⟩
  obtain ⟨x, alert, site⟩ := changes
  have measured : x = (s.site i).x.measured (s.site i).cal count :=
    (congrArg Site.x site).symm.trans (s.updateLength_station i position)
  exact ⟨alert, measured ▸ site⟩

theorem Station.measured_fields (x : Station) (cal : Calibration) (count : Nat) :
    x.measured cal count = { x with
      position := some count
      length := (x.measured cal count).length
      beyondPmax := (x.measured cal count).beyondPmax
      attention := (x.measured cal count).attention } := by
  unfold Station.measured
  dsimp only
  split <;> rfl

/-- P and the beyond-Pmax flag of a fit station with a position (R8, R9). -/
theorem State.updateLength_fit (h : (s.site i).Fit) : ((s.updateLength i).site i).Fit ∧
    ((s.updateLength i).site i).x.state = (s.site i).x.state ∧
    (s.updateLength i).motionOf i = s.motionOf i ∧ ((s.site i).Held → ((s.updateLength i).site i).Held) := by
  cases position : (s.site i).x.position with
  | none =>
    have : s.updateLength i = s := by
      unfold State.updateLength
      rw [State.station_eq_site, position]
    rw [this]
    exact ⟨h, rfl, rfl, id⟩
  | some count =>
    obtain ⟨alert, site⟩ := State.site_updateLength position
    rw [Station.measured_fields] at site
    rw [State.motionOf_eq_site, site]
    exact ⟨h.congr rfl rfl rfl (by simp only [Station.gear, position]) rfl rfl rfl rfl rfl rfl rfl rfl rfl, rfl, rfl,
      fun held => held.congr rfl rfl rfl⟩

/-- The payout stop in PAYING (R18). -/
theorem State.payoutStop_after (h : (s.site i).Fit) (held : (s.site i).Held) (state : (s.site i).x.state = .paying) :
    ((s.payoutStop i).site i).After (s.site i).x.state := by
  unfold State.payoutStop
  dsimp only
  split
  · refine State.raise_after ?_ _
    have idle := h.doing.idle (by rw [state]; rfl)
    have watched : (s.site i).x.state.gearAtRest = false := by rw [state]; rfl
    have known : (s.site i).x.state ≠ .unknown := by rw [state]; exact nofun
    rw [State.site_startStep_plain _ _ _ (by decide)]
    refine .stay ⟨h.recorded.congr rfl rfl rfl, ?_, .stepping (h.geared.known known) watched (by rfl) _, h.watched⟩
      (held.congr rfl rfl rfl) rfl
    refine .free idle.qs idle.v idle.unit idle.active idle.parked idle.timer
      (Station.stepping_still _ _ _ ⟨nofun, nofun⟩) ?_
    change (s.site i).x.state ≠ .trimming
    rw [state]; exact nofun
  · exact .stay h held rfl

/-- The stored drum position of a fit station may change. -/
theorem Site.Fit.position (h : k.Fit) (n : Nat) : Site.Fit { k with x := { k.x with position := some n } } :=
  ⟨h.recorded.congr rfl rfl rfl, h.doing.congr rfl rfl rfl rfl rfl rfl rfl rfl,
    ⟨fun known => ⟨rfl, (h.geared.known known).2⟩, h.geared.step, h.geared.wait, h.geared.rest, h.geared.locked⟩,
    h.watched⟩

/-- A drum position at a station that has left UNKNOWN (R8, R18, R124). -/
theorem State.drumMoved_after (h : (s.site i).Fit) (held : (s.site i).Held) :
    ((s.drumMoved i).site i).After (s.site i).x.state := by
  obtain ⟨fit, state, -, keeps⟩ := State.updateLength_fit h
  unfold State.drumMoved
  dsimp only
  split
  · next paying =>
    rw [← state]
    exact State.payoutStop_after fit (keeps held) paying
  · rw [← state]
    exact State.motionTests_after fit (keeps held)

/-! ### READY (R98 to R103, R116, R124) -/

theorem Station.stepping_locking {x : Station} {kind : StepKind} (lock : LockPos) (clutch : ClutchPos) (limit : Nat)
    (h : kind ≠ .motionLock) : (x.stepping kind lock clutch limit).locking = false := by
  by_cases agreed : x.senLock = some lock ∧ x.senClutch = some clutch
  · rw [Station.stepping_agreed kind limit agreed]; rfl
  · rw [Station.stepping_open kind limit agreed]; simp [Station.locking, h]

/-- The motion that a station starts on its standing position (R124). -/
abbrev Station.motionFrom (x : Station) (n : Nat) : Motion := ⟨x.position.getD 0, x.length, n, 0⟩

/-- A station at the start of its motion, before the tests (R16). -/
abbrev Station.begun (x : Station) (settings : Settings) (a : ActiveOp) (n : Nat) : Station :=
  Station.stepping { x with
    stopCause := .none
    motionTimer := some (a.work.motionLimit settings)
    active := some { a with phase := .moving (x.motionFrom n) } } .motionUnlock .unlocked .engaged settings.gearLimit

/-- A unit that starts a motion; the drum is let go where the gear is already open (R16). -/
abbrev DriveUnit.begun (d : DriveUnit) (x : Station) : DriveUnit :=
  { d with
    state := .running
    readyTimer := none
    stop := if x.senLock = some .unlocked ∧ x.senClutch = some .engaged then false else d.stop }

/-- The state at the start of a motion, before the unlock step (R16). -/
abbrev State.unlocking (s : State) (i : StationId) (u : UnitId) (a : ActiveOp) (n : Nat) : State :=
  ((s.onUnit u (fun y => { y with state := .running, readyTimer := none })).onStation i (fun y =>
    { y with
      stopCause := .none
      motionTimer := some (a.work.motionLimit s.settings)
      active := some { a with phase := .moving ((s.station i).motionFrom n) } })).emptyWindow i

/-- The state at the start of a motion, before the tests of the standing position (R16). -/
def State.begun (s : State) (i : StationId) (u : UnitId) (a : ActiveOp) (n : Nat) : State :=
  (s.unlocking i u a n).startStep i .motionUnlock .unlocked .engaged

theorem State.startMotion_eq (u : UnitId) (a : ActiveOp) (n : Nat) :
    s.startMotion i u a n = (s.begun i u a n).motionTests i := rfl

theorem State.site_begun {u : UnitId} (unit : (s.station i).unit = some u) (a : ActiveOp) (n : Nat) :
    (s.begun i u a n).site i = { s.site i with
      x := (s.station i).begun s.settings a n
      c := (s.channel i).emptied
      v := some ((s.unit u).begun (s.station i)) } := by
  have served : (s.site i).v = some (s.unit u) := by
    change (s.station i).unit.map s.unit = _
    rw [unit]; rfl
  unfold State.begun State.unlocking
  rw [State.site_startUnlockStep, State.emptyWindow, State.site_onChannel, State.site_onStation _ _ (by rfl),
    State.site_onUnit _ _ unit, served]
  dsimp only [DriveUnit.begun, State.station_eq_site]
  by_cases agreed : (s.site i).x.senLock = some .unlocked ∧ (s.site i).x.senClutch = some .engaged
  · rw [if_pos agreed, if_pos agreed]; rfl
  · rw [if_neg agreed, if_neg agreed]; rfl

theorem State.begun_fit {u : UnitId} {a : ActiveOp} (h : (s.site i).Fit) (unit : (s.site i).x.unit = some u)
    (act : (s.site i).x.active = some a) (granted : a.phase = .granted) (n : Nat) : ((s.begun i u a n).site i).Fit := by
  obtain ⟨w, b, phase⟩ := a
  cases granted
  cases h.doing with
  | free _ _ unit' | pending _ _ _ _ unit' | parked _ _ _ _ _ unit' | awaiting _ _ _ _ _ unit' =>
    rw [unit] at unit'; cases unit'
  | moving u d w b m _ a => rw [act] at a; cases a
  | locking u d _ _ _ a => obtain ⟨-, -, m, phase⟩ := a _ act; cases phase
  | granted u' d w' b' qs act' work v unit' park timer still state stop =>
    rw [act] at act'; cases act'
    obtain ⟨rest, -, known, -⟩ := LineState.endState_watched (Work.activeIn_cases work).1
    have sensed := h.geared.known known
    rw [State.site_begun unit]
    refine ⟨h.recorded.congr rfl rfl rfl, ?_, .stepping (by exact sensed) (by exact rest) (by rfl) _,
      h.watched.emptied fun k => (h.watched.steady k).1⟩
    exact .moving u _ w b _ qs rfl work rfl unit park rfl (Station.stepping_locking _ _ _ nofun) rfl

/-- The site of a station after the start of its motion and the tests on its standing position (R16). -/
theorem State.startMotion_after {u : UnitId} {a : ActiveOp} (h : (s.site i).Fit) (free : (s.site i).hold = false)
    (unit : (s.site i).x.unit = some u) (act : (s.site i).x.active = some a) (granted : a.phase = .granted) (n : Nat) :
    ((s.startMotion i u a n).site i).After (s.site i).x.state := by
  have fit := State.begun_fit h unit act granted n
  have site := State.site_begun unit a n
  rw [State.startMotion_eq]
  have := State.motionTests_after fit (by rw [site]; exact Site.held_of_free free)
  rw [site] at this
  exact this

/-- A grant that is given back before motion (R115). -/
theorem State.giveBack_after {a : ActiveOp} {new : LineState} (h : (s.site i).Fit) (act : (s.site i).x.active = some a)
    (granted : a.phase = .granted) (ends : (s.site i).x.state.endsIn new = true) :
    (((s.giveBack i).enter i new).site i).After (s.site i).x.state ∧ (((s.giveBack i).enter i new).site i).Idle ∧
      (((s.giveBack i).enter i new).site i).x.state = new := by
  obtain ⟨w, b, phase⟩ := a
  cases granted
  have ending := h.ending_of_granted act
  obtain ⟨fit, idle⟩ := ending.quit_fit (ending.active _ act).2 ends
  rw [s.site_giveBack_enter (LineState.endsIn_cases ends).2.2.1 (LineState.ne_fast_of_holdsUnit ending.holds)]
  exact ⟨.of_empty fit idle.held (LineState.endsIn_cases ends).1 idle.qs, idle, rfl⟩

/-- Under the hold no grant waits for READY. -/
theorem Site.Held.free_of_granted {a : ActiveOp} (h : k.Held) (act : k.x.active = some a) (granted : a.phase = .granted) :
    k.hold = false := by
  rw [Bool.eq_false_iff]
  intro hold
  obtain ⟨m, phase⟩ := (h hold).2 a act
  rw [granted] at phase; cases phase

/-- A granted operation stands in the state that carries it out. -/
theorem Site.Fit.granted_work {a : ActiveOp} (h : k.Fit) (act : k.x.active = some a) (granted : a.phase = .granted) :
    a.work.activeIn k.x.state = true := by
  obtain ⟨w, b, phase⟩ := a
  cases granted
  exact ((h.ending_of_granted act).active _ act).1

/-- READY from a unit that waits at its grant (R98, R101, R103, R116). -/
theorem State.ready_after {u : UnitId} (h : (s.site i).Fit) (held : (s.site i).Held)
    (served : (s.unit u).served = some i) (unit : (s.site i).x.unit = some u) :
    ((s.ready u).site i).After (s.site i).x.state := by
  unfold State.ready
  rw [served]
  split
  · next i' state e =>
    cases e
    have v : (s.site i).v = some (s.unit u) := by
      change (s.site i).x.unit.map s.unit = _
      rw [unit]; rfl
    split
    · exact .stay h held rfl
    · next a active =>
      have act : (s.site i).x.active = some a := active
      have granted : a.phase = .granted := by
        cases h.doing with
        | free _ _ unit' | pending _ _ _ _ unit' | parked _ _ _ _ _ unit' | awaiting _ _ _ _ _ unit' =>
          rw [unit] at unit'; cases unit'
        | granted _ _ _ _ _ act' => rw [act] at act'; cases act'; rfl
        | moving _ _ _ _ _ _ _ _ v' _ _ _ _ running => rw [v] at v'; cases v'; rw [state] at running; cases running
        | locking _ _ _ _ _ _ _ v' _ _ other => rw [v] at v'; cases v'; exact absurd state other
      have free := held.free_of_granted act granted
      have work := h.granted_work act granted
      have start : ∀ n, ((s.startMotion i u a n).site i).After (s.site i).x.state := fun n =>
        State.startMotion_after h free unit act granted n
      split
      · next d critical w =>
        rw [w] at work
        have trimming : (s.site i).x.state = .trimming := by simpa [Work.activeIn] using work
        have given := (State.giveBack_after h act granted
          (Site.Ending.restingOf (h.ending_of_granted (w := a.work) (b := a.retryUsed) (by rw [act, ← granted]))
            trimming)).1
        unfold State.readyTrim
        dsimp only
        split
        · exact given
        · split
          · exact start _
          · exact given
          · exact State.raise_after given _
      · next w =>
        rw [w] at work
        have heaving : (s.site i).x.state = .heaving := by simpa [Work.activeIn] using work
        have given := (State.giveBack_after h act granted (new := .fast) (by rw [heaving]; rfl)).1
        unfold State.readyHeave
        dsimp only
        split
        · exact given
        · split
          · exact State.raise_after given _
          · exact start _
      · exact start _
      · exact start _
  · exact .stay h held rfl

/-! ### Failures of units (R117 to R121) -/

/-- A unit that fails at its grant (R117, R118). -/
theorem State.failGranted_after {u : UnitId} {a : ActiveOp} (h : (s.site i).Fit) (served : (s.unit u).served = some i)
    (unit : (s.site i).x.unit = some u) (act : (s.site i).x.active = some a) (granted : a.phase = .granted) :
    ((s.failGranted u).site i).After (s.site i).x.state := by
  obtain ⟨w, b, phase⟩ := a
  cases granted
  have ending := h.ending_of_granted act
  unfold State.failGranted
  rw [served]
  dsimp only
  have site := s.site_faultUnit unit
  have released : ((s.faultUnit u).releaseUnit i).site i = { s.site i with
      x := { (s.site i).x with unit := none }
      v := none
      alert := (s.site i).alert || (s.site i).mode != .criticalOnly } := by
    rw [State.site_releaseUnit, site]
  have ending' : (((s.faultUnit u).releaseUnit i).site i).Ending := by
    rw [released]
    exact ⟨ending.recorded.congr rfl rfl rfl, ending.geared.congr rfl rfl, ending.watched, ending.qs, ending.timer,
      ending.still, ending.holds, ending.active, ending.parked⟩
  have := State.failWaiting_after ending' (by rw [released]) (by rw [released]) (a := ⟨w, b, .granted⟩)
    (by rw [released]; exact act)
  rw [released] at this
  exact this

/-- A unit in RUNNING that faults (R118, R121). -/
theorem State.failRunning_after {u : UnitId} (h : (s.site i).Fit) (held : (s.site i).Held)
    (served : (s.unit u).served = some i) (unit : (s.site i).x.unit = some u) (running : (s.unit u).state = .running) :
    ((s.failRunning u).site i).After (s.site i).x.state := by
  have v : (s.site i).v = some (s.unit u) := by
    change (s.site i).x.unit.map s.unit = _
    rw [unit]; rfl
  unfold State.failRunning
  rw [served]
  dsimp only
  have site : ((s.faultUnit u).raise i .driveFault).site i = _ := State.site_raise _ _
  rw [s.site_faultUnit unit, v] at site
  split
  · next moves =>
    have stopping := h.stopping (by exact moves) .driveFault (active := (s.site i).x.active.map ActiveOp.ended)
      (parked := (s.site i).x.parked) (.inl ⟨rfl, h.moving_parked (by exact moves)⟩)
    have stops : ((((s.faultUnit u).raise i .driveFault).stopMotion i .driveFault).site i).Stopping := by
      rw [State.site_stopMotion, site]
      exact ⟨stopping.recorded.congr rfl rfl rfl, stopping.sensed, stopping.watched, stopping.qs, rfl, stopping.holds,
        stopping.active, stopping.parked, u, _, unit, rfl, nofun, rfl⟩
    have := State.startLockStep_after stops
    rw [State.site_stopMotion, site] at this
    exact this
  · next still =>
    rw [site]
    have doing : ∃ d, d.state = UnitState.running ∧ (s.site i).v = some d := ⟨_, running, v⟩
    cases h.doing with
    | free _ v' | pending _ _ _ v' | parked _ _ _ _ v' | awaiting _ _ _ _ v' => rw [v] at v'; cases v'
    | granted _ _ _ _ _ _ _ v' _ _ _ _ state => rw [v] at v'; cases v'; rw [running] at state; cases state
    | moving _ _ w b m _ act =>
      refine absurd ?_ still
      rw [State.motionOf_eq_site, act]; rfl
    | locking u' d qs l holds act park v' unit' timer state stop =>
      refine .stay ⟨h.recorded.congr rfl rfl rfl, ?_, h.geared.congr rfl rfl, h.watched⟩ (held.congr rfl rfl rfl) rfl
      exact .locking u' _ qs l holds act park rfl unit' timer nofun rfl

/-! ### Out of UNKNOWN (R183, R184) -/

/-- A station in UNKNOWN that holds its position and senses: fit but for what its senses ask of its gear. -/
theorem Site.Fit.unknown_idle (h : k.Fit) (state : k.x.state = .unknown) :
    k.Idle ∧ k.r = none ∧ k.x.step = none ∧ k.x.gearTimer = none ∧ k.x.cmdLock = .locked := by
  refine ⟨h.doing.idle (by rw [state]; rfl), h.recorded.absent (by rw [state]; rfl), ?_,
    h.geared.rest (by rw [state]; rfl), h.geared.locked (.inl state)⟩
  rw [Option.eq_none_iff_forall_not_mem]
  intro g hg
  have := (h.geared.step g hg).1
  rw [state] at this; cases this

/-- The row of R183 and the gear of R184, for a fit station in UNKNOWN. -/
theorem State.reconstruct_after (h : (s.site i).Fit) (state : (s.site i).x.state = .unknown)
    (sensed : (s.site i).x.sensedAll) : ((s.reconstruct i).site i).After .unknown ∧
      ((s.reconstruct i).site i).x.state ≠ .unknown ∧ ((s.reconstruct i).site i).x.state ≠ .inLocal := by
  obtain ⟨idle, none, step, timer, cmdLock⟩ := h.unknown_idle state
  have takeOver := h.recorded.takeOver_none (by rw [state]; exact nofun)
  unfold State.reconstruct
  dsimp only
  split
  · have := State.enterFault_after h sensed .sensor .sensor
    rw [state] at this
    refine ⟨this, ?_⟩
    rw [State.site_enterFault]
    exact ⟨nofun, nofun⟩
  · have site : (s.clearPendingFault i).site i = { s.site i with
        x := { (s.site i).x with pendingSensorFault := false } } := s.site_onStation _ rfl
    generalize s.clearPendingFault i = t at site
    have rest : ∀ new : LineState, new = .released ∨ new = .outUnclaimed →
        (((t.enter i new).disagreementTest i).site i).After .unknown ∧
          (((t.enter i new).disagreementTest i).site i).x.state ≠ .unknown ∧
          (((t.enter i new).disagreementTest i).site i).x.state ≠ .inLocal := by
      intro new hnew
      have ne : new ≠ .trimming ∧ new ≠ .inLocal ∧ new ≠ .unknown ∧ new.gearAtRest = false ∧ new.moored = false ∧
          LineState.unknown.goes new = true := by
        rcases hnew with rfl | rfl <;> exact ⟨nofun, nofun, nofun, rfl, rfl, rfl⟩
      obtain ⟨trimming, inLocal, unknown, watched, moored, goes⟩ := ne
      have fast : (t.site i).x.state ≠ .fast := by rw [site]; change (s.site i).x.state ≠ _; rw [state]; exact nofun
      rw [State.site_disagreementTest, State.site_enter_of trimming fast, site]
      refine ⟨.of_empty ⟨.of_plain h.recorded.valid rfl takeOver trimming inLocal (fun m => ?_) (fun _ => none),
        .free idle.qs idle.v idle.unit idle.active idle.parked idle.timer idle.still trimming,
        .waiting (by exact sensed) (by exact watched) (by exact step) _, h.watched.entering⟩
        (Site.held_of_none idle.qs idle.active) goes idle.qs,
        unknown, inLocal⟩
      rw [show new.moored = true from m] at moored; cases moored
    split
    · obtain ⟨c, alert, stow, watched⟩ := State.stow_site (s := t) (i := i)
        (by rw [site]; change (s.site i).x.state ≠ _; rw [state]; exact nofun) (by rw [site]; exact h.watched)
      have e : ((t.stow i).onStation i (fun y => { y with cmdClutch := some .engaged })).site i = { s.site i with
          x := { ({ (s.site i).x with pendingSensorFault := false }).entered .stowed with cmdClutch := some .engaged }
          c := c
          r := Option.none
          alert := alert } := by
        rw [State.site_onStation _ _ (by rfl), stow, site]
      rw [site] at watched
      split
      · next shut =>
        rw [e]
        refine ⟨.of_empty ⟨.of_plain nofun rfl takeOver nofun nofun nofun fun _ => rfl,
          .free idle.qs idle.v idle.unit idle.active idle.parked idle.timer idle.still nofun,
          .of_agreed sensed rfl step timer ?_, watched⟩ (Site.held_of_none idle.qs idle.active) rfl idle.qs, nofun, nofun⟩
        obtain ⟨clutch, lock⟩ := shut
        change (s.site i).x.senClutch = _ at clutch
        change (s.site i).x.senLock = _ at lock
        simp [Station.disagrees, Station.entered, clutch, lock, cmdLock]
      · rw [State.site_startStep_plain _ _ _ (by decide), e]
        refine ⟨.of_empty ⟨.of_plain nofun rfl takeOver nofun nofun nofun fun _ => rfl,
          .free idle.qs idle.v idle.unit idle.active idle.parked idle.timer
            (Station.stepping_still _ _ _ ⟨nofun, nofun⟩) nofun,
          .stepping (by exact sensed) (by rfl) (by rfl) _, watched⟩ (Site.held_of_none idle.qs idle.active) rfl idle.qs,
          nofun, nofun⟩
    · split
      · exact rest _ (.inl rfl)
      · exact rest _ (.inr rfl)

/-- A station in UNKNOWN that has been told its position or a sense is fit as long as its gear is at rest. -/
theorem State.leaveUnknown_after (h : (s.site i).Fit) (held : (s.site i).Held) (state : (s.site i).x.state = .unknown) :
    ((s.leaveUnknown i).site i).After .unknown := by
  unfold State.leaveUnknown
  split
  · next complete =>
    have complete := complete.2
    simp only [Station.complete, Bool.and_eq_true, and_assoc] at complete
    have sensed : (s.site i).x.sensedAll := complete
    obtain ⟨fit, state', -, -⟩ := State.updateLength_fit h
    rw [state] at state'
    have sensed' : ((s.updateLength i).site i).x.sensedAll := by
      obtain ⟨count, position⟩ := Option.isSome_iff_exists.1 sensed.1
      obtain ⟨alert, site⟩ := State.site_updateLength position
      rw [site, Station.measured_fields]
      exact ⟨rfl, sensed.2⟩
    generalize s.updateLength i = t at fit state' sensed'
    obtain ⟨idle, none, step, timer, cmdLock⟩ := fit.unknown_idle state'
    have site : (t.onStation i (fun x => { x with cmdClutch := x.senClutch })).site i = { t.site i with
        x := { (t.site i).x with cmdClutch := (t.site i).x.senClutch } } := t.site_onStation _ rfl
    generalize t.onStation i (fun x => { x with cmdClutch := x.senClutch }) = r at site
    have rest : (t.site i).x.state.gearAtRest = true := by rw [state']; rfl
    have fit' : (r.site i).Fit := by
      rw [site]
      exact ⟨fit.recorded.congr rfl rfl rfl, fit.doing.congr rfl rfl rfl rfl rfl rfl rfl rfl,
        .of_rest sensed' rest step timer fun _ => cmdLock, fit.watched⟩
    obtain ⟨after, known, out⟩ := State.reconstruct_after fit' (by rw [site]; exact state') (by rw [site]; exact sensed')
    exact State.deferredTakeOver_after after known out
  · exact .stay h held state

/-- In UNKNOWN the position and the senses may be stored as they come (R2, R20). -/
theorem Site.Fit.store (h : k.Fit) (state : k.x.state = .unknown) (position : Option Nat) (lock : Option LockPos)
    (clutch : Option ClutchPos) : Site.Fit { k with
      x := { k.x with position := position, senLock := lock, senClutch := clutch } } := by
  obtain ⟨-, -, step, timer, cmdLock⟩ := h.unknown_idle state
  refine ⟨h.recorded.congr rfl rfl rfl, h.doing.congr rfl rfl rfl rfl rfl rfl rfl rfl,
    ⟨fun known => absurd state known, fun g hg => ?_, fun _ rest => ?_, fun _ => timer, fun _ => cmdLock⟩, h.watched⟩
  · rw [show k.x.step = some g from hg] at step; cases step
  · have rest : k.x.state.gearAtRest = false := rest
    rw [state] at rest; cases rest

end Sys2Proof.Machine
end

