-- ==== Sys2Proof/Proofs/HandOvers.lean ====
section
/-! PROOF. The end of a take-over, CLEAR-FAULT, and the commands of a station: what each leaves at its site. -/

namespace Sys2Proof.Machine

variable {s : State} {i : StationId} {k l : Site} {old : LineState}

/-! ### LOCAL (R153 to R158) -/

/-- What a station in LOCAL does: nothing, or it holds a parked operation. -/
theorem Site.Fit.inLocal (h : k.Fit) (state : k.x.state = .inLocal) :
    k.qs = [] ∧ k.v = none ∧ k.x.unit = none ∧ k.x.active = none ∧ k.x.motionTimer = none ∧ k.x.still = true ∧
      (∀ p ∈ k.x.parked, p.work.parkedIn .inLocal = true) ∧ k.x.step = none ∧ k.x.gearTimer = none := by
  have step : k.x.step = none := by
    rw [Option.eq_none_iff_forall_not_mem]
    intro g hg
    have := (h.geared.step g hg).1
    rw [state] at this; cases this
  have timer := h.geared.rest (by rw [state]; rfl)
  have noActive : ∀ w : Work, w.activeIn .inLocal = false ∧ w.pendingIn .inLocal = false := by
    intro w; cases w <;> exact ⟨rfl, rfl⟩
  cases h.doing with
  | free qs v unit act park motion still =>
    exact ⟨qs, v, unit, act, motion, still, fun p hp => (by rw [park] at hp; cases hp), step, timer⟩
  | parked p qs park work v unit act motion still =>
    refine ⟨qs, v, unit, act, motion, still, fun p' hp => ?_, step, timer⟩
    rw [park] at hp; cases hp
    exact state ▸ work
  | pending q qs work => rw [state, (noActive _).2] at work; cases work
  | awaiting b qs act rewinding => rw [state] at rewinding; cases rewinding
  | granted u d w b qs act work => rw [state, (noActive _).1] at work; cases work
  | moving u d w b m qs act work => rw [state, (noActive _).1] at work; cases work
  | locking u d qs l holds => rw [state] at holds; cases holds

theorem State.site_setStale_of_record (h : (s.site i).r.isSome = true) :
    (s.setStale i).site i = { s.site i with
      r := (s.site i).r.map (fun r => { r with stale := true })
      c := { (s.site i).c with steady := 0 } } := by
  rw [State.site_setStale, if_pos h]

/-- The take-over timer expires (R156). -/
theorem State.takeOverExpired_after (h : (s.site i).Fit) (state : (s.site i).x.state = .inLocal) :
    ((s.takeOverExpired i).site i).After (s.site i).x.state := by
  obtain ⟨qs, v, unit, act, motion, still, -, step, timer⟩ := h.inLocal state
  have site : (s.onStation i (fun x =>
      { x with takeOver := x.takeOver.map (fun o => { o with timer := none }), parked := none })).site i =
      { s.site i with x := { (s.site i).x with
        takeOver := (s.site i).x.takeOver.map (fun o => { o with timer := none }), parked := none } } :=
    s.site_onStation _ rfl
  have recorded : Station.Recorded { (s.site i).x with
      takeOver := (s.site i).x.takeOver.map (fun o => { o with timer := none }), parked := none } (s.site i).r := by
    refine ⟨h.recorded.valid, h.recorded.present, h.recorded.absent, h.recorded.resting, h.recorded.restingState, ?_,
      fun o ho => ?_⟩
    · simp only [Option.isSome_map]; exact h.recorded.takeOver
    · obtain ⟨o', ho', rfl⟩ := Option.map_eq_some_iff.1 ho
      exact h.recorded.returns o' ho'
  have trimming : (s.site i).x.state ≠ .trimming := by rw [state]; exact nofun
  unfold State.takeOverExpired
  dsimp only
  split
  · next present =>
    refine State.raise_after ?_ _
    rw [State.site_setStale_of_record (by rw [site]; exact present), site]
    refine .stay ⟨recorded.record (fun m hm => ?_) (by simp), .free qs v unit act rfl motion still trimming,
      h.geared.congr rfl rfl, h.watched.stale⟩ (Site.held_of_none qs act) rfl
    obtain ⟨m', hm', rfl⟩ := Option.map_eq_some_iff.1 hm
    exact h.recorded.valid m' hm'
  · rw [site]
    exact .stay ⟨recorded, .free qs v unit act rfl motion still trimming, h.geared.congr rfl rfl, h.watched⟩
      (Site.held_of_none qs act) rfl

/-- A site whose station has taken a state of R21 or R157, its gear aside: nothing is in flight, and what is parked is a
commanded operation. -/
structure Site.Handed (k : Site) : Prop where
  recorded : k.x.Recorded k.r
  sensed : k.x.sensedAll
  watched : k.c.Watched k.x.state k.r k.cal.decimation
  qs : k.qs = []
  v : k.v = none
  unit : k.x.unit = none
  active : k.x.active = none
  timer : k.x.motionTimer = none
  parked : ∀ p ∈ k.x.parked, p.work.parkedIn .inLocal = true
  state : k.x.state.gearAtRest = false ∧ k.x.state ≠ .trimming

theorem State.site_enter_out {state : LineState} (trimming : state ≠ .trimming) (fast : state ≠ .fast) :
    (s.enter i state).site i = { s.site i with
      x := (s.site i).x.entered state
      c := (s.site i).c.leftBand } := by
  rw [State.site_enter]
  simp only [trimming, fast, if_false, Station.entered]

/-- What `enterByList` and the entry to a state ask of a site that leaves LOCAL or FAULT. -/
structure Site.Leaving (k : Site) : Prop where
  valid : ∀ m ∈ k.r, m.valid
  sensed : k.x.sensedAll
  watched : k.c.Watched k.x.state k.r k.cal.decimation
  qs : k.qs = []
  v : k.v = none
  unit : k.x.unit = none
  active : k.x.active = none
  timer : k.x.motionTimer = none
  step : k.x.step = none
  gearTimer : k.x.gearTimer = none
  parked : ∀ p ∈ k.x.parked, p.work.parkedIn .inLocal = true
  takeOver : k.x.takeOver = none
  fast : k.x.state ≠ .fast

/-- The station enters a state that its record bears out. -/
theorem State.enter_handed {new : LineState} (h : (s.site i).Leaving) (watched : new.gearAtRest = false)
    (trimming : new ≠ .trimming) (present : new.moored = true → (s.site i).r.isSome = true)
    (absent : new.unmoored = true → (s.site i).r = none) : ((s.enter i new).site i).Handed := by
  have inLocal : new ≠ .inLocal := by rintro rfl; cases watched
  rw [State.site_enter_of trimming h.fast]
  exact ⟨.of_plain h.valid rfl h.takeOver trimming inLocal present absent, h.sensed, h.watched.entering, h.qs, h.v, h.unit,
    h.active, h.timer, h.parked, watched, trimming⟩

theorem State.stow_handed (h : (s.site i).Leaving) :
    ((s.stow i).site i).Handed ∧ ((s.stow i).site i).x = (s.site i).x.entered .stowed := by
  obtain ⟨c, alert, site, watched⟩ := State.stow_site h.fast h.watched
  rw [site]
  exact ⟨⟨.of_plain nofun rfl h.takeOver nofun nofun nofun fun _ => rfl, h.sensed, watched, h.qs, h.v, h.unit, h.active,
    h.timer, h.parked, rfl, nofun⟩, rfl⟩

theorem State.stateByList_cases (s : State) (i : StationId) :
    (s.stateByList i = .fast ∧ (s.site i).r.isSome = true) ∨ s.stateByList i = .released ∨
      (s.stateByList i = .outUnclaimed ∧ (s.site i).r = none) ∨ s.stateByList i = .stowed := by
  unfold State.stateByList
  dsimp only
  split
  · next h => exact .inl ⟨rfl, h.1⟩
  · split
    · exact .inr (.inl rfl)
    · split
      · next h => exact .inr (.inr (.inl ⟨rfl, Option.isNone_iff_eq_none.1 h.1⟩))
      · exact .inr (.inr (.inr rfl))

/-- The station takes the state of the list of R21 (R21, R38, R44): the gear, the work and the parked operation stand. -/
theorem State.enterByList_handed (h : (s.site i).Leaving) :
    ((s.enterByList i (s.stateByList i)).site i).Handed ∧
      ((s.enterByList i (s.stateByList i)).site i).x = (s.site i).x.entered (s.stateByList i) := by
  have enters : ∀ new : LineState, new ≠ .trimming → ((s.enter i new).site i).x = (s.site i).x.entered new :=
    fun new trimming => by rw [State.site_enter_of trimming h.fast]
  rcases s.stateByList_cases i with ⟨e, some⟩ | e | ⟨e, none⟩ | e <;> rw [e]
  · have fast := State.enter_handed h (new := .fast) rfl nofun (fun _ => some) nofun
    have x := enters .fast nofun
    change (((s.enter i .fast).setStale i).site i).Handed ∧ _ = _
    change _ ∧ (((s.enter i .fast).setStale i).site i).x = _
    have present : ((s.enter i .fast).site i).r.isSome = true := by
      rw [State.site_enter_of (state := .fast) nofun h.fast]; exact some
    rw [State.site_setStale_of_record present]
    refine ⟨⟨fast.recorded.record (fun m hm => ?_) (by simp), fast.sensed, fast.watched.stale, fast.qs, fast.v, fast.unit,
      fast.active, fast.timer, fast.parked, fast.state⟩, x⟩
    obtain ⟨m', hm', rfl⟩ := Option.map_eq_some_iff.1 hm
    exact fast.recorded.valid m' hm'
  · exact ⟨State.enter_handed h (new := .released) rfl nofun nofun nofun, enters .released nofun⟩
  · exact ⟨State.enter_handed h (new := .outUnclaimed) rfl nofun nofun (fun _ => none), enters .outUnclaimed nofun⟩
  · exact State.stow_handed h

/-- CLEAR-FAULT of a station whose gear agrees (R21, R154). -/
theorem State.clearFault_after (h : (s.site i).Fit) (state : (s.site i).x.state = .fault)
    (agrees : (s.site i).x.disagrees = false) :
    ((((s.enterByList i (s.stateByList i)).deferredTakeOver i)).site i).After .fault := by
  have idle := h.doing.idle (by rw [state]; rfl)
  have step : (s.site i).x.step = none := by
    rw [Option.eq_none_iff_forall_not_mem]
    intro g hg
    have := (h.geared.step g hg).1
    rw [state] at this; cases this
  have timer := h.geared.rest (by rw [state]; rfl)
  have leaving : (s.site i).Leaving :=
    ⟨h.recorded.valid, h.geared.known (by rw [state]; exact nofun), h.watched, idle.qs, idle.v, idle.unit, idle.active,
      idle.timer, step, timer, fun p hp => (by rw [idle.parked] at hp; cases hp),
      h.recorded.takeOver_none (by rw [state]; exact nofun), by rw [state]; exact nofun⟩
  obtain ⟨handed, x⟩ := State.enterByList_handed leaving
  have goes : LineState.fault.goes (s.stateByList i) = true ∧ s.stateByList i ≠ .unknown ∧ s.stateByList i ≠ .inLocal := by
    rcases s.stateByList_cases i with ⟨e, -⟩ | e | ⟨e, -⟩ | e <;> rw [e] <;> exact ⟨rfl, nofun, nofun⟩
  have parked : ((s.enterByList i (s.stateByList i)).site i).x.parked = none := by rw [x]; exact idle.parked
  have geared : ((s.enterByList i (s.stateByList i)).site i).x.Geared :=
    .of_agreed handed.sensed handed.state.1 (by rw [x]; exact step) (by rw [x]; exact timer) (by rw [x]; exact agrees)
  refine State.deferredTakeOver_after (.of_empty ⟨handed.recorded,
    .free handed.qs handed.v handed.unit handed.active parked handed.timer (by rw [x]; exact idle.still)
      handed.state.2, geared, handed.watched⟩ (Site.held_of_none handed.qs handed.active) ?_ handed.qs) ?_ ?_
  all_goals rw [x]
  · exact goes.1
  · exact goes.2.1
  · exact goes.2.2

/-! ### The end of a take-over (R157, R158) -/

/-- The station takes its return state, or the state of the list of R21 that replaces it (R157); it takes REWINDING
only with a REWIND parked. -/
theorem State.takeReturnState_handed (h : (s.site i).Leaving) {state : LineState}
    (returns : state.returns (s.site i).r.isSome = true) :
    ((s.takeReturnState i state).site i).Handed ∧ ∃ new,
      ((s.takeReturnState i state).site i).x = (s.site i).x.entered new ∧ LineState.inLocal.goes new = true ∧
        new.holdsUnit = (new == .rewinding) ∧ (new = .rewinding → ∃ p ∈ (s.site i).x.parked, p.work = .rewind) := by
  have enters : ∀ new : LineState, new ≠ .trimming → ((s.enter i new).site i).x = (s.site i).x.entered new :=
    fun new trimming => by rw [State.site_enter_of trimming h.fast]
  have known : state.gearAtRest = false ∧ state ≠ .trimming ∧ state.holdsUnit = (state == .rewinding) ∧
      LineState.inLocal.goes state = true ∧ (state.moored = true → (s.site i).r.isSome = true) ∧
      (state.unmoored = true → (s.site i).r = none) := by
    cases state <;> first
      | (cases returns; done)
      | exact ⟨rfl, nofun, rfl, rfl, fun _ => returns, nofun⟩
      | exact ⟨rfl, nofun, rfl, rfl, nofun, fun _ => by simpa [LineState.returns] using returns⟩
      | exact ⟨rfl, nofun, rfl, rfl, nofun, nofun⟩
  obtain ⟨watched, trimming, holds, goes, present, absent⟩ := known
  unfold State.takeReturnState
  split
  · split
    · exact ⟨State.enter_handed h (new := .released) rfl nofun nofun nofun, .released, enters _ nofun, rfl, rfl, nofun⟩
    · next rewind =>
      split
      · obtain ⟨handed, x⟩ := State.stow_handed h
        exact ⟨handed, .stowed, x, rfl, rfl, nofun⟩
      · refine ⟨State.enter_handed h watched trimming present absent, state, enters _ trimming, goes, holds, fun e => ?_⟩
        rw [State.station_eq_site] at rewind
        by_contra k
        refine rewind ⟨e, ?_⟩
        cases park : (s.site i).x.parked with
        | none => rfl
        | some p => simpa using fun w => k ⟨p, park, w⟩
  · obtain ⟨handed, x⟩ := State.enterByList_handed h
    refine ⟨handed, _, x, ?_⟩
    rcases s.stateByList_cases i with ⟨e, -⟩ | e | ⟨e, -⟩ | e <;> rw [e] <;> exact ⟨rfl, rfl, nofun⟩

/-- The gear of a handed station is commanded anew. -/
theorem Site.Handed.gear (h : k.Handed) {y : Station} (form : y = { k.x with
    cmdLock := y.cmdLock, cmdClutch := y.cmdClutch, step := y.step, gearTimer := y.gearTimer }) :
    Site.Handed { k with x := y } := by
  generalize y.cmdLock = lock, y.cmdClutch = clutch, y.step = step, y.gearTimer = timer at form
  subst form
  exact ⟨h.recorded.congr rfl rfl rfl, h.sensed, h.watched, h.qs, h.v, h.unit, h.active, h.timer, h.parked, h.state⟩

/-- The commanded gear of a station that has taken its state (R157 step 4): everything else stands. -/
theorem State.handBack_site (h : (s.site i).Handed) (step : (s.site i).x.step = none)
    (timer : (s.site i).x.gearTimer = none) : ∃ y, (s.handBack i).site i = { s.site i with x := y } ∧
    y.Geared ∧ y.still = true ∧ y = { (s.site i).x with
      cmdLock := y.cmdLock, cmdClutch := y.cmdClutch, step := y.step, gearTimer := y.gearTimer } := by
  have steps : ∃ y, (s.startStep i .handBack .locked .engaged).site i = { s.site i with x := y } ∧ y.Geared ∧
      y.still = true ∧ y = { (s.site i).x with
        cmdLock := y.cmdLock, cmdClutch := y.cmdClutch, step := y.step, gearTimer := y.gearTimer } :=
    ⟨_, State.site_startStep_plain _ _ _ (by decide), .stepping h.sensed h.state.1 rfl _,
      Station.stepping_still _ _ _ ⟨nofun, nofun⟩, rfl⟩
  have keeps : ∃ y, (s.onStation i (fun x =>
      { x with cmdLock := x.senLock.getD x.cmdLock, cmdClutch := x.senClutch })).site i = { s.site i with x := y } ∧
      y.Geared ∧ y.still = true ∧ y = { (s.site i).x with
        cmdLock := y.cmdLock, cmdClutch := y.cmdClutch, step := y.step, gearTimer := y.gearTimer } := by
    refine ⟨_, s.site_onStation _ (by rfl), .of_agreed (by exact h.sensed) (by exact h.state.1) (by exact step)
      (by exact timer) ?_, Station.still_of_none step, rfl⟩
    obtain ⟨lock, hl⟩ := Option.isSome_iff_exists.1 h.sensed.2.1
    simp [Station.disagrees, hl]
  unfold State.handBack
  rw [State.station_eq_site]
  split
  case h_1 | h_2 => exact keeps
  all_goals exact steps

/-- The operation a station takes back as it leaves LOCAL (R158). -/
theorem resumeState_cases {state new : LineState} {w : Work} (h : resumeState state w = some new) :
    (state = .fast ∧ new = .heaving ∨ state = .eased ∧ new = .easing ∨ state = .rewinding ∧ new = .rewinding) ∧
      w.pendingIn new = true ∧ w.parkedIn new = true := by
  unfold resumeState at h
  split at h <;> cases h
  · exact ⟨.inl ⟨rfl, rfl⟩, rfl, rfl⟩
  · exact ⟨.inr (.inl ⟨rfl, rfl⟩), rfl, rfl⟩
  · exact ⟨.inr (.inr ⟨rfl, rfl⟩), rfl, rfl⟩

/-- A station that has left LOCAL takes its parked operation back, keeps it under the hold, or drops it (R158). -/
theorem State.resumeParked_after (h : (s.site i).Handed) (geared : (s.site i).x.Geared)
    (still : (s.site i).x.still = true) (goes : LineState.inLocal.goes (s.site i).x.state = true) :
    ((s.resumeParked i).site i).After .inLocal := by
  unfold State.resumeParked
  rw [State.station_eq_site]
  cases park : (s.site i).x.parked with
  | none =>
    exact .of_empty ⟨h.recorded, .free h.qs h.v h.unit h.active park h.timer still h.state.2, geared, h.watched⟩
      (Site.held_of_none h.qs h.active) goes h.qs
  | some p =>
    dsimp only
    cases resume : resumeState (s.site i).x.state p.work with
    | none =>
      dsimp only
      rw [State.site_unpark]
      exact .of_empty ⟨h.recorded.congr rfl rfl rfl, .free h.qs h.v h.unit h.active rfl h.timer still h.state.2,
        geared.congr rfl rfl, h.watched⟩ (Site.held_of_none h.qs h.active) goes h.qs
    | some new =>
      dsimp only
      obtain ⟨state, pendingIn, parkedIn⟩ := resumeState_cases resume
      have out : (s.site i).x.state ≠ .inLocal := by
        intro e; have := h.state.1; rw [e] at this; cases this
      have into : new ≠ .trimming ∧ new ≠ .fast ∧ new ≠ .inLocal ∧ new.gearAtRest = false ∧ new.unmoored = false ∧
          (new.moored = true → (s.site i).x.state.moored = true) ∧ LineState.inLocal.goes new = true := by
        rcases state with ⟨e, rfl⟩ | ⟨e, rfl⟩ | ⟨e, rfl⟩ <;> rw [e] <;>
          exact ⟨nofun, nofun, nofun, rfl, rfl, fun k => k, rfl⟩
      obtain ⟨trimming, fast, inLocal, watched, unmoored, moored, goes'⟩ := into
      have site := s.site_enter_out (i := i) trimming fast
      have recorded : ((s.site i).x.entered new).Recorded (s.site i).r :=
        h.recorded.enter out rfl rfl ⟨trimming, inLocal⟩ (fun m => h.recorded.present (moored m)) fun m => by
          rw [show new.unmoored = true from m] at unmoored; cases unmoored
      have geared' : ((s.site i).x.entered new).Geared := geared.move rfl h.state.1 watched
      split
      · rw [site]
        exact .of_empty ⟨recorded, .parked p h.qs park parkedIn h.v h.unit h.active h.timer still, geared',
          h.watched.leftBand⟩ (Site.held_of_none h.qs h.active) goes' h.qs
      · next hold =>
        rw [State.site_submitParked _ (by rw [site]; exact h.qs), site]
        dsimp only [Station.entered]
        rw [park]
        refine ⟨⟨recorded.congr rfl rfl rfl,
          .pending ⟨i, p.work, p.retryUsed⟩ rfl pendingIn h.v h.unit h.active rfl h.timer still,
          geared'.congr rfl rfl, h.watched.leftBand⟩, Site.held_of_free (Bool.eq_false_iff.2 hold), goes', fun q hq trim => ?_⟩
        obtain rfl := List.mem_singleton.1 hq
        have trim : p.work.isTrim = true := trim
        cases w : p.work with
        | trim d c => rw [w] at parkedIn; cases parkedIn
        | heave | slacken n | rewind => rw [w] at trim; cases trim

/-- The end of a take-over (R20, R157, R158). -/
theorem State.endTakeOver_after (h : (s.site i).Fit) (state : (s.site i).x.state = .inLocal) :
    ((s.endTakeOver i).site i).After (s.site i).x.state := by
  obtain ⟨qs, v, unit, act, motion, still, park, step, timer⟩ := h.inLocal state
  have sensed := h.geared.known (by rw [state]; exact nofun)
  unfold State.endTakeOver
  cases taking : (s.station i).takeOver with
  | none =>
    have := h.recorded.takeOver.2 state
    rw [← State.station_eq_site, taking] at this
    cases this
  | some taken =>
    have returns := h.recorded.returns taken taking
    dsimp only
    have site : (s.onStation i (fun x => { x with takeOver := none })).site i =
        { s.site i with x := { (s.site i).x with takeOver := none } } := s.site_onStation _ rfl
    split
    · exact State.enterFault_after_of (state := .inLocal) (by rw [site]; exact h.recorded.valid)
        (by rw [site]; exact state ▸ h.watched) (by rw [site]; exact sensed) _ _ _
    · have leaving : (((s.onStation i (fun x => { x with takeOver := none })).clearPendingFault i).site i).Leaving ∧
          (((s.onStation i (fun x => { x with takeOver := none })).clearPendingFault i).site i).r = (s.site i).r := by
        have e : ((s.onStation i (fun x => { x with takeOver := none })).clearPendingFault i).site i = { s.site i with
            x := { (s.site i).x with takeOver := none, pendingSensorFault := false } } := by
          rw [State.clearPendingFault, State.site_onStation _ _ (by rfl), site]
        rw [e]
        exact ⟨⟨h.recorded.valid, sensed, h.watched, qs, v, unit, act, motion, step, timer, park, rfl,
          by change (s.site i).x.state ≠ _; rw [state]; exact nofun⟩, rfl⟩
      generalize (s.onStation i (fun x => { x with takeOver := none })).clearPendingFault i = t at leaving
      obtain ⟨leaving, record⟩ := leaving
      obtain ⟨handed, new, x, goes, -⟩ := State.takeReturnState_handed leaving (state := taken.returnState)
        (by rw [record]; exact returns)
      obtain ⟨y, site', geared, still', form⟩ := State.handBack_site handed (by rw [x]; exact leaving.step)
        (by rw [x]; exact leaving.gearTimer)
      rw [state]
      have handed' : (((t.takeReturnState i taken.returnState).handBack i).site i).Handed := by
        rw [site']
        exact handed.gear form
      refine State.resumeParked_after handed' ?_ ?_ ?_
      all_goals rw [site']
      · exact geared
      · exact still'
      · rw [form, x]; exact goes

/-! ### The commands of a station -/

/-- RUN-OUT in STOWED (R17). -/
theorem State.runOut_after (h : (s.site i).Fit) (state : (s.site i).x.state = .stowed) :
    ((((s.enter i .paying).startStep i .runOut .unlocked .free)).site i).After (s.site i).x.state := by
  have idle := h.doing.idle (by rw [state]; rfl)
  have none := h.recorded.absent (by rw [state]; rfl)
  rw [State.site_startStep_plain _ _ _ (by decide), State.site_enter_out (state := .paying) nofun nofun]
  refine .of_empty ⟨h.recorded.enter (by rw [state]; exact nofun) rfl rfl ⟨nofun, nofun⟩ nofun fun _ => none, ?_,
    .stepping (by exact h.geared.known (by rw [state]; exact nofun)) (by rfl) (by rfl) _, h.watched.leftBand⟩
    (Site.held_of_none idle.qs idle.active) (by rw [state]; rfl) idle.qs
  exact .free idle.qs idle.v idle.unit idle.active idle.parked idle.timer (Station.stepping_still _ _ _ ⟨nofun, nofun⟩) nofun

/-- RETIRE in RELEASED or PAYING (R139, R140). -/
theorem State.retired_after (h : (s.site i).Fit) (free : (s.site i).hold = false)
    (state : (s.site i).x.state = .released ∨ (s.site i).x.state = .paying) :
    ((s.retired i).site i).After (s.site i).x.state := by
  have facts : (s.site i).x.state.workless = true ∧ (s.site i).x.state ≠ .inLocal ∧ (s.site i).x.state ≠ .unknown ∧
      (s.site i).x.state.goes .rewinding = true := by
    rcases state with e | e <;> rw [e] <;> exact ⟨rfl, nofun, nofun, rfl⟩
  obtain ⟨workless, inLocal, known, goes⟩ := facts
  have idle := h.doing.idle workless
  have sensed := h.geared.known known
  have recorded : ((s.site i).x.entered .rewinding).Recorded (s.site i).r :=
    h.recorded.enter inLocal rfl rfl ⟨nofun, nofun⟩ nofun nofun
  have site : ((s.enter i .rewinding).onStation i (fun x =>
      { x with cmdLock := .locked, active := some ⟨.rewind, false, .awaiting⟩ })).site i = { s.site i with
        x := { (s.site i).x.entered .rewinding with
          cmdLock := .locked, active := some ⟨.rewind, false, .awaiting⟩ }
        c := (s.site i).c.leftBand } := by
    rw [State.site_onStation _ _ (by rfl), State.site_enter_out (state := .rewinding) nofun nofun]
  unfold State.retired
  rw [State.site_startEngageStep (b := false) (by rw [site]; exact idle.qs) (by rw [site]), site]
  split
  · next shut =>
    obtain ⟨lock, clutch⟩ := (Station.shut_iff _).1 shut
    change (s.site i).x.senLock = _ at lock
    change (s.site i).x.senClutch = _ at clutch
    refine ⟨⟨recorded.congr rfl rfl rfl,
      .pending ⟨i, .rewind, false⟩ rfl rfl idle.v idle.unit rfl idle.parked idle.timer rfl,
      .of_agreed sensed rfl rfl rfl (by simp [Station.disagrees, Station.lockedUp, Station.entered, lock, clutch]),
      h.watched.leftBand⟩, Site.held_of_free free, goes, fun q hq trim => ?_⟩
    obtain rfl := List.mem_singleton.1 hq
    cases trim
  · next shut =>
    have differs : ¬((s.site i).x.senLock = some .locked ∧ (s.site i).x.senClutch = some .engaged) := fun k =>
      shut ((Station.shut_iff _).2 k)
    have step := Station.stepping_open (x := { (s.site i).x.entered .rewinding with
      cmdLock := .locked, active := some ⟨.rewind, false, .awaiting⟩ }) .rewindEngage (s.site i).settings.gearLimit differs
    refine .of_empty ⟨recorded.congr rfl rfl rfl, ?_, .stepping (by exact sensed) (by rfl) (by rfl) _, h.watched.leftBand⟩
      (Site.held_of_free free) goes idle.qs
    refine .awaiting false idle.qs rfl rfl idle.v idle.unit idle.parked idle.timer ?_
    change (Station.stepping _ _ _ _ _).step.any _ = true
    rw [step]; rfl

/-- What FAST and EASED can hold: a pending TRIM or nothing. -/
theorem Site.Fit.resting (h : k.Fit) (state : k.x.state = .fast ∨ k.x.state = .eased) :
    k.v = none ∧ k.x.unit = none ∧ k.x.active = none ∧ k.x.parked = none ∧ k.x.motionTimer = none ∧ k.x.still = true ∧
      ∀ q ∈ k.qs, q.work.isTrim = true := by
  have facts : k.x.state.holdsUnit = false ∧ k.x.state ≠ .rewinding ∧ (∀ w : Work, w.parkedIn k.x.state = false) ∧
      (∀ w : Work, w.activeIn k.x.state = false) ∧ ∀ w : Work, w.pendingIn k.x.state = true → w.isTrim = true := by
    rcases state with e | e <;> rw [e] <;>
      exact ⟨rfl, nofun, fun w => by cases w <;> rfl, fun w => by cases w <;> rfl,
        fun w k => by cases w <;> first | rfl | cases k⟩
  obtain ⟨holds, rewinding, noPark, noActive, trims⟩ := facts
  cases h.doing with
  | free qs v unit act park timer still =>
    exact ⟨v, unit, act, park, timer, still, fun q hq => by rw [qs] at hq; cases hq⟩
  | pending q qs work v unit act park timer still =>
    refine ⟨v, unit, act, park, timer, still, fun p hp => ?_⟩
    rw [qs] at hp
    obtain rfl := List.mem_singleton.1 hp
    exact trims _ work
  | parked p _ _ work => rw [noPark] at work; cases work
  | awaiting b _ _ state => exact absurd state rewinding
  | granted u d w b _ _ work => rw [noActive] at work; cases work
  | moving u d w b m _ _ work => rw [noActive] at work; cases work
  | locking u d _ _ holds' => rw [holds] at holds'; cases holds'

/-- A fit station's pending TRIM is withdrawn (R34, R136). -/
theorem Site.Fit.withdrawTrim (h : k.Fit) : Site.Fit { k with
    qs := if k.qs.head?.any (fun q => q.work.isTrim) then [] else k.qs } := by
  split
  · next trim =>
    cases h.doing with
    | pending q qs work v unit act park timer still =>
      refine ⟨h.recorded, .free rfl v unit act park timer still ?_, h.geared, h.watched⟩
      intro e
      have e : k.x.state = .trimming := e
      rw [e] at work
      cases w : q.work <;> rw [w] at work <;> cases work
    | free qs | parked _ qs | awaiting _ qs | granted _ _ _ _ qs | moving _ _ _ _ _ qs | locking _ _ qs =>
      rw [qs] at trim; cases trim
  · exact h

/-- SLACKEN in FAST or EASED (R135, R136). -/
theorem State.slackened_after (h : (s.site i).Fit) (free : (s.site i).hold = false)
    (state : (s.site i).x.state = .fast ∨ (s.site i).x.state = .eased) (length : Nat) :
    ((s.slackened i length).site i).After (s.site i).x.state := by
  obtain ⟨v, unit, act, park, timer, still, trims⟩ := h.resting state
  have facts : (s.site i).x.state ≠ .inLocal ∧ (s.site i).x.state.moored = true ∧
      (s.site i).x.state.gearAtRest = false ∧ (s.site i).x.state.goes .easing = true := by
    rcases state with e | e <;> rw [e] <;> exact ⟨nofun, rfl, rfl, rfl⟩
  obtain ⟨inLocal, moored, rest, goes⟩ := facts
  have empty : ((s.withdrawTrim i).enter i .easing).site i = { s.site i with
      x := (s.site i).x.entered .easing
      c := (s.site i).c.leftBand
      qs := [] } := by
    rw [State.site_enter_out (state := .easing) nofun nofun, State.site_withdrawTrim]
    cases qs : (s.site i).qs with
    | nil => rfl
    | cons q l => simp [trims q (by rw [qs]; exact List.mem_cons_self)]
  unfold State.slackened
  rw [State.site_submit _ _ _ (by rw [empty]), empty]
  refine ⟨⟨h.recorded.enter inLocal rfl rfl ⟨nofun, nofun⟩ (fun _ => h.recorded.present moored) nofun,
    .pending ⟨i, .slacken _, false⟩ rfl rfl v unit act park timer still, h.geared.move rfl rest rfl,
    h.watched.leftBand⟩, Site.held_of_free free, goes, fun q hq trim => ?_⟩
  obtain rfl := List.mem_singleton.1 hq
  cases trim

/-- A record is created at an idle station that has none, outside FAST and TRIMMING (R28, R46). -/
theorem State.createRecord_site (h : (s.site i).Fit) (out : (s.site i).x.state ≠ .fast ∧ (s.site i).x.state ≠ .trimming)
    (r : Mooring) : ∃ c alert, (s.createRecord i r).site i = { s.site i with r := some r, c := c, alert := alert } ∧
      c.Watched (s.site i).x.state (some r) (s.site i).cal.decimation := by
  obtain ⟨steady, window, -⟩ := h.watched.out_of_band out
  exact ⟨_, _, s.site_createRecord r, h.watched.cleared steady window⟩

/-- MAKE-FAST in PAYING (R30). -/
theorem State.makeFast_after (h : (s.site i).Fit) (free : (s.site i).hold = false)
    (state : (s.site i).x.state = .paying) {r : Mooring} (valid : r.valid) :
    (((((s.createRecord i r).enter i .heaving).startStep i .makeFast .locked .engaged).submit i .heave false).site
      i).After (s.site i).x.state := by
  have idle := h.doing.idle (by rw [state]; rfl)
  have sensed := h.geared.known (by rw [state]; exact nofun)
  obtain ⟨c, alert, created, watched⟩ := State.createRecord_site h (by rw [state]; exact ⟨nofun, nofun⟩) r
  have site : (((s.createRecord i r).enter i .heaving).startStep i .makeFast .locked .engaged).site i = _ :=
    State.site_startStep_plain _ _ _ (by decide)
  rw [State.site_enter_out (state := .heaving) nofun nofun, created] at site
  rw [State.site_submit _ _ _ (by rw [site]; exact idle.qs), site]
  refine ⟨⟨.of_plain (fun m hm => by cases hm; exact valid) rfl (h.recorded.takeOver_none (by rw [state]; exact nofun)) nofun
    nofun (fun _ => rfl) nofun, ?_, .stepping (by exact sensed) (by rfl) (by rfl) _, watched.leftBand⟩,
    Site.held_of_free free, by rw [state]; rfl, fun q hq trim => ?_⟩
  · exact .pending ⟨i, .heave, false⟩ rfl rfl idle.v idle.unit idle.active idle.parked idle.timer
      (Station.stepping_still _ _ _ ⟨nofun, nofun⟩)
  · obtain rfl := List.mem_singleton.1 hq
    cases trim

/-- ADOPT in OUT-UNCLAIMED (R32). -/
theorem State.adopt_after (h : (s.site i).Fit) (state : (s.site i).x.state = .outUnclaimed) {r : Mooring}
    (valid : r.valid) : (((s.createRecord i r).enter i .fast).site i).After (s.site i).x.state := by
  have idle := h.doing.idle (by rw [state]; rfl)
  obtain ⟨c, alert, created, watched⟩ := State.createRecord_site h (by rw [state]; exact ⟨nofun, nofun⟩) r
  have old : ((s.createRecord i r).site i).x.state ≠ .fast := by
    rw [created]; change (s.site i).x.state ≠ _; rw [state]; exact nofun
  rw [State.site_enter_of (state := .fast) nofun old, created]
  refine .of_empty ⟨.of_plain (fun m hm => by cases hm; exact valid) rfl
    (h.recorded.takeOver_none (by rw [state]; exact nofun)) nofun nofun (fun _ => rfl) nofun,
    .free idle.qs idle.v idle.unit idle.active idle.parked idle.timer idle.still nofun,
    h.geared.move rfl (by rw [state]; rfl) rfl, watched.entering (state' := .fast)⟩ (Site.held_of_none idle.qs idle.active)
    (by rw [state]; rfl) idle.qs

/-! ### A parked HEAVE is discarded (R36, R96) -/

/-- A station whose lock step goes on with nothing left to do (log 15). -/
def Station.handsBack (x : Station) : Station :=
  { x with step := x.step.map (fun g => if g.kind = .motionLock then { g with kind := .handBack } else g) }

theorem Station.Geared.handsBack {x : Station} (h : x.Geared) : x.handsBack.Geared := by
  have disagrees : x.handsBack.disagrees = x.disagrees := rfl
  refine ⟨h.known, fun g hg => ?_, fun none => ?_, h.rest, h.locked⟩
  · obtain ⟨g', hg', e⟩ := Option.map_eq_some_iff.1 (show x.step.map _ = some g from hg)
    obtain ⟨rest, timer, targets, lock, clutch, differs⟩ := h.step g' hg'
    refine ⟨rest, timer, ?_, ?_, ?_, differs⟩
    all_goals
      rw [← e]
      split
    · next kind => rw [kind] at targets; exact targets
    · exact targets
    · exact lock
    · exact lock
    · exact clutch
    · exact clutch
  · exact h.wait (Option.map_eq_none_iff.1 (show x.step.map _ = Option.none from none))

theorem Station.handsBack_still {x : Station} (h : x.step.any (fun g => g.kind == .motionUnlock) = false) :
    x.handsBack.still = true := by
  unfold Station.still Station.handsBack
  cases e : x.step with
  | none => rfl
  | some g =>
    rw [e] at h
    by_cases kind : g.kind = .motionLock
    · simp [kind]
    · simp_all

/-- What a station with a parked operation does. -/
theorem Site.Fit.parked (h : k.Fit) {p : ParkedOp} (park : k.x.parked = some p) :
    k.qs = [] ∧ k.x.active = none ∧ k.x.motionTimer = none ∧ p.work.parkedIn k.x.state = true ∧
      k.x.step.any (fun g => g.kind == .motionUnlock) = false := by
  cases h.doing with
  | free _ _ _ _ none | pending _ _ _ _ _ _ none | awaiting _ _ _ _ _ _ none | granted _ _ _ _ _ _ _ _ _ none
  | moving _ _ _ _ _ _ _ _ _ _ none => rw [park] at none; cases none
  | parked p' qs park' work v unit act timer still =>
    rw [park] at park'; cases park'
    exact ⟨qs, act, timer, work, ((Station.still_eq_true_iff _).1 still).2⟩
  | locking u d qs locking holds act parked v unit timer =>
    refine ⟨qs, ?_, timer, parked p park, ?_⟩
    · rw [Option.eq_none_iff_forall_not_mem]
      intro a ha
      rw [(act a ha).2.1] at park; cases park
    · unfold Station.locking at locking
      cases e : k.x.step <;> rw [e] at locking <;> simp_all

/-- A HEAVING station whose parked HEAVE is discarded comes to FAST (R36, R96). -/
theorem State.discardParkedHeave_heaving (h : (s.site i).Fit) {p : ParkedOp} (park : (s.site i).x.parked = some p)
    (state : (s.site i).x.state = .heaving) : ((s.discardParkedHeave i).site i).Fit ∧
      ((s.discardParkedHeave i).site i).Idle ∧ ((s.discardParkedHeave i).site i).x.state = .fast ∧
      ((s.discardParkedHeave i).site i).hold = (s.site i).hold := by
  obtain ⟨qs, act, timer, -, unlock⟩ := h.parked park
  have unparked : (s.unpark i).site i = { s.site i with x := { (s.site i).x with parked := none } } := s.site_unpark
  have site : (s.discardParkedHeave i).site i = { s.site i with
      x := ({ (s.site i).x with parked := none, unit := none }).handsBack.entered .fast
      c := (s.site i).c.entering .fast
      v := none } := by
    unfold State.discardParkedHeave
    dsimp only
    rw [State.station_eq_site, unparked]
    rw [if_pos (by exact state)]
    have released : ((s.unpark i).releaseUnit i).site i = { s.site i with
        x := { (s.site i).x with parked := none, unit := none }, v := none } := by
      rw [State.site_releaseUnit, unparked]
    have stepped : (((s.unpark i).releaseUnit i).onStation i (fun x =>
        { x with step := x.step.map (fun g => if g.kind = .motionLock then { g with kind := .handBack } else g) })).site i =
        { s.site i with x := ({ (s.site i).x with parked := none, unit := none }).handsBack, v := none } := by
      rw [State.site_onStation _ _ (by rfl), released]; rfl
    rw [State.site_enter_of (state := .fast) nofun (by rw [stepped]; change (s.site i).x.state ≠ _; rw [state]; exact nofun),
      stepped]
  have moored : (s.site i).r.isSome = true := h.recorded.present (by rw [state]; rfl)
  have idle : ((s.discardParkedHeave i).site i).Idle := by
    rw [site]
    exact ⟨qs, rfl, rfl, act, rfl, timer, Station.handsBack_still unlock⟩
  refine ⟨?_, idle, by rw [site]; rfl, by rw [site]⟩
  rw [site] at idle ⊢
  refine ⟨h.recorded.enter (by rw [state]; exact nofun) rfl rfl ⟨nofun, nofun⟩ (fun _ => moored) nofun,
    idle.doing nofun, ?_, h.watched.entering (state' := .fast)⟩
  exact Station.Geared.move (x := (s.site i).x.handsBack) h.geared.handsBack rfl
    (by change (s.site i).x.state.gearAtRest = _; rw [state]; rfl) rfl

/-! ### AMEND (R34 to R36) -/

/-- The record of a fit station is replaced and its channel starts afresh. -/
theorem Site.Fit.amend (h : k.Fit) {new : Mooring} (valid : new.valid) (present : k.r.isSome = true) :
    Site.Fit { k with r := some new, c := k.c.leftBand } :=
  ⟨h.recorded.record (fun m hm => by cases hm; exact valid) present.symm, h.doing.congr rfl rfl rfl rfl rfl rfl rfl rfl,
    h.geared, ⟨Channel.Watched.leftBand_inRange h.watched.inRange, nofun, .inr (.inr ⟨rfl, rfl, rfl⟩),
      fun _ _ => Nat.zero_le _, fun k => absurd rfl k⟩⟩

/-- What an AMEND does in the station's state (R35). -/
theorem State.amendByState_after (h : (s.site i).Fit) (held : (s.site i).Held)
    (eased : (s.site i).x.state = .eased → (s.site i).qs = []) :
    ((s.amendByState i).site i).After (s.site i).x.state ∧
      ((s.amendByState i).site i).x.parked = (s.site i).x.parked ∧
      ((s.amendByState i).site i).x.state = if (s.site i).x.state = .eased then .fast else (s.site i).x.state := by
  unfold State.amendByState
  rw [State.station_eq_site]
  cases state : (s.site i).x.state with
  | trimming =>
    dsimp only
    rw [State.site_onStation _ _ (by rfl)]
    refine ⟨.stay ⟨⟨h.recorded.valid, h.recorded.present, h.recorded.absent, iff_of_true rfl state, fun r hr => ?_,
      h.recorded.takeOver, h.recorded.returns⟩, h.doing.congr rfl rfl rfl rfl rfl rfl rfl rfl, h.geared.congr rfl rfl,
      h.watched⟩ (held.congr rfl rfl rfl) state, rfl, state⟩
    cases hr; exact .inl rfl
  | eased =>
    dsimp only
    obtain ⟨v, unit, act, park, timer, still, -⟩ := h.resting (.inr state)
    have qs := eased state
    have moored : (s.site i).r.isSome = true := h.recorded.present (by rw [state]; rfl)
    rw [State.site_enter_of (state := .fast) nofun (by rw [state]; exact nofun)]
    exact ⟨.of_empty ⟨h.recorded.enter (by rw [state]; exact nofun) rfl rfl ⟨nofun, nofun⟩ (fun _ => moored) nofun,
      .free qs v unit act park timer still nofun, h.geared.move rfl (by rw [state]; rfl) rfl, h.watched.entering (state' := .fast)⟩
      (Site.held_of_none qs act) rfl qs, rfl, rfl⟩
  | _ => exact ⟨.stay h held state, rfl, state⟩

/-- A parked HEAVE is discarded by an AMEND that changes L or H (R36). -/
theorem State.amendParked_after (h : (s.site i).After old) (same : (s.site i).x.parked.isSome = true →
    (s.site i).x.state = old) (oldR newR : Mooring) : ((s.amendParked i oldR newR).site i).After old := by
  unfold State.amendParked
  rw [State.station_eq_site]
  split
  · next heave =>
    obtain ⟨heave, -⟩ := heave
    cases park : (s.site i).x.parked with
    | none => rw [park] at heave; cases heave
    | some p =>
      have state := same (by rw [park]; rfl)
      obtain ⟨qs, act, timer, work, -⟩ := h.fit.parked park
      rw [park] at heave
      have w : p.work = .heave := by simpa using heave
      rw [w] at work
      by_cases heaving : (s.site i).x.state = .heaving
      · obtain ⟨fit, idle, fast, -⟩ := State.discardParkedHeave_heaving h.fit park heaving
        refine .of_empty fit idle.held ?_ idle.qs
        rw [fast, ← state, heaving]; rfl
      · have inLocal : (s.site i).x.state = .inLocal := by
          simpa [Work.parkedIn, heaving] using work
        obtain ⟨qs, v, unit, act, motion, still, -⟩ := h.fit.inLocal inLocal
        have e : s.discardParkedHeave i = s.unpark i := by
          unfold State.discardParkedHeave
          dsimp only
          rw [State.station_eq_site, State.site_unpark, if_neg (by exact heaving)]
        rw [e, State.site_unpark]
        refine .of_empty ⟨h.fit.recorded.congr rfl rfl rfl, .free qs v unit act rfl motion still ?_,
          h.fit.geared.congr rfl rfl, h.fit.watched⟩ (Site.held_of_none qs act) h.goes qs
        change (s.site i).x.state ≠ _
        rw [inLocal]; exact nofun
  · exact h

/-- AMEND (R34 to R36). -/
theorem State.amended_after (h : (s.site i).Fit) (held : (s.site i).Held) {oldR newR : Mooring}
    (record : (s.site i).r = some oldR) (valid : newR.valid) :
    ((s.amended i oldR newR).site i).After (s.site i).x.state := by
  have site : ((((s.setMooring i (some newR)).emptyWindow i).resetSteady i).withdrawTrim i).site i = { s.site i with
      r := some newR
      c := (s.site i).c.leftBand
      qs := if (s.site i).qs.head?.any (fun q => q.work.isTrim) then [] else (s.site i).qs } := by
    rw [State.site_withdrawTrim, State.resetSteady, State.site_onChannel, State.emptyWindow, State.site_onChannel,
      State.site_setMooring]
    rfl
  unfold State.amended
  generalize (((s.setMooring i (some newR)).emptyWindow i).resetSteady i).withdrawTrim i = t at site
  have fit : (t.site i).Fit := by
    rw [site]
    exact (h.amend valid (by rw [record]; rfl)).withdrawTrim
  have held' : (t.site i).Held := by
    rw [site]
    intro hold
    obtain ⟨qs, act⟩ := held hold
    refine ⟨?_, act⟩
    change (if _ then _ else _) = _
    rw [qs]; rfl
  have eased : (t.site i).x.state = .eased → (t.site i).qs = [] := by
    rw [site]
    intro state
    obtain ⟨-, -, -, -, -, -, trims⟩ := h.resting (.inr state)
    change (if _ then _ else _) = _
    cases qs : (s.site i).qs with
    | nil => rfl
    | cons q l => simp [trims q (by rw [qs]; exact List.mem_cons_self)]
  obtain ⟨after, parked, state⟩ := State.amendByState_after fit held' eased
  have same : (t.site i).x.state = (s.site i).x.state := by rw [site]
  rw [← same]
  refine State.amendParked_after after (fun some => ?_) oldR newR
  rw [state, if_neg]
  intro e
  obtain ⟨-, -, -, park, -⟩ := fit.resting (.inr e)
  rw [parked, park] at some; cases some

end Sys2Proof.Machine
end

