-- ==== Sys2Proof/Proofs/Readings.lean ====
section
/-! PROOF. Samples and readings: the stages of a reading keep the channel in order, and what the station controller does
on it leaves a fit site (chapters 4 and 5). -/

namespace Sys2Proof.Machine

variable {s : State} {i : StationId} {k l : Site} {old : LineState}

/-! ### The channel under samples and readings -/

namespace Channel.Watched

variable {c : Channel} {state : LineState} {r : Option Mooring} {d : Nat}

/-- The counters, the sum and the latest reading may change within their ranges (R69, R76). -/
theorem counters (h : c.Watched state r d) {sum count rail valid : Nat} {latest : Option Nat} (since : Bool)
    (hsum : sum ≤ Config.readingMax * count) (hcount : count < d) (hrail : rail ≤ Config.sampleRun)
    (hvalid : valid ≤ Config.sampleRun) (hlatest : ∀ v ∈ latest, v ≤ Config.readingMax) :
    Channel.Watched { c with
      sum := sum, count := count, rail := rail, valid := valid, latest := latest, readingSinceRecord := since } state r d := by
  obtain ⟨-, -, -, window, entries, above, below, surging, crit, steady, -, -⟩ := h.inRange
  exact ⟨⟨hsum, hcount, hlatest, window, entries, above, below, surging, crit, steady, hrail, hvalid⟩, h.noRecord, h.window,
    h.windowLength, h.steady⟩

/-- The critical findings of a reading at a station with a record (R78, R79). -/
theorem critical (h : c.Watched state r d) (record : r.isSome = true) {n : Nat} (level : Bool) (hn : n ≤ 2) :
    Channel.Watched { c with critCount := n, critCondition := level } state r d := by
  obtain ⟨sum, count, latest, window, entries, above, below, surging, -, steady, rail, valid⟩ := h.inRange
  refine ⟨⟨sum, count, latest, window, entries, above, below, surging, hn, steady, rail, valid⟩, fun none => ?_, h.window,
    h.windowLength, h.steady⟩
  rw [none] at record; cases record

theorem joinWindow_length (r : Mooring) (w : List Nat) (reading : Nat)
    (h : 1 ≤ r.windowLength) : (r.joinWindow w reading).length ≤ r.windowLength := by
  simp only [Mooring.joinWindow, List.length_drop, List.length_append, List.length_singleton]
  omega

/-- A reading joins the window of a station in FAST (R81 to R83). -/
theorem windowed (h : c.Watched state r d) {m : Mooring} (record : r = some m) (fast : state = .fast) (valid : m.valid)
    {reading : Nat} (hreading : reading ≤ Config.readingMax) : (c.windowed m reading).Watched state r d := by
  obtain ⟨sum, count, latest, window, entries, above, below, surging, crit, steady, rail, hvalid⟩ := h.inRange
  obtain ⟨-, -, -, -, one, eight, -⟩ := valid
  have length := joinWindow_length m c.window reading one
  refine ⟨⟨sum, count, latest, length.trans eight, fun v hv => ?_, List.length_filter_le _ _, List.length_filter_le _ _, rfl,
    crit, steady, rail, hvalid⟩, h.noRecord, .inl fast, fun m' hm' => ?_, h.steady⟩
  · have hv : v ∈ c.window ++ [reading] := List.mem_of_mem_drop hv
    rcases List.mem_append.1 hv with hv | hv
    · exact entries v hv
    · rw [List.mem_singleton.1 hv]; exact hreading
  · rw [record] at hm'; cases hm'; exact length

/-- The steady counter of a station in FAST or TRIMMING counts under a record that is not stale (R39, R86). -/
theorem counted (h : c.Watched state r d) (band : state = .fast ∨ state = .trimming) {n : Nat}
    (hn : n ≤ Config.steadyMax) (stale : n ≠ 0 → ∀ m ∈ r, m.stale = false) :
    Channel.Watched { c with steady := n } state r d := by
  obtain ⟨sum, count, latest, window, entries, above, below, surging, crit, -, rail, valid⟩ := h.inRange
  exact ⟨⟨sum, count, latest, window, entries, above, below, surging, crit, hn, rail, valid⟩, h.noRecord, h.window,
    h.windowLength, fun k => ⟨band, stale k⟩⟩

end Channel.Watched

/-! ### The stages of a reading (R77) -/

/-- Two sites with the same work at the station: a reading's stages change the channel, the attention and the ALERT state
only. -/
structure Site.SameWork (k l : Site) : Prop where
  x : l.x = { k.x with attention := l.x.attention }
  hold : l.hold = k.hold
  settings : l.settings = k.settings
  cal : l.cal = k.cal
  r : l.r = k.r
  qs : l.qs = k.qs
  v : l.v = k.v

theorem Site.SameWork.refl (k : Site) : k.SameWork k := ⟨rfl, rfl, rfl, rfl, rfl, rfl, rfl⟩

theorem Site.SameWork.trans {m : Site} (h : k.SameWork l) (g : l.SameWork m) : k.SameWork m :=
  ⟨by rw [g.x, h.x], g.hold.trans h.hold, g.settings.trans h.settings, g.cal.trans h.cal, g.r.trans h.r, g.qs.trans h.qs,
    g.v.trans h.v⟩

theorem Site.SameWork.state (h : k.SameWork l) : l.x.state = k.x.state := by rw [h.x]

theorem Site.SameWork.fit (h : k.SameWork l) (fit : k.Fit) (watched : l.c.Watched k.x.state k.r k.cal.decimation) :
    l.Fit where
  recorded := by rw [h.r, h.x]; exact fit.recorded.congr rfl rfl rfl
  doing := fit.doing.congr (by rw [h.x]) (by rw [h.x]) (by rw [h.x]) (by rw [h.x]) (by rw [h.x]) (by rw [h.x]) h.qs h.v
  geared := by rw [h.x]; exact fit.geared.congr rfl rfl
  watched := by rw [h.state, h.r, h.cal]; exact watched

theorem Site.SameWork.held (h : k.SameWork l) (held : k.Held) : l.Held :=
  held.congr h.hold h.qs (by rw [h.x])

theorem State.raise_sameWork (reason : Attention) : (s.site i).SameWork ((s.raise i reason).site i) := by
  rw [State.site_raise]
  exact ⟨rfl, rfl, rfl, rfl, rfl, rfl, rfl⟩

theorem State.criticalStage_fit (h : (s.site i).Fit) (reading : Nat) :
    (s.site i).SameWork ((s.criticalStage i reading).site i) ∧ ((s.criticalStage i reading).site i).Fit := by
  unfold State.criticalStage
  rw [State.mooring_eq_site]
  split
  · exact ⟨.refl _, h⟩
  · next r record =>
    have same : (s.site i).SameWork (((s.onChannel i (fun c =>
        { c with critCount := if r.isCritical reading then min 2 (c.critCount + 1) else 0 })).setCritCondition i
          (r.critAfter (s.channel i).critCondition reading)).site i) := by
      rw [State.site_setCritCondition, State.site_onChannel]
      exact ⟨rfl, rfl, rfl, rfl, rfl, rfl, rfl⟩
    refine ⟨same, same.fit h ?_⟩
    rw [State.site_setCritCondition, State.site_onChannel]
    have two : (if r.isCritical reading then min 2 ((s.site i).c.critCount + 1) else 0) ≤ 2 := by split <;> omega
    exact h.watched.critical (by rw [record]; rfl) _ two

theorem State.windowStage_fit (h : (s.site i).Fit) {reading : Nat} (hreading : reading ≤ Config.readingMax) :
    (s.site i).SameWork ((s.windowStage i reading).site i) ∧ ((s.windowStage i reading).site i).Fit := by
  unfold State.windowStage
  rw [State.mooring_eq_site]
  split
  · exact ⟨.refl _, h⟩
  · next r record =>
    split
    · next fast =>
      have site : (s.onChannel i (fun c => c.windowed r reading)).site i =
          { s.site i with c := (s.site i).c.windowed r reading } := s.site_onChannel _
      have same : (s.site i).SameWork ((s.onChannel i (fun c => c.windowed r reading)).site i) := by
        rw [site]; exact ⟨rfl, rfl, rfl, rfl, rfl, rfl, rfl⟩
      have fit : ((s.onChannel i (fun c => c.windowed r reading)).site i).Fit :=
        same.fit h (by rw [site]; exact h.watched.windowed record fast.1 (h.recorded.valid r record) hreading)
      dsimp only
      split
      · exact ⟨same.trans (State.raise_sameWork _), State.raise_fit fit _⟩
      · exact ⟨same, fit⟩
    · exact ⟨.refl _, h⟩

theorem State.steadyStage_fit (h : (s.site i).Fit) (reading : Nat) :
    (s.site i).SameWork ((s.steadyStage i reading).site i) ∧ ((s.steadyStage i reading).site i).Fit := by
  unfold State.steadyStage
  rw [State.mooring_eq_site]
  split
  · exact ⟨.refl _, h⟩
  · next r record =>
    rw [State.station_eq_site]
    split
    · next band =>
      rw [State.site_onChannel]
      have same : (s.site i).SameWork { s.site i with c := { (s.site i).c with
          steady := if r.stale then 0
            else if r.inBand reading then min Config.steadyMax ((s.site i).c.steady + 1) else 0 } } :=
        ⟨rfl, rfl, rfl, rfl, rfl, rfl, rfl⟩
      refine ⟨same, same.fit h (h.watched.counted band ?_ fun count m hm => ?_)⟩
      · split
        · exact Nat.zero_le _
        · split
          · exact Nat.min_le_left _ _
          · exact Nat.zero_le _
      · rw [record] at hm; cases hm
        by_contra stale
        rw [if_pos (by simpa using stale)] at count
        exact count rfl
    · exact ⟨.refl _, h⟩

/-! ### The station controller on a reading (R92 to R97, R104, R106, R142) -/

/-- A critical render is wanted at an idle station in FAST or EASED (R95). -/
theorem State.wantCriticalRender_after (fit : (s.site i).Fit) (held : (s.site i).Held)
    (state : (s.site i).x.state = .fast ∨ (s.site i).x.state = .eased) (goes : old.goes (s.site i).x.state = true)
    (trims : old.goes .trimming = true) : ((s.wantCriticalRender i).site i).After old := by
  rw [State.site_wantCriticalRender]
  by_cases hold : (s.site i).hold = true
  · rw [if_pos hold]
    exact ⟨fit, held, goes, fun _ _ _ => trims⟩
  · rw [if_neg hold]
    exact ⟨fit.wanted state, Site.held_of_free (Bool.eq_false_iff.2 hold), goes, fun _ _ _ => trims⟩

/-- A grant is given back on a critical reading; in FAST the station asks for a critical render (R95, R96). -/
theorem State.criticalGiveBack_after {a : ActiveOp} {new : LineState} (h : (s.site i).Fit)
    (act : (s.site i).x.active = some a) (granted : a.phase = .granted) (ends : (s.site i).x.state.endsIn new = true) :
    ((s.criticalGiveBack i new).site i).After (s.site i).x.state := by
  obtain ⟨after, idle, state⟩ := State.giveBack_after h act granted ends
  unfold State.criticalGiveBack
  dsimp only
  split
  · next fast =>
    exact State.wantCriticalRender_after after.fit after.held (.inl (state.trans fast)) after.goes
      ((LineState.endsIn_cases ends).2.2.2.2.2.2.2 fast)
  · exact after

theorem State.motionOf_moving {a : ActiveOp} {m : Motion} (act : (s.site i).x.active = some a)
    (moving : a.phase = .moving m) : (s.motionOf i).isSome = true := by
  rw [State.motionOf_eq_site, act, Option.bind_some]
  simp only [ActiveOp.moving?, moving, Option.isSome_some]

/-- A critical reading in HEAVING (R96). -/
theorem State.criticalHeaving_after (h : (s.site i).Fit) (held : (s.site i).Held) (state : (s.site i).x.state = .heaving) :
    ((s.criticalHeaving i).site i).After (s.site i).x.state := by
  unfold State.criticalHeaving
  rw [State.station_eq_site, State.requestOf_eq_site]
  split
  · next park =>
    obtain ⟨p, park⟩ := Option.isSome_iff_exists.1 park
    obtain ⟨fit, idle, fast, -⟩ := State.discardParkedHeave_heaving h park state
    exact State.wantCriticalRender_after fit idle.held (.inl fast) (by rw [fast, state]; rfl) (by rw [state]; rfl)
  · next park =>
    have park := Option.not_isSome_iff_eq_none.1 park
    cases act : (s.site i).x.active with
    | none =>
      dsimp only
      split
      · next request =>
        obtain ⟨q, request⟩ := Option.isSome_iff_exists.1 request
        obtain ⟨-, -, v, unit, -, -, timer, still⟩ := h.doing.of_request (List.mem_of_mem_head? request)
        have moored : (s.site i).r.isSome = true := h.recorded.present (by rw [state]; rfl)
        have site : ((s.withdraw i).enter i .fast).site i = { s.site i with
            x := (s.site i).x.entered .fast
            c := (s.site i).c.entering .fast
            qs := [] } := by
          rw [State.site_enter_of (state := .fast) nofun (by
            rw [State.site_withdraw]; change (s.site i).x.state ≠ _; rw [state]; exact nofun), State.site_withdraw]
        have idle : (((s.withdraw i).enter i .fast).site i).Idle := by
          rw [site]; exact ⟨rfl, v, unit, act, park, timer, still⟩
        have fit : (((s.withdraw i).enter i .fast).site i).Fit := by
          rw [site] at idle ⊢
          exact ⟨h.recorded.enter (by rw [state]; exact nofun) rfl rfl ⟨nofun, nofun⟩ (fun _ => moored) nofun,
            idle.doing nofun, h.geared.move rfl (by rw [state]; rfl) rfl, h.watched.entering (state' := .fast)⟩
        refine State.wantCriticalRender_after fit idle.held ?_ ?_ (by rw [state]; rfl)
        all_goals rw [site]
        · exact .inl rfl
        · rw [state]; rfl
      · exact .stay h held rfl
    | some a =>
      dsimp only
      split
      · next granted => exact State.criticalGiveBack_after h act granted (by rw [state]; rfl)
      · next m moving =>
        exact State.endMotionDiscard_after h (State.motionOf_moving act moving) _
      · exact .stay h held rfl
      · exact .stay h held rfl

/-- A critical reading in TRIMMING (R96, R97). -/
theorem State.criticalTrimming_after (h : (s.site i).Fit) (held : (s.site i).Held)
    (state : (s.site i).x.state = .trimming) : ((s.criticalTrimming i).site i).After (s.site i).x.state := by
  unfold State.criticalTrimming
  rw [State.station_eq_site]
  cases act : (s.site i).x.active with
  | none => exact .stay h held rfl
  | some a =>
    dsimp only
    split
    · next c w granted =>
      exact State.criticalGiveBack_after h act granted
        (Site.Ending.restingOf (h.ending_of_granted (w := a.work) (b := a.retryUsed) (by rw [act, ← granted])) state)
    · next c m w moving =>
      exact State.endMotion_after h (State.motionOf_moving act moving) _
    · next c w granted =>
      rw [State.site_onStation _ _ (by rfl)]
      have free := held.free_of_granted act granted
      obtain ⟨w', b, phase⟩ := a
      cases granted
      cases h.doing with
      | free _ _ _ a | pending _ _ _ _ _ a | parked _ _ _ _ _ _ a => rw [act] at a; cases a
      | awaiting b _ a => rw [act] at a; cases a
      | moving u d w b m _ a => rw [act] at a; cases a
      | locking u d _ _ _ a => obtain ⟨-, -, m, phase⟩ := a _ act; cases phase
      | granted u d w' b' qs act' work v unit park timer still running stop =>
        refine .stay ⟨h.recorded.congr rfl rfl rfl, ?_, h.geared.congr rfl rfl, h.watched⟩ (Site.held_of_free free) rfl
        refine .granted u d (.trim .outward true) b qs rfl ?_ v unit park timer still running stop
        change Work.activeIn _ (s.site i).x.state = true
        rw [state]; rfl
    · exact .stay h held rfl

/-- What the station controller does on a reading that makes no auto-release (R92 to R97, R104, R142). -/
theorem State.readingByState_after (h : (s.site i).Fit) (held : (s.site i).Held) (reading : Nat) (isCritical : Bool) :
    ((s.readingByState i reading isCritical).site i).After (s.site i).x.state := by
  unfold State.readingByState
  rw [State.station_eq_site]
  cases state : (s.site i).x.state with
  | fast =>
    dsimp only
    rw [State.site_wantTrim]
    refine .stay (h.wanted (.inl state)) (fun hold => ?_) state
    have none : s.wantedTrim i isCritical = none := by
      unfold State.wantedTrim
      rw [State.hold_eq_site s i, show (s.site i).hold = true from hold]
      rfl
    exact ⟨by change wantedRequests _ _ _ = _; rw [none]; rfl, (held hold).2⟩
  | eased =>
    dsimp only
    split
    · exact State.wantCriticalRender_after h held (.inr state) (by rw [state]; rfl) rfl
    · exact .stay h held state
  | heaving =>
    dsimp only
    split
    · rw [← state]; exact State.criticalHeaving_after h held state
    · unfold State.heaveReading
      split
      · next moves => rw [← state]; exact State.endMotion_after h moves.1 _
      · exact .stay h held state
  | trimming =>
    dsimp only
    split
    · rw [← state]; exact State.criticalTrimming_after h held state
    · exact .stay h held state
  | rewinding =>
    dsimp only
    unfold State.snagReading
    split
    · next moves => rw [← state]; exact State.raise_after (State.endMotionDiscard_after h moves.1 _) _
    · exact .stay h held state
  | _ => exact .stay h held state

/-- The station controller acts on a reading (R77, R95, R106). -/
theorem State.controllerReading_after (h : (s.site i).Fit) (held : (s.site i).Held) (reading : Nat) :
    ((s.controllerReading i reading).site i).After (s.site i).x.state := by
  have same := s.raise_sameWork (i := i) .critical
  have fit := State.raise_fit h .critical
  unfold State.controllerReading
  split
  · split
    · next due =>
      have moored : (s.site i).x.state.moored = true := by
        unfold State.autoReleaseDue at due
        simp only [Bool.and_eq_true] at due
        exact due.1.1.1
      rw [← same.state]
      exact State.raise_after (State.releaseSequence_after fit (.inl (same.state ▸ moored)) _) _
    · rw [← same.state]
      exact State.readingByState_after fit (same.held held) _ _
  · exact State.readingByState_after h held _ _

/-! ### Samples (R71 to R76) -/

/-- The channel as a reading is formed, its counters at their values after the sample. -/
theorem State.readingFormed_after {r : State} {x : Site} (fit : x.Fit) (held : x.Held) {c : Channel}
    (site : r.site i = { x with c := c }) {reading : Nat} (hreading : reading ≤ Config.readingMax)
    (watched : Channel.Watched { c with sum := 0, count := 0, latest := some reading, readingSinceRecord := true }
      x.x.state x.r x.cal.decimation) :
    ((r.readingFormed i reading).site i).After x.x.state := by
  have same : x.SameWork ((r.onChannel i (fun c =>
      { c with sum := 0, count := 0, latest := some reading, readingSinceRecord := true })).site i) := by
    rw [State.site_onChannel, site]
    exact ⟨rfl, rfl, rfl, rfl, rfl, rfl, rfl⟩
  have fit₀ := same.fit fit (by rw [State.site_onChannel, site]; exact watched)
  obtain ⟨same₁, fit₁⟩ := State.criticalStage_fit fit₀ reading
  obtain ⟨same₂, fit₂⟩ := State.windowStage_fit fit₁ hreading
  obtain ⟨same₃, fit₃⟩ := State.steadyStage_fit fit₂ reading
  have all := ((same.trans same₁).trans same₂).trans same₃
  have := State.controllerReading_after fit₃ (all.held held) reading
  rw [all.state] at this
  exact this

theorem Calibration.reading_le {c : Calibration} {sum : Nat} (h : sum ≤ Config.readingMax * c.decimation)
    (pos : 0 < c.decimation) : c.reading sum ≤ Config.readingMax := by
  unfold Calibration.reading
  rw [Nat.div_le_iff_le_mul_add_pred pos]
  have : c.decimation / 2 ≤ c.decimation - 1 := by omega
  have comm : Config.readingMax * c.decimation = c.decimation * Config.readingMax := Nat.mul_comm _ _
  omega

/-- A valid sample (R71, R74, R76). -/
theorem State.validSample_after (h : (s.site i).Fit) (held : (s.site i).Held) (raw : Nat) :
    ((s.validSample i raw).site i).After (s.site i).x.state := by
  obtain ⟨sum, count, latest, -, -, -, -, -, -, -, -, valid⟩ := h.watched.inRange
  have sample : (s.site i).cal.calibrate raw ≤ Config.readingMax := Calibration.calibrate_le_readingMax _ _
  have sum' : (s.site i).c.sum + (s.site i).cal.calibrate raw ≤ Config.readingMax * ((s.site i).c.count + 1) := by
    rw [Nat.mul_add, Nat.mul_one]; exact Nat.add_le_add sum sample
  have site : (s.onChannel i (fun c =>
      { c with
        rail := 0
        valid := min Config.sampleRun (c.valid + 1)
        sum := c.sum + (s.calibration i).calibrate raw
        count := c.count + 1 })).site i = { s.site i with c := { (s.site i).c with
          rail := 0
          valid := min Config.sampleRun ((s.site i).c.valid + 1)
          sum := (s.site i).c.sum + (s.site i).cal.calibrate raw
          count := (s.site i).c.count + 1 } } := s.site_onChannel _
  unfold State.validSample
  dsimp only
  rw [State.channel_eq_site, site, State.calibration_eq_site]
  dsimp only
  split
  · next full =>
    have decimation : (s.site i).c.count + 1 = (s.site i).cal.decimation := by omega
    rw [decimation] at sum'
    have reading := Calibration.reading_le sum' (by omega)
    refine State.readingFormed_after h held site reading ?_
    exact h.watched.counters true (Nat.zero_le _) (by omega) (Nat.zero_le _) (Nat.min_le_left _ _)
      fun v hv => by cases hv; exact reading
  · next more =>
    have := site
    rw [State.calibration_eq_site] at this
    rw [this]
    refine .stay ⟨h.recorded, h.doing.congr rfl rfl rfl rfl rfl rfl rfl rfl, h.geared, ?_⟩ (held.congr rfl rfl rfl) rfl
    exact h.watched.counters _ sum' (by omega) (Nat.zero_le _) (Nat.min_le_left _ _) latest

/-- A sensor fault, by the state of the station (R19, R20, R72). -/
theorem State.sensorFault_after (h : (s.site i).Fit) (held : (s.site i).Held) :
    ((s.sensorFault i).site i).After (s.site i).x.state := by
  have stored : ((s.onStation i (fun x => { x with pendingSensorFault := true })).site i).After (s.site i).x.state := by
    rw [State.site_onStation _ _ (by rfl)]
    exact .stay (h.congr rfl rfl rfl rfl rfl rfl rfl rfl rfl rfl rfl rfl rfl) (held.congr rfl rfl rfl) rfl
  have fault : (s.site i).x.state ≠ .unknown → ((s.enterFault i .sensor .sensor).site i).After (s.site i).x.state :=
    fun known => State.enterFault_after h (h.geared.known known) _ _
  unfold State.sensorFault
  rw [State.station_eq_site]
  cases state : (s.site i).x.state with
  | fault => exact State.raise_after (.stay h held state) _
  | unknown => rw [state] at stored; exact stored
  | inLocal => rw [state] at stored; exact State.raise_after stored _
  | _ => rw [state] at fault; exact fault nofun

/-- A rail sample (R71, R72). -/
theorem State.railSample_after (h : (s.site i).Fit) (held : (s.site i).Held) :
    ((s.railSample i).site i).After (s.site i).x.state := by
  obtain ⟨sum, count, latest, -⟩ := h.watched.inRange
  have site : (s.onChannel i (fun c => { c with rail := min Config.sampleRun (c.rail + 1), valid := 0 })).site i =
      { s.site i with c := { (s.site i).c with
        rail := min Config.sampleRun ((s.site i).c.rail + 1), valid := 0 } } := s.site_onChannel _
  unfold State.railSample
  dsimp only
  split
  · have site' : ((s.onChannel i (fun c => { c with rail := min Config.sampleRun (c.rail + 1), valid := 0 })).onChannel i
        (fun c => { c with sum := 0, count := 0 })).site i = { s.site i with c := { (s.site i).c with
          rail := min Config.sampleRun ((s.site i).c.rail + 1), valid := 0, sum := 0, count := 0 } } := by
      rw [State.site_onChannel, site]
    generalize (s.onChannel i (fun c => { c with rail := min Config.sampleRun (c.rail + 1), valid := 0 })).onChannel i
      (fun c => { c with sum := 0, count := 0 }) = t at site'
    have fit : (t.site i).Fit := by
      rw [site']
      refine ⟨h.recorded, h.doing.congr rfl rfl rfl rfl rfl rfl rfl rfl, h.geared, ?_⟩
      exact h.watched.counters _ (Nat.zero_le _) (by omega) (Nat.min_le_left _ _) (Nat.zero_le _) latest
    have := State.sensorFault_after fit (by rw [site']; exact held.congr rfl rfl rfl)
    rw [site'] at this
    exact this
  · rw [site]
    refine .stay ⟨h.recorded, h.doing.congr rfl rfl rfl rfl rfl rfl rfl rfl, h.geared, ?_⟩ (held.congr rfl rfl rfl) rfl
    exact h.watched.counters _ sum count (Nat.min_le_left _ _) (Nat.zero_le _) latest

end Sys2Proof.Machine
end

