-- ==== Sys2Proof/Proofs/Steps.lean ====
section
/-! PROOF. From the sites back to the state: what a step keeps and how it moves, put together from the end of an event,
the acts at its station and what they leave at each site. -/

namespace Sys2Proof.Machine

variable {s t : State} {i : StationId}

/-! ### The invariant in every phase -/

/-- Before the part is at work nothing sounds, and the ALERT state is deasserted (R2, R181). -/
theorem State.RestOk.quiet (h : s.RestOk) (idle : s.phase ≠ .running) :
    s.followLevel = false ∧ s.criticalLevel = false ∧ s.alert = false := by
  refine ⟨?_, ?_, (h.flags idle).2.1⟩
  · rw [Bool.eq_false_iff, Ne, State.followLevel_iff]
    rintro (⟨j, hj⟩ | ⟨u, hu⟩)
    · rw [h.stations idle j] at hj; exact hj rfl
    · rw [h.units idle u] at hu; cases hu
  · rw [Bool.eq_false_iff, Ne, State.criticalLevel_iff]
    rintro ⟨j, hj⟩
    rw [h.channels idle j] at hj; cases hj

theorem State.Inv.alertFits (h : s.Inv) : s.AlertFits := by
  by_cases running : s.phase = .running
  · exact ⟨(h.alerts running).1, (h.alerts running).2⟩
  · obtain ⟨follow, critical, alert⟩ := h.rest.quiet running
    exact ⟨fun _ => alert.trans follow.symm, fun _ => alert.trans critical.symm⟩

theorem State.Inv.whole (h : s.Inv) : s.Whole := by
  refine ⟨⟨h.work.served, h.units, fun u free => ?_, h.queue, h.alertFits, h.calls.listsOk⟩, h.fit, h.held⟩
  by_contra k
  obtain ⟨i, hi, -⟩ := h.drive.stop u (by simpa using k)
  rw [free] at hi; cases hi

/-- The invariant from its sites, the call table and what no site holds. -/
theorem State.Whole.inv (h : s.Whole) (calls : s.CallsOk) (grants : s.GrantsOk) (rest : s.RestOk) (stored : s.StoredOk) :
    s.Inv where
  calls := calls
  records := h.recordsOk
  work := h.workOk
  queue := h.sound.queue
  units := h.sound.units
  grants := grants
  gear := h.gearOk
  drive := h.driveOk
  channels := h.channelsOk
  rest := rest
  alerts _ := ⟨h.sound.alert.follow, h.sound.alert.critical⟩
  stored := stored

/-- While the part is at work nothing needs to stand at its reset value. -/
theorem State.restOk_of_running (running : s.phase = .running) : s.RestOk :=
  ⟨fun k => absurd running k, fun k => absurd running k, fun k => absurd running k, fun k => absurd running k,
    fun k => absurd running k, fun k => absurd running k⟩

/-! ### What the invariant does not read -/

/-- The state without the link's own fields, the inputs and the waiting commands. -/
def State.core (s : State) : State :=
  { s with
    restartPending := false, latch := none, unitAddress := 0, bitRate := .rate57600, rx := none, tx := none
    inputs := .quiet, pending := [] }

theorem State.eq_of_core (h : t.core = s.core) : t = { s with
    restartPending := t.restartPending, latch := t.latch, unitAddress := t.unitAddress, bitRate := t.bitRate, rx := t.rx
    tx := t.tx, inputs := t.inputs, pending := t.pending } := by
  obtain ⟨⟩ := s
  obtain ⟨⟩ := t
  simp only [State.core, State.mk.injEq] at h ⊢
  tauto

/-- The invariant stands under a change of what it does not read. -/
theorem State.Inv.of_core (h : s.Inv) (core : t.core = s.core)
    (rest : t.phase ≠ .running → t.latch = none ∧ t.tx = none ∧ t.restartPending = false) : t.Inv := by
  rw [State.eq_of_core core] at rest ⊢
  have flags := h.rest.flags
  exact {
    calls := { h.calls with }
    records := { h.records with }
    work := { h.work with }
    queue := h.queue
    units := h.units
    grants := h.grants
    gear := { h.gear with }
    drive := { h.drive with }
    channels := { h.channels with }
    rest := { h.rest with
      flags := fun k => by
        obtain ⟨hold, alert, -, write, -, -⟩ := flags k
        obtain ⟨latch, tx, restart⟩ := rest k
        exact ⟨hold, alert, latch, write, tx, restart⟩ }
    alerts := h.alerts
    stored := h.stored }

/-! ### A step and its moves -/

/-- The moves of a call within a step (R53, R56, R58). -/
def Call.goes (c : Instr) (old new : Call) : Prop :=
  new.berth = old.berth ∧ new.minLines = old.minLines ∧ new.steadyNeed = old.steadyNeed ∧
    (old.state = new.state ∨ old.state.moves new.state ∨
      (∃ len, c = .singleUp len (BitVec.ofNat 16 old.tag)) ∧ old.state ≠ .singling ∧ old.state ≠ .clearing ∧
        (new.state = .singling ∨ new.state = .clearing))

/-- What every step does: it keeps the invariant, and stations and calls move as their tables allow. -/
structure State.Stepped (c : Instr) (s t : State) : Prop where
  inv : t.Inv
  stations : ∀ i, (s.station i).state.goes (t.station i).state = true ∨
    ((t.station i).state = .unknown ∧ (c = .powerLoss ∨ c = .powerOn ∨ c = .restartBegin))
  calls : ∀ x ∈ s.calls, ∀ y ∈ t.calls, x.tag = y.tag → x.goes c y

namespace State.Stepped

variable {c : Instr}

theorem of_stands (inv : t.Inv) (lists : s.ListsOk) (stations : t.stations = s.stations) (calls : t.calls = s.calls) :
    State.Stepped c s t := by
  refine ⟨inv, fun i => .inl ?_, fun x hx y hy tag => ?_⟩
  · rw [show t.station i = s.station i from by simp only [State.station, stations]]
    exact LineState.goes_refl _
  · rw [calls] at hy
    obtain rfl := lists.tag_inj hx hy tag
    exact ⟨rfl, rfl, rfl, .inl rfl⟩

/-- A step that leaves alone what the invariant reads. -/
theorem of_core (h : s.Inv) (core : t.core = s.core)
    (rest : t.phase ≠ .running → t.latch = none ∧ t.tx = none ∧ t.restartPending = false) : State.Stepped c s t :=
  of_stands (h.of_core core rest) h.calls.listsOk (congrArg State.stations core :) (congrArg State.calls core :)

theorem refl (h : s.Inv) : State.Stepped c s s :=
  of_stands h h.calls.listsOk rfl rfl

/-- A step that changes, after what it does, only what the invariant does not read. -/
theorem then_core {r : State} (h : State.Stepped c s t) (core : r.core = t.core)
    (rest : r.phase ≠ .running → r.latch = none ∧ r.tx = none ∧ r.restartPending = false) : State.Stepped c s r where
  inv := h.inv.of_core core rest
  stations i := by
    have same : r.station i = t.station i := by
      simp only [State.station, show r.stations = t.stations from (congrArg State.stations core :)]
    rw [same]
    exact h.stations i
  calls x hx y hy := h.calls x hx y ((congrArg State.calls core :) ▸ hy)

/-- A response follows what a command does. -/
theorem respond (h : State.Stepped c s t) (running : t.phase = .running) (spec : CommandSpec) (status : Status)
    (payload : List Byte) : State.Stepped c s (t.respond spec status payload) :=
  h.then_core rfl fun k => absurd running k

end State.Stepped

/-! ### The end of an event -/

theorem State.SameTable.of_eq (calls : t.calls = s.calls) (a : t.permitA = s.permitA) (b : t.permitB = s.permitB) :
    s.SameTable t := ⟨by rw [calls], a, b⟩

theorem State.grantAll_sameTable (s : State) : s.SameTable s.grantAll :=
  .of_eq s.grantAll_only.calls s.grantAll_only.permitA s.grantAll_only.permitB

theorem State.StoredOk.of_backdrop (h : s.StoredOk) (backdrop : t.backdrop = s.backdrop) : t.StoredOk := by
  unfold State.StoredOk
  rw [show t.inForce = s.inForce from (congrArg State.inForce backdrop :),
    show t.store = s.store from (congrArg State.store backdrop :),
    show t.write = s.write from (congrArg State.write backdrop :)]
  exact h

/-- The state at the end of an event whose sites stand where they may (R56, R113). -/
theorem State.settle_stepped {c : Instr} {before : State} (h : before.Inv) (running : t.phase = .running) (sound : t.Sound)
    (same : before.SameTable t) (stored : t.StoredOk) (sites : ∀ j, (t.site j).After (before.station j).state) :
    State.Stepped c before (State.settle before t) := by
  have whole : t.Whole := ⟨sound, fun j => (sites j).fit, fun j => (sites j).held⟩
  have granted := whole.grantAll
  have evaluated := State.settleCalls_evaluating h.calls (same.trans t.grantAll_sameTable) granted.sound.lists
  have only := State.settleCalls_only before t.grantAll
  have backdrop := State.settle_backdrop before t
  refine ⟨?_, fun j => .inl ?_, fun x hx y hy tag => ?_⟩
  · refine (only.whole granted (only.listsOk granted.sound.lists)).inv evaluated.callsOk ?_
      (State.restOk_of_running ((congrArg State.phase backdrop :).trans running)) ?_
    · have grants := t.grantAll_grantsOk
      intro free waits u
      rw [only.unit]
      rw [only.queue] at waits
      rw [show (State.settleCalls before t.grantAll).hold = t.grantAll.hold from (congrArg State.hold only.backdrop :)]
        at free
      exact grants free waits u
    · exact stored.of_backdrop backdrop
  · rw [State.settle_station_eq]
    rcases whole.grantAll_site j with e | ⟨u, q, hq, e, -⟩
    · rw [show t.grantAll.station j = t.station j from (congrArg Site.x e :)]
      exact (sites j).goes
    · rw [e]
      have mem : q ∈ (t.site j).qs := by
        rw [State.requestOf_eq_site] at hq
        exact List.mem_of_mem_head? hq
      simp only [Station.granted]
      split
      · next trim => exact (sites j).trims q mem trim
      · exact (sites j).goes
  · obtain ⟨d, hd, fixed, moved⟩ := evaluated.moved y hy
    simp only [Call.fixed, Prod.mk.injEq] at fixed
    obtain ⟨tag', berth, lines, need, -⟩ := fixed
    obtain ⟨e, he, bare⟩ := (same.trans t.grantAll_sameTable).mem hd
    obtain ⟨etag, eberth, estate, elines, eneed⟩ := Call.bare_eq bare
    obtain rfl := h.calls.listsOk.tag_inj hx he (by rw [tag, ← tag', etag])
    refine ⟨berth.symm.trans eberth.symm, lines.symm.trans elines.symm, need.symm.trans eneed.symm, ?_⟩
    rw [estate]
    exact moved.imp_right fun k => .inl k.1

/-! ### Sites apart from an event -/

/-- A site seen from elsewhere: what other stations have to do with the ALERT state may differ. -/
def Site.Alike (k l : Site) : Prop := l = { k with othersCritical := l.othersCritical, alert := l.alert }

namespace Site.Alike

variable {k l m : Site} {old : LineState}

theorem refl (k : Site) : k.Alike k := rfl

theorem trans (h : k.Alike l) (g : l.Alike m) : k.Alike m := by
  unfold Site.Alike at *
  rw [g, h]

theorem fit (h : k.Alike l) (fit : k.Fit) : l.Fit := by
  rw [h]
  exact fit.congr rfl rfl rfl rfl rfl rfl rfl rfl rfl rfl rfl rfl rfl

theorem held (h : k.Alike l) (held : k.Held) : l.Held := by
  rw [h]
  exact held.congr rfl rfl rfl

theorem after (h : k.Alike l) (after : k.After old) : l.After old := by
  rw [h]
  exact after.congr rfl rfl rfl rfl rfl rfl rfl rfl rfl rfl rfl rfl rfl rfl

theorem x (h : k.Alike l) : l.x = k.x := by rw [h]

theorem hold (h : k.Alike l) : l.hold = k.hold := by rw [h]

end Site.Alike

/-- An event at one station leaves the sites of the others (R108). -/
theorem State.Acts.site_of_ne {j : StationId} (acts : State.Acts i s t) (h : s.Sound) (hj : j ≠ i) :
    (s.site j).Alike (t.site j) := by
  have here := acts.local
  have inForce : t.inForce = s.inForce := (congrArg State.inForce here.backdrop :)
  have unit : (t.station j).unit.map t.unit = (s.station j).unit.map s.unit := by
    rw [here.station j hj]
    cases e : (s.station j).unit with
    | none => rfl
    | some u =>
      have serves := (h.linked j u).1 e
      have same : t.unit u = s.unit u := acts.unit_of_ne h (by rw [serves]; simpa using hj)
      simp only [Option.map_some, same]
  have requests : t.queue.filter (fun q => q.station == j) = s.queue.filter (fun q => q.station == j) := by
    have others : ∀ l : List Request, l.filter (fun q => q.station == j) =
        (l.filter (fun q => q.station != i)).filter (fun q => q.station == j) := by
      intro l
      rw [List.filter_filter]
      congr 1
      funext q
      by_cases e : q.station = j
      · simp [e, hj]
      · simp [e]
    rw [others, here.requests, ← others]
  unfold Site.Alike State.site
  simp only [Site.mk.injEq, true_and, and_true]
  refine ⟨(congrArg State.hold here.backdrop :), ?_, ?_, ?_, ?_, here.station j hj, here.channel j hj, here.mooring j hj,
    requests, unit⟩
  · rw [State.settings, inForce]; rfl
  · rw [State.calibration, inForce]; rfl
  · rw [inForce]
  · rw [show t.inputs = s.inputs from (congrArg State.inputs here.backdrop :)]

/-- An event at one station that leaves the station where it may. -/
theorem State.Acts.stepped {c : Instr} (acts : State.Acts i s t) (h : s.Inv) (running : s.phase = .running)
    (after : (t.site i).After (s.station i).state) : State.Stepped c s (State.settle s t) := by
  have here := acts.local
  have whole := h.whole
  refine State.settle_stepped h ((congrArg State.phase here.backdrop :).trans running) (acts.sound whole.sound)
    here.sameTable (h.stored.of_backdrop here.backdrop) fun j => ?_
  by_cases e : j = i
  · exact e ▸ after
  · exact (acts.site_of_ne whole.sound e).after (.stay (whole.fit j) (whole.held j) rfl)

/-- The same for an event that one of the inputs has begun. -/
theorem State.Stepped.of_start {c : Instr} {r : State} (h : State.Stepped c s t) (core : s.core = r.core) :
    State.Stepped c r t where
  inv := h.inv
  stations j := by
    have same : s.station j = r.station j := by
      simp only [State.station, show s.stations = r.stations from (congrArg State.stations core :)]
    rw [← same]
    exact h.stations j
  calls x hx := h.calls x (by rw [show s.calls = r.calls from (congrArg State.calls core :)]; exact hx)

/-! ### Events at several stations -/

/-- Acts at one station after another: each finds its own site as it stood before the first of them. -/
theorem State.foldl_acts {f : State → StationId → State} (acts : ∀ s i, State.Acts i s (f s i)) (l : List StationId)
    (nodup : l.Nodup) (s : State) (h : s.Sound) :
    (l.foldl f s).Sound ∧ s.SameTable (l.foldl f s) ∧ (l.foldl f s).backdrop = s.backdrop ∧
      (∀ j ∉ l, (s.site j).Alike ((l.foldl f s).site j)) ∧
      ∀ j ∈ l, ∃ m : State, (s.site j).Alike (m.site j) ∧ ((f m j).site j).Alike ((l.foldl f s).site j) := by
  induction l generalizing s with
  | nil => exact ⟨h, .refl s, rfl, fun j _ => .refl _, nofun⟩
  | cons i l ih =>
    obtain ⟨fresh, nodup⟩ := List.nodup_cons.1 nodup
    have first := acts s i
    obtain ⟨sound, table, backdrop, others, processed⟩ := ih nodup (f s i) (first.sound h)
    refine ⟨sound, first.local.sameTable.trans table, backdrop.trans first.local.backdrop, fun j hj => ?_, fun j hj => ?_⟩
    · rw [List.mem_cons, not_or] at hj
      exact (first.site_of_ne h hj.1).trans (others j hj.2)
    · rcases List.mem_cons.1 hj with rfl | hj
      · exact ⟨s, .refl _, others j fresh⟩
      · have ne : j ≠ i := fun e => fresh (e ▸ hj)
        obtain ⟨m, start, done⟩ := processed j hj
        exact ⟨m, (first.site_of_ne h ne).trans start, done⟩

theorem allStations_nodup : allStations.Nodup := by decide

end Sys2Proof.Machine
end

