-- ==== Sys2Proof/Proofs/StationSteps.lean ====
section
/-! PROOF. The steps of the commands and events that act at one station: what each of them may do, from its acts and
the site it leaves. -/

namespace Sys2Proof.Machine

variable {s t : State} {i : StationId} {c : Instr}

/-! ### Answers -/

/-- A rule that accepts has passed each of its checks. -/
theorem checked_accepted {checks : List (Bool × Status)} {accept : Verdict} {payload : List Byte}
    (h : checked checks accept = .accepted payload t) :
    (∀ check ∈ checks, check.1 = false) ∧ accept = .accepted payload t := by
  induction checks with
  | nil => exact ⟨nofun, h⟩
  | cons check checks ih =>
    obtain ⟨fails, status⟩ := check
    rw [checked_cons] at h
    cases fails with
    | true => cases h
    | false =>
      obtain ⟨pass, rest⟩ := ih h
      refine ⟨fun other hc => ?_, rest⟩
      rcases List.mem_cons.1 hc with rfl | hc
      · rfl
      · exact pass other hc

theorem withStation_accepted {station : Byte} {rule : StationId → Verdict} {payload : List Byte}
    (h : s.withStation station rule = .accepted payload t) :
    ∃ i, stationOf station = some i ∧ (s.station i).state ≠ .unknown ∧ rule i = .accepted payload t := by
  unfold State.withStation at h
  split at h
  · cases h
  · next i named =>
    split at h
    · cases h
    · next known => exact ⟨i, named, known, h⟩

theorem State.takesFrames_running (h : s.takesFrames = true) : s.phase = .running := by
  unfold State.takesFrames at h
  simp only [Bool.and_eq_true, beq_iff_eq] at h
  exact h.1.1

/-- A refusal is a step: it changes the response and the latch. -/
theorem State.Inv.refuse_stepped (h : s.Inv) (running : s.phase = .running) (spec : CommandSpec) (status : Status) :
    State.Stepped c s (s.refuse spec status) := by
  refine .of_core h ?_ ?_ <;> unfold State.refuse <;> dsimp only [State.respond] <;> split
  · rfl
  · rfl
  · exact fun k => absurd running k
  · exact fun k => absurd running k

/-- A unicast command steps where its rule does. -/
theorem State.Inv.unicast_stepped {spec : CommandSpec} {len : Byte} {rule : State → Verdict} (h : s.Inv)
    (accepts : ∀ payload t, s.phase = .running → rule s = .accepted payload t →
      State.Stepped c s t ∧ t.phase = .running) : State.Stepped c s (s.unicast spec len rule) := by
  by_cases takes : s.takesFrames = true
  · have running := State.takesFrames_running takes
    rcases s.unicast_answers spec len rule takes with ⟨payload, t, accepted, e⟩ | ⟨status, e⟩ | ⟨code, -, e⟩ <;> rw [e]
    · obtain ⟨stepped, phase⟩ := accepts payload t running accepted
      exact stepped.respond phase _ _ _
    · exact h.refuse_stepped running _ _
    · exact (State.Stepped.refl h).respond running _ _ _
  · rw [s.unicast_of_busy spec len rule (by simpa using takes)]
    exact .refl h

theorem State.Acts.accepts (acts : State.Acts i s t) (h : s.Inv) (running : s.phase = .running)
    (after : (t.site i).After (s.station i).state) :
    State.Stepped c s (State.settle s t) ∧ (State.settle s t).phase = .running :=
  ⟨acts.stepped h running after, (State.settle_phase s t).trans
    ((congrArg State.phase acts.local.backdrop :).trans running)⟩

/-! ### The commands of the lines (chapters 1 and 7) -/

theorem State.Inv.release_stepped (h : s.Inv) (len station : Byte) {t : State}
    (e : execRelease len station s = .next t) : State.Stepped c s t := by
  cases e
  refine h.unicast_stepped fun payload t running accepted => ?_
  obtain ⟨i, -, -, accepted⟩ := withStation_accepted accepted
  obtain ⟨pass, accepted⟩ := checked_accepted accepted
  cases accepted
  have state := pass (_, .wrongState) (List.mem_of_getElem? (i := 2) rfl)
  refine (s.releaseSequence_acts i _).accepts h running (State.releaseSequence_after (h.fit i) ?_ _)
  simpa only [Bool.not_eq_false', Bool.or_eq_true, beq_iff_eq, State.station_eq_site] using state

theorem State.Inv.slacken_stepped (h : s.Inv) (len station : Byte) (length : BitVec 16) {t : State}
    (e : execSlacken len station length s = .next t) : State.Stepped c s t := by
  cases e
  refine h.unicast_stepped fun payload t running accepted => ?_
  obtain ⟨i, -, -, accepted⟩ := withStation_accepted accepted
  obtain ⟨pass, accepted⟩ := checked_accepted accepted
  cases accepted
  have free := pass (_, .hold) (List.mem_of_getElem? (i := 0) rfl)
  have state := pass (_, .wrongState) (List.mem_of_getElem? (i := 2) rfl)
  refine (s.slackened_acts i _).accepts h running (State.slackened_after (h.fit i) free ?_ _)
  simpa only [Bool.not_eq_false', Bool.or_eq_true, beq_iff_eq, State.station_eq_site] using state

theorem State.Inv.retire_stepped (h : s.Inv) (len station : Byte) {t : State}
    (e : execRetire len station s = .next t) : State.Stepped c s t := by
  cases e
  refine h.unicast_stepped fun payload t running accepted => ?_
  obtain ⟨i, -, -, accepted⟩ := withStation_accepted accepted
  obtain ⟨pass, accepted⟩ := checked_accepted accepted
  cases accepted
  have free := pass (_, .hold) (List.mem_of_getElem? (i := 0) rfl)
  have state := pass (_, .wrongState) (List.mem_of_getElem? (i := 3) rfl)
  refine (s.retired_acts i).accepts h running (State.retired_after (h.fit i) free ?_)
  simpa only [Bool.not_eq_false', Bool.or_eq_true, beq_iff_eq, State.station_eq_site] using state

theorem State.Inv.runOut_stepped (h : s.Inv) (len station : Byte) {t : State}
    (e : execRunOut len station s = .next t) : State.Stepped c s t := by
  cases e
  refine h.unicast_stepped fun payload t running accepted => ?_
  obtain ⟨i, -, -, accepted⟩ := withStation_accepted accepted
  obtain ⟨pass, accepted⟩ := checked_accepted accepted
  cases accepted
  have state := pass (_, .wrongState) (List.mem_of_getElem? (i := 2) rfl)
  have acts : State.Acts i s ((s.enter i .paying).startStep i .runOut .unlocked .free) :=
    (s.enter_acts i _).trans (State.startStep_acts_of_ne _ i .runOut _ _ nofun)
  refine acts.accepts h running (State.runOut_after (h.fit i) ?_)
  simpa only [bne_eq_false_iff_eq, State.station_eq_site] using state

theorem State.Inv.clearFault_stepped (h : s.Inv) (len station : Byte) {t : State}
    (e : execClearFault len station s = .next t) : State.Stepped c s t := by
  cases e
  refine h.unicast_stepped fun payload t running accepted => ?_
  obtain ⟨i, -, -, accepted⟩ := withStation_accepted accepted
  obtain ⟨pass, accepted⟩ := checked_accepted accepted
  cases accepted
  have state := pass (_, .wrongState) (List.mem_of_getElem? (i := 0) rfl)
  have agrees := pass (_, .wrongState) (List.mem_of_getElem? (i := 1) rfl)
  rw [bne_eq_false_iff_eq] at state
  have acts : State.Acts i s ((s.enterByList i (s.stateByList i)).deferredTakeOver i) :=
    (s.enterByList_acts i _).trans (State.deferredTakeOver_acts _ i)
  refine acts.accepts h running ?_
  rw [state]
  exact State.clearFault_after (h.fit i) state agrees

/-! ### The commands of the moorings (chapter 2) -/

theorem hysteresisOk_iff (b : Byte) : hysteresisOk b = true ↔ b.toNat ∈ [0, 20, 50, 100] := by
  simp [hysteresisOk, or_assoc]

theorem roleOf_isSome_iff (b : Byte) : (roleOf b).isSome = true ↔ 1 ≤ b.toNat ∧ b.toNat ≤ 6 := by
  refine ⟨fun h => ?_, fun h => ?_⟩
  · unfold roleOf at h
    split at h
    case h_7 => cases h
    all_goals omega
  · obtain ⟨role, e, -⟩ := roleOf_code h.1 h.2
    rw [e]; rfl

theorem recordFieldsValid_iff (f : RecordFields) : recordFieldsValid f = true ↔ f.acceptable := by
  unfold recordFieldsValid windowValid RecordFields.acceptable
  rw [Bool.and_eq_true, Bool.and_eq_true, hysteresisOk_iff, roleOf_isSome_iff, decide_eq_true_iff, and_assoc]

/-- The checks of the named call and the fields (R29, R32). -/
theorem State.callChecks_pass {tag : Nat} {f : RecordFields}
    (pass : ∀ check ∈ s.callChecks i tag f, check.1 = false) :
    (∃ x ∈ s.calls, x.tag = (mooringFrom f tag).tag ∧ x.berth = berthOf i) ∧ f.acceptable := by
  have call := pass (_, .noCall) (List.mem_of_getElem? (i := 0) rfl)
  have berth := pass (_, .wrongBerth) (List.mem_of_getElem? (i := 1) rfl)
  have fields := pass (_, .badWindow) (List.mem_of_getElem? (i := 3) rfl)
  refine ⟨?_, (recordFieldsValid_iff f).1 (by simpa using fields)⟩
  cases e : s.callOf tag with
  | none => rw [e] at call; cases call
  | some x =>
    obtain ⟨mem, same⟩ := State.callOf_some e
    rw [e, Option.any_some, bne_eq_false_iff_eq] at berth
    exact ⟨x, mem, same, berth⟩

theorem State.Inv.makeFast_stepped (h : s.Inv) (len station : Byte) (tag : BitVec 16) (f : RecordFields) {t : State}
    (e : execMakeFast len station tag f s = .next t) : State.Stepped c s t := by
  cases e
  refine h.unicast_stepped fun payload t running accepted => ?_
  obtain ⟨i, -, -, accepted⟩ := withStation_accepted accepted
  obtain ⟨pass, accepted⟩ := checked_accepted accepted
  cases accepted
  have free := pass (_, .hold) (List.mem_of_getElem? (i := 0) rfl)
  have absent := pass (_, .occupied) (List.mem_of_getElem? (i := 2) rfl)
  have state := pass (_, .wrongState) (List.mem_of_getElem? (i := 3) rfl)
  obtain ⟨call, fields⟩ := State.callChecks_pass fun check hc => pass check (List.mem_append_right _ hc)
  have acts : State.Acts i s ((((s.createRecord i (mooringFrom f tag.toNat)).enter i .heaving).startStep i .makeFast
      .locked .engaged).submit i .heave false) :=
    (((s.createRecord_acts i _ (by simpa using absent) call).trans (State.enter_acts _ i _)).trans
      (State.startStep_acts_of_ne _ i .makeFast _ _ nofun)).trans (State.submit_acts _ i _ _)
  refine acts.accepts h running ?_
  exact State.makeFast_after (h.fit i) free (by simpa only [bne_eq_false_iff_eq, State.station_eq_site] using state)
    (mooringFrom_valid f _ fields)

theorem State.Inv.adopt_stepped (h : s.Inv) (len station : Byte) (tag : BitVec 16) (f : RecordFields) {t : State}
    (e : execAdopt len station tag f s = .next t) : State.Stepped c s t := by
  cases e
  refine h.unicast_stepped fun payload t running accepted => ?_
  obtain ⟨i, -, -, accepted⟩ := withStation_accepted accepted
  obtain ⟨pass, accepted⟩ := checked_accepted accepted
  cases accepted
  have absent := pass (_, .occupied) (List.mem_of_getElem? (i := 1) rfl)
  have state := pass (_, .wrongState) (List.mem_of_getElem? (i := 2) rfl)
  obtain ⟨call, fields⟩ := State.callChecks_pass fun check hc => pass check (List.mem_append_right _ hc)
  have acts : State.Acts i s ((s.createRecord i (mooringFrom f tag.toNat)).enter i .fast) :=
    (s.createRecord_acts i _ (by simpa using absent) call).trans (State.enter_acts _ i _)
  refine acts.accepts h running ?_
  exact State.adopt_after (h.fit i) (by simpa only [bne_eq_false_iff_eq, State.station_eq_site] using state) (mooringFrom_valid f _ fields)

theorem State.Inv.amend_stepped (h : s.Inv) (len station : Byte) (f : RecordFields) {t : State}
    (e : execAmend len station f s = .next t) : State.Stepped c s t := by
  cases e
  refine h.unicast_stepped fun payload t running accepted => ?_
  obtain ⟨i, -, -, accepted⟩ := withStation_accepted accepted
  split at accepted
  · cases accepted
  · next r record =>
    obtain ⟨pass, accepted⟩ := checked_accepted accepted
    cases accepted
    have fields := pass (_, .badWindow) (List.mem_of_getElem? (i := 1) rfl)
    exact (s.amended_acts i r (mooringFrom f r.tag) record rfl).accepts h running (State.amended_after (h.fit i) (h.held i) record
      (mooringFrom_valid f _ ((recordFieldsValid_iff f).1 (by simpa using fields))))

/-! ### The field arrivals (chapters 1, 4 and 8) -/

theorem State.Inv.loadSample_stepped (h : s.Inv) (i : StationId) (raw : BitVec 16) {t : State}
    (e : execLoadSampleArrival i raw s = .next t) : State.Stepped c s t := by
  cases e
  split
  · next running =>
    split
    · exact (s.railSample_acts i).stepped h running (State.railSample_after (h.fit i) (h.held i))
    · exact (s.validSample_acts i _).stepped h running (State.validSample_after (h.fit i) (h.held i) _)
  · exact .refl h

/-- A station record with a position and senses that have arrived (R8, R11). -/
def Station.storing (x : Station) (position : Option Nat) (lock : Option LockPos) (clutch : Option ClutchPos) : Station :=
  { x with position := position, senLock := lock, senClutch := clutch }

/-- Before the store read completes a position or a sense is stored, and nothing else (R181). -/
theorem State.Inv.stored_stepped (h : s.Inv) (idle : s.phase ≠ .running) (i : StationId) (position : Option Nat)
    (lock : Option LockPos) (clutch : Option ClutchPos) :
    State.Stepped c s (s.setStation i ((s.station i).storing position lock clutch)) := by
  have whole := h.whole
  have rest := h.rest
  obtain ⟨noCalls, noQueue, -⟩ := rest.tables idle
  have unknown : (s.station i).state = .unknown := by rw [rest.stations idle i]; rfl
  have acts : State.Acts i s (s.setStation i ((s.station i).storing position lock clutch)) :=
    .single (.station s _ rfl rfl)
  have station := s.station_setStation i
  have site := s.site_setStation (i := i) ((s.station i).storing position lock clutch) rfl
  have stored : (s.setStation i ((s.station i).storing position lock clutch)).Whole := by
    refine ⟨acts.sound whole.sound, fun j => ?_, fun j => ?_⟩ <;> by_cases e : j = i
    · rw [e, site]
      exact (whole.fit i).store unknown position lock clutch
    · exact (acts.site_of_ne whole.sound e).fit (whole.fit j)
    · rw [e, site]
      exact (whole.held i).congr rfl rfl rfl
    · exact (acts.site_of_ne whole.sound e).held (whole.held j)
  refine ⟨stored.inv ?_ (fun _ waits => absurd noQueue waits) { rest with stations := fun k j => ?_ } h.stored,
    fun j => .inl ?_, fun x hx => ?_⟩
  · refine (h.calls.tableOk.congr acts.local.sameTable).callsOk stored.sound.lists fun x hx => ?_
    rw [State.setStation_calls, noCalls] at hx
    cases hx
  · rw [State.setStation_phase] at k
    rw [station]
    split
    · next e =>
      subst e
      conv_lhs => rw [rest.stations k j]
      rfl
    · exact rest.stations k j
  · rw [station]
    split
    · next e => rw [e]; exact LineState.goes_refl _
    · exact LineState.goes_refl _
  · rw [noCalls] at hx
    cases hx

/-- While the part is at work a position or a sense is an act of its station and takes its site to a stored one. -/
theorem State.onStation_site_acts (f : Station → Station) (attention : (f (s.station i)).attention = (s.station i).attention)
    (unit : (f (s.station i)).unit = (s.station i).unit) : State.Acts i s (s.onStation i f) ∧
      (s.onStation i f).site i = { s.site i with x := f (s.site i).x } :=
  ⟨.onStation s i f attention unit, State.site_onStation s f unit⟩

theorem State.Inv.drumPosition_stepped (h : s.Inv) (i : StationId) (count : BitVec 24) {t : State}
    (e : execDrumPositionArrival i count s = .next t) : State.Stepped c s t := by
  cases e
  obtain ⟨moved, site⟩ := State.onStation_site_acts (s := s) (i := i) (fun x => { x with position := some count.toNat })
    rfl rfl
  split
  · exact .refl h
  · next reading =>
    exact h.stored_stepped (by rw [reading]; exact nofun) i (some count.toNat) (s.station i).senLock
      (s.station i).senClutch
  · next running =>
    have fit := (h.fit i).position count.toNat
    have held : Site.Held { s.site i with x := { (s.site i).x with position := some count.toNat } } :=
      (h.held i).congr rfl rfl rfl
    rw [← site] at fit held
    have state : ((s.onStation i (fun x => { x with position := some count.toNat })).site i).x.state =
        (s.station i).state := by rw [site]; rfl
    split
    · next unknown =>
      refine State.Acts.stepped (moved.trans (State.leaveUnknown_acts _ i)) h running ?_
      rw [unknown] at state ⊢
      exact State.leaveUnknown_after fit held state
    · refine State.Acts.stepped (moved.trans (State.drumMoved_acts _ i)) h running ?_
      rw [← state]
      exact State.drumMoved_after fit held

/-- A unit that serves a station is not IDLE. -/
theorem State.Inv.busyAt (h : s.Inv) (i : StationId) : s.busyAt i := by
  intro u serves idle
  have ok := h.units u
  unfold DriveUnit.ok at ok
  rw [idle] at ok
  have := (h.work.served i u).1 serves
  rw [ok.1] at this
  cases this

theorem State.Inv.gearSense_stepped (h : s.Inv) (i : StationId) (sense : GearSense) {t : State}
    (e : execGearSenseArrival i sense s = .next t) : State.Stepped c s t := by
  cases e
  have plain : (((s.station i).sensed sense).attention = (s.station i).attention) ∧
      (((s.station i).sensed sense).unit = (s.station i).unit) := by cases sense <;> exact ⟨rfl, rfl⟩
  obtain ⟨moved, site⟩ := State.onStation_site_acts (s := s) (i := i) (fun x => x.sensed sense) plain.1 plain.2
  split
  · exact .refl h
  · next reading =>
    have stored := fun lock clutch => h.stored_stepped (c := c) (by rw [reading]; exact nofun) i (s.station i).position
      lock clutch
    cases sense with
    | lock p => exact stored (some p) (s.station i).senClutch
    | clutch p => exact stored (s.station i).senLock (some p)
  · next running =>
    split
    · next unknown =>
      have fit := (h.fit i).store unknown (s.station i).position ((s.station i).sensed sense).senLock
        ((s.station i).sensed sense).senClutch
      have held := (h.held i).congr (l := { s.site i with x := (s.site i).x.sensed sense }) rfl rfl
        (by cases sense <;> rfl)
      have same : ({ s.site i with x := (s.site i).x.sensed sense } : Site) = { s.site i with
          x := { (s.site i).x with
            position := (s.station i).position
            senLock := ((s.station i).sensed sense).senLock
            senClutch := ((s.station i).sensed sense).senClutch } } := by cases sense <;> rfl
      rw [← same] at fit
      rw [← site] at fit held
      refine State.Acts.stepped (moved.trans (State.leaveUnknown_acts _ i)) h running ?_
      rw [unknown]
      refine State.leaveUnknown_after fit held ?_
      rw [site]
      cases sense <;> exact unknown
    · next known =>
      refine State.Acts.stepped (moved.trans (State.gearSensed_acts _ i ?_)) h running
        (State.gearSensed_after (h.fit i) (h.held i) known sense)
      intro u serves
      have busy := h.busyAt i u
      rw [State.station_onStation_self, plain.2] at serves
      exact busy serves

theorem State.Inv.gearTimer_stepped (h : s.Inv) (i : StationId) {t : State}
    (e : execGearTimerExpiry i s = .next t) : State.Stepped c s t := by
  cases e
  split
  · next runs =>
    obtain ⟨running, timer⟩ := runs
    refine (s.enterFault_acts i _ _).stepped h running (State.enterFault_after (h.fit i) ?_ _ _)
    refine (h.fit i).geared.sensedAll fun unknown => ?_
    have := h.gear.rest i (by rw [State.station_eq_site, unknown]; rfl)
    rw [this] at timer
    cases timer
  · exact .refl h

theorem State.Inv.motionTimer_stepped (h : s.Inv) (i : StationId) {t : State}
    (e : execMotionTimerExpiry i s = .next t) : State.Stepped c s t := by
  cases e
  split
  · next runs =>
    obtain ⟨running, -, moves⟩ := runs
    exact State.Acts.stepped ((s.endMotionDiscard_acts i _).trans (State.raise_acts _ i _)) h running
      (State.raise_after (State.endMotionDiscard_after (h.fit i) moves _) _)
  · exact .refl h

theorem State.Inv.takeOverTimer_stepped (h : s.Inv) (i : StationId) {t : State}
    (e : execTakeOverTimerExpiry i s = .next t) : State.Stepped c s t := by
  cases e
  split
  · next runs =>
    obtain ⟨running, inLocal, -⟩ := runs
    exact (s.takeOverExpired_acts i).stepped h running (State.takeOverExpired_after (h.fit i) inLocal)
  · exact .refl h

/-! ### Inputs -/

/-- A change of the inputs keeps the invariant. -/
theorem State.Inv.inputs (h : s.Inv) (inputs : Inputs) : State.Inv { s with inputs := inputs } :=
  h.of_core rfl fun k => ⟨(h.rest.flags k).2.2.1, (h.rest.flags k).2.2.2.2⟩

theorem State.Inv.inputs_stepped (h : s.Inv) (inputs : Inputs) : State.Stepped c s { s with inputs := inputs } :=
  .of_core h rfl fun k => ⟨(h.rest.flags k).2.2.1, (h.rest.flags k).2.2.2.2⟩

theorem State.Inv.takeOverAsserted_stepped (h : s.Inv) (i : StationId) {t : State}
    (e : execTakeOverAsserted i s = .next t) : State.Stepped c s t := by
  cases e
  have changed : (s.setTakeOverInput i true).Inv := h.inputs _
  split
  · next runs =>
    obtain ⟨running, known, fault, inLocal⟩ := runs
    exact ((State.enterLocal_acts _ i).stepped changed running
      (State.enterLocal_after (changed.fit i) known inLocal fault _)).of_start rfl
  · exact h.inputs_stepped _

theorem State.Inv.takeOverEnded_stepped (h : s.Inv) (i : StationId) {t : State}
    (e : execTakeOverEnded i s = .next t) : State.Stepped c s t := by
  cases e
  have changed : (s.setTakeOverInput i false).Inv := h.inputs _
  split
  · next runs =>
    obtain ⟨running, inLocal⟩ := runs
    exact ((State.endTakeOver_acts _ i).stepped changed running
      (State.endTakeOver_after (changed.fit i) inLocal)).of_start rfl
  · exact h.inputs_stepped _

/-! ### The units (chapter 6) -/

theorem State.ready_acts {u : UnitId} (served : (s.unit u).served = some i) (unit : (s.station i).unit = some u) :
    State.Acts i s (s.ready u) := by
  unfold State.ready
  rw [served]
  split
  · next j granted e =>
    cases e
    split
    · exact .refl
    · next a _ =>
      split
      · exact s.readyTrim_acts i unit granted a _ _
      · exact s.readyHeave_acts i unit granted a
      · exact s.startMotion_acts i a 0 unit granted
      · exact s.startMotion_acts i a 0 unit granted
  · exact .refl

/-- A unit that is GRANTED or RUNNING serves a station that names it. -/
theorem State.Inv.served_of_busy (h : s.Inv) {u : UnitId} (busy : (s.unit u).state = .granted ∨ (s.unit u).state = .running) :
    ∃ i, (s.unit u).served = some i ∧ (s.station i).unit = some u := by
  have ok := h.units u
  unfold DriveUnit.ok at ok
  have serves : (s.unit u).served.isSome = true := by
    rcases busy with e | e <;> rw [e] at ok <;> exact ok.1
  obtain ⟨i, hi⟩ := Option.isSome_iff_exists.1 serves
  exact ⟨i, hi, (h.work.served i u).2 hi⟩

theorem State.Inv.granted_active (h : s.Inv) {u : UnitId} (granted : (s.unit u).state = .granted)
    (unit : (s.station i).unit = some u) : ∃ a, (s.station i).active = some a ∧ a.phase = .granted := by
  have any := (h.drive.granted i u unit).1 granted
  cases act : (s.station i).active with
  | none => rw [act] at any; cases any
  | some a =>
    rw [act, Option.any_some] at any
    refine ⟨a, rfl, ?_⟩
    unfold ActiveOp.isGranted at any
    split at any
    · next k => exact k
    all_goals cases any

theorem State.Inv.ready_stepped (h : s.Inv) (u : UnitId) {t : State} (e : execReadyArrival u s = .next t) :
    State.Stepped c s t := by
  cases e
  split
  · next running =>
    by_cases granted : (s.unit u).state = .granted
    · obtain ⟨i, served, unit⟩ := h.served_of_busy (.inl granted)
      exact (State.ready_acts served unit).stepped h running (State.ready_after (h.fit i) (h.held i) served unit)
    · have stands : s.ready u = s := by
        unfold State.ready
        split
        · next k _ => exact absurd k granted
        · rfl
      rw [stands]
      exact State.Acts.stepped (i := 0) .refl h running (.stay (h.fit 0) (h.held 0) rfl)
  · exact .refl h

theorem State.Inv.failGranted_stepped (h : s.Inv) (running : s.phase = .running) {u : UnitId}
    (granted : (s.unit u).state = .granted) : State.Stepped c s (State.settle s (s.failGranted u)) := by
  obtain ⟨i, served, unit⟩ := h.served_of_busy (.inl granted)
  obtain ⟨a, act, phase⟩ := h.granted_active granted unit
  exact (State.failGranted_acts s i served).stepped h running (State.failGranted_after (h.fit i) served unit act phase)

theorem State.Inv.readyTimer_stepped (h : s.Inv) (u : UnitId) {t : State} (e : execReadyTimerExpiry u s = .next t) :
    State.Stepped c s t := by
  cases e
  split
  · next runs => exact h.failGranted_stepped runs.1 runs.2.1
  · exact .refl h

/-- A unit that serves no station takes no part in any site. -/
theorem State.alike_of_unserved (h : s.Sound) {u : UnitId} (free : (s.unit u).served = none)
    (only : t = { s with units := t.units, alert := t.alert }) (units : ∀ v, v ≠ u → t.unit v = s.unit v)
    (j : StationId) : (s.site j).Alike (t.site j) := by
  have unit : (s.station j).unit.map t.unit = (s.station j).unit.map s.unit := by
    cases e : (s.station j).unit with
    | none => rfl
    | some v =>
      have other : v ≠ u := by
        rintro rfl
        have := (h.linked j v).1 e
        rw [free] at this
        cases this
      simp only [Option.map_some, units v other]
  rw [only] at unit ⊢
  unfold Site.Alike State.site
  simp only [Site.mk.injEq, true_and, and_true]
  exact ⟨rfl, rfl, rfl, rfl, rfl, unit⟩

theorem State.faultUnit_only (u : UnitId) : s.faultUnit u =
    { s with units := (s.faultUnit u).units, alert := (s.faultUnit u).alert } := by
  unfold State.faultUnit
  rw [State.assertAlert_eq]
  rfl

theorem State.faultUnit_unit_of_ne {u v : UnitId} (h : v ≠ u) : (s.faultUnit u).unit v = s.unit v := by
  unfold State.faultUnit
  rw [State.assertAlert_eq, State.with_alert_unit, State.unit_onUnit, if_neg h]

/-- A unit that serves no station goes out of service and leaves every site as it stands (R118). -/
theorem State.faultUnit_alike (h : s.Sound) {u : UnitId} (idle : (s.unit u).state = .idle) (j : StationId) :
    (s.site j).Alike ((s.faultUnit u).site j) := by
  have ok := h.units u
  unfold DriveUnit.ok at ok
  rw [idle] at ok
  exact State.alike_of_unserved h ok.1 (State.faultUnit_only u) (fun _ => State.faultUnit_unit_of_ne) j

theorem State.faultUnit_backdrop (u : UnitId) : (s.faultUnit u).backdrop = s.backdrop := by
  rw [State.faultUnit_only]
  rfl

theorem State.Inv.unitFault_stepped (h : s.Inv) (u : UnitId) {t : State} (e : execUnitFaultAsserted u s = .next t) :
    State.Stepped c s t := by
  cases e
  have changed : (s.setFaultInput u true).Inv := h.inputs _
  split
  · next running =>
    refine State.Stepped.of_start (s := s.setFaultInput u true) ?_ rfl
    have running : (s.setFaultInput u true).phase = .running := running
    generalize s.setFaultInput u true = r at changed running
    unfold State.unitFault
    split
    · next idle =>
      have whole := changed.whole
      have kept := State.faultUnit_backdrop (s := r) u
      exact State.settle_stepped changed ((congrArg State.phase kept :).trans running) (whole.sound.faultUnit u)
        (.of_eq (by rw [State.faultUnit_only]) (by rw [State.faultUnit_only]) (by rw [State.faultUnit_only]))
        (changed.stored.of_backdrop kept)
        fun j => (State.faultUnit_alike whole.sound idle j).after (.stay (whole.fit j) (whole.held j) rfl)
    · next granted => exact changed.failGranted_stepped running granted
    · next busy =>
      obtain ⟨i, served, unit⟩ := changed.served_of_busy (.inr busy)
      exact (State.failRunning_acts r i served).stepped changed running
        (State.failRunning_after (changed.fit i) (changed.held i) served unit busy)
    · exact State.Acts.stepped (i := 0) .refl changed running (.stay (changed.fit 0) (changed.held 0) rfl)
  · exact h.inputs_stepped _

/-- An unserved unit that returns to IDLE keeps every part of the state in order, and leaves every site as it stands
(R122). -/
theorem State.Inv.resetUnit (h : s.Inv) {u : UnitId} (free : (s.unit u).served = none) :
    let r := (s.setUnit u (.unserved .idle)).reformFollow
    r.Sound ∧ r = { s with units := r.units, alert := r.alert } ∧
      (∀ v, r.unit v = if v = u then .unserved .idle else s.unit v) ∧ ∀ j, (s.site j).Alike (r.site j) := by
  intro r
  have whole := h.whole
  have only : r = { s with units := r.units, alert := r.alert } := by
    dsimp only [r]
    rw [State.reformFollow_eq]
    rfl
  have unit : ∀ v, r.unit v = if v = u then .unserved .idle else s.unit v := fun v => by
    dsimp only [r]
    rw [State.reformFollow_eq]
    exact s.unit_setUnit u v _
  have alert : r.AlertFits := whole.sound.alert.reformFollow rfl rfl rfl
  have calls : r.calls = s.calls := by rw [only]
  refine ⟨⟨whole.sound.linked.congr (fun j => ?_) fun v => ?_, fun v => ?_, fun v => ?_, ?_, alert,
    whole.sound.lists.congr calls fun j => ?_⟩, only, unit,
    State.alike_of_unserved whole.sound free only fun v hv => by rw [unit, if_neg hv]⟩
  · rw [only]; rfl
  · rw [unit]
    split
    · next e => rw [e, free]; rfl
    · rfl
  · rw [unit]
    split
    · exact ⟨rfl, rfl, rfl, rfl⟩
    · exact whole.sound.units v
  · rw [unit]
    split
    · exact fun _ => rfl
    · exact whole.sound.stopped v
  · unfold State.QueueOk
    rw [only]
    exact h.queue
  · rw [only]
    rfl

/-- RESET-DRIVE (R122). -/
theorem State.Inv.resetDrive_stepped (h : s.Inv) (len unit : Byte) {t : State} (e : execResetDrive len unit s = .next t) :
    State.Stepped c s t := by
  cases e
  refine h.unicast_stepped fun payload t running accepted => ?_
  split at accepted
  · cases accepted
  · next u _ =>
    obtain ⟨pass, accepted⟩ := checked_accepted accepted
    cases accepted
    have free := pass (_, .driveState) (List.mem_of_getElem? (i := 1) rfl)
    obtain ⟨sound, only, -, alike⟩ := h.resetUnit (u := u) (by simpa using free)
    generalize (s.setUnit u (.unserved .idle)).reformFollow = r at sound only alike
    have phase : r.phase = .running := by rw [only]; exact running
    refine ⟨State.settle_stepped h phase sound (.of_eq ?_ ?_ ?_) (h.stored.of_backdrop ?_)
      fun j => (alike j).after (.stay (h.fit j) (h.held j) rfl), (State.settle_phase s r).trans phase⟩
    · rw [only]
    · rw [only]
    · rw [only]
    · rw [only]
      rfl

end Sys2Proof.Machine
end

