-- ==== Sys2Proof/Proofs/TableSteps.lean ====
section
/-! PROOF. The steps of the commands of the call table, and of those that change the stored values and the link. -/

namespace Sys2Proof.Machine

variable {s t : State} {i : StationId} {c : Instr}

/-! ### Calls that stand -/

/-- The call table stands where what it reads of stations, channels and records stands. -/
theorem State.CallsOk.congr (h : s.CallsOk) (calls : t.calls = s.calls) (a : t.permitA = s.permitA)
    (b : t.permitB = s.permitB) (mooring : ∀ j, t.mooring j = s.mooring j)
    (holding : ∀ j, t.holding j = s.holding j) (steady : ∀ n j, t.steadyFor n j = s.steadyFor n j) : t.CallsOk := by
  refine (h.tableOk.congr (.of_eq calls a b)).callsOk (h.listsOk.congr calls mooring) fun x hx => ?_
  have settled := h.settled x (calls ▸ hx)
  have holding : t.holding = s.holding := funext holding
  have steady : t.steadyFor x.steadyNeed = s.steadyFor x.steadyNeed := funext fun j => steady _ j
  have alone : t.noOtherActive x = s.noOtherActive x := by
    unfold State.noOtherActive
    rw [calls]
  have test : t.heldTest x = s.heldTest x := by
    unfold State.heldTest
    rw [steady, alone]
  rw [State.transitionOf_eq_none] at settled ⊢
  rwa [test, holding]

/-- The state without its calls and permits. -/
def State.offTable (s : State) : State := { s with calls := [], permitA := false, permitB := false }

theorem State.CallsOnly.offTable (h : s.CallsOnly t) : t.offTable = s.offTable := by
  have := h.backdrop
  obtain ⟨stations, channels, moorings, queue, units, alert, -, -⟩ := h
  obtain ⟨⟩ := s
  obtain ⟨⟩ := t
  simp only [State.backdrop, State.mk.injEq, State.offTable] at *
  tauto

theorem State.eq_of_offTable (h : t.offTable = s.offTable) :
    t = { s with calls := t.calls, permitA := t.permitA, permitB := t.permitB } := by
  obtain ⟨⟩ := s
  obtain ⟨⟩ := t
  simp only [State.offTable, State.mk.injEq] at h ⊢
  tauto

/-- A step in the call table alone, while the part is at work. -/
theorem State.Inv.of_offTable (h : s.Inv) (running : s.phase = .running) (same : t.offTable = s.offTable)
    (calls : t.CallsOk) : t.Inv := by
  rw [State.eq_of_offTable same] at calls ⊢
  exact {
    calls := calls
    records := { h.records with }
    work := { h.work with }
    queue := h.queue
    units := h.units
    grants := h.grants
    gear := { h.gear with }
    drive := { h.drive with }
    channels := { h.channels with }
    rest := State.restOk_of_running running
    alerts := h.alerts
    stored := h.stored }

theorem State.Inv.stepped_of_offTable (h : s.Inv) (running : s.phase = .running) (same : t.offTable = s.offTable)
    (calls : t.CallsOk) (moves : ∀ x ∈ s.calls, ∀ y ∈ t.calls, x.tag = y.tag → x.goes c y) : State.Stepped c s t where
  inv := h.of_offTable running same calls
  stations j := by
    have stations : t.stations = s.stations := (congrArg State.stations same :)
    left
    simp only [State.station, stations]
    exact LineState.goes_refl _
  calls := moves

/-! ### OPEN-CALL (R49, R50) -/

/-- The state with one more call at the end of the table. -/
def State.adding (s : State) (n : Call) : State := { s with calls := s.calls ++ [n] }

section
variable {n : Call} (opened : n.state = .opened) (fresh : ∀ x ∈ s.calls, x.tag ≠ n.tag)

include opened in
/-- A call in OPEN is not active and takes no berth. -/
theorem State.noOtherActive_adding (x : Call) : (s.adding n).noOtherActive x = s.noOtherActive x := by
  rw [Bool.eq_iff_iff, State.noOtherActive_iff, State.noOtherActive_iff]
  refine ⟨fun k d hd => k d (List.mem_append_left _ hd), fun k d hd berth active => ?_⟩
  rcases List.mem_append.1 hd with hd | hd
  · exact k d hd berth active
  · obtain rfl := List.mem_singleton.1 hd
    rw [opened] at active
    cases active

include opened in
theorem State.transitionOf_adding (x : Call) : (s.adding n).transitionOf x = s.transitionOf x := by
  have test : (s.adding n).heldTest x = s.heldTest x := by
    unfold State.heldTest
    rw [State.noOtherActive_adding opened]
    rfl
  unfold State.transitionOf
  rw [test]
  rfl

include opened in
theorem State.TableOk.adding (h : s.TableOk)
    (ranges : 1 ≤ n.tag ∧ n.tag ≤ 65535 ∧ 1 ≤ n.minLines ∧ n.minLines ≤ 8 ∧ 1 ≤ n.steadyNeed ∧ n.steadyNeed ≤ 255)
    (room : s.calls.length < Config.callsMax) (side : (s.callsOn n.berth).length < Config.callsPerBerth) :
    (s.adding n).TableOk := by
  have inactive : n.state.active = false := by rw [opened]; rfl
  have cases {d : Call} (hd : d ∈ (s.adding n).calls) : d ∈ s.calls ∨ d = n :=
    (List.mem_append.1 hd).imp_right List.mem_singleton.1
  refine ⟨fun d hd => ?_, ?_, fun berth hb => ?_, fun d hd e he => ?_, fun berth hb => ?_⟩
  · rcases cases hd with hd | rfl
    · exact h.ranges d hd
    · exact ranges
  · change (s.calls ++ [n]).length ≤ _
    rw [List.length_append]
    exact room
  · have old := h.sizeOnBerth berth hb
    change ((s.calls ++ [n]).filter _).length ≤ _
    rw [List.filter_append, List.length_append]
    by_cases e : n.berth = berth
    · subst e
      simpa [State.callsOn] using Nat.succ_le_of_lt side
    · simpa [State.callsOn, e] using old
  · rcases cases hd with hd | rfl <;> rcases cases he with he | rfl
    · exact h.oneActive d hd e he
    · intro _ _ k; rw [inactive] at k; cases k
    · intro _ k; rw [inactive] at k; cases k
    · intros; rfl
  · rw [show (s.adding n).permit berth = s.permit berth from by cases berth <;> rfl, h.permits berth hb]
    refine ⟨fun ⟨d, hd, k⟩ => ⟨d, List.mem_append_left _ hd, k⟩, fun ⟨d, hd, k⟩ => ?_⟩
    rcases cases hd with hd | rfl
    · exact ⟨d, hd, k⟩
    · rw [opened] at k; cases k.2

include fresh in
theorem State.ListsOk.adding (h : s.ListsOk) (empty : n.list = []) : (s.adding n).ListsOk := by
  refine ⟨?_, fun d hd => ?_, fun j r hr => ?_⟩
  · change ((s.calls ++ [n]).map Call.tag).Nodup
    rw [List.map_append, List.nodup_append]
    refine ⟨h.tagsDiffer, by simp, fun a ha b hb e => ?_⟩
    obtain ⟨x, hx, rfl⟩ := List.mem_map.1 ha
    obtain rfl := List.mem_singleton.1 hb
    exact fresh x hx e
  · rcases List.mem_append.1 hd with hd | hd
    · exact h.lists d hd
    · obtain rfl := List.mem_singleton.1 hd
      rw [empty]
      exact ⟨.nil, nofun⟩
  · obtain ⟨d, hd, k⟩ := h.records j r hr
    exact ⟨d, List.mem_append_left _ hd, k⟩

end

theorem State.Inv.openCall_stepped (h : s.Inv) (len : Byte) (tag : BitVec 16) (berth minLines steadyNeed : Byte)
    {t : State} (e : execOpenCall len tag berth minLines steadyNeed s = .next t) : State.Stepped c s t := by
  cases e
  refine h.unicast_stepped fun payload t running accepted => ?_
  obtain ⟨pass, accepted⟩ := checked_accepted accepted
  have positive := pass (_, .badWindow) (List.mem_of_getElem? (i := 0) rfl)
  have named := pass (_, .badWindow) (List.mem_of_getElem? (i := 1) rfl)
  have fresh := pass (_, .duplicateTag) (List.mem_of_getElem? (i := 2) rfl)
  have room := pass (_, .callFull) (List.mem_of_getElem? (i := 3) rfl)
  have side := pass (_, .callFull) (List.mem_of_getElem? (i := 4) rfl)
  cases code : berthOfCode berth with
  | none => rw [code] at named; cases named
  | some b =>
    rw [code] at accepted side
    cases accepted
    have fresh : ∀ x ∈ s.calls, x.tag ≠ tag.toNat := State.callOf_none.1 (by simpa using fresh)
    have lines := clamp_mem (by decide : 1 ≤ 8) minLines.toNat
    have need := clamp_mem (by decide : 1 ≤ 255) steadyNeed.toNat
    have width := tag.isLt
    rw [beq_eq_false_iff_ne] at positive
    rw [Option.any_some, decide_eq_false_iff_not, Nat.not_le] at side
    rw [decide_eq_false_iff_not, Nat.not_le] at room
    change State.Stepped c s (State.settleCalls s (s.adding (newCall tag.toNat b minLines.toNat steadyNeed.toNat))) ∧
      (State.settleCalls s (s.adding (newCall tag.toNat b minLines.toNat steadyNeed.toNat))).phase = .running
    generalize made : newCall tag.toNat b minLines.toNat steadyNeed.toNat = n
    have opened : n.state = .opened := by rw [← made]; rfl
    have fresh : ∀ x ∈ s.calls, x.tag ≠ n.tag := by rw [← made]; exact fresh
    have table : (s.adding n).TableOk := h.calls.tableOk.adding opened
      (by rw [← made]; exact ⟨Nat.pos_of_ne_zero positive, Nat.le_of_lt_succ width, lines.1, lines.2, need.1, need.2⟩) room (by rw [← made]; exact side)
    have lists : (s.adding n).ListsOk := h.calls.listsOk.adding fresh (by rw [← made]; rfl)
    have evaluated : State.Evaluating (s.adding n) (State.settleCalls s (s.adding n)) [] := by
      refine State.Evaluating.foldl _ ⟨table, lists, fun x hx k => ?_, fun x hx => ⟨x, hx, rfl, .inl rfl⟩⟩
      rw [State.transitionOf_adding opened]
      rcases List.mem_append.1 hx with old | new
      · exact h.calls.settled x old
      · refine absurd ?_ k
        obtain rfl := List.mem_singleton.1 new
        rw [List.append_nil]
        refine List.mem_map_of_mem (List.mem_filter.2 ⟨hx, ?_⟩)
        unfold State.evaluationDue
        rw [State.callOf_none.2 fresh]
    have only := State.settleCalls_only s (s.adding n)
    refine ⟨h.stepped_of_offTable running only.offTable evaluated.callsOk fun x hx y hy same => ?_,
      (congrArg State.phase only.offTable :).trans running⟩
    obtain ⟨d, hd, fixed, moved⟩ := evaluated.moved y hy
    simp only [Call.fixed, Prod.mk.injEq] at fixed
    obtain ⟨tag', berth, lines, need, -⟩ := fixed
    rcases List.mem_append.1 hd with old | new
    · obtain rfl := h.calls.listsOk.tag_inj hx old (same.trans tag'.symm)
      exact ⟨berth.symm, lines.symm, need.symm, moved.imp_right fun k => .inl k.1⟩
    · obtain rfl := List.mem_singleton.1 new
      exact absurd (same.trans tag'.symm) (fresh x hx)

/-! ### CLOSE-CALL and SINGLE-UP (R51, R57 to R59) -/

/-- The state without a call. -/
def State.removing (s : State) (x : Call) : State := { s with calls := s.calls.filter (fun d => d.tag != x.tag) }

theorem State.mem_removing {x d : Call} : d ∈ (s.removing x).calls ↔ d ∈ s.calls ∧ d.tag ≠ x.tag := by
  simp [State.removing, List.mem_filter]

/-- A call that is not active and has no line can go, and the others stand. -/
theorem State.CallsOk.removing (h : s.CallsOk) {x : Call} (hx : x ∈ s.calls) (inactive : x.state.active = false)
    (empty : x.list = []) : (s.removing x).CallsOk := by
  have own : ∀ e ∈ s.calls, e.tag = x.tag → e = x := fun e he tag => h.listsOk.tag_inj he hx tag
  have sub : (s.removing x).calls.Sublist s.calls := List.filter_sublist
  refine ⟨h.tagsDiffer.sublist (sub.map _), fun d hd => h.ranges d (State.mem_removing.1 hd).1,
    sub.length_le.trans h.size, fun berth hb => ((sub.filter _).length_le).trans (h.sizeOnBerth berth hb),
    fun d hd e he => h.oneActive d (State.mem_removing.1 hd).1 e (State.mem_removing.1 he).1, fun berth hb => ?_,
    fun d hd => h.lists d (State.mem_removing.1 hd).1, fun j r hr => ?_, fun d hd => ?_⟩
  · rw [show (s.removing x).permit berth = s.permit berth from by cases berth <;> rfl, h.permits berth hb]
    refine ⟨fun ⟨d, hd, k⟩ => ⟨d, State.mem_removing.2 ⟨hd, fun tag => ?_⟩, k⟩,
      fun ⟨d, hd, k⟩ => ⟨d, (State.mem_removing.1 hd).1, k⟩⟩
    rw [own d hd tag] at k
    rw [k.2] at inactive
    cases inactive
  · obtain ⟨d, hd, tag, mem⟩ := h.records j r hr
    refine ⟨d, State.mem_removing.2 ⟨hd, fun same => ?_⟩, tag, mem⟩
    rw [own d hd same, empty] at mem
    cases mem
  · have settled := h.settled d (State.mem_removing.1 hd).1
    have alone : (s.removing x).noOtherActive d = s.noOtherActive d := by
      rw [Bool.eq_iff_iff, State.noOtherActive_iff, State.noOtherActive_iff]
      refine ⟨fun k e he berth active => k e (State.mem_removing.2 ⟨he, fun same => ?_⟩) berth active,
        fun k e he => k e (State.mem_removing.1 he).1⟩
      rw [own e he same, inactive] at active
      cases active
    have test : (s.removing x).heldTest d = s.heldTest d := by
      unfold State.heldTest
      rw [alone]
      rfl
    unfold State.transitionOf at settled ⊢
    rw [test]
    exact settled

theorem State.Inv.closeCall_stepped (h : s.Inv) (len : Byte) (tag : BitVec 16) {t : State}
    (e : execCloseCall len tag s = .next t) : State.Stepped c s t := by
  cases e
  refine h.unicast_stepped fun payload t running accepted => ?_
  split at accepted
  · cases accepted
  · next x named =>
    obtain ⟨pass, accepted⟩ := checked_accepted accepted
    cases accepted
    have inactive := pass (_, .callState) (List.mem_of_getElem? (i := 0) rfl)
    have empty := pass (_, .callState) (List.mem_of_getElem? (i := 1) rfl)
    have mem := (State.callOf_some named).1
    refine ⟨h.stepped_of_offTable (t := s.removing x) running rfl
      (h.calls.removing mem inactive (by simpa using empty)) fun y hy z hz same => ?_, running⟩
    obtain rfl := h.calls.listsOk.tag_inj hy (State.mem_removing.1 hz).1 same
    exact ⟨rfl, rfl, rfl, .inl rfl⟩

/-- The evaluation that follows a SINGLE-UP. -/
theorem State.Inv.singled_evaluating (h : s.Inv) {x : Call} (mem : x ∈ s.calls)
    (alone : s.noOtherActive x = true) :
    State.Evaluating (s.callTo x .singling) ((s.callTo x .singling).evaluate x.tag) [] := by
  have table := h.calls.tableOk
  have lists := h.calls.listsOk
  refine State.Evaluating.evaluate ⟨table.callTo lists mem fun _ => alone, (s.callTo_only x .singling).listsOk lists,
    fun d hd k => ?_, fun d hd => ⟨d, hd, rfl, .inl rfl⟩⟩
  obtain ⟨e, he, rfl⟩ := State.mem_callTo.1 hd
  by_cases tag : e.tag = x.tag
  · rw [if_pos tag] at k
    exact absurd (List.mem_singleton.2 tag) k
  · rw [if_neg tag]
    exact table.settled_callTo lists mem (fun _ => alone) he tag (h.calls.settled e he) fun _ _ => .inl rfl

theorem State.Inv.singleUp_stepped (h : s.Inv) (len : Byte) (tag : BitVec 16) {t : State}
    (e : execSingleUp len tag s = .next t) : State.Stepped (.singleUp len tag) s t := by
  cases e
  refine h.unicast_stepped fun payload t running accepted => ?_
  split at accepted
  · cases accepted
  · next x named =>
    obtain ⟨pass, accepted⟩ := checked_accepted accepted
    cases accepted
    have state := pass (_, .callState) (List.mem_of_getElem? (i := 0) rfl)
    have blocked := pass (_, .callState) (List.mem_of_getElem? (i := 1) rfl)
    obtain ⟨mem, named⟩ := State.callOf_some named
    have alone : s.noOtherActive x = true := by
      cases active : x.state.active with
      | true => exact h.calls.tableOk.noOtherActive mem active
      | false => revert active state blocked; cases x.state <;> simp [CallState.active]
    have evaluated := h.singled_evaluating mem alone
    have only := (s.callTo_only x .singling).trans (State.evaluate_only _ x.tag)
    refine ⟨h.stepped_of_offTable running only.offTable evaluated.callsOk fun y hy z hz same => ?_,
      (congrArg State.phase only.offTable :).trans running⟩
    obtain ⟨d, hd, fixed, moved⟩ := evaluated.moved z hz
    simp only [Call.fixed, Prod.mk.injEq] at fixed
    obtain ⟨tag', berth, lines, need, -⟩ := fixed
    obtain ⟨e, he, rfl⟩ := State.mem_callTo.1 hd
    by_cases own : e.tag = x.tag
    · rw [if_pos own] at tag' berth lines need moved
      obtain rfl := h.calls.listsOk.tag_inj hy he (same.trans tag'.symm)
      obtain rfl := h.calls.listsOk.tag_inj he mem own
      refine ⟨berth.symm, lines.symm, need.symm, .inr (.inr ⟨⟨len, ?_⟩, ?_⟩)⟩
      · rw [named, BitVec.ofNat_toNat, BitVec.setWidth_eq]
      · simp only [Bool.or_eq_false_iff, beq_eq_false_iff_ne] at state
        refine ⟨state.1, state.2, ?_⟩
        rcases moved with k | ⟨k, -⟩
        · exact .inl k.symm
        · rcases k with ⟨k | k, -⟩ | ⟨k, -⟩ | ⟨-, k⟩
          · cases k
          · cases k
          · cases k
          · exact .inr k
    · rw [if_neg own] at tag' berth lines need moved
      obtain rfl := h.calls.listsOk.tag_inj hy he (same.trans tag'.symm)
      exact ⟨berth.symm, lines.symm, need.symm, moved.imp_right fun k => .inl k.1⟩

end Sys2Proof.Machine
end

