-- ==== Sys2Proof/Proofs/ValueSteps.lean ====
section
/-! PROOF. The steps of QUERY, of the commands of the calibration store and of the ALERT, and of the link's own events. -/

namespace Sys2Proof.Machine

variable {s t : State} {i : StationId} {c : Instr}

/-! ### QUERY (R24, R40) -/

/-- The station records with the attention reasons of some stations reset. -/
@[irreducible] def relievedStations (v : Vector Station 16) (l : List StationId) : Vector Station 16 :=
  .ofFn fun j => if j ∈ l then { v[j] with attention := .none } else v[j]

/-- The state with the attention reasons of some stations reset. -/
def State.relieved (s : State) (l : List StationId) : State := { s with stations := relievedStations s.stations l }

theorem State.relieved_station (l : List StationId) (j : StationId) : (s.relieved l).station j =
    if j ∈ l then { s.station j with attention := .none } else s.station j := by
  change (relievedStations s.stations l)[j] = _
  unfold relievedStations
  simp [State.station]

theorem State.relieved_eq {l : List StationId} {v : Vector Station 16}
    (h : ∀ j : StationId, v[j] = if j ∈ l then { s.station j with attention := .none } else s.station j) :
    s.relieved l = { s with stations := v } := by
  have : relievedStations s.stations l = v := Vector.ext fun k hk =>
    (State.relieved_station (s := s) l ⟨k, hk⟩).trans (h ⟨k, hk⟩).symm
  rw [State.relieved, this]

theorem State.relieved_nil : s.relieved [] = s :=
  State.relieved_eq (v := s.stations) fun j => by rw [if_neg List.not_mem_nil]; rfl

theorem State.relieved_relieved (l m : List StationId) : (s.relieved l).relieved m = s.relieved (l ++ m) := by
  refine (State.relieved_eq (s := s) (l := l ++ m) (v := ((s.relieved l).relieved m).stations) fun j => ?_).symm
  change ((s.relieved l).relieved m).station j = _
  simp only [State.relieved_station, List.mem_append]
  by_cases hl : j ∈ l <;> by_cases hm : j ∈ m <;> simp only [hl, hm, or_self, or_true, true_or, if_true, if_false]

/-- The state with some attention reasons reset and the ALERT state that follows them (R24, R177). -/
def State.attended (s : State) (l : List StationId) : State :=
  { s.relieved l with alert := if s.inForce.alertMode = .follow then (s.relieved l).followLevel else s.alert }

theorem State.attended_nil (h : s.AlertFits) : s.attended [] = s := by
  unfold State.attended
  rw [State.relieved_nil]
  split
  · next follow => rw [← h.follow follow]
  · rfl

theorem State.resetAttention_eq (h : s.AlertFits) (i : StationId) : s.resetAttention i = s.attended [i] := by
  have relieved : s.relieved [i] = s.onStation i (fun x => { x with attention := .none }) := by
    refine State.relieved_eq (v := (s.onStation i (fun x => { x with attention := .none })).stations) fun j => ?_
    change (s.onStation i (fun x => { x with attention := .none })).station j = _
    rw [State.station_onStation]
    by_cases e : j = i
    · rw [if_pos e, if_pos (List.mem_singleton.2 e), e]
    · rw [if_neg e, if_neg (fun k => e (List.mem_singleton.1 k))]
  unfold State.resetAttention
  split
  · next quiet =>
    have same : s.relieved [i] = s := by
      refine State.relieved_eq (v := s.stations) fun j => ?_
      split
      · next e => rw [List.mem_singleton.1 e, ← quiet]; rfl
      · rfl
    unfold State.attended
    rw [same]
    split
    · next follow => rw [← h.follow follow]
    · rfl
  · unfold State.attended
    rw [relieved]
    unfold State.reformFollow
    cases mode : s.inForce.alertMode <;> simp [mode] <;> rfl

theorem State.attended_alertFits (h : s.AlertFits) (l : List StationId) : (s.attended l).AlertFits := by
  refine ⟨fun follow => ?_, fun critical => ?_⟩
  · change s.inForce.alertMode = .follow at follow
    unfold State.attended
    rw [if_pos follow]
    rfl
  · change s.inForce.alertMode = .criticalOnly at critical
    unfold State.attended
    rw [critical, if_neg nofun]
    exact h.critical critical

theorem State.attended_attended (l m : List StationId) : (s.attended l).attended m = s.attended (l ++ m) := by
  unfold State.attended
  have same : ∀ a, ({ s.relieved l with alert := a } : State).relieved m =
      { s.relieved (l ++ m) with alert := a } := fun a => by rw [← State.relieved_relieved]; rfl
  rw [same]
  have mode : (s.relieved l).inForce.alertMode = s.inForce.alertMode := rfl
  by_cases follow : s.inForce.alertMode = .follow
  · simp only [mode, follow, if_true]
    rfl
  · simp only [mode, follow, if_false]

theorem State.foldl_resetAttention (h : s.AlertFits) (l : List StationId) :
    l.foldl State.resetAttention s = s.attended l := by
  induction l generalizing s with
  | nil => exact (State.attended_nil h).symm
  | cons i l ih =>
    rw [List.foldl_cons, State.resetAttention_eq h, ih (State.attended_alertFits h [i]), State.attended_attended]
    rfl

/-- The reset of attention reasons keeps the invariant: it leaves all else of the stations. -/
theorem State.Inv.attended (h : s.Inv) (running : s.phase = .running) (l : List StationId) : (s.attended l).Inv := by
  have whole := h.whole
  have x : ∀ j, (s.attended l).station j = { s.station j with attention := ((s.attended l).station j).attention } := by
    intro j
    change (s.relieved l).station j = { s.station j with attention := ((s.relieved l).station j).attention }
    rw [State.relieved_station]
    split <;> rfl
  have alert := State.attended_alertFits whole.sound.alert l
  have only : s.attended l = { s with stations := (s.attended l).stations, alert := (s.attended l).alert } := rfl
  generalize s.attended l = t at *
  have mooring : ∀ j, t.mooring j = s.mooring j := fun j => by rw [only]; rfl
  have channel : ∀ j, t.channel j = s.channel j := fun j => by rw [only]; rfl
  have fit : ∀ j, (t.site j).Fit ∧ (t.site j).Held := by
    intro j
    have v : (t.site j).v = (s.site j).v := by
      change (t.station j).unit.map t.unit = (s.station j).unit.map s.unit
      rw [x]
      rw [only]
      rfl
    have qs : (t.site j).qs = (s.site j).qs := by
      change t.queue.filter _ = s.queue.filter _
      rw [only]
    have hx : (t.site j).x = { (s.site j).x with attention := (t.station j).attention } := x j
    refine ⟨(whole.fit j).congr ?_ ?_ ?_ ?_ ?_ ?_ ?_ ?_ qs v (channel j) (mooring j) ?_,
      (whole.held j).congr ?_ qs ?_⟩
    · rw [hx]
    · rw [hx]
    · rw [hx]
    · rw [hx]; rfl
    · rw [hx]
    · rw [hx]
    · rw [hx]
    · rw [hx]
    · change (t.calibration j).decimation = _
      rw [only]
      rfl
    · change t.hold = _
      rw [only]
      rfl
    · rw [hx]
  have sound : t.Sound := whole.sound.of_stations alert (fun j => by rw [x]) (by rw [only]) (by rw [only]) (by rw [only])
    (by rw [only])
  refine State.Whole.inv ⟨sound, fun j => (fit j).1, fun j => (fit j).2⟩
    (h.calls.congr (by rw [only]) (by rw [only]) (by rw [only]) mooring (fun j => ?_) fun n j => ?_) ?_
    (State.restOk_of_running (by rw [only]; exact running)) ?_
  · unfold State.holding
    rw [mooring, x]
  · unfold State.steadyFor
    rw [mooring, channel, x]
  · rw [only]
    exact h.grants
  · rw [only]
    exact h.stored

theorem State.Inv.query_stepped (h : s.Inv) (len station count : Byte) {t : State}
    (e : execQuery len station count s = .next t) : State.Stepped c s t := by
  cases e
  refine h.unicast_stepped fun payload t running accepted => ?_
  obtain ⟨i, -, -, accepted⟩ := withStation_accepted accepted
  cases accepted
  rw [State.foldl_resetAttention h.alertFits]
  refine ⟨⟨h.attended running _, fun j => .inl ?_, fun x hx y hy tag => ?_⟩, running⟩
  · have : ((s.attended (walk i count.toNat)).station j).state = (s.station j).state := by
      change ((s.relieved _).station j).state = _
      rw [State.relieved_station]
      split <;> rfl
    rw [this]
    exact LineState.goes_refl _
  · obtain rfl := h.calls.listsOk.tag_inj hx hy tag
    exact ⟨rfl, rfl, rfl, .inl rfl⟩

/-! ### Stored values and ALERT (R160 to R168, R178, R179) -/

/-- New values in force and in the store, no decimation among them, and an ALERT state that fits them. -/
theorem State.Inv.of_values (h : s.Inv) (running : s.phase = .running) {g store : Groups} {w : Option GroupWrite}
    {a : Bool} (decimation : ∀ i : StationId, g.calibrations[i].decimation = (s.calibration i).decimation)
    (alert : State.AlertFits { s with inForce := g, store := store, write := w, alert := a })
    (stored : State.StoredOk { s with inForce := g, store := store, write := w, alert := a }) :
    State.Inv { s with inForce := g, store := store, write := w, alert := a } where
  calls := { h.calls with }
  records := { h.records with }
  work := { h.work with }
  queue := h.queue
  units := h.units
  grants := h.grants
  gear := { h.gear with }
  drive := { h.drive with }
  channels := { h.channels with
    inRange := fun j => by
      have := h.channels.inRange j
      rw [← decimation] at this
      exact this }
  rest := State.restOk_of_running running
  alerts _ := ⟨alert.follow, alert.critical⟩
  stored := stored

theorem State.Inv.lockQuarter_stepped (h : s.Inv) (len quarter : Byte) {t : State}
    (e : execLockQuarter len quarter s = .next t) : State.Stepped c s t := by
  cases e
  refine h.unicast_stepped fun payload t running accepted => ?_
  split at accepted
  · cases accepted
  · obtain ⟨-, accepted⟩ := checked_accepted accepted
    cases accepted
    split
    · exact ⟨.refl h, running⟩
    · exact ⟨.of_stands (h.of_values running (fun _ => rfl) ⟨h.alertFits.follow, h.alertFits.critical⟩
        ⟨h.stored.1, h.stored.2.1, fun w hw => by cases hw; trivial⟩) h.calls.listsOk rfl rfl, running⟩

theorem State.Inv.unlockAll_stepped (h : s.Inv) (len : Byte) {t : State}
    (e : execUnlockAll len s = .next t) : State.Stepped c s t := by
  cases e
  refine h.unicast_stepped fun payload t running accepted => ?_
  obtain ⟨-, accepted⟩ := checked_accepted accepted
  cases accepted
  split
  · exact ⟨.refl h, running⟩
  · exact ⟨.of_stands (h.of_values running (fun _ => rfl) ⟨h.alertFits.follow, h.alertFits.critical⟩
      ⟨h.stored.1, h.stored.2.1, fun w hw => by cases hw; trivial⟩) h.calls.listsOk rfl rfl, running⟩

/-- The settings of SET-LIMITS lie in their ranges (R164, R167). -/
theorem settingsFrom_inRange (f : LimitFields) : (settingsFrom f).inRange := by
  have stow := clamp_mem (by decide : 5 ≤ 100) f.stowTolerance.toNat
  have takeOver := clamp_mem (by decide : 10 ≤ 600) f.takeOverLimit.toNat
  have ready := clamp_mem (by decide : 100 ≤ 10000) f.readyLimit.toNat
  have motion := clamp_mem (by decide : 5 ≤ 120) f.motionLimit.toNat
  have rewind := clamp_mem (by decide : 30 ≤ 900) f.rewindLimit.toNat
  have gear := clamp_mem (by decide : 200 ≤ 3000) f.gearLimit.toNat
  have snag := clamp_mem (by decide : 50 ≤ 2000) f.snagLimit.toNat
  exact ⟨stow.1, stow.2, takeOver.1, takeOver.2, ready.1, ready.2, motion.1, motion.2, rewind.1, rewind.2, gear.1,
    gear.2, snag.1, snag.2⟩

/-- The calibration of CALIBRATE-STATION lies in its ranges (R164, R166). -/
theorem calibrationFrom_inRange (f : CalibrationFields) : (calibrationFrom f).inRange := by
  have decimation := clamp_mem (by decide : 4 ≤ 64) f.decimation.toNat
  have counts := clamp_mem (by decide : 100 ≤ 4000) f.countsPerMetre.toNat
  have pmax := clamp_mem (by decide : 500 ≤ 12000) f.maxPayout.toNat
  have pmin := clamp_mem (by decide : 50 ≤ 2000) f.minLength.toNat
  have zero := f.zero.isLt
  have scale := f.scale.isLt
  have stow := f.stowPosition.isLt
  unfold Calibration.inRange calibrationFrom
  dsimp only
  generalize clamp 500 12000 f.maxPayout.toNat = top at *
  generalize clamp 50 2000 f.minLength.toNat = low at *
  refine ⟨by omega, by omega, decimation.1, decimation.2, counts.1, counts.2, by omega, pmax.1, pmax.2, ?_, ?_, ?_⟩ <;>
    split <;> omega

theorem State.Inv.setLimits_stepped (h : s.Inv) (len : Byte) (f : LimitFields) {t : State}
    (e : execSetLimits len f s = .next t) : State.Stepped c s t := by
  cases e
  refine h.unicast_stepped fun payload t running accepted => ?_
  obtain ⟨-, accepted⟩ := checked_accepted accepted
  cases accepted
  exact ⟨.of_stands (h.of_values running (fun _ => rfl) ⟨h.alertFits.follow, h.alertFits.critical⟩
    ⟨⟨h.stored.1.1, settingsFrom_inRange f⟩, h.stored.2.1, fun w hw => by cases hw; exact settingsFrom_inRange f⟩)
    h.calls.listsOk rfl rfl, running⟩

/-- The ALERT state formed anew is the level of the mode's sources, and the standing level in LATCHED mode. -/
theorem State.reformAlert_eq (s : State) : s.reformAlert = { s with
    alert := match s.inForce.alertMode with
      | .latched => s.alert
      | .follow => s.followLevel
      | .criticalOnly => s.criticalLevel } := by
  unfold State.reformAlert State.reformCritical State.reformFollow
  cases mode : s.inForce.alertMode <;> simp [mode]

theorem State.Inv.setAlertMode_stepped (h : s.Inv) (len mode polarity : Byte) {t : State}
    (e : execSetAlertMode len mode polarity s = .next t) : State.Stepped c s t := by
  cases e
  refine h.unicast_stepped fun payload t running accepted => ?_
  split at accepted
  · next m p _ _ =>
    obtain ⟨-, accepted⟩ := checked_accepted accepted
    cases accepted
    rw [State.reformAlert_eq]
    refine ⟨.of_stands (h.of_values running (fun _ => rfl) ⟨fun k => ?_, fun k => ?_⟩
      ⟨h.stored.1, h.stored.2.1, fun w hw => by cases hw; trivial⟩) h.calls.listsOk rfl rfl, running⟩
    · change m = .follow at k
      subst k
      rfl
    · change m = .criticalOnly at k
      subst k
      rfl
  · cases accepted

theorem State.Inv.clearAlert_stepped (h : s.Inv) (len : Byte) {t : State}
    (e : execClearAlert len s = .next t) : State.Stepped c s t := by
  cases e
  refine h.unicast_stepped fun payload t running accepted => ?_
  cases accepted
  split
  · next latched =>
    exact ⟨.of_stands (h.of_values running (fun _ => rfl)
      ⟨fun k => absurd (latched.symm.trans k) nofun, fun k => absurd (latched.symm.trans k) nofun⟩ h.stored) h.calls.listsOk rfl rfl,
      running⟩
  · exact ⟨.refl h, running⟩

theorem Groups.written_inRange {g : Groups} {w : GroupWrite} (h : g.inRange) (hw : w.inRange) : (g.written w).inRange := by
  cases w with
  | locks values => exact h
  | station i values =>
    refine ⟨fun j => ?_, h.2⟩
    change (g.calibrations.set i.val values i.isLt)[j].inRange
    rw [Fin.getElem_fin, Vector.getElem_set]
    split
    · exact hw
    · exact h.1 j
  | settings values => exact ⟨h.1, hw⟩
  | alert mode polarity => exact h

theorem State.Inv.storeWrite_stepped (h : s.Inv) {t : State} (e : execStoreWriteComplete s = .next t) :
    State.Stepped c s t := by
  cases e
  split
  · exact .refl h
  · next w written =>
    have running : s.phase = .running := by
      by_contra idle
      have := (h.rest.flags idle).2.2.2.1
      rw [written] at this
      cases this
    exact .of_stands (h.of_values running (fun _ => rfl) ⟨h.alertFits.follow, h.alertFits.critical⟩
      ⟨h.stored.1, Groups.written_inRange h.stored.2.1 (h.stored.2.2 w written), nofun⟩) h.calls.listsOk rfl rfl

end Sys2Proof.Machine
end

