-- ==== Sys2Proof/Proofs/PartSteps.lean ====
section
/-! PROOF. The steps that reach every station: CALIBRATE-STATION's own group, the hold, the resets and the completion of
the store read. -/

namespace Sys2Proof.Machine

variable {s t : State} {i : StationId} {c : Instr}

/-! ### CALIBRATE-STATION (R10, R75, R166) -/

/-- A channel in its ranges stays there where D changes: its sum starts afresh (R75). -/
theorem Channel.Watched.recalibrated {x : Channel} {state : LineState} {r : Option Mooring} {old new : Nat}
    (h : x.Watched state r old) (pos : 0 < new) : Channel.Watched { x with sum := 0, count := 0 } state r new := by
  obtain ⟨⟨-, -, latest, length, window, entries, slack, surging, crit, steady, rail, valid⟩, noRecord, empty, lengthOk,
    steadyOk⟩ := h
  exact ⟨⟨Nat.zero_le _, pos, latest, length, window, entries, slack, surging, crit, steady, rail, valid⟩, noRecord, empty,
    lengthOk, steadyOk⟩

/-- The state with one station's calibration in force replaced, its sum cleared where D changes. -/
def State.recalibrated (s : State) (i : StationId) (cal : Calibration) : State :=
  let t := { s with inForce := { s.inForce with calibrations := s.inForce.calibrations.set i.val cal i.isLt } }
  if (s.calibration i).decimation = cal.decimation then t
  else t.onChannel i (fun c => { c with sum := 0, count := 0 })

theorem State.calibrated_eq (cal : Calibration) : s.calibrated i cal = (s.recalibrated i cal).updateLength i := rfl

/-- What the replacement of a calibration leaves alone. -/
theorem State.recalibrated_only (cal : Calibration) : s.recalibrated i cal = { s with
    inForce := { s.inForce with calibrations := s.inForce.calibrations.set i.val cal i.isLt }
    channels := (s.recalibrated i cal).channels } := by
  unfold State.recalibrated
  dsimp only
  split <;> rfl

theorem State.recalibrated_channel (cal : Calibration) (j : StationId) : (s.recalibrated i cal).channel j =
    if j = i ∧ (s.calibration i).decimation ≠ cal.decimation then { s.channel i with sum := 0, count := 0 }
    else s.channel j := by
  unfold State.recalibrated
  dsimp only
  split
  · next e => rw [if_neg (fun k => k.2 e)]; rfl
  · next e =>
    rw [State.channel_onChannel]
    by_cases ij : j = i
    · rw [if_pos ij, if_pos ⟨ij, e⟩]; rfl
    · rw [if_neg ij, if_neg (fun k => ij k.1)]; rfl

theorem State.recalibrated_calibration (cal : Calibration) (j : StationId) : (s.recalibrated i cal).calibration j =
    if j = i then cal else s.calibration j := by
  rw [State.recalibrated_only]
  change (s.inForce.calibrations.set i.val cal i.isLt)[j] = _
  rw [Fin.getElem_fin, Vector.getElem_set]
  simp only [Fin.val_inj, eq_comm (a := i)]
  rfl

theorem State.Whole.recalibrated (h : s.Whole) {cal : Calibration} (pos : 0 < cal.decimation) :
    (s.recalibrated i cal).Whole := by
  have channel := State.recalibrated_channel (s := s) (i := i) cal
  have calibration := State.recalibrated_calibration (s := s) (i := i) cal
  have only := State.recalibrated_only (s := s) (i := i) cal
  generalize s.recalibrated i cal = t at *
  have crit : ∀ j, (t.channel j).critCondition = (s.channel j).critCondition := fun j => by
    rw [channel]
    split
    · next e => rw [e.1]
    · rfl
  have alert : t.AlertFits := h.sound.alert.congr (by rw [only]) (by rw [only])
    (State.followLevel_congr (fun j => by rw [only]; rfl) fun u => by rw [only]; rfl) (State.criticalLevel_congr crit)
  refine ⟨h.sound.of_stations alert (fun j => by rw [only]; rfl) (by rw [only]) (by rw [only]) (by rw [only])
    (by rw [only]), fun j => ?_, fun j => ?_⟩
  · have fit := h.fit j
    have x : (t.site j).x = (s.site j).x := by rw [only]; rfl
    have r : (t.site j).r = (s.site j).r := by rw [only]; rfl
    have qs : (t.site j).qs = (s.site j).qs := by rw [only]; rfl
    have v : (t.site j).v = (s.site j).v := by rw [only]; rfl
    refine ⟨by rw [x, r]; exact fit.recorded, fit.doing.congr (by rw [x]) (by rw [x]) (by rw [x]) (by rw [x]) (by rw [x])
      (by rw [x]) qs v, by rw [x]; exact fit.geared, ?_⟩
    rw [x, r]
    change (t.channel j).Watched _ _ (t.calibration j).decimation
    rw [channel, calibration]
    by_cases e : j = i
    · subst e
      rw [if_pos rfl]
      split
      · exact fit.watched.recalibrated pos
      · next same =>
        rw [← not_not.1 (fun k => same ⟨rfl, k⟩)]
        exact fit.watched
    · rw [if_neg (fun k => e k.1), if_neg e]
      exact fit.watched
  · exact (h.held j).congr (by rw [only]; rfl) (by rw [only]; rfl) (by rw [only]; rfl)

/-- The length is worked out at its station and in its ALERT source alone (R8, R9). -/
theorem State.updateLength_only (s : State) (i : StationId) :
    s.updateLength i = { s with stations := (s.updateLength i).stations, alert := (s.updateLength i).alert } := by
  unfold State.updateLength
  split
  · rfl
  · dsimp only
    split
    · unfold State.raise
      split
      · rw [State.assertAlert_eq]; rfl
      · rfl
    · rfl

theorem State.updateLength_keeps (s : State) (i j : StationId) : ∃ l b a, (s.updateLength i).station j =
    { s.station j with length := l, beyondPmax := b, attention := a } := by
  by_cases e : j = i
  · subst e
    cases position : (s.station j).position with
    | none =>
      have stands : s.updateLength j = s := by unfold State.updateLength; rw [position]
      exact ⟨_, _, _, by rw [stands]⟩
    | some count =>
      rw [State.updateLength_station s j position, Station.measured_fields, ← position]
      exact ⟨_, _, _, rfl⟩
  · exact ⟨_, _, _, by rw [(s.updateLength_local i).station j e]⟩

/-- A new calibration of a station keeps the invariant, its write begun. -/
theorem State.Inv.calibrated_stepped (h : s.Inv) (running : s.phase = .running) {cal : Calibration} (hcal : cal.inRange) :
    State.Stepped c s { s.calibrated i cal with write := some (.station i cal) } := by
  have whole := h.whole
  have ready := whole.recalibrated (i := i) (cal := cal) (Nat.lt_of_lt_of_le (by decide) hcal.2.2.1)
  have channel := State.recalibrated_channel (s := s) (i := i) cal
  have only := State.recalibrated_only (s := s) (i := i) cal
  rw [State.calibrated_eq]
  generalize s.recalibrated i cal = r at *
  have acts := r.updateLength_acts i
  have fit := State.updateLength_fit (ready.fit i)
  have keeps := r.updateLength_keeps i
  have only' := r.updateLength_only i
  have measured : (r.updateLength i).Whole := by
    refine ⟨acts.sound ready.sound, fun j => ?_, fun j => ?_⟩ <;> by_cases e : j = i
    · exact e ▸ fit.1
    · exact (acts.site_of_ne ready.sound e).fit (ready.fit j)
    · exact e ▸ fit.2.2.2 (ready.held i)
    · exact (acts.site_of_ne ready.sound e).held (ready.held j)
  generalize r.updateLength i = t at *
  have station : ∀ j, ∃ l b a, t.station j = { s.station j with length := l, beyondPmax := b, attention := a } := by
    intro j
    obtain ⟨l, b, a, e⟩ := keeps j
    refine ⟨l, b, a, e.trans ?_⟩
    rw [only]
    rfl
  have steady : ∀ j, (t.channel j).steady = (s.channel j).steady := by
    intro j
    rw [show t.channel j = r.channel j from by rw [only']; rfl, channel]
    split
    · next k => rw [k.1]
    · rfl
  have mooring : ∀ j, t.mooring j = s.mooring j := fun j => by rw [only', only]; rfl
  have inForce : t.inForce = { s.inForce with calibrations := s.inForce.calibrations.set i.val cal i.isLt } := by
    rw [only', only]
  have calls : t.calls = s.calls := by rw [only', only]
  have stored : State.StoredOk { t with write := some (.station i cal) } := by
    refine ⟨?_, ?_, fun w hw => by cases hw; exact hcal⟩
    · change t.inForce.inRange
      rw [inForce]
      exact Groups.written_inRange (w := .station i cal) h.stored.1 hcal
    · change t.store.inRange
      rw [only', only]
      exact h.stored.2.1
  have inv : t.Inv := by
    refine measured.inv (h.calls.congr calls (by rw [only', only]) (by rw [only', only]) mooring (fun j => ?_) fun n j => ?_)
      ?_ (State.restOk_of_running (by rw [only', only]; exact running)) ⟨stored.1, stored.2.1, ?_⟩
    · obtain ⟨l, b, a, e⟩ := station j
      unfold State.holding
      rw [mooring, e]
    · obtain ⟨l, b, a, e⟩ := station j
      unfold State.steadyFor
      rw [mooring, e, steady]
    · rw [only', only]
      exact h.grants
    · rw [only', only]
      exact h.stored.2.2
  refine ⟨inv.of_values (by rw [only', only]; exact running) (fun _ => rfl) ⟨inv.alertFits.follow, inv.alertFits.critical⟩
    stored, fun j => .inl ?_, fun x hx y hy tag => ?_⟩
  · obtain ⟨l, b, a, e⟩ := station j
    change (s.station j).state.goes (t.station j).state = true
    rw [e]
    exact LineState.goes_refl _
  · obtain rfl := h.calls.listsOk.tag_inj hx (calls ▸ hy) tag
    exact ⟨rfl, rfl, rfl, .inl rfl⟩

theorem State.Inv.calibrateStation_stepped (h : s.Inv) (len station : Byte) (f : CalibrationFields) {t : State}
    (e : execCalibrateStation len station f s = .next t) : State.Stepped c s t := by
  cases e
  refine h.unicast_stepped fun payload t running accepted => ?_
  obtain ⟨i, -, -, accepted⟩ := withStation_accepted accepted
  obtain ⟨-, accepted⟩ := checked_accepted accepted
  cases accepted
  refine ⟨h.calibrated_stepped running (calibrationFrom_inRange f), ?_⟩
  change (s.calibrated i (calibrationFrom f)).phase = .running
  rw [State.calibrated_eq, State.updateLength_only, State.recalibrated_only]
  exact running

/-! ### The hold (R145 to R150) -/

theorem State.phase_of_backdrop (h : t.backdrop = s.backdrop) : t.phase = s.phase := (congrArg State.phase h :)

/-- A change of the hold's level, and the acts at each station that follow it. -/
theorem State.Inv.hold_stepped (h : s.Inv) (running : s.phase = .running) {f : State → StationId → State}
    (acts : ∀ s i, State.Acts i s (f s i)) (level : Bool)
    (after : ∀ (m : State) (i : StationId), (m.site i).Fit → (m.site i).hold = level →
      ((f m i).site i).After (m.site i).x.state) :
    State.Stepped c s (State.settle s (allStations.foldl f { s with hold := level })) := by
  have sound : State.Sound { s with hold := level } :=
    h.whole.sound.of_stations ⟨h.alertFits.follow, h.alertFits.critical⟩ (fun _ => rfl) rfl rfl rfl rfl
  obtain ⟨sound, table, backdrop, -, sites⟩ :=
    State.foldl_acts acts allStations allStations_nodup { s with hold := level } sound
  refine State.settle_stepped h ((State.phase_of_backdrop backdrop).trans running) sound
    ⟨table.calls, table.permitA, table.permitB⟩ (State.StoredOk.of_backdrop (s := { s with hold := level }) h.stored backdrop) fun j => ?_
  obtain ⟨m, start, done⟩ := sites j (mem_allStations j)
  have fit : (State.site { s with hold := level } j).Fit :=
    (h.fit j).congr rfl rfl rfl rfl rfl rfl rfl rfl rfl rfl rfl rfl rfl
  have := after m j (start.fit fit) start.hold
  rw [start.x] at this
  exact done.after this

theorem State.Inv.setHold_stepped (h : s.Inv) (running : s.phase = .running) : State.Stepped c s s.setHold := by
  unfold State.setHold
  split
  · exact .refl h
  · exact h.hold_stepped running (fun s i => s.holdStation_acts i) true fun m i fit _ => State.holdStation_after fit

theorem State.Inv.clearHold_stepped (h : s.Inv) (running : s.phase = .running) : State.Stepped c s s.clearHold := by
  unfold State.clearHold
  split
  · exact h.hold_stepped running (fun s i => s.resumeStation_acts i) false
      fun m i fit free => State.resumeStation_after fit free
  · exact .refl h

theorem State.foldl_backdrop {f : State → StationId → State} (acts : ∀ s i, State.Acts i s (f s i)) (l : List StationId)
    (s : State) : (l.foldl f s).backdrop = s.backdrop := by
  induction l generalizing s with
  | nil => rfl
  | cons i l ih => exact (ih _).trans (acts s i).local.backdrop

theorem State.setHold_phase : s.setHold.phase = s.phase := by
  unfold State.setHold
  split
  · rfl
  · rw [State.settle_phase]
    exact (State.phase_of_backdrop (State.foldl_backdrop (fun s i => s.holdStation_acts i) allStations
      { s with hold := true })).trans rfl

theorem State.clearHold_phase : s.clearHold.phase = s.phase := by
  unfold State.clearHold
  split
  · rw [State.settle_phase]
    exact (State.phase_of_backdrop (State.foldl_backdrop (fun s i => s.resumeStation_acts i) allStations
      { s with hold := false })).trans rfl
  · rfl

theorem State.Inv.holdAll_stepped (h : s.Inv) (broadcast : Bool) (len : Byte) {t : State}
    (e : execHoldAll broadcast len s = .next t) : State.Stepped c s t := by
  cases e
  split
  · split
    · next taken => exact h.setHold_stepped (State.takesFrames_running taken.1)
    · exact .refl h
  · refine h.unicast_stepped fun payload t running accepted => ?_
    cases accepted
    exact ⟨h.setHold_stepped running, State.setHold_phase.trans running⟩

theorem State.Inv.resumeAll_stepped (h : s.Inv) (broadcast : Bool) (len : Byte) {t : State}
    (e : execResumeAll broadcast len s = .next t) : State.Stepped c s t := by
  cases e
  split
  · split
    · next taken => exact h.clearHold_stepped (State.takesFrames_running taken.1)
    · exact .refl h
  · refine h.unicast_stepped fun payload t running accepted => ?_
    obtain ⟨-, accepted⟩ := checked_accepted accepted
    cases accepted
    exact ⟨h.clearHold_stepped running, State.clearHold_phase.trans running⟩

theorem State.Inv.holdInput_stepped (h : s.Inv) {t : State} (e : execHoldInputAsserted s = .next t) :
    State.Stepped c s t := by
  cases e
  split
  · next running =>
    exact ((h.inputs _).setHold_stepped running).of_start rfl
  · exact h.inputs_stepped _

/-! ### Resets (R181) -/

theorem Calibration.factory_inRange : Calibration.factory.inRange := by
  unfold Calibration.inRange
  decide

theorem Groups.factory_inRange : Groups.factory.inRange := by
  refine ⟨fun i => ?_, ?_⟩
  · simp only [Groups.factory, Fin.getElem_fin, Vector.getElem_replicate]
    exact Calibration.factory_inRange
  · unfold Settings.inRange
    decide

section
variable (phase : Phase) (clutches : Vector (Option ClutchPos) 16) (store : Groups) (inputs : Inputs)
  (pending : List Instr)

theorem State.afterReset_station (i : StationId) :
    (State.afterReset phase clutches store inputs pending).station i = .afterReset clutches[i] := by
  simp [State.afterReset, State.station]

theorem State.afterReset_channel (i : StationId) :
    (State.afterReset phase clutches store inputs pending).channel i = .afterReset := by
  simp [State.afterReset, State.channel]

theorem State.afterReset_mooring (i : StationId) :
    (State.afterReset phase clutches store inputs pending).mooring i = none := by
  simp [State.afterReset, State.mooring]

theorem State.afterReset_unit (u : UnitId) :
    (State.afterReset phase clutches store inputs pending).unit u = .unserved .idle := by
  simp [State.afterReset, State.unit]

theorem State.afterReset_calibration (i : StationId) :
    (State.afterReset phase clutches store inputs pending).calibration i = .factory := by
  simp [State.afterReset, State.calibration, Groups.factory]

/-- A reset meets the invariant: everything volatile stands at its reset value (R181). -/
theorem State.afterReset_inv (h : store.inRange) : (State.afterReset phase clutches store inputs pending).Inv := by
  have station := State.afterReset_station phase clutches store inputs pending
  have channel := State.afterReset_channel phase clutches store inputs pending
  have mooring := State.afterReset_mooring phase clutches store inputs pending
  have unit := State.afterReset_unit phase clutches store inputs pending
  have calibration := State.afterReset_calibration phase clutches store inputs pending
  have calls : (State.afterReset phase clutches store inputs pending).calls = [] := rfl
  have queue : (State.afterReset phase clutches store inputs pending).queue = [] := rfl
  have mode : (State.afterReset phase clutches store inputs pending).inForce.alertMode = .latched := rfl
  have flags : (State.afterReset phase clutches store inputs pending).hold = false ∧
      (State.afterReset phase clutches store inputs pending).alert = false ∧
      (State.afterReset phase clutches store inputs pending).latch = none ∧
      (State.afterReset phase clutches store inputs pending).write = none ∧
      (State.afterReset phase clutches store inputs pending).tx = none ∧
      (State.afterReset phase clutches store inputs pending).restartPending = false := ⟨rfl, rfl, rfl, rfl, rfl, rfl⟩
  have permits : ∀ b, (State.afterReset phase clutches store inputs pending).permit b = false := by
    intro b; cases b <;> rfl
  have permitA : (State.afterReset phase clutches store inputs pending).permitA = false := rfl
  have permitB : (State.afterReset phase clutches store inputs pending).permitB = false := rfl
  have stored : (State.afterReset phase clutches store inputs pending).StoredOk :=
    ⟨Groups.factory_inRange, h, nofun⟩
  generalize State.afterReset phase clutches store inputs pending = t at *
  obtain ⟨hold, alert, latch, write, tx, restart⟩ := flags
  have sound : t.Sound := by
    refine ⟨fun i u => ?_, fun u => ?_, fun u _ => ?_, ?_, ⟨fun k => ?_, fun k => ?_⟩, ?_, ?_, fun i r hr => ?_⟩
    · rw [station, unit]
      exact iff_of_false nofun nofun
    · rw [unit]
      exact ⟨rfl, rfl, rfl, rfl⟩
    · rw [unit]
      rfl
    · rw [State.QueueOk, queue]
      exact .nil
    · rw [mode] at k
      cases k
    · rw [mode] at k
      cases k
    · rw [calls]
      exact .nil
    · rw [calls]
      exact nofun
    · rw [mooring] at hr
      cases hr
  have fit : ∀ i, (t.site i).Fit := by
    intro i
    have x : (t.site i).x = .afterReset clutches[i] := station i
    have r : (t.site i).r = none := mooring i
    have qs : (t.site i).qs = [] := by
      change t.queue.filter _ = []
      rw [queue]
      rfl
    have v : (t.site i).v = none := by
      change (t.site i).x.unit.map t.unit = none
      rw [x]
      rfl
    refine ⟨?_, .free qs v ?_ ?_ ?_ ?_ ?_ ?_, ?_, ?_⟩
    · rw [x, r]
      exact .of_plain nofun rfl rfl nofun nofun nofun fun _ => rfl
    all_goals rw [x]
    · rfl
    · rfl
    · rfl
    · rfl
    · rfl
    · exact nofun
    · exact ⟨fun k => absurd rfl k, nofun, fun _ k => Bool.noConfusion k, fun _ => rfl, fun _ => rfl⟩
    · rw [r]
      change (t.channel i).Watched _ _ (t.calibration i).decimation
      rw [channel, calibration]
      exact ⟨⟨by decide, by decide, nofun, by decide, nofun, by decide, by decide, rfl, by decide, by decide, by decide,
        by decide⟩, fun _ => ⟨rfl, rfl⟩, .inr (.inr ⟨rfl, rfl, rfl⟩), nofun, fun k => absurd rfl k⟩
  refine State.Whole.inv ⟨sound, fit, fun i => Site.held_of_free hold⟩ ?_ (fun _ k => absurd queue k)
    ⟨fun _ i => ?_, fun _ => channel, fun _ => mooring, fun _ => unit, fun _ => ⟨calls, queue, permitA, permitB⟩,
      fun _ => ⟨hold, alert, latch, write, tx, restart⟩⟩ stored
  · refine State.TableOk.callsOk ⟨?_, ?_, fun b _ => ?_, ?_, fun b _ => ?_⟩ sound.lists ?_
    · rw [calls]; exact nofun
    · rw [calls]; exact Nat.zero_le _
    · rw [State.callsOn, calls]; exact Nat.zero_le _
    · rw [calls]; exact nofun
    · rw [permits, calls]
      exact iff_of_false nofun fun ⟨_, k, _⟩ => nomatch k
    · rw [calls]; exact nofun
  · rw [station]
    rfl

end

/-- A reset as a step: every station goes to UNKNOWN, and no call is left (R181; log 5). -/
theorem State.Inv.reset_stepped (h : s.Inv) (phase : Phase) (clutches : Vector (Option ClutchPos) 16)
    (command : c = .powerLoss ∨ c = .powerOn ∨ c = .restartBegin) :
    State.Stepped c s (.afterReset phase clutches s.store s.inputs s.pending) where
  inv := State.afterReset_inv phase clutches s.store s.inputs s.pending h.stored.2.1
  stations i := .inr ⟨by rw [State.afterReset_station]; rfl, command⟩
  calls _ _ y hy := nomatch hy

theorem State.Inv.restartBegin_stepped (h : s.Inv) {t : State} (e : execRestartBegin s = .next t) :
    State.Stepped .restartBegin s t := by
  cases e
  split
  · exact h.reset_stepped _ _ (.inr (.inr rfl))
  · exact .refl h

/-! ### The completion of the store read (R182) -/

/-- The units' fault inputs are read one after another: out of service go those whose input is asserted (R182). -/
theorem State.foldl_readFaultInput (l : List UnitId) (s : State) (h : s.Sound) :
    (l.foldl State.readFaultInput s).Sound ∧
      (l.foldl State.readFaultInput s) = { s with
        units := (l.foldl State.readFaultInput s).units
        alert := (l.foldl State.readFaultInput s).alert } ∧
      ∀ j, (s.site j).Alike ((l.foldl State.readFaultInput s).site j) := by
  induction l generalizing s with
  | nil => exact ⟨h, rfl, fun j => .refl _⟩
  | cons u l ih =>
    have first : (s.readFaultInput u).Sound ∧
        s.readFaultInput u = { s with units := (s.readFaultInput u).units, alert := (s.readFaultInput u).alert } ∧
        ∀ j, (s.site j).Alike ((s.readFaultInput u).site j) := by
      unfold State.readFaultInput
      split
      · next k => exact ⟨h.faultUnit u, State.faultUnit_only u, fun j => State.faultUnit_alike h k.2 j⟩
      · exact ⟨h, rfl, fun j => .refl _⟩
    obtain ⟨sound, only, alike⟩ := first
    obtain ⟨sound', only', alike'⟩ := ih _ sound
    refine ⟨sound', ?_, fun j => (alike j).trans (alike' j)⟩
    rw [List.foldl_cons]
    generalize l.foldl State.readFaultInput (s.readFaultInput u) = r at *
    exact only'.trans (by rw [only])

theorem State.RestOk.idle (h : s.RestOk) (idle : s.phase ≠ .running) (i : StationId) :
    (s.station i).state = .unknown ∧ (s.station i).active = none ∧ s.channel i = .afterReset ∧ s.mooring i = none := by
  rw [h.stations idle i]
  exact ⟨rfl, rfl, h.channels idle i, h.moorings idle i⟩

/-- The stored values come into force on stations that stand at their reset values (R182). -/
theorem State.Inv.loadStore_whole (h : s.Inv) (idle : s.phase ≠ .running) : s.loadStore.Whole := by
  have whole := h.whole
  have rest := h.rest
  obtain ⟨follow, critical, -⟩ := rest.quiet idle
  refine ⟨whole.sound.of_stations ⟨fun _ => follow.symm, fun _ => critical.symm⟩ (fun _ => rfl) rfl rfl rfl rfl,
    fun i => ?_, fun i => ?_⟩
  · have fit := whole.fit i
    obtain ⟨-, -, channel, record⟩ := rest.idle idle i
    refine ⟨fit.recorded, fit.doing.congr rfl rfl rfl rfl rfl rfl rfl rfl, fit.geared, ?_⟩
    change (s.channel i).Watched _ (s.mooring i) (s.store.calibrations[i].decimation)
    rw [channel, record]
    exact ⟨⟨by decide, Nat.lt_of_lt_of_le (by decide) (h.stored.2.1.1 i).2.2.1, nofun, by decide, nofun, by decide,
      by decide, rfl, by decide, by decide, by decide, by decide⟩, fun _ => ⟨rfl, rfl⟩, .inr (.inr ⟨rfl, rfl, rfl⟩), nofun,
      fun k => absurd rfl k⟩
  · refine Site.held_of_none ?_ (rest.idle idle i).2.1
    change s.queue.filter _ = []
    rw [(rest.tables idle).2.1]
    rfl

theorem State.Inv.storeRead_stepped (h : s.Inv) {t : State} (e : execStoreReadComplete s = .next t) :
    State.Stepped c s t := by
  cases e
  split
  · next reading =>
    have idle : s.phase ≠ .running := by rw [reading]; exact nofun
    have loaded := h.loadStore_whole idle
    have start : ∀ j, (s.loadStore.site j).x = s.station j := fun _ => rfl
    obtain ⟨sound, only, alike⟩ := State.foldl_readFaultInput allUnits s.loadStore loaded.sound
    generalize allUnits.foldl State.readFaultInput s.loadStore = r at *
    obtain ⟨sound', table, backdrop, -, sites⟩ :=
      State.foldl_acts (fun s i => s.leaveUnknown_acts i) allStations allStations_nodup r sound
    refine State.settle_stepped h ((State.phase_of_backdrop backdrop).trans (by rw [only]; rfl)) sound'
      (.trans (.of_eq (by rw [only]; rfl) (by rw [only]; rfl) (by rw [only]; rfl)) table)
      (State.StoredOk.of_backdrop (s := r) ⟨by rw [only]; exact h.stored.2.1, by rw [only]; exact h.stored.2.1,
        by rw [only]; exact h.stored.2.2⟩ backdrop) fun j => ?_
    obtain ⟨m, begun, done⟩ := sites j (mem_allStations j)
    have unknown := (h.rest.idle idle j).1
    have here := (alike j).trans begun
    have state : (m.site j).x.state = .unknown := by rw [here.x, start]; exact unknown
    rw [unknown]
    exact done.after (State.leaveUnknown_after (here.fit (loaded.fit j)) (here.held (loaded.held j)) state)
  · exact .refl h

end Sys2Proof.Machine
end

