-- ==== Sys2Proof/Proofs/Invariants.lean ====
section
/-! PROOF. Every command is a step that keeps the invariant and moves stations and calls as their tables allow; the
statements that hold at all times. -/

namespace Sys2Proof.Machine

variable {s t : State} {c : Instr}

/-- A change of the link's own fields is a step while the response and the latch keep their reset values before the part
is at work. -/
theorem State.Inv.link_stepped (h : s.Inv) (core : t.core = s.core) (phase : t.phase = s.phase)
    (latch : s.latch = none → t.latch = none) (tx : s.tx = none → t.tx = none)
    (restart : t.restartPending = s.restartPending) : State.Stepped c s t :=
  .of_core h core fun k => by
    obtain ⟨-, -, hlatch, -, htx, hrestart⟩ := h.rest.flags (phase ▸ k)
    exact ⟨latch hlatch, tx htx, restart.trans hrestart⟩

theorem State.Inv.status_stepped (h : s.Inv) (len : Byte) {t : State} (e : execStatus len s = .next t) :
    State.Stepped c s t := by
  cases e
  exact h.unicast_stepped fun payload t running accepted => by cases accepted; exact ⟨.refl h, running⟩

theorem State.Inv.queryLocks_stepped (h : s.Inv) (len : Byte) {t : State} (e : execQueryLocks len s = .next t) :
    State.Stepped c s t := by
  cases e
  exact h.unicast_stepped fun payload t running accepted => by cases accepted; exact ⟨.refl h, running⟩

theorem State.Inv.queryCall_stepped (h : s.Inv) (len : Byte) (tag : BitVec 16) {t : State}
    (e : execQueryCall len tag s = .next t) : State.Stepped c s t := by
  cases e
  refine h.unicast_stepped fun payload t running accepted => ?_
  split at accepted
  · cases accepted
  · cases accepted
    exact ⟨.refl h, running⟩

theorem State.Inv.clearError_stepped (h : s.Inv) (len : Byte) {t : State} (e : execClearError len s = .next t) :
    State.Stepped c s t := by
  cases e
  refine h.unicast_stepped fun payload t running accepted => ?_
  cases accepted
  exact ⟨h.link_stepped rfl rfl (fun _ => rfl) id rfl, running⟩

theorem State.Inv.restart_stepped (h : s.Inv) (len : Byte) {t : State} (e : execRestart len s = .next t) :
    State.Stepped c s t := by
  cases e
  refine h.unicast_stepped fun payload t running accepted => ?_
  obtain ⟨-, accepted⟩ := checked_accepted accepted
  cases accepted
  exact ⟨.of_core h rfl fun k => absurd running k, running⟩

theorem State.Inv.unknownCommand_stepped (h : s.Inv) (code len : Byte) {t : State}
    (e : execUnknownCommand code len s = .next t) : State.Stepped c s t := by
  cases e
  split
  · next taken => exact (State.Stepped.refl h).respond (State.takesFrames_running taken) _ _ _
  · exact .refl h

/-- Every command is a step (R3, R53, R181). -/
theorem State.Inv.exec_stepped (h : s.Inv) {c : Instr} (e : exec c s = .next t) : State.Stepped c s t := by
  cases c with
  | makeFast len station tag fields => exact h.makeFast_stepped len station tag fields e
  | adopt len station tag fields => exact h.adopt_stepped len station tag fields e
  | amend len station fields => exact h.amend_stepped len station fields e
  | query len station count => exact h.query_stepped len station count e
  | release len station => exact h.release_stepped len station e
  | slacken len station length => exact h.slacken_stepped len station length e
  | retire len station => exact h.retire_stepped len station e
  | runOut len station => exact h.runOut_stepped len station e
  | openCall len tag berth minLines steadyNeed => exact h.openCall_stepped len tag berth minLines steadyNeed e
  | queryCall len tag => exact h.queryCall_stepped len tag e
  | singleUp len tag => exact h.singleUp_stepped len tag e
  | closeCall len tag => exact h.closeCall_stepped len tag e
  | lockQuarter len quarter => exact h.lockQuarter_stepped len quarter e
  | unlockAll len => exact h.unlockAll_stepped len e
  | queryLocks len => exact h.queryLocks_stepped len e
  | holdAll broadcast len => exact h.holdAll_stepped broadcast len e
  | resumeAll broadcast len => exact h.resumeAll_stepped broadcast len e
  | resetDrive len unit => exact h.resetDrive_stepped len unit e
  | clearFault len station => exact h.clearFault_stepped len station e
  | calibrateStation len station fields => exact h.calibrateStation_stepped len station fields e
  | setLimits len fields => exact h.setLimits_stepped len fields e
  | setAlertMode len mode polarity => exact h.setAlertMode_stepped len mode polarity e
  | status len => exact h.status_stepped len e
  | clearError len => exact h.clearError_stepped len e
  | clearAlert len => exact h.clearAlert_stepped len e
  | restart len => exact h.restart_stepped len e
  | unknownCommand code len => exact h.unknownCommand_stepped code len e
  | broadcastIgnored code len => cases e; exact .refl h
  | frameDiscarded address crcMatches => cases e; exact .refl h
  | frameGapTimeout => cases e; exact h.link_stepped rfl rfl id id rfl
  | badFrameLength len => cases e; exact h.link_stepped rfl rfl id id rfl
  | loadSampleArrival station raw => exact h.loadSample_stepped station raw e
  | drumPositionArrival station count => exact h.drumPosition_stepped station count e
  | gearSenseArrival station sense => exact h.gearSense_stepped station sense e
  | takeOverAsserted station => exact h.takeOverAsserted_stepped station e
  | takeOverEnded station => exact h.takeOverEnded_stepped station e
  | holdInputAsserted => exact h.holdInput_stepped e
  | holdInputDeasserted => cases e; exact h.inputs_stepped _
  | keyChange asserted => cases e; exact h.inputs_stepped _
  | readyArrival unit => exact h.ready_stepped unit e
  | unitFaultAsserted unit => exact h.unitFault_stepped unit e
  | unitFaultDeasserted unit => cases e; exact h.inputs_stepped _
  | gearTimerExpiry station => exact h.gearTimer_stepped station e
  | readyTimerExpiry unit => exact h.readyTimer_stepped unit e
  | motionTimerExpiry station => exact h.motionTimer_stepped station e
  | takeOverTimerExpiry station => exact h.takeOverTimer_stepped station e
  | storeWriteComplete => exact h.storeWrite_stepped e
  | powerLoss => cases e; exact h.reset_stepped _ _ (.inl rfl)
  | powerOn => cases e; exact h.reset_stepped _ _ (.inr (.inl rfl))
  | restartBegin => exact h.restartBegin_stepped e
  | storeReadComplete => exact h.storeRead_stepped e
  | responseTransmissionEnd => cases e; exact h.link_stepped rfl rfl id (fun _ => rfl) rfl

/-- A step of the part is the step of its front command. -/
theorem State.Inv.step_stepped (h : s.Inv) {c : Instr} {rest : List Instr} (front : s.pending = c :: rest)
    (e : step s = .next t) : State.Stepped c s t := by
  unfold step at e
  rw [front] at e
  have taken : State.Inv { s with pending := rest } := h.of_core rfl fun k => ⟨(h.rest.flags k).2.2.1,
    (h.rest.flags k).2.2.2.2⟩
  exact (taken.exec_stepped e).of_start rfl

theorem State.Inv.step_inv (h : s.Inv) (e : step s = .next t) : t.Inv := by
  cases front : s.pending with
  | nil =>
    unfold step at e
    rw [front] at e
    cases e
    exact h
  | cons c rest => exact (h.step_stepped front e).inv

/-- Settles O56, from the invariant as a whole. -/
theorem everyStepKeepsTheCallTable : Obligations.EveryStepKeepsTheCallTable :=
  fun _ _ h e => (h.step_inv e).calls

/-- Settles O57, from the invariant as a whole. -/
theorem everyStepKeepsRecordsAndGear : Obligations.EveryStepKeepsRecordsAndGear :=
  fun _ _ h e => ⟨(h.step_inv e).records, (h.step_inv e).gear, (h.step_inv e).rest⟩

/-- Settles O58, from the invariant as a whole. -/
theorem everyStepKeepsTheDrive : Obligations.EveryStepKeepsTheDrive :=
  fun _ _ h e => ⟨(h.step_inv e).work, (h.step_inv e).queue, (h.step_inv e).units, (h.step_inv e).grants,
    (h.step_inv e).drive⟩

/-- Settles O59, from the invariant as a whole. -/
theorem everyStepKeepsChannelsStoreAndAlert : Obligations.EveryStepKeepsChannelsStoreAndAlert :=
  fun _ _ h e => ⟨(h.step_inv e).channels, (h.step_inv e).stored, (h.step_inv e).alerts⟩

/-- Settles O60, from the moves of the step's front command. -/
theorem stationsMoveAsTheTableAllows : Obligations.StationsMoveAsTheTableAllows := by
  intro s t c rest i h front e
  rcases (h.step_stepped front e).stations i with goes | reset
  · rcases LineState.goes_iff.1 goes with same | next
    · exact .inl same
    · exact .inr (.inl next)
  · exact .inr (.inr reset)

/-- Settles O24, from the moves of the step's front command and the test that every HELD call has passed. -/
theorem callsMoveAsTheTableAllows : Obligations.CallsMoveAsTheTableAllows := by
  intro s t c rest h front e x hx y hy tag
  have stepped := h.step_stepped front e
  obtain ⟨berth, lines, need, moves⟩ := stepped.calls x hx y hy tag
  have held : y.state = .held → y.minLines ≤ y.list.length ∧ ∀ j ∈ y.list, t.steadyFor y.steadyNeed j = true := by
    intro held
    have settled := (t.transitionOf_eq_none y).1 (stepped.inv.calls.settled y hy)
    rw [held] at settled
    obtain ⟨⟨enough, steady⟩, -⟩ := State.heldTest_iff y |>.1 settled
    exact ⟨enough, List.all_eq_true.1 steady⟩
  refine ⟨berth.symm, lines.symm, need.symm, ?_⟩
  rcases moves with same | (⟨start, finish⟩ | ⟨start, finish⟩ | ⟨start, finish⟩) | ⟨single, singling, clearing, finish⟩
  · rw [← same] at held ⊢
    refine ⟨fun k => ?_, fun k k' => ?_, .inl, id, fun a b k => absurd k (not_or.2 ⟨a, b⟩), held⟩
    · rw [k]; exact nofun
    · rw [k'] at k; rcases k with k | k <;> cases k
  · rw [finish] at held ⊢
    refine ⟨nofun, nofun, fun k => ?_, fun k => ?_, fun _ _ k => ?_, held⟩
    · rw [k] at start; rcases start with k | k <;> cases k
    · rw [k] at start; rcases start with k | k <;> cases k
    · rcases k with k | k <;> cases k
  · rw [start, finish]
    exact ⟨nofun, nofun, nofun, nofun, fun _ _ k => (by rcases k with k | k <;> cases k), nofun⟩
  · rw [start, finish]
    exact ⟨nofun, nofun, fun _ => .inr rfl, nofun, fun k => absurd rfl k, nofun⟩
  · refine ⟨fun _ k => ?_, fun _ k => ?_, fun k => absurd k singling, fun k => absurd k clearing, fun _ _ _ => single, held⟩
    · rw [k] at finish; rcases finish with k | k <;> cases k
    · rw [k] at finish; rcases finish with k | k <;> cases k

/-- Settles O55, as a case of what every reset leaves. -/
theorem resetMeetsEveryInvariant : Obligations.ResetMeetsEveryInvariant := by
  refine ⟨State.afterReset_inv _ _ _ _ _ Groups.factory_inRange, rfl, rfl, fun i => ?_,
    State.afterReset_unit _ _ _ _ _, rfl, rfl, rfl, rfl, rfl, rfl, rfl, rfl, rfl, rfl, rfl, rfl⟩
  rw [State.reset, State.afterReset_station]
  exact ⟨rfl, rfl, rfl, rfl, State.afterReset_mooring _ _ _ _ _ i, State.afterReset_channel _ _ _ _ _ i⟩

/-- Settles O54: an event of each kind leaves at its own guard. -/
theorem levelsAndStoppedTimers : Obligations.LevelsAndStoppedTimers := by
  intro s _
  refine ⟨rfl, fun _ => rfl, fun _ => rfl, fun idle => ⟨?_, fun u => ?_, fun i => ⟨?_, ?_⟩⟩, fun i stopped => ?_,
    fun i stopped => ?_, fun i stopped => ?_, fun u stopped => ?_⟩
  · exact congrArg Host.Outcome.next (if_neg idle)
  · exact congrArg Host.Outcome.next (if_neg idle)
  · exact congrArg Host.Outcome.next (if_neg fun k => idle k.1)
  · exact congrArg Host.Outcome.next (if_neg fun k => idle k.1)
  · exact congrArg Host.Outcome.next (if_neg fun k => by rw [stopped] at k; cases k.2)
  · exact congrArg Host.Outcome.next (if_neg fun k => by rw [stopped] at k; cases k.2.1)
  · exact congrArg Host.Outcome.next (if_neg fun k => by rw [stopped] at k; cases k.2.2)
  · exact congrArg Host.Outcome.next (if_neg fun k => by rw [stopped] at k; cases k.2.2)

end Sys2Proof.Machine
end

