-- ==== Sys2Proof/Proofs/Answers.lean ====
section
/-! PROOF. What every rule of a unicast command keeps, whatever the state, and what follows for the answer and for the
commands that wait (R173, R174). -/

namespace Sys2Proof.Machine

variable {s t : State} {v : Verdict} {latch : Option Status}

/-- A rule's answer: an acceptance leaves the waiting commands and the own address, and the latch as told; a refusal
carries a code other than OK. -/
structure Verdict.Fair (s : State) (latch : Option Status) (v : Verdict) : Prop where
  accepted : ∀ payload t, v = .accepted payload t →
    t.pending = s.pending ∧ t.unitAddress = s.unitAddress ∧ t.latch = latch
  refused : ∀ status, v = .refused status → status ≠ .ok

namespace Verdict.Fair

theorem refuses {status : Status} (h : status ≠ .ok) : (Verdict.refused status).Fair s latch :=
  ⟨fun _ _ e => Verdict.noConfusion e, fun _ e => by cases e; exact h⟩

theorem accepts {payload : List Byte} (pending : t.pending = s.pending) (own : t.unitAddress = s.unitAddress)
    (left : t.latch = latch) : (Verdict.accepted payload t).Fair s latch :=
  ⟨fun _ _ e => by cases e; exact ⟨pending, own, left⟩, fun _ e => Verdict.noConfusion e⟩

theorem of_backdrop {payload : List Byte} (h : t.backdrop = s.backdrop) : (Verdict.accepted payload t).Fair s s.latch :=
  accepts (congrArg State.pending h :) (congrArg State.unitAddress h :) (congrArg State.latch h :)

theorem of_settle {payload : List Byte} {before : State} (h : t.backdrop = s.backdrop) :
    (Verdict.accepted payload (State.settle before t)).Fair s s.latch :=
  of_backdrop ((State.settle_backdrop before t).trans h)

theorem of_checks {checks : List (Bool × Status)} (named : ∀ check ∈ checks, check.1 = true → check.2 ≠ .ok)
    (h : v.Fair s latch) : (checked checks v).Fair s latch := by
  induction checks with
  | nil => exact h
  | cons check checks ih =>
    obtain ⟨fails, status⟩ := check
    rw [checked_cons]
    split
    · next failed => exact refuses (named _ List.mem_cons_self failed)
    · exact ih fun other hc => named other (List.mem_cons_of_mem _ hc)

/-- The checks of a rule that names its codes. -/
theorem of_named {checks : List (Bool × Status)} (named : checks.all (fun check => check.2 != .ok) = true)
    (h : v.Fair s latch) : (checked checks v).Fair s latch :=
  of_checks (fun check hc _ => by simpa using List.all_eq_true.1 named check hc) h

theorem of_station {station : Byte} {rule : StationId → Verdict} (h : ∀ i, (rule i).Fair s latch) :
    (s.withStation station rule).Fair s latch := by
  unfold State.withStation
  split
  · exact refuses nofun
  · split
    · exact refuses nofun
    · exact h _

end Verdict.Fair

/-- A let-go check that refuses names its code. -/
theorem State.letGoRelease_ne_ok (i : StationId) : s.letGoRelease i ≠ some .ok := by
  unfold State.letGoRelease
  split
  · exact nofun
  · split
    · exact nofun
    · exact nofun
    · split <;> exact nofun
    · split <;> exact nofun
    · split <;> exact nofun

theorem State.letGoSlacken_ne_ok (i : StationId) : s.letGoSlacken i ≠ some .ok := by
  unfold State.letGoSlacken
  split
  · exact nofun
  · split
    · exact nofun
    · exact nofun
    · exact nofun
    · exact nofun
    · split <;> exact nofun

theorem askedCheck_named {answer : Option Status} (h : answer ≠ some .ok) :
    (askedCheck answer).1 = true → (askedCheck answer).2 ≠ .ok := by
  unfold askedCheck
  cases answer with
  | none => exact nofun
  | some status => exact fun _ k => h (congrArg some k)

/-- The hold's setting and clearing leave the link alone. -/
theorem Verdict.Fair.of_hold {f : State → StationId → State} (acts : ∀ s i, State.Acts i s (f s i)) (before : State)
    (level : Bool) : (Verdict.ok (State.settle before (allStations.foldl f { s with hold := level }))).Fair s s.latch := by
  have kept := (State.settle_backdrop before _).trans (State.foldl_backdrop acts allStations { s with hold := level })
  generalize State.settle before (allStations.foldl f { s with hold := level }) = t at kept
  exact .accepts (congrArg State.pending kept :) (congrArg State.unitAddress kept :) (congrArg State.latch kept :)

theorem State.setHold_fair : (Verdict.ok s.setHold).Fair s s.latch := by
  unfold State.setHold
  split
  · exact .of_backdrop rfl
  · exact .of_hold (fun s i => s.holdStation_acts i) s true

theorem State.clearHold_fair : (Verdict.ok s.clearHold).Fair s s.latch := by
  unfold State.clearHold
  split
  · exact .of_hold (fun s i => s.resumeStation_acts i) s false
  · exact .of_backdrop rfl

theorem State.resetAttention_backdrop (i : StationId) : (s.resetAttention i).backdrop = s.backdrop := by
  unfold State.resetAttention
  split
  · rfl
  · rw [State.reformFollow_eq]
    rfl

theorem State.foldl_resetAttention_backdrop (l : List StationId) (s : State) :
    (l.foldl State.resetAttention s).backdrop = s.backdrop := by
  induction l generalizing s with
  | nil => rfl
  | cons i l ih => exact (ih _).trans (State.resetAttention_backdrop i)

/-- The rule of every unicast command but CLEAR-ERROR leaves the latch (R173, R174). -/
theorem exec_fair {i : Instr} {c : CommandSpec} {len : Byte} {payload : List Byte}
    (h : i.content = some (c, len, payload)) (hi : i.isBroadcast = false) (other : c ≠ Command.clearError) (s : State) :
    ∃ rule : State → Verdict, exec i s = .next (s.unicast c len rule) ∧ (rule s).Fair s s.latch := by
  cases i <;> cases h
  case makeFast =>
    refine ⟨_, rfl, .of_station fun i => .of_named rfl (.of_settle ?_)⟩
    exact ((((s.createRecord_local i _).trans (State.enter_local _ i _)).trans
      (State.startStep_local _ i _ _ _)).trans (State.submit_local _ i _ _)).backdrop
  case adopt =>
    refine ⟨_, rfl, .of_station fun i => .of_named rfl (.of_settle ?_)⟩
    exact ((s.createRecord_local i _).trans (State.enter_local _ i _)).backdrop
  case amend =>
    refine ⟨_, rfl, .of_station fun i => ?_⟩
    split
    · exact .refuses nofun
    · refine .of_named rfl (.of_settle ?_)
      exact (((((State.setMooring_local s i _).trans (State.emptyWindow_local _ i)).trans
        (State.resetSteady_local _ i)).trans (State.withdrawTrim_local _ i)).trans
        ((State.amendByState_acts _ i).local.trans (State.amendParked_acts _ i _ _).local)).backdrop
  case query =>
    exact ⟨_, rfl, .of_station fun i => .of_backdrop (State.foldl_resetAttention_backdrop _ s)⟩
  case release =>
    refine ⟨_, rfl, .of_station fun i => .of_checks ?_ (.of_settle (s.releaseSequence_local i _).backdrop)⟩
    have := askedCheck_named (State.letGoRelease_ne_ok (s := s) i)
    simpa using this
  case slacken =>
    refine ⟨_, rfl, .of_station fun i => .of_checks ?_ (.of_settle ?_)⟩
    · have := askedCheck_named (State.letGoSlacken_ne_ok (s := s) i)
      simpa using this
    · exact (s.slackened_acts i _).local.backdrop
  case retire => exact ⟨_, rfl, .of_station fun i => .of_named rfl (.of_settle (s.retired_acts i).local.backdrop)⟩
  case runOut =>
    exact ⟨_, rfl, .of_station fun i => .of_named rfl (.of_settle
      ((s.enter_local i _).trans (State.startStep_local _ i _ _ _)).backdrop)⟩
  case openCall =>
    refine ⟨_, rfl, .of_named rfl ?_⟩
    split
    · exact .of_backdrop rfl
    · exact .of_backdrop ((State.settleCalls_only _ _).backdrop.trans rfl)
  case queryCall =>
    refine ⟨_, rfl, ?_⟩
    split
    · exact .refuses nofun
    · exact .of_backdrop rfl
  case singleUp =>
    refine ⟨_, rfl, ?_⟩
    split
    · exact .refuses nofun
    · exact .of_named rfl (.of_backdrop ((s.callTo_only _ _).trans (State.evaluate_only _ _)).backdrop)
  case closeCall =>
    refine ⟨_, rfl, ?_⟩
    split
    · exact .refuses nofun
    · exact .of_named rfl (.of_backdrop rfl)
  case lockQuarter =>
    refine ⟨_, rfl, ?_⟩
    split
    · exact .refuses nofun
    · refine .of_named rfl ?_
      split <;> exact .accepts rfl rfl rfl
  case unlockAll =>
    refine ⟨_, rfl, .of_named rfl ?_⟩
    split <;> exact .accepts rfl rfl rfl
  case queryLocks => exact ⟨_, rfl, .accepts rfl rfl rfl⟩
  case holdAll broadcast =>
    cases hi
    exact ⟨fun s => .ok s.setHold, rfl, State.setHold_fair⟩
  case resumeAll broadcast =>
    cases hi
    exact ⟨fun s => checked [(s.inputs.hold, .hold)] (.ok s.clearHold), rfl, .of_named rfl State.clearHold_fair⟩
  case resetDrive =>
    refine ⟨_, rfl, ?_⟩
    split
    · exact .refuses nofun
    · refine .of_named rfl (.of_settle ?_)
      rw [State.reformFollow_eq]
      rfl
  case clearFault =>
    exact ⟨_, rfl, .of_station fun i => .of_named rfl (.of_settle
      ((s.enterByList_acts i _).local.trans (State.deferredTakeOver_local _ i)).backdrop)⟩
  case calibrateStation =>
    refine ⟨_, rfl, .of_station fun i => .of_named rfl (.accepts ?_ ?_ ?_)⟩ <;>
      simp only [State.calibrated_eq] <;> rw [State.updateLength_only, State.recalibrated_only]
  case setLimits => exact ⟨_, rfl, .of_named rfl (.accepts rfl rfl rfl)⟩
  case setAlertMode =>
    refine ⟨_, rfl, ?_⟩
    split
    · refine .of_named rfl ?_
      rw [State.reformAlert_eq]
      exact .accepts rfl rfl rfl
    · exact .refuses nofun
  case status => exact ⟨_, rfl, .accepts rfl rfl rfl⟩
  case clearError => exact absurd rfl other
  case clearAlert =>
    refine ⟨_, rfl, ?_⟩
    split <;> exact .accepts rfl rfl rfl
  case restart => exact ⟨_, rfl, .of_named rfl (.accepts rfl rfl rfl)⟩

/-- A taken command's answer, by its length, the latch and its rule (R173, R174). -/
theorem State.unicast_fair {c : CommandSpec} {len : Byte} {rule : State → Verdict} (taken : s.takesFrames = true)
    (fair : (rule s).Fair s latch) :
    (∃ (t : State) (report : List Byte), s.unicast c len rule = t.respond c .ok report ∧ t.pending = s.pending ∧
        t.unitAddress = s.unitAddress ∧ t.latch = latch) ∨
      (∃ status, status ≠ .ok ∧ s.unicast c len rule = s.refuse c status) ∨
      ∃ code ∈ s.latch, s.unicast c len rule = s.respond c .latched [code.code] := by
  by_cases fits : len.toNat = c.length
  · by_cases open' : c.recordChanging = true → s.latch = none
    · rw [s.unicast_of_serves c len rule ⟨taken, fits, open'⟩]
      cases answer : rule s with
      | refused status => exact .inr (.inl ⟨status, fair.refused status answer, rfl⟩)
      | accepted report t => exact .inl ⟨t, report, rfl, fair.accepted report t answer⟩
    · push Not at open'
      obtain ⟨changing, latched⟩ := open'
      obtain ⟨code, e⟩ := Option.ne_none_iff_exists'.1 latched
      exact .inr (.inr ⟨code, e, s.unicast_of_latch c len rule taken fits changing e⟩)
  · exact .inr (.inl ⟨.badLength, nofun, s.unicast_of_length c len rule taken fits⟩)

/-- CLEAR-ERROR accepts and empties the latch (R175). -/
theorem execClearError_fair (len : Byte) (s : State) : ∃ rule : State → Verdict,
    exec (.clearError len) s = .next (s.unicast Command.clearError len rule) ∧ (rule s).Fair s none :=
  ⟨_, rfl, .accepts rfl rfl rfl⟩

theorem Instr.content_clearError {i : Instr} {len : Byte} {payload : List Byte}
    (h : i.content = some (Command.clearError, len, payload)) : i = .clearError len := by
  cases i <;> cases h <;> rfl

theorem State.refuse_eq (c : CommandSpec) (status : Status) : s.refuse c status = { s with
    tx := some (responseFrame s.unitAddress c.code status [])
    latch := if c.recordChanging = true ∧ s.latch = none ∧ status ≠ .latched ∧ status ≠ .storeBusy
      then some status else s.latch } := by
  unfold State.refuse State.respond
  dsimp only
  split <;> rfl

/-- Every unicast command has a fair rule; only CLEAR-ERROR's empties the latch. -/
theorem exec_rule {i : Instr} {c : CommandSpec} {len : Byte} {payload : List Byte}
    (h : i.content = some (c, len, payload)) (hi : i.isBroadcast = false) (s : State) :
    ∃ rule : State → Verdict, exec i s = .next (s.unicast c len rule) ∧
      (rule s).Fair s (if c = Command.clearError then none else s.latch) := by
  by_cases own : c = Command.clearError
  · subst own
    rw [if_pos rfl, Instr.content_clearError h]
    exact execClearError_fair len s
  · rw [if_neg own]
    exact exec_fair h hi own s

/-- Settles O6, from the codes and the frame as they are defined and the fair rule of every command. -/
theorem unicastCommandsAreAnswered : Obligations.UnicastCommandsAreAnswered := by
  refine ⟨rfl, fun own code status payload => rfl, fun i c len payload s content unicast taken => ?_⟩
  obtain ⟨rule, runs, fair⟩ := exec_rule content unicast s
  rw [runs]
  rcases s.unicast_fair (c := c) (len := len) taken fair with
    ⟨t, report, e, -, own, left⟩ | ⟨status, refusal, e⟩ | ⟨code, latched, e⟩ <;> rw [e]
  · exact .inl ⟨_, report, rfl, by rw [← own]; rfl, left⟩
  · exact .inr ⟨status, [], refusal, fun _ => rfl, by rw [State.refuse_eq]⟩
  · refine .inr ⟨.latched, [code.code], nofun, fun k => absurd rfl k, ?_⟩
    rw [if_neg fun k => k.2.2.1 rfl]
    rfl

/-! ### Commands complete, and the waiting ones stay (log 1) -/

theorem State.unicast_pending {c : CommandSpec} {len : Byte} {rule : State → Verdict} (fair : (rule s).Fair s latch) :
    (s.unicast c len rule).pending = s.pending := by
  by_cases taken : s.takesFrames = true
  · rcases s.unicast_fair (c := c) (len := len) taken fair with
      ⟨t, report, e, kept, -⟩ | ⟨status, -, e⟩ | ⟨code, -, e⟩ <;> rw [e]
    · exact kept
    · rw [State.refuse_eq]
    · rfl
  · rw [s.unicast_of_busy c len rule (by simpa using taken)]

theorem pending_of_backdrop (h : t.backdrop = s.backdrop) : t.pending = s.pending := (congrArg State.pending h :)

theorem State.settle_pending_of_local {i : StationId} {before : State} (h : State.Local i s t) :
    (State.settle before t).pending = s.pending :=
  (State.settle_pending before t).trans (pending_of_backdrop h.backdrop)

/-- A sense acts at its station alone (R11, R12, R15). -/
theorem State.gearSensed_local (s : State) (i : StationId) : State.Local i s (s.gearSensed i) := by
  unfold State.gearSensed
  dsimp only
  split
  · exact s.tryComplete_local i
  · split
    · exact .refl i s
    · exact s.disagreementTest_local i

/-- READY changes nothing of what no event at a station changes. -/
theorem State.ready_backdrop (s : State) (u : UnitId) : (s.ready u).backdrop = s.backdrop := by
  have given : ∀ (i : StationId) (state : LineState), State.Local i s ((s.giveBack i).enter i state) := fun i state =>
    (s.giveBack_local i).trans (State.enter_local _ i state)
  unfold State.ready
  split
  · next i _ _ =>
    split
    · rfl
    · next a _ =>
      split
      · unfold State.readyTrim
        dsimp only
        split
        · exact (given i _).backdrop
        · split
          · exact (s.startMotion_local i u a _).backdrop
          · exact (given i _).backdrop
          · exact ((given i _).trans (State.raise_local _ i _)).backdrop
      · unfold State.readyHeave
        dsimp only
        split
        · exact (given i _).backdrop
        · split
          · exact ((given i _).trans (State.raise_local _ i _)).backdrop
          · exact (s.startMotion_local i u a _).backdrop
      · exact (s.startMotion_local i u a _).backdrop
      · exact (s.startMotion_local i u a _).backdrop
  · rfl

theorem State.failGranted_backdrop (s : State) (u : UnitId) : (s.failGranted u).backdrop = s.backdrop := by
  unfold State.failGranted
  split
  · exact State.faultUnit_backdrop u
  · next i _ =>
    exact (((s.faultUnit_local i u).trans (State.releaseUnit_local _ i)).trans (State.failWaiting_local _ i)).backdrop

theorem State.unitFault_backdrop (s : State) (u : UnitId) : (s.unitFault u).backdrop = s.backdrop := by
  unfold State.unitFault
  split
  · exact State.faultUnit_backdrop u
  · exact s.failGranted_backdrop u
  · unfold State.failRunning
    split
    · exact State.faultUnit_backdrop u
    · next i _ =>
      have faulted := (s.faultUnit_local i u).trans (State.raise_local _ i .driveFault)
      dsimp only
      split
      · exact (faulted.trans (State.endMotion_local _ i _)).backdrop
      · exact faulted.backdrop
  · rfl

theorem State.setHold_pending : s.setHold.pending = s.pending :=
  (State.setHold_fair.accepted [] _ rfl).1

theorem State.clearHold_pending : s.clearHold.pending = s.pending :=
  (State.clearHold_fair.accepted [] _ rfl).1

theorem State.foldl_readFaultInput_backdrop (l : List UnitId) (s : State) :
    (l.foldl State.readFaultInput s).backdrop = s.backdrop := by
  induction l generalizing s with
  | nil => rfl
  | cons u l ih =>
    refine (ih _).trans ?_
    unfold State.readFaultInput
    split
    · exact State.faultUnit_backdrop u
    · rfl

/-- The completion of the store read leaves the waiting commands (R182). -/
theorem State.storeRead_pending (s : State) : (State.settle s
    (allStations.foldl State.leaveUnknown (allUnits.foldl State.readFaultInput s.loadStore))).pending = s.pending := by
  rw [State.settle_pending]
  refine pending_of_backdrop (s := s.loadStore) ?_
  exact (State.foldl_backdrop (fun s i => s.leaveUnknown_acts i) allStations _).trans
    (State.foldl_readFaultInput_backdrop allUnits s.loadStore)

/-- An event that changes nothing, or acts at one station and settles, leaves the waiting commands. -/
theorem pending_of_if {p : Prop} [Decidable p] {before r u : State} (acts : r.backdrop = s.backdrop)
    (idle : u.pending = s.pending) : (if p then State.settle before r else u).pending = s.pending := by
  split
  · exact (State.settle_pending before r).trans (pending_of_backdrop acts)
  · exact idle

/-- Settles O2, from the fair rules of the commands and the one station that each other event acts at. -/
theorem everyCommandCompletesAndKeepsTheWaiting : Obligations.EveryCommandCompletesAndKeepsTheWaiting := by
  intro c s
  have framed : ∀ framed, c.content = some framed → c.isBroadcast = false →
      ∃ t, exec c s = .next t ∧ t.pending = s.pending := fun ⟨spec, len, payload⟩ content unicast => by
    obtain ⟨rule, runs, fair⟩ := exec_rule content unicast s
    exact ⟨_, runs, State.unicast_pending fair⟩
  cases c with
  | makeFast | adopt | amend | query | release | slacken | retire | runOut | openCall | queryCall | singleUp | closeCall
  | lockQuarter | unlockAll | queryLocks | resetDrive | clearFault | calibrateStation | setLimits | setAlertMode | status
  | clearError | clearAlert | restart => exact framed _ rfl rfl
  | holdAll broadcast len =>
    cases broadcast with
    | false => exact framed _ rfl rfl
    | true =>
      refine ⟨_, rfl, ?_⟩
      rw [if_pos rfl]
      split
      · exact State.setHold_pending
      · rfl
  | resumeAll broadcast len =>
    cases broadcast with
    | false => exact framed _ rfl rfl
    | true =>
      refine ⟨_, rfl, ?_⟩
      rw [if_pos rfl]
      split
      · exact State.clearHold_pending
      · rfl
  | unknownCommand code len =>
    refine ⟨_, rfl, ?_⟩
    split <;> rfl
  | broadcastIgnored | frameDiscarded | frameGapTimeout | badFrameLength | holdInputDeasserted | keyChange
  | unitFaultDeasserted | powerLoss | powerOn | responseTransmissionEnd => exact ⟨_, rfl, rfl⟩
  | loadSampleArrival i raw =>
    refine ⟨_, rfl, pending_of_if ?_ rfl⟩
    split
    · exact (s.railSample_acts i).local.backdrop
    · exact (s.validSample_acts i _).local.backdrop
  | drumPositionArrival i count =>
    refine ⟨_, rfl, ?_⟩
    split
    · rfl
    · rfl
    · refine State.settle_pending_of_local (i := i) ?_
      split
      · exact (s.onStation_local i _).trans (State.leaveUnknown_acts _ i).local
      · exact (s.onStation_local i _).trans (State.drumMoved_acts _ i).local
  | gearSenseArrival i sense =>
    refine ⟨_, rfl, ?_⟩
    split
    · rfl
    · rfl
    · refine State.settle_pending_of_local (i := i) ?_
      split
      · exact (s.onStation_local i _).trans (State.leaveUnknown_acts _ i).local
      · exact (s.onStation_local i _).trans (State.gearSensed_local _ i)
  | takeOverAsserted i =>
    exact ⟨_, rfl, pending_of_if (s := s.setTakeOverInput i true) (State.enterLocal_local _ i).backdrop rfl⟩
  | takeOverEnded i =>
    exact ⟨_, rfl, pending_of_if (s := s.setTakeOverInput i false) (State.endTakeOver_acts _ i).local.backdrop rfl⟩
  | holdInputAsserted =>
    refine ⟨_, rfl, ?_⟩
    split
    · exact State.setHold_pending
    · rfl
  | readyArrival u => exact ⟨_, rfl, pending_of_if (s.ready_backdrop u) rfl⟩
  | unitFaultAsserted u =>
    exact ⟨_, rfl, pending_of_if (s := s.setFaultInput u true) (State.unitFault_backdrop _ u) rfl⟩
  | gearTimerExpiry i => exact ⟨_, rfl, pending_of_if (s.enterFault_local i _ _).backdrop rfl⟩
  | readyTimerExpiry u => exact ⟨_, rfl, pending_of_if (s.failGranted_backdrop u) rfl⟩
  | motionTimerExpiry i =>
    exact ⟨_, rfl, pending_of_if ((s.endMotionDiscard_local i _).trans (State.raise_local _ i _)).backdrop rfl⟩
  | takeOverTimerExpiry i => exact ⟨_, rfl, pending_of_if (s.takeOverExpired_acts i).local.backdrop rfl⟩
  | storeWriteComplete =>
    refine ⟨_, rfl, ?_⟩
    split <;> rfl
  | restartBegin =>
    refine ⟨_, rfl, ?_⟩
    split <;> rfl
  | storeReadComplete =>
    refine ⟨_, rfl, ?_⟩
    split
    · exact s.storeRead_pending
    · rfl

end Sys2Proof.Machine
end

