-- ==== Sys2Proof/Proofs/LinkCommands.lean ====
section
/-! PROOF. The commands that act at no station, or at a station's calibration: ALERT, resets, locks and stored values
(chapters 9, 10 and 11). -/

namespace Sys2Proof.Machine

variable {s t : State} {i : StationId} {c : CommandSpec} {len : Byte}

/-! ### Answers written out -/

/-- The state after a rule's answer. -/
def State.answered (s : State) (c : CommandSpec) : Verdict → State
  | .refused status => s.refuse c status
  | .accepted payload t => t.respond c .ok payload

theorem State.unicast_answered {rule : State → Verdict} (served : s.serves c len) :
    s.unicast c len rule = s.answered c (rule s) := by
  rw [s.unicast_of_serves c len rule served]
  cases rule s <;> rfl

/-- A check that fails refuses; the next one is made where it passes. -/
theorem State.answered_check (fails : Bool) (status : Status) (rest : List (Bool × Status)) (v : Verdict) :
    s.answered c (checked ((fails, status) :: rest) v) =
      if fails = true then s.refuse c status else s.answered c (checked rest v) := by
  rw [checked_cons]
  split <;> rfl

theorem State.answered_ok : s.answered c (checked [] (.ok t)) = t.respond c .ok [] := rfl

/-! ### Station records put back -/

theorem State.setStation_self : s.setStation i (s.station i) = s := by
  have : s.stations.set i.val s.stations[i] i.isLt = s.stations := Vector.set_getElem_self _
  rw [State.setStation, State.station, this]

theorem State.onStation_eq (f : Station → Station) : s.onStation i f = s.setStation i (f (s.station i)) := rfl

/-- A raise as one equation: the higher reason stands, and the ALERT state follows (R23, R177, R178). -/
theorem State.raise_eq (reason : Attention) : s.raise i reason =
    { s.setStation i ((s.station i).noticing reason) with alert := s.alertAfter i reason } := by
  have alert := s.raise_alert i reason
  have station : s.raise i reason = { s.setStation i ((s.station i).noticing reason) with
      alert := (s.raise i reason).alert } := by
    unfold State.raise Station.noticing
    split
    · rw [State.assertAlert_eq]
      rfl
    · rw [State.setStation_self]
  rw [station, alert]

/-- The length worked out as one equation (R8, R9). -/
theorem State.updateLength_eq {count : Nat} (h : (s.station i).position = some count) : s.updateLength i =
    { s.setStation i ((s.station i).measured (s.calibration i) count) with
      alert := if (s.calibration i).maxPayout < (s.calibration i).rawLength count ∧ (s.station i).beyondPmax = false
        then s.alertAfter i .limit else s.alert } := by
  have whole := s.updateLength_only i
  have station := State.updateLength_station s i h
  have stations : (s.updateLength i).stations =
      (s.setStation i ((s.station i).measured (s.calibration i) count)).stations := by
    refine Vector.ext fun k hk => ?_
    change (s.updateLength i).station ⟨k, hk⟩ = (s.setStation i _).station ⟨k, hk⟩
    rw [State.station_setStation]
    split
    · next e => rw [e, station]
    · next e => exact (s.updateLength_local i).station _ e
  have alert : (s.updateLength i).alert =
      if (s.calibration i).maxPayout < (s.calibration i).rawLength count ∧ (s.station i).beyondPmax = false
        then s.alertAfter i .limit else s.alert := by
    unfold State.updateLength
    rw [h]
    simp only [Bool.and_eq_true, decide_eq_true_iff, Bool.not_eq_true']
    split
    · rw [State.raise_alert]
      unfold State.alertAfter
      rw [State.station_onStation_self]
      rfl
    · rfl
  rw [whole, stations, alert]
  rfl

/-! ### ALERT (R168, R177 to R179) -/

theorem alertModeOf_code (m : AlertMode) : alertModeOf m.code = some m := by cases m <;> rfl

theorem alertPolarityOf_code (p : AlertPolarity) : alertPolarityOf p.code = some p := by cases p <;> rfl

theorem alertModeOf_isSome_iff (b : Byte) : (alertModeOf b).isSome = true ↔ b.toNat ≤ 2 := by
  unfold alertModeOf
  refine ⟨fun h => ?_, fun h => ?_⟩
  · split at h
    case h_4 => cases h
    all_goals omega
  · split
    case h_4 h0 h1 h2 =>
      have : b.toNat = 0 ∨ b.toNat = 1 ∨ b.toNat = 2 := by omega
      exact (this.elim h0 fun k => k.elim h1 h2).elim
    all_goals rfl

theorem alertPolarityOf_isSome_iff (b : Byte) : (alertPolarityOf b).isSome = true ↔ b.toNat ≤ 1 := by
  unfold alertPolarityOf
  refine ⟨fun h => ?_, fun h => ?_⟩
  · split at h
    case h_3 => cases h
    all_goals omega
  · split
    case h_3 h0 h1 =>
      have : b.toNat = 0 ∨ b.toNat = 1 := by omega
      exact (this.elim h0 h1).elim
    all_goals rfl

/-- SET-ALERT-MODE by the mode and the polarity its fields name (R168). -/
theorem exec_setAlertMode (mode polarity : Byte) (served : s.serves Command.setAlertMode len) :
    exec (.setAlertMode len mode polarity) s = .next (match alertModeOf mode, alertPolarityOf polarity with
      | some m, some p =>
        if s.write.isSome = true then s.refuse Command.setAlertMode .storeBusy
        else { s with
          inForce := { s.inForce with alertMode := m, alertPolarity := p }
          write := some (.alert m p)
          alert := match m with
            | .latched => s.alert
            | .follow => s.followLevel
            | .criticalOnly => s.criticalLevel }.respond Command.setAlertMode .ok []
      | _, _ => s.refuse Command.setAlertMode .badWindow) := by
  refine congrArg Host.Outcome.next ((State.unicast_answered served).trans ?_)
  cases alertModeOf mode <;> cases alertPolarityOf polarity
  · rfl
  · rfl
  · rfl
  · dsimp only
    rw [State.storeBusy, State.answered_check, State.answered_ok, State.reformAlert_eq]
    rfl

/-- Settles O13, from the ALERT output's cases and the rules of the two commands. -/
theorem alertCommandsFormTheAlert : Obligations.AlertCommandsFormTheAlert := by
  refine fun s => ⟨fun reading => ?_, fun running => ?_, fun len served => ?_, fun len mode polarity served =>
    ⟨fun named => ?_, fun hm hp busy => ?_, fun m p hm hp free => ?_⟩⟩
  · rw [State.alertOutputHigh, reading]
  · rw [State.alertOutputHigh, running]
    cases s.inForce.alertPolarity <;> rfl
  · refine congrArg Host.Outcome.next ((State.unicast_answered served).trans ?_)
    cases mode : s.inForce.alertMode
    all_goals simp only [Verdict.ok, State.answered, reduceCtorEq, if_true, if_false]
    · rw [show (AlertMode.latched != AlertMode.latched) = false from rfl, Bool.and_false]
    · rw [show (AlertMode.follow != AlertMode.latched) = true from rfl, Bool.and_true]
    · rw [show (AlertMode.criticalOnly != AlertMode.latched) = true from rfl, Bool.and_true]
  · rw [exec_setAlertMode mode polarity served]
    rcases named with h | h
    · rw [Option.not_isSome_iff_eq_none.1 fun k => absurd ((alertModeOf_isSome_iff mode).1 k) (by omega)]
    · rw [Option.not_isSome_iff_eq_none.1 fun k => absurd ((alertPolarityOf_isSome_iff polarity).1 k) (by omega)]
      cases alertModeOf mode <;> rfl
  · obtain ⟨m, hm⟩ := Option.isSome_iff_exists.1 ((alertModeOf_isSome_iff mode).2 hm)
    obtain ⟨p, hp⟩ := Option.isSome_iff_exists.1 ((alertPolarityOf_isSome_iff polarity).2 hp)
    rw [exec_setAlertMode mode polarity served, hm, hp]
    exact congrArg Host.Outcome.next (if_pos busy)
  · rw [exec_setAlertMode mode polarity served, ← hm, ← hp, alertModeOf_code, alertPolarityOf_code]
    exact congrArg Host.Outcome.next (if_neg (by rw [free]; exact nofun))

/-! ### Resets (R2, R165, R180, R181) -/

theorem State.afterReset_rest (phase : Phase) (idle : phase ≠ .running) (clutches : Vector (Option ClutchPos) 16)
    (store : Groups) (inputs : Inputs) (pending : List Instr) :
    (State.afterReset phase clutches store inputs pending).RestOk where
  stations _ i := by rw [State.afterReset_station]; rfl
  channels _ := State.afterReset_channel phase clutches store inputs pending
  moorings _ := State.afterReset_mooring phase clutches store inputs pending
  units _ := State.afterReset_unit phase clutches store inputs pending
  tables _ := ⟨rfl, rfl, rfl, rfl⟩
  flags _ := ⟨rfl, rfl, rfl, rfl, rfl, rfl⟩

/-- What a reset leaves of each station, and of the link. -/
theorem State.afterReset_clutch (phase : Phase) (clutches : Vector (Option ClutchPos) 16) (store : Groups)
    (inputs : Inputs) (pending : List Instr) (i : StationId) {x : Option ClutchPos} (h : clutches[i] = x) :
    let t := State.afterReset phase clutches store inputs pending
    (t.station i).position = none ∧ (t.station i).senLock = none ∧ (t.station i).senClutch = none ∧
      (t.station i).cmdClutch = x := by
  dsimp only
  rw [State.afterReset_station]
  exact ⟨rfl, rfl, rfl, h⟩

/-- Settles O14, from what a reset leaves and the conditions of RESTART. -/
theorem resetsEmptyWhatIsVolatile : Obligations.ResetsEmptyWhatIsVolatile := by
  refine fun s => ⟨fun c hc due => ?_, fun len served => ?_, fun notDue => ?_⟩
  · have undriven : ∀ i : StationId, clutchesUndriven[i] = none := fun i => by simp [clutchesUndriven]
    have driven : ∀ i : StationId, s.clutchOutputs[i] = (s.station i).cmdClutch := fun i => by
      simp [State.clutchOutputs, State.station]
    rcases List.mem_cons.1 hc with rfl | hc
    · exact ⟨_, rfl, State.afterReset_rest .off nofun _ _ _ _, rfl, fun k => absurd rfl k,
        fun i => State.afterReset_clutch _ _ _ _ _ i (undriven i), rfl, rfl, rfl, rfl, rfl, rfl⟩
    rcases List.mem_cons.1 hc with rfl | hc
    · exact ⟨_, rfl, State.afterReset_rest .reading nofun _ _ _ _, rfl, fun _ => rfl,
        fun i => State.afterReset_clutch _ _ _ _ _ i (undriven i), rfl, rfl, rfl, rfl, rfl, rfl⟩
    · obtain rfl := List.mem_singleton.1 hc
      obtain ⟨pending, tx, write⟩ := due rfl
      have starts : s.restartDue = true := by rw [State.restartDue, pending, tx, write]; rfl
      exact ⟨_, congrArg Host.Outcome.next (if_pos starts), State.afterReset_rest .reading nofun _ _ _ _, rfl, fun _ => rfl,
        fun i => State.afterReset_clutch _ _ _ _ _ i (driven i), rfl, rfl, rfl, rfl, rfl, rfl⟩
  · refine congrArg Host.Outcome.next ((State.unicast_answered served).trans ?_)
    rw [State.answered_check, State.answered_ok]
    cases s.inputs.key <;> rfl
  · refine congrArg Host.Outcome.next (if_neg fun starts => ?_)
    simp only [State.restartDue, Bool.and_eq_true, Option.isNone_iff_eq_none] at starts
    obtain ⟨⟨pending, tx⟩, write⟩ := starts
    rcases notDue with k | k | k
    · rw [pending] at k; cases k
    · rw [tx] at k; cases k
    · rw [write] at k; cases k

/-! ### Quarter locks (R160 to R163) -/

theorem quarterOfField_of_above {b : Byte} (h : 3 < b.toNat) : quarterOfField b = none :=
  dif_neg (by omega)

theorem quarterOfField_of_eq {b : Byte} {q : Fin 4} (h : b.toNat = q.val) : quarterOfField b = some q := by
  unfold quarterOfField
  rw [dif_pos (h ▸ q.isLt)]
  exact congrArg some (Fin.ext h)

theorem locks_eq_replicate_iff (v : Vector Bool 4) : v = .replicate 4 false ↔ ∀ q : Fin 4, v[q] = false := by
  refine ⟨fun h q => by rw [h]; simp, fun h => Vector.ext fun k hk => ?_⟩
  rw [Vector.getElem_replicate]
  exact h ⟨k, hk⟩

/-- Bit n of the lock byte is the lock of quarter n, and the high bits are clear (log 19). -/
theorem State.lockByte_bits : (∀ q : Fin 4, s.lockByte.getLsbD q.val = s.inForce.locks[q]) ∧ s.lockByte.toNat < 16 := by
  have bits : ∀ a b c d : Bool, ((flagByte [a, b, c, d]).getLsbD 0 = a ∧ (flagByte [a, b, c, d]).getLsbD 1 = b ∧
      (flagByte [a, b, c, d]).getLsbD 2 = c ∧ (flagByte [a, b, c, d]).getLsbD 3 = d) ∧
      (flagByte [a, b, c, d]).toNat < 16 := by decide
  obtain ⟨⟨b0, b1, b2, b3⟩, low⟩ := bits s.inForce.locks[0] s.inForce.locks[1] s.inForce.locks[2] s.inForce.locks[3]
  refine ⟨fun q => ?_, low⟩
  match q with
  | 0 => exact b0
  | 1 => exact b1
  | 2 => exact b2
  | 3 => exact b3

/-- Settles O52, from the rules of the three commands. -/
theorem quarterLocksAreSetAndCleared : Obligations.QuarterLocksAreSetAndCleared := by
  refine fun s len => ⟨fun quarter served => ⟨fun above => ?_, fun q hq => ?_⟩, fun served => ?_, fun served => ?_⟩
  · refine congrArg Host.Outcome.next ((State.unicast_answered served).trans ?_)
    dsimp only
    rw [quarterOfField_of_above above]
    rfl
  · refine congrArg Host.Outcome.next ((State.unicast_answered served).trans ?_)
    dsimp only
    rw [quarterOfField_of_eq hq]
    dsimp only
    rw [State.storeBusy, State.answered_check, State.answered_ok]
    split
    · rfl
    · split <;> rfl
  · refine congrArg Host.Outcome.next ((State.unicast_answered served).trans ?_)
    rw [State.keyAbsent, State.storeBusy, State.answered_check, State.answered_check, State.answered_ok]
    simp only [Bool.not_eq_true', ← locks_eq_replicate_iff]
    split
    · rfl
    · split
      · rfl
      · split <;> rfl
  · obtain ⟨bits, low⟩ := s.lockByte_bits
    refine ⟨s.lockByte, bits, low, congrArg Host.Outcome.next ((State.unicast_answered served).trans ?_)⟩
    simp only [State.answered, State.lockReport]
    cases s.write with
    | none => rfl
    | some w => cases w <;> rfl

/-! ### Stored values (R10, R75, R164 to R167) -/

theorem calibrationFrom_eq (f : CalibrationFields) : calibrationFrom f =
    { zero := f.zero.toNat
      scale := f.scale.toNat
      decimation := max 4 (min f.decimation.toNat 64)
      countsPerMetre := max 100 (min f.countsPerMetre.toNat 4000)
      stowPosition := f.stowPosition.toNat
      maxPayout := max 500 (min f.maxPayout.toNat 12000)
      minLength := min (max 50 (min f.minLength.toNat 2000)) (max 500 (min f.maxPayout.toNat 12000) - 1) } := by
  unfold calibrationFrom
  simp only [clamp_eq_max_min (by decide : 4 ≤ 64), clamp_eq_max_min (by decide : 100 ≤ 4000),
    clamp_eq_max_min (by decide : 500 ≤ 12000), clamp_eq_max_min (by decide : 50 ≤ 2000), Calibration.mk.injEq, true_and]
  split <;> omega

theorem settingsFrom_eq (f : LimitFields) : settingsFrom f =
    { stowTolerance := max 5 (min f.stowTolerance.toNat 100)
      takeOverLimit := max 10 (min f.takeOverLimit.toNat 600)
      readyLimit := max 100 (min f.readyLimit.toNat 10000)
      motionLimit := max 5 (min f.motionLimit.toNat 120)
      rewindLimit := max 30 (min f.rewindLimit.toNat 900)
      gearLimit := max 200 (min f.gearLimit.toNat 3000)
      snagLimit := max 50 (min f.snagLimit.toNat 2000) } := by
  unfold settingsFrom
  rw [clamp_eq_max_min (by decide), clamp_eq_max_min (by decide), clamp_eq_max_min (by decide),
    clamp_eq_max_min (by decide), clamp_eq_max_min (by decide), clamp_eq_max_min (by decide),
    clamp_eq_max_min (by decide)]

theorem State.setChannel_self : s.setChannel i (s.channel i) = s := by
  have : s.channels.set i.val s.channels[i] i.isLt = s.channels := Vector.set_getElem_self _
  rw [State.setChannel, State.channel, this]

/-- A station's new calibration as one equation (R10, R75, R166). -/
theorem State.calibrated_state {count : Nat} (h : (s.station i).position = some count) (new : Calibration) :
    s.calibrated i new =
      { (s.setStation i ((s.station i).measured new count)).setChannel i
          (if new.decimation = (s.calibration i).decimation then s.channel i
          else { s.channel i with sum := 0, count := 0 }) with
        inForce := { s.inForce with calibrations := s.inForce.calibrations.set i.val new i.isLt }
        alert := if new.maxPayout < new.rawLength count ∧ (s.station i).beyondPmax = false then s.alertAfter i .limit
          else s.alert } := by
  have channels : (s.recalibrated i new).channels = (s.setChannel i
      (if new.decimation = (s.calibration i).decimation then s.channel i
        else { s.channel i with sum := 0, count := 0 })).channels := by
    unfold State.recalibrated
    by_cases same : (s.calibration i).decimation = new.decimation
    · rw [if_pos same, if_pos same.symm, State.setChannel_self]
    · rw [if_neg same, if_neg fun k => same k.symm]
      rfl
  have calibration := State.recalibrated_calibration (s := s) (i := i) new i
  have only := State.recalibrated_only (s := s) (i := i) new
  rw [channels] at only
  rw [if_pos rfl] at calibration
  rw [State.calibrated_eq, State.updateLength_eq (count := count) (by rw [only]; exact h), calibration, only]
  rfl

/-- Settles O53, from the clamps, the length worked out afresh and the groups of a write. -/
theorem storedValuesChange : Obligations.StoredValuesChange := by
  refine fun s len h => ⟨fun st f i served named known => ?_, fun f served => ?_, ?_⟩
  · obtain ⟨position, -, -⟩ := h.gear.known i known
    obtain ⟨count, position⟩ := Option.isSome_iff_exists.1 position
    refine congrArg Host.Outcome.next ((State.unicast_answered served).trans ?_)
    rw [s.withStation_of_known _ named known, State.keyAbsent, State.storeBusy, State.answered_check,
      State.answered_check, State.answered_ok, State.calibrated_state position, calibrationFrom_eq, position]
    simp only [Bool.not_eq_true']
    rfl
  · refine congrArg Host.Outcome.next ((State.unicast_answered served).trans ?_)
    rw [State.keyAbsent, State.storeBusy, State.answered_check, State.answered_check, State.answered_ok, settingsFrom_eq]
    simp only [Bool.not_eq_true']
  · refine congrArg Host.Outcome.next ?_
    cases s.write with
    | none => rfl
    | some w => cases w <;> rfl

end Sys2Proof.Machine
end

