-- ==== Sys2Proof/Proofs/Reports.lean ====
section
/-! PROOF. The three reports of the link, byte by byte: STATUS, QUERY-CALL and QUERY (10 section 10.5). -/

namespace Sys2Proof.Machine

variable {s : State}

/-! ### Bytes, words and flags of a report -/

/-- Bit n of a flag byte is flag n. -/
theorem flagByte_getLsbD (flags : List Bool) {k : Nat} (h : k < 8) :
    (flagByte flags).getLsbD k = flags.getD k false := by
  induction flags generalizing k with
  | nil => simp [flagByte]
  | cons f flags ih =>
    have step : flagByte (f :: flags) = (flagByte flags <<< 1) ||| (if f then 1 else 0) := rfl
    rw [step, BitVec.getLsbD_or]
    cases k with
    | zero => cases f <;> simp
    | succ k =>
      have bit : (if f then 1 else 0 : Byte).getLsbD (k + 1) = false := by
        cases f
        · simp
        · simp [BitVec.getLsbD_one]
      rw [bit, Bool.or_false, BitVec.getLsbD_shiftLeft]
      simp only [h, decide_true, Bool.true_and]
      rw [Nat.add_sub_cancel, ih (by omega)]
      simp

/-- A byte of one of many parts of equal length. -/
theorem byteAt_flatMap {α : Type} {f : α → List Byte} {n : Nat} {l : List α} (len : ∀ x ∈ l, (f x).length = n)
    {k : Nat} {x : α} (h : l[k]? = some x) {o : Nat} (ho : o < n) : byteAt (l.flatMap f) (n * k + o) = byteAt (f x) o := by
  induction l generalizing k with
  | nil => cases h
  | cons y l ih =>
    have first := len y List.mem_cons_self
    rw [List.flatMap_cons]
    cases k with
    | zero =>
      cases h
      simp only [byteAt, List.getD_eq_getElem?_getD]
      rw [Nat.mul_zero, Nat.zero_add, List.getElem?_append_left (by omega)]
    | succ k =>
      have := byteAt_append (f y) (l.flatMap f) (n * k + o)
      rw [show n * (k + 1) + o = (f y).length + (n * k + o) by rw [first, Nat.mul_succ]; omega, this]
      exact ih (fun z hz => len z (List.mem_cons_of_mem _ hz)) h

theorem wordAt_flatMap {α : Type} {f : α → List Byte} {n : Nat} {l : List α} (len : ∀ x ∈ l, (f x).length = n)
    {k : Nat} {x : α} (h : l[k]? = some x) {o : Nat} (ho : o + 1 < n) :
    wordAt (l.flatMap f) (n * k + o) = wordAt (f x) o := by
  unfold wordAt
  rw [byteAt_flatMap len h (by omega), Nat.add_assoc, byteAt_flatMap len h ho]

theorem flatMap_length {α : Type} {f : α → List Byte} {n : Nat} {l : List α} (len : ∀ x ∈ l, (f x).length = n) :
    (l.flatMap f).length = n * l.length := by
  induction l with
  | nil => rfl
  | cons y l ih =>
    rw [List.flatMap_cons, List.length_append, len y List.mem_cons_self,
      ih fun z hz => len z (List.mem_cons_of_mem _ hz), List.length_cons, Nat.mul_succ]
    omega

/-! ### STATUS (R176) -/

/-- The bits of a number that is a sum of powers of two, one for each station. -/
theorem sum_bits (f : Fin 16 → Bool) :
    (allStations.map (fun i => if f i then 2 ^ i.val else 0)).sum = Nat.ofBits f := by
  have bit : ∀ (b : Bool) (n : Nat), (if b then n else 0) = n * b.toNat := by intro b n; cases b <;> simp
  simp only [bit, Nat.ofBits_succ, Nat.ofBits_zero, allStations, List.map_cons, List.map_nil, List.sum_cons, List.sum_nil,
    Function.comp_apply]
  generalize hg : (fun i => (f i).toNat) = g
  have e : ∀ i, (f i).toNat = g i := fun i => by rw [← hg]
  simp only [e]
  change 2 ^ 0 * g 0 + (2 ^ 1 * g 1 + (2 ^ 2 * g 2 + (2 ^ 3 * g 3 + (2 ^ 4 * g 4 + (2 ^ 5 * g 5 + (2 ^ 6 * g 6 + (2 ^ 7 * g 7 +
    (2 ^ 8 * g 8 + (2 ^ 9 * g 9 + (2 ^ 10 * g 10 + (2 ^ 11 * g 11 + (2 ^ 12 * g 12 + (2 ^ 13 * g 13 + (2 ^ 14 * g 14 +
    (2 ^ 15 * g 15 + 0))))))))))))))) = 2 * (2 * (2 * (2 * (2 * (2 * (2 * (2 * (2 * (2 * (2 * (2 * (2 * (2 * (2 * (2 * 0 +
    g 15) + g 14) + g 13) + g 12) + g 11) + g 10) + g 9) + g 8) + g 7) + g 6) + g 5) + g 4) + g 3) + g 2) + g 1) + g 0
  omega
/-- The stations with an attention reason, as a number of 16 bits. -/
theorem State.attentionSet_bits (i : StationId) :
    (BitVec.ofNat 16 s.attentionSet).getLsbD i.val = ((s.station i).attention != .none) := by
  have bits : s.attentionSet = Nat.ofBits (fun j : Fin 16 => (s.station j).attention != .none) := by
    rw [← sum_bits]
    unfold State.attentionSet
    congr 2
    funext j
    by_cases h : (s.station j).attention = .none <;> simp [h]
  rw [BitVec.getLsbD_ofNat, bits, Nat.testBit_ofBits_lt _ _ i.isLt]
  simp

theorem byteAt_append_left {p : List Byte} (q : List Byte) {k : Nat} (h : k < p.length) :
    byteAt (p ++ q) k = byteAt p k := by
  simp only [byteAt, List.getD_eq_getElem?_getD]
  rw [List.getElem?_append_left h]

theorem byteAt_zeros (n k : Nat) : byteAt (List.replicate n 0) k = 0 := by
  simp only [byteAt, List.getD_eq_getElem?_getD, List.getElem?_replicate]
  split <;> rfl

/-- The call slots of the status report: one for each call, the rest 0. -/
theorem callSlots {l : List Call} (few : l.length ≤ 4) :
    let bytes := (l.take 4).flatMap callSlot ++ List.replicate (4 * (4 - l.length)) 0
    bytes.length = 16 ∧ (∀ o, 4 * l.length ≤ o → byteAt bytes o = 0) ∧
      ∀ k, ∀ c ∈ l[k]?, wordAt bytes (4 * k) = BitVec.ofNat 16 c.tag ∧ byteAt bytes (4 * k + 2) = c.berth.code ∧
        byteAt bytes (4 * k + 3) = c.state.code := by
  have parts : ∀ c ∈ l, (callSlot c).length = 4 := fun c _ => rfl
  have length := flatMap_length parts
  rw [List.take_of_length_le few]
  refine ⟨?_, fun o ho => ?_, fun k c hc => ?_⟩
  · rw [List.length_append, length, List.length_replicate]
    omega
  · obtain ⟨d, rfl⟩ := Nat.exists_eq_add_of_le ho
    rw [← length, byteAt_append, byteAt_zeros]
  · have inside : k < l.length := by
      by_contra k'
      rw [List.getElem?_eq_none (Nat.le_of_not_lt k')] at hc
      cases hc
    have at' : ∀ o < 4, byteAt (l.flatMap callSlot ++ List.replicate (4 * (4 - l.length)) 0) (4 * k + o) =
        byteAt (callSlot c) o := fun o ho => by
      rw [byteAt_append_left _ (by rw [length]; omega), byteAt_flatMap parts hc ho]
    refine ⟨?_, at' 2 (by decide), at' 3 (by decide)⟩
    unfold wordAt
    have first := at' 0 (by decide)
    rw [Nat.add_zero] at first
    rw [first, at' 1 (by decide)]
    exact append_extract_word _

/-- The first 15 bytes of the status report. -/
def State.statusHead (s : State) : List Byte :=
  num2 s.attentionSet ++ allUnits.flatMap (fun u => [(s.unit u).state.code, optByte ((s.unit u).served.map Fin.val)]) ++
    [s.lockByte, flagByte [s.hold, s.inputs.hold, s.inputs.key, s.permitA, s.permitB, s.alert],
      s.inForce.alertMode.code ||| (s.inForce.alertPolarity.code <<< 2),
      (match s.latch with
        | none => 0
        | some c => c.code),
      num1 s.calls.length]

theorem State.statusReport_eq : s.statusReport =
    s.statusHead ++ ((s.calls.take 4).flatMap callSlot ++ List.replicate (4 * (4 - s.calls.length)) 0) := rfl

theorem AlertMode.code_bits (m : AlertMode) (p : AlertPolarity) :
    (m.code ||| (p.code <<< 2)).extractLsb' 0 2 = m.code.extractLsb' 0 2 ∧
      (m.code ||| (p.code <<< 2)).getLsbD 2 = (p == .activeHigh) := by
  cases m <;> cases p <;> decide

/-- Settles O9, from the head of the report and its call slots. -/
theorem statusReportsThePart : Obligations.StatusReportsThePart := by
  refine ⟨⟨rfl, rfl, rfl, rfl, rfl⟩, fun s len few served => ⟨s.statusReport,
    congrArg Host.Outcome.next (s.unicast_accepted _ len _ served rfl), ?_⟩⟩
  obtain ⟨length, zero, slots⟩ := callSlots few
  have head : s.statusHead.length = 15 := rfl
  have front : ∀ k < 15, byteAt s.statusReport k = byteAt s.statusHead k := fun k hk => byteAt_append_left _ hk
  have back : ∀ k, byteAt s.statusReport (15 + k) = _ := fun k => byteAt_append s.statusHead _ k
  have flags : ∀ k < 8, (byteAt s.statusReport 11).getLsbD k =
      [s.hold, s.inputs.hold, s.inputs.key, s.permitA, s.permitB, s.alert].getD k false := fun k hk => by
    rw [front 11 (by decide)]
    exact flagByte_getLsbD _ hk
  have modes := AlertMode.code_bits s.inForce.alertMode s.inForce.alertPolarity
  refine ⟨?_, fun i => ?_, fun u => ⟨?_, ?_⟩, fun q => ?_, flags 0 (by decide), flags 1 (by decide), flags 2 (by decide),
    flags 3 (by decide), flags 4 (by decide), flags 5 (by decide), ?_, ?_, ?_, ?_, fun o ho => ?_, fun k c hc => ?_⟩
  · rw [State.statusReport_eq, List.length_append, length, head]
  · rw [← State.attentionSet_bits, show wordAt s.statusReport 0 = BitVec.ofNat 16 s.attentionSet from
      append_extract_word _]
  · rw [front _ (by have := u.isLt; omega)]
    match u with
    | 0 | 1 | 2 | 3 => rfl
  · rw [front _ (by have := u.isLt; omega)]
    have served : byteAt s.statusHead (3 + 2 * u.val) = optByte ((s.unit u).served.map Fin.val) := by
      match u with
      | 0 | 1 | 2 | 3 => rfl
    rw [served]
    cases (s.unit u).served <;> rfl
  · rw [front 10 (by decide)]
    exact s.lockByte_bits.1 q
  · rw [front 12 (by decide)]
    exact modes.1
  · rw [front 12 (by decide)]
    exact modes.2
  · rw [front 13 (by decide)]
    rfl
  · rw [front 14 (by decide)]
    rfl
  · obtain ⟨d, hd⟩ := Nat.exists_eq_add_of_le (Nat.le_of_add_right_le ho)
    rw [hd, back]
    exact zero d (by omega)
  · obtain ⟨tag, berth, state⟩ := slots k.val c hc
    refine ⟨?_, ?_, ?_⟩
    · unfold wordAt
      rw [back, Nat.add_assoc, back]
      exact tag
    · rw [show 17 + 4 * k.val = 15 + (4 * k.val + 2) by omega, back]
      exact berth
    · rw [show 18 + 4 * k.val = 15 + (4 * k.val + 3) by omega, back]
      exact state

/-! ### QUERY-CALL (R52) -/

theorem lowestRank_cases (l : List Nat) :
    (l = [] ∧ lowestRank l = none) ∨ ∃ m ∈ l, lowestRank l = some m ∧ ∀ x ∈ l, m ≤ x := by
  induction l with
  | nil => exact .inl ⟨rfl, rfl⟩
  | cons r rs ih =>
    right
    rcases ih with ⟨rfl, e⟩ | ⟨m, hm, e, least⟩
    · exact ⟨r, List.mem_singleton_self r, rfl, fun x hx => (List.mem_singleton.1 hx).ge⟩
    · refine ⟨min r m, ?_, by rw [lowestRank, e], fun x hx => ?_⟩
      · rcases Nat.le_total r m with h | h
        · rw [Nat.min_eq_left h]; exact List.mem_cons_self
        · rw [Nat.min_eq_right h]; exact List.mem_cons_of_mem _ hm
      · rcases List.mem_cons.1 hx with rfl | hx
        · exact Nat.min_le_left _ _
        · exact (Nat.min_le_right _ _).trans (least x hx)

theorem State.mem_holdingRanks {c : Call} {rank : Nat} : rank ∈ s.holdingRanks c ↔
    ∃ i ∈ c.list, s.holding i = true ∧ (s.mooring i).bind Mooring.letGoRank = some rank := by
  simp [State.holdingRanks, List.mem_filterMap, List.mem_filter, and_assoc]

/-- The first 11 bytes of the call report. -/
def State.callHead (s : State) (c : Call) : List Byte :=
  num2 c.tag ++ [c.berth.code, c.state.code, num1 c.minLines, num1 c.steadyNeed, flagByte [s.permit c.berth],
    num1 c.list.length, num1 (c.list.filter s.holding).length, num1 (c.list.filter (s.steadyFor c.steadyNeed)).length,
    num1 ((lowestRank (s.holdingRanks c)).getD 0)]

theorem State.callReport_eq (c : Call) : s.callReport c = s.callHead c ++ c.list.flatMap (s.callEntry c) := rfl

/-- Ranks fit one byte (R25). -/
theorem State.Inv.rank_range (h : s.Inv) {i : StationId} {rank : Nat}
    (e : (s.mooring i).bind Mooring.letGoRank = some rank) : 1 ≤ rank ∧ rank ≤ 16 := by
  obtain ⟨r, hr, hrank⟩ := Option.bind_eq_some_iff.1 e
  obtain ⟨-, -, -, -, -, -, -, -, -, -, -, -, range⟩ := h.records.valid i r hr
  exact range rank hrank

/-- Settles O10, from the head of the report, its entries and the lowest of the holding ranks. -/
theorem queryCallReportsTheCall : Obligations.QueryCallReportsTheCall := by
  refine fun s len tag h served => ⟨fun absent => ?_, fun c hc tagged => ⟨s.callReport c, ?_, ?_⟩⟩
  · have none : s.callOf tag.toNat = none := State.callOf_none.2 fun x hx => by
      simpa using List.all_eq_true.1 absent x hx
    exact congrArg Host.Outcome.next (s.unicast_refused _ len _ served (by rw [none]))
  · have some : s.callOf tag.toNat = some c := by rw [← tagged]; exact h.calls.listsOk.callOf hc
    exact congrArg Host.Outcome.next (s.unicast_accepted _ len _ served (by rw [some]))
  have parts : ∀ i ∈ c.list, (s.callEntry c i).length = 5 := fun _ _ => rfl
  have head : (s.callHead c).length = 11 := rfl
  have front : ∀ k < 11, byteAt (s.callReport c) k = byteAt (s.callHead c) k := fun k hk => byteAt_append_left _ hk
  have back : ∀ k, byteAt (s.callReport c) (11 + k) = _ := fun k => byteAt_append (s.callHead c) _ k
  have lowest : byteAt (s.callReport c) 10 = num1 ((lowestRank (s.holdingRanks c)).getD 0) := front 10 (by decide)
  refine ⟨?_, ?_, front 2 (by decide), front 3 (by decide), front 4 (by decide), front 5 (by decide), ?_,
    front 7 (by decide), ?_, ?_, fun i hi holds rank hrank => ?_, ?_, fun k i hi => ?_⟩
  · rw [State.callReport_eq, List.length_append, head, flatMap_length parts]
  · rw [show wordAt (s.callReport c) 0 = BitVec.ofNat 16 c.tag from append_extract_word _, tagged, BitVec.ofNat_toNat,
      BitVec.setWidth_eq]
  · rw [front 6 (by decide)]
    change flagByte [s.permit c.berth] = _
    cases s.permit c.berth <;> rfl
  · rw [front 8 (by decide), List.countP_eq_length_filter]
    rfl
  · rw [front 9 (by decide), List.countP_eq_length_filter]
    rfl
  · have mem : rank ∈ s.holdingRanks c := State.mem_holdingRanks.2 ⟨i, hi, holds, hrank⟩
    rcases lowestRank_cases (s.holdingRanks c) with ⟨e, -⟩ | ⟨m, hm, e, least⟩
    · rw [e] at mem; cases mem
    · obtain ⟨j, -, -, hj⟩ := State.mem_holdingRanks.1 hm
      have range := h.rank_range hj
      rw [lowest, e, Option.getD_some, num1, BitVec.toNat_ofNat, Nat.mod_eq_of_lt (by omega)]
      exact ⟨range.1, least rank mem⟩
  · rw [lowest]
    rcases lowestRank_cases (s.holdingRanks c) with ⟨-, e⟩ | ⟨m, hm, e, -⟩
    · left; rw [e]; rfl
    · obtain ⟨j, mem, holds, hj⟩ := State.mem_holdingRanks.1 hm
      have range := h.rank_range hj
      refine .inr ⟨j, mem, holds, ?_⟩
      rw [e, Option.getD_some, num1, BitVec.toNat_ofNat, Nat.mod_eq_of_lt (by omega)]
      exact hj
  · have entry : ∀ o < 5, byteAt (s.callReport c) (11 + 5 * k.val + o) = byteAt (s.callEntry c i) o := fun o ho => by
      rw [Nat.add_assoc, back, byteAt_flatMap parts hi ho]
    have flags : ∀ b < 8, (byteAt (s.callReport c) (11 + 5 * k.val + 2)).getLsbD b =
        [s.holding i, s.steadyFor c.steadyNeed i, (s.mooring i).any Mooring.stale].getD b false := fun b hb => by
      rw [entry 2 (by decide)]
      exact flagByte_getLsbD _ hb
    have place : ∀ o, 11 + o + 5 * k.val = 11 + 5 * k.val + o := fun o => by omega
    rw [place 1, place 2, place 3, place 4]
    exact ⟨entry 0 (by decide), entry 1 (by decide), flags 0 (by decide), flags 1 (by decide), flags 2 (by decide),
      entry 3 (by decide), entry 4 (by decide)⟩

end Sys2Proof.Machine
end

