-- ==== Sys2Proof/Proofs/StationReports.lean ====
section
/-! PROOF. The QUERY report: the 59 bytes of a station, and what its reset of attention reasons leaves (R24, R40 to R43). -/

namespace Sys2Proof.Machine

variable {s : State}

/-! ### Parts of an entry -/

theorem lockBit_eq (p : LockPos) : lockBit p = (p == .unlocked) := by cases p <;> rfl

theorem clutchBit_eq (p : ClutchPos) : clutchBit p = (p == .free) := by cases p <;> rfl

theorem clutchBit_any (p : Option ClutchPos) : p.any clutchBit = (p == some .free) := by
  rcases p with _ | _ | _ <;> rfl

/-- The flags of the commanded gear and the step in flight (R41). -/
theorem Station.gearByte_bits (x : Station) (b : Fin 8) : x.gearByte.getLsbD b.val =
    [x.cmdLock == .unlocked, x.cmdClutch == some .free, x.step.isSome, x.step.any (fun g => g.lock == .unlocked),
      x.step.any (fun g => g.clutch == .free), false, false, false][b.val] := by
  unfold Station.gearByte
  rw [flagByte_getLsbD _ b.isLt]
  simp only [lockBit_eq, clutchBit_any, clutchBit_eq]
  match b with
  | 0 | 1 | 2 | 3 | 4 | 5 | 6 | 7 => rfl

/-- The sensed gear and the take-over timer (R41). -/
theorem Station.senseByte_bits (x : Station) :
    x.senseByte.extractLsb' 0 2 = senseCode (x.senLock.map (fun p => p == .unlocked)) ∧
      x.senseByte.extractLsb' 2 2 = senseCode (x.senClutch.map (fun p => p == .free)) ∧
      x.senseByte.getLsbD 4 = x.takeOver.any (fun o => o.timer.isSome) ∧
      x.senseByte.getLsbD 5 = x.takeOver.any (fun o => o.timer.isNone) ∧
      x.senseByte.extractLsb' 6 2 = (0 : BitVec 2) := by
  have bits : ∀ (a b : Option Bool) (c d : Bool),
      (flagByte (senseBits a ++ senseBits b ++ [c, d])).extractLsb' 0 2 = senseCode a ∧
      (flagByte (senseBits a ++ senseBits b ++ [c, d])).extractLsb' 2 2 = senseCode b ∧
      (flagByte (senseBits a ++ senseBits b ++ [c, d])).getLsbD 4 = c ∧
      (flagByte (senseBits a ++ senseBits b ++ [c, d])).getLsbD 5 = d ∧
      (flagByte (senseBits a ++ senseBits b ++ [c, d])).extractLsb' 6 2 = (0 : BitVec 2) := by
    decide
  have lock : x.senLock.map lockBit = x.senLock.map (fun p => p == .unlocked) := by
    congr 1; exact funext lockBit_eq
  have clutch : x.senClutch.map clutchBit = x.senClutch.map (fun p => p == .free) := by
    congr 1; exact funext clutchBit_eq
  unfold Station.senseByte
  rw [lock, clutch]
  exact bits _ _ _ _

theorem wordAt_zeros : wordAt [0, 0] 0 = 0 := by decide

/-- Two bytes of remaining work (R41). -/
theorem remainingBytes_reads (remaining : Option Nat) :
    ∃ a b, remainingBytes remaining = [a, b] ∧ remainingReads (a ++ b) remaining := by
  cases remaining with
  | none => exact ⟨0xFF, 0xFF, rfl, by unfold remainingReads; decide⟩
  | some n =>
    by_cases fits : n < 65536
    · exact ⟨_, _, if_pos fits, fun _ => append_extract_word _⟩
    · exact ⟨_, _, if_neg fits, fun k => absurd k fits⟩

theorem operation_bits (d c r : Bool) (p : Fin 4) :
    let b := flagByte [d, c, r] ||| (BitVec.ofNat 8 p.val <<< 4)
    b.getLsbD 0 = d ∧ b.getLsbD 1 = c ∧ b.getLsbD 2 = r ∧ b.extractLsb' 4 3 = BitVec.ofNat 3 p.val := by
  revert d c r p
  decide

theorem Direction.bit_eq (d : Direction) : d.bit = (d == .outward) := by cases d <;> rfl

/-- The four bytes of an operation (10 section 10.5). -/
theorem operationBytes_reads (w : Work) (retry : Bool) (phase : Fin 4) (remaining : Option Nat) :
    ∃ b x y, operationBytes w retry (BitVec.ofNat 8 phase.val) remaining = [w.opClass.code, b, x, y] ∧
      b.getLsbD 0 = (w.direction == .outward) ∧ b.getLsbD 1 = w.critical ∧ b.getLsbD 2 = retry ∧
      b.extractLsb' 4 3 = BitVec.ofNat 3 phase.val ∧ remainingReads (x ++ y) remaining := by
  obtain ⟨x, y, e, reads⟩ := remainingBytes_reads remaining
  obtain ⟨outward, critical, retried, coded⟩ := operation_bits w.direction.bit w.critical retry phase
  exact ⟨_, x, y, by rw [operationBytes, e]; rfl, outward.trans (Direction.bit_eq _), critical, retried, coded, reads⟩

/-- What the four work bytes say of a station's operation (R41). -/
theorem State.workBytes_reads (j : StationId) :
    (s.reportedWork j = none ∧ s.workBytes j = [0, 0, 0, 0]) ∨
      ∃ p, s.reportedWork j = some p ∧ ∃ b x y, s.workBytes j = [p.1.opClass.code, b, x, y] ∧
        b.getLsbD 0 = (p.1.direction == .outward) ∧ b.getLsbD 1 = p.1.critical ∧ b.getLsbD 2 = p.2.1 ∧
        b.extractLsb' 4 3 = BitVec.ofNat 3 p.2.2.1 ∧ remainingReads (x ++ y) p.2.2.2 := by
  unfold State.reportedWork State.workBytes
  cases (s.station j).active with
  | some a =>
    right
    obtain ⟨w, retry, phase⟩ := a
    cases phase with
    | awaiting =>
      refine ⟨_, rfl, ?_⟩
      have := operationBytes_reads w retry 3 (ActiveOp.reportedRemaining ⟨w, retry, .awaiting⟩)
      cases w <;> exact this
    | granted =>
      refine ⟨_, rfl, ?_⟩
      have := operationBytes_reads w retry 1 (ActiveOp.reportedRemaining ⟨w, retry, .granted⟩)
      cases w <;> exact this
    | moving m =>
      refine ⟨_, rfl, ?_⟩
      have := operationBytes_reads w retry 2 (ActiveOp.reportedRemaining ⟨w, retry, .moving m⟩)
      cases w <;> exact this
    | ended m =>
      refine ⟨_, rfl, ?_⟩
      have := operationBytes_reads w retry 2 (ActiveOp.reportedRemaining ⟨w, retry, .ended m⟩)
      cases w <;> exact this
  | none =>
    cases s.requestOf j with
    | some q =>
      right
      refine ⟨_, rfl, ?_⟩
      have := operationBytes_reads q.work q.retryUsed 0 q.work.waitingRemaining
      obtain ⟨i, w, b⟩ := q
      cases w <;> exact this
    | none => exact .inl ⟨rfl, rfl⟩

/-- What the four parked bytes say (R41). -/
theorem Station.parkedBytes_reads (x : Station) :
    (x.parked = none ∧ x.parkedBytes = [0, 0, 0, 0]) ∨
      ∃ p, x.parked = some p ∧ ∃ b y z, x.parkedBytes = [p.work.opClass.code, b, y, z] ∧
        b.getLsbD 0 = (p.work.direction == .outward) ∧ b.getLsbD 2 = p.retryUsed ∧
        remainingReads (y ++ z) (match p.work with
          | .slacken length => some length
          | .trim _ _ | .heave | .rewind => none) := by
  unfold Station.parkedBytes
  cases x.parked with
  | none => exact .inl ⟨rfl, rfl⟩
  | some p =>
    right
    obtain ⟨y, z, e, reads⟩ := remainingBytes_reads p.work.waitingRemaining
    have bits : ∀ d r : Bool, (flagByte [d, false, r]).getLsbD 0 = d ∧ (flagByte [d, false, r]).getLsbD 2 = r := by
      decide
    obtain ⟨outward, retried⟩ := bits p.work.direction.bit p.retryUsed
    exact ⟨p, rfl, _, y, z, congrArg (_ ++ ·) e, outward.trans (Direction.bit_eq _), retried, reads⟩

/-- The window's bytes, one word for each of its eight slots (R42). -/
theorem windowBytes_reads {w : List Nat} (h : w.length ≤ 8) (rest : List Byte) : (windowBytes w).length = 17 ∧
    byteAt (windowBytes w ++ rest) 0 = num1 w.length ∧
      ∀ slot : Fin 8, wordAt (windowBytes w ++ rest) (1 + 2 * slot.val) = BitVec.ofNat 16 (w[slot.val]?.getD 0) := by
  have parts : ∀ v ∈ w, (num2 v).length = 2 := fun _ _ => rfl
  have length := flatMap_length parts
  have eq : windowBytes w = [num1 w.length] ++ (w.flatMap num2 ++ List.replicate (2 * (8 - w.length)) 0) := by
    unfold windowBytes
    rw [List.take_of_length_le h]
    rfl
  have total : (windowBytes w).length = 17 := by
    rw [eq, List.length_append, List.length_append, length, List.length_replicate, List.length_singleton]
    omega
  refine ⟨total, rfl, fun slot => ?_⟩
  have inside : ∀ o < 17, byteAt (windowBytes w ++ rest) o = byteAt (windowBytes w) o := fun o ho =>
    byteAt_append_left _ (by omega)
  have word : wordAt (windowBytes w ++ rest) (1 + 2 * slot.val) =
      wordAt (w.flatMap num2 ++ List.replicate (2 * (8 - w.length)) 0) (2 * slot.val) := by
    have : ∀ k, byteAt ([num1 w.length] ++ (w.flatMap num2 ++ List.replicate (2 * (8 - w.length)) 0)) (1 + k) = _ :=
      fun k => byteAt_append [num1 w.length] _ k
    unfold wordAt
    rw [inside _ (by omega), inside _ (by omega), eq, Nat.add_assoc, this, this]
  rw [word]
  by_cases used : slot.val < w.length
  · have slotIs : w[slot.val]? = some w[slot.val] := List.getElem?_eq_getElem used
    have left : ∀ k < 2 * w.length, byteAt (w.flatMap num2 ++ List.replicate (2 * (8 - w.length)) 0) k =
        byteAt (w.flatMap num2) k := fun k hk => byteAt_append_left _ (by omega)
    have read : wordAt (w.flatMap num2) (2 * slot.val) = BitVec.ofNat 16 w[slot.val] := by
      have := wordAt_flatMap parts slotIs (o := 0) (by omega)
      rw [Nat.add_zero] at this
      rw [this]
      exact append_extract_word _
    unfold wordAt at read ⊢
    rw [left _ (by omega), left _ (by omega), read, slotIs]
    rfl
  · have zero : ∀ k, 2 * w.length ≤ k → byteAt (w.flatMap num2 ++ List.replicate (2 * (8 - w.length)) 0) k = 0 := by
      intro k hk
      obtain ⟨m, rfl⟩ := Nat.exists_eq_add_of_le hk
      rw [← length, byteAt_append, byteAt_zeros]
    unfold wordAt
    rw [zero _ (by omega), zero _ (by omega), List.getElem?_eq_none (by omega)]
    rfl

/-- A station without a record has nothing of a record in its channel (R69, R80). -/
theorem State.Inv.channel_of_noRecord (h : s.Inv) {j : StationId} (none : s.mooring j = none) :
    { (s.channel j).emptied with critCondition := false, critCount := 0 } = s.channel j := by
  obtain ⟨count, condition⟩ := h.channels.noRecord j none
  have moored : (s.station j).state.moored = false := by
    cases m : (s.station j).state.moored with
    | false => rfl
    | true => have := h.records.present j m; rw [none] at this; cases this
  have empty := h.channels.window j
  rw [or_iff_right (fun k => by rw [k] at moored; cases moored),
    or_iff_right (fun k => by rw [k] at moored; cases moored)] at empty
  obtain ⟨window, isOver, isSlack⟩ := empty
  obtain ⟨-, -, -, -, -, overCount, slackCount, surging, -⟩ := h.channels.inRange j
  rw [window] at overCount slackCount
  rw [isOver, isSlack] at surging
  have overCount := Nat.le_zero.1 overCount
  have slackCount := Nat.le_zero.1 slackCount
  generalize s.channel j = c at *
  obtain ⟨⟩ := c
  simp only [Channel.emptied] at *
  subst count condition window isOver isSlack surging overCount slackCount
  rfl

/-! ### The entry of a station -/

/-- The nine bytes of an entry before its record. -/
def State.entryHead (s : State) (j : StationId) : List Byte :=
  [num1 j.val, (s.station j).state.code,
    flagByte [(s.mooring j).isSome, (s.mooring j).any Mooring.stale, (s.mooring j).any Mooring.autoRelease,
      (s.station j).beyondPmax, (s.channel j).isOver, (s.channel j).isSlack, (s.channel j).isSurging,
      (s.channel j).critCondition],
    (s.station j).gearByte, (s.station j).senseByte,
    (match (s.station j).takeOver with
      | none => 0xFF
      | some t => t.returnState.code)] ++
    num2 (s.station j).length ++ [optByte ((s.station j).unit.map Fin.val)]

/-- The two bytes of the latest reading. -/
def latestBytes (latest : Option Nat) : List Byte :=
  match latest with
  | none => [0xFF, 0xFF]
  | some v => num2 v

/-- The five bytes of the counters. -/
def Channel.counterBytes (c : Channel) : List Byte :=
  [num1 c.overCount, num1 c.slackCount, num1 c.critCount, num1 c.steady, num1 c.valid]

/-- An entry in its parts; under the invariant the channel of a station without a record reports as it stands. -/
theorem State.Inv.entryBytes_eq (h : s.Inv) (j : StationId) : s.entryBytes j =
    s.entryHead j ++ (recordBytes (s.mooring j) ++ (latestBytes (s.channel j).latest ++
      (windowBytes (s.channel j).window ++ ((s.channel j).counterBytes ++ (s.workBytes j ++
        ((s.station j).parkedBytes ++ [(s.station j).stopCause.code, (s.station j).attention.code])))))) := by
  have channel : (if (s.mooring j).isSome then s.channel j
      else { (s.channel j).emptied with critCondition := false, critCount := 0 }) = s.channel j := by
    split
    · rfl
    · next absent => exact h.channel_of_noRecord (Option.not_isSome_iff_eq_none.1 absent)
  unfold State.entryBytes
  simp only [channel, List.append_assoc]
  rfl

theorem recordBytes_length (m : Option Mooring) : (recordBytes m).length = 16 := by
  cases m <;> rfl

theorem latestBytes_length (l : Option Nat) : (latestBytes l).length = 2 := by
  cases l <;> rfl

theorem State.workBytes_length (j : StationId) : (s.workBytes j).length = 4 := by
  rcases s.workBytes_reads j with ⟨-, e⟩ | ⟨p, -, b, x, y, e, -⟩ <;> rw [e] <;> rfl

theorem Station.parkedBytes_length (x : Station) : x.parkedBytes.length = 4 := by
  rcases x.parkedBytes_reads with ⟨-, e⟩ | ⟨p, -, b, y, z, e, -⟩ <;> rw [e] <;> rfl

/-- The bytes behind the first n of a text. -/
theorem byteAt_behind {p q : List Byte} {n : Nat} (len : p.length = n) (k : Nat) :
    byteAt (p ++ q) (n + k) = byteAt q k := by
  rw [← len]
  exact byteAt_append p q k

theorem wordAt_behind {p q : List Byte} {n : Nat} (h : ∀ k, byteAt p (n + k) = byteAt q k) (k : Nat) :
    wordAt p (n + k) = wordAt q k := by
  unfold wordAt
  rw [Nat.add_assoc, h, h]

/-- The bytes of a record in an entry (R25, 10 section 10.5). -/
theorem recordBytes_reads (m : Option Mooring) (rest : List Byte) :
    (m = none → ∀ o < 16, byteAt (recordBytes m ++ rest) o = 0) ∧
      ∀ r ∈ m, wordAt (recordBytes m ++ rest) 0 = BitVec.ofNat 16 r.tag ∧ byteAt (recordBytes m ++ rest) 2 = r.role.code ∧
        wordAt (recordBytes m ++ rest) 3 = BitVec.ofNat 16 r.slackLimit ∧
        wordAt (recordBytes m ++ rest) 5 = BitVec.ofNat 16 r.highLimit ∧
        wordAt (recordBytes m ++ rest) 7 = BitVec.ofNat 16 r.criticalLimit ∧
        byteAt (recordBytes m ++ rest) 9 = BitVec.ofNat 8 r.hysteresis ∧
        byteAt (recordBytes m ++ rest) 10 = BitVec.ofNat 8 r.windowLength ∧
        byteAt (recordBytes m ++ rest) 11 = BitVec.ofNat 8 r.excursionCount ∧
        byteAt (recordBytes m ++ rest) 12 = BitVec.ofNat 8 r.compliance ∧
        wordAt (recordBytes m ++ rest) 13 = BitVec.ofNat 16 r.stepLimit ∧
        byteAt (recordBytes m ++ rest) 15 = BitVec.ofNat 8 (r.letGoRank.getD 0) := by
  refine ⟨?_, ?_⟩
  · rintro rfl o ho
    rw [byteAt_append_left _ ho]
    exact byteAt_zeros 16 o
  · rintro r rfl
    exact ⟨append_extract_word _, rfl, append_extract_word _, append_extract_word _, append_extract_word _, rfl, rfl, rfl,
      rfl, append_extract_word _, rfl⟩

theorem latestBytes_reads (l : Option Nat) (rest : List Byte) :
    wordAt (latestBytes l ++ rest) 0 = (l.map (BitVec.ofNat 16)).getD 0xFFFF := by
  cases l with
  | none =>
    change (0xFF#8 ++ 0xFF#8) = 0xFFFF#16
    decide
  | some v => exact append_extract_word _

theorem State.unknownEntryBytes_length (j : StationId) : (s.unknownEntryBytes j).length = 59 := rfl

theorem State.Inv.entryBytes_length (h : s.Inv) (j : StationId) : (s.entryBytes j).length = 59 := by
  obtain ⟨-, -, -, short, -⟩ := h.channels.inRange j
  obtain ⟨window, -⟩ := windowBytes_reads short []
  rw [h.entryBytes_eq j]
  simp only [List.length_append, recordBytes_length, latestBytes_length, window, State.workBytes_length,
    Station.parkedBytes_length, List.length_cons, List.length_nil, Channel.counterBytes]
  rfl

/-- Where the parts of a text of seven parts begin. -/
theorem byteAt_parts {a b c d e f : List Byte} (g : List Byte) (la : a.length = 9) (lb : b.length = 16) (lc : c.length = 2)
    (ld : d.length = 17) (le : e.length = 5) (lf : f.length = 4) (k : Nat) :
    byteAt (a ++ (b ++ (c ++ (d ++ (e ++ (f ++ g)))))) (9 + k) = byteAt (b ++ (c ++ (d ++ (e ++ (f ++ g))))) k ∧
      byteAt (a ++ (b ++ (c ++ (d ++ (e ++ (f ++ g)))))) (25 + k) = byteAt (c ++ (d ++ (e ++ (f ++ g)))) k ∧
      byteAt (a ++ (b ++ (c ++ (d ++ (e ++ (f ++ g)))))) (27 + k) = byteAt (d ++ (e ++ (f ++ g))) k ∧
      byteAt (a ++ (b ++ (c ++ (d ++ (e ++ (f ++ g)))))) (44 + k) = byteAt (e ++ (f ++ g)) k ∧
      byteAt (a ++ (b ++ (c ++ (d ++ (e ++ (f ++ g)))))) (49 + k) = byteAt (f ++ g) k ∧
      byteAt (a ++ (b ++ (c ++ (d ++ (e ++ (f ++ g)))))) (53 + k) = byteAt g k := by
  refine ⟨byteAt_behind la k, ?_, ?_, ?_, ?_, ?_⟩
  · rw [show 25 + k = 9 + (16 + k) by omega, byteAt_behind la, byteAt_behind lb]
  · rw [show 27 + k = 9 + (16 + (2 + k)) by omega, byteAt_behind la, byteAt_behind lb, byteAt_behind lc]
  · rw [show 44 + k = 9 + (16 + (2 + (17 + k))) by omega, byteAt_behind la, byteAt_behind lb, byteAt_behind lc,
      byteAt_behind ld]
  · rw [show 49 + k = 9 + (16 + (2 + (17 + (5 + k)))) by omega, byteAt_behind la, byteAt_behind lb, byteAt_behind lc,
      byteAt_behind ld, byteAt_behind le]
  · rw [show 53 + k = 9 + (16 + (2 + (17 + (5 + (4 + k))))) by omega, byteAt_behind la, byteAt_behind lb, byteAt_behind lc,
      byteAt_behind ld, byteAt_behind le, byteAt_behind lf]

/-- Where the parts of an entry begin. -/
theorem State.Inv.entryBytes_parts (h : s.Inv) (j : StationId) :
    (∀ k < 9, byteAt (s.entryBytes j) k = byteAt (s.entryHead j) k) ∧
      ∃ record latest window counters work, ∀ k,
        byteAt (s.entryBytes j) (9 + k) = byteAt (recordBytes (s.mooring j) ++ record) k ∧
        byteAt (s.entryBytes j) (25 + k) = byteAt (latestBytes (s.channel j).latest ++ latest) k ∧
        byteAt (s.entryBytes j) (27 + k) = byteAt (windowBytes (s.channel j).window ++ window) k ∧
        byteAt (s.entryBytes j) (44 + k) = byteAt ((s.channel j).counterBytes ++ counters) k ∧
        byteAt (s.entryBytes j) (49 + k) = byteAt (s.workBytes j ++ work) k ∧
        byteAt (s.entryBytes j) (53 + k) = byteAt ((s.station j).parkedBytes ++
          [(s.station j).stopCause.code, (s.station j).attention.code]) k := by
  obtain ⟨-, -, -, short, -⟩ := h.channels.inRange j
  obtain ⟨windowLength, -⟩ := windowBytes_reads short []
  rw [h.entryBytes_eq j]
  exact ⟨fun k hk => byteAt_append_left _ hk, _, _, _, _, _, byteAt_parts _ rfl (recordBytes_length _)
    (latestBytes_length _) windowLength rfl (State.workBytes_length _)⟩

/-- The stations a QUERY walks over (R40). -/
theorem walk_eq (i : StationId) (n : Byte) : walk i n.toNat =
    allStations.filter (fun j => decide (i.val ≤ j.val ∧ j.val < i.val + max 1 (min n.toNat 4))) := by
  unfold walk
  rw [clamp_eq_max_min (by decide)]

/-- The state a QUERY leaves, written out (R24, R177). -/
theorem State.attended_respond (l : List StationId) (report : List Byte) :
    (s.attended l).respond Command.query .ok report = { s with
      stations := Vector.ofFn (fun j => if j ∈ l then { s.station j with attention := .none } else s.station j)
      alert := if s.inForce.alertMode = .follow then
          allUnits.any (fun u => (s.unit u).state == .faulted) ||
            allStations.any (fun j => decide (j ∉ l) && (s.station j).attention != .none)
        else s.alert
      tx := some (responseFrame s.unitAddress Command.query.code .ok report) } := by
  have stations : relievedStations s.stations l =
      Vector.ofFn (fun j => if j ∈ l then { s.station j with attention := .none } else s.station j) := by
    unfold relievedStations
    rfl
  have follow : (s.relieved l).followLevel = (allUnits.any (fun u => (s.unit u).state == .faulted) ||
      allStations.any (fun j => decide (j ∉ l) && (s.station j).attention != .none)) := by
    unfold State.followLevel
    rw [Bool.or_comm]
    congr 2
    funext j
    rw [State.relieved_station]
    by_cases mem : j ∈ l <;> simp [mem]
  unfold State.attended
  rw [follow]
  unfold State.relieved
  rw [stations]
  rfl

/-- The bytes of the entry of a station in UNKNOWN (R42). -/
theorem State.unknownEntryBytes_reads (j : StationId) : ∀ o : Fin 59, 2 ≤ o.val → o.val ≤ 57 →
    byteAt (s.unknownEntryBytes j) o.val = 0xFF := by
  have filled : ∀ k < 56, byteAt (List.replicate 56 (0xFF : Byte) ++ [(s.station j).attention.code]) k = 0xFF := by
    intro k hk
    rw [byteAt_append_left _ (by rw [List.length_replicate]; exact hk)]
    unfold byteAt
    rw [List.getD_eq_getElem?_getD, List.getElem?_replicate, if_pos hk]
    rfl
  intro o lo hi
  obtain ⟨k, hk⟩ := Nat.exists_eq_add_of_le lo
  have := byteAt_behind (p := [num1 j.val, 0]) (q := List.replicate 56 0xFF ++ [(s.station j).attention.code]) rfl k
  rw [hk]
  exact this.trans (filled k (by omega))

/-- The entry of a station as the report of a QUERY carries it. -/
def State.reportedEntry (s : State) (j : StationId) : List Byte :=
  if (s.station j).state = .unknown then s.unknownEntryBytes j else s.entryBytes j

theorem State.Inv.reportedEntry_length (h : s.Inv) (j : StationId) : (s.reportedEntry j).length = 59 := by
  unfold State.reportedEntry
  split
  · exact State.unknownEntryBytes_length j
  · exact h.entryBytes_length j

theorem State.queryReport_eq (l : List StationId) : s.queryReport l = [num1 l.length] ++ l.flatMap s.reportedEntry := rfl

/-- Settles O11, from the parts of an entry and the reset of the attention reasons of the walk. -/
theorem queryReportsAndResetsAttention : Obligations.QueryReportsAndResetsAttention := by
  refine ⟨by decide, fun s len st n i h served named known => ?_⟩
  rw [← walk_eq]
  intro w
  have entries : ∀ j ∈ w, (s.reportedEntry j).length = 59 := fun j _ => h.reportedEntry_length j
  refine ⟨s.queryReport w, ?_, ?_, rfl, fun k j hj => ?_⟩
  · have rule : s.withStation st (fun i =>
        .accepted (s.queryReport (walk i n.toNat)) ((walk i n.toNat).foldl State.resetAttention s)) =
          .accepted (s.queryReport w) (s.attended w) := by
      rw [s.withStation_of_known _ named known, State.foldl_resetAttention h.alertFits]
    rw [← State.attended_respond]
    exact congrArg Host.Outcome.next (s.unicast_accepted _ len _ served rule)
  · rw [State.queryReport_eq, List.length_append, flatMap_length entries]
    rfl
  intro e e2 x c m
  have at_ : ∀ o < 59, e o = byteAt (s.reportedEntry j) o := fun o ho => by
    rw [← byteAt_flatMap entries hj ho]
    change byteAt (s.queryReport w) (1 + 59 * k.val + o) = _
    rw [State.queryReport_eq, Nat.add_assoc]
    exact byteAt_behind rfl _
  have word : ∀ o < 58, e2 o = wordAt (s.reportedEntry j) o := fun o ho => by
    unfold wordAt
    rw [← at_ o (by omega), ← at_ (o + 1) (by omega)]
    rfl
  by_cases unknown : x.state = .unknown
  · have entry : s.reportedEntry j = s.unknownEntryBytes j := if_pos unknown
    rw [entry] at at_
    refine ⟨at_ 0 (by decide), (at_ 1 (by decide)).trans ?_, at_ 58 (by decide), fun _ o lo hi => ?_,
      fun k => absurd unknown k⟩
    · rw [unknown]; rfl
    · exact (at_ o.val o.isLt).trans (State.unknownEntryBytes_reads j o lo hi)
  have entry : s.reportedEntry j = s.entryBytes j := if_neg unknown
  rw [entry] at at_ word
  obtain ⟨head, recordRest, latestRest, windowRest, counterRest, workRest, parts⟩ := h.entryBytes_parts j
  simp only [forall_and] at parts
  obtain ⟨record, latest, window, counters, work, parked⟩ := parts
  obtain ⟨-, -, -, short, -⟩ := h.channels.inRange j
  obtain ⟨-, used, slots⟩ := windowBytes_reads short windowRest
  obtain ⟨noRecord, fields⟩ := recordBytes_reads m recordRest
  obtain ⟨lock, clutch, runs, expired, rest⟩ := x.senseByte_bits
  have headed : ∀ o < 9, e o = byteAt (s.entryHead j) o := fun o ho => (at_ o (by omega)).trans (head o ho)
  have ofRecord : ∀ o < 50, e (9 + o) = byteAt (recordBytes m ++ recordRest) o := fun o ho =>
    (at_ _ (by omega)).trans (record o)
  have wordOfRecord : ∀ o < 49, e2 (9 + o) = wordAt (recordBytes m ++ recordRest) o := fun o ho =>
    (word _ (by omega)).trans (wordAt_behind record o)
  have ofCounters : ∀ o < 5, e (44 + o) = byteAt (c.counterBytes ++ counterRest) o := fun o ho =>
    (at_ _ (by omega)).trans (counters o)
  have ofWork : ∀ o < 4, e (49 + o) = byteAt (s.workBytes j ++ workRest) o := fun o ho =>
    (at_ _ (by omega)).trans (work o)
  have wordOfWork : e2 51 = wordAt (s.workBytes j ++ workRest) 2 := (word _ (by omega)).trans (wordAt_behind work 2)
  have ofParked : ∀ o < 6, e (53 + o) = byteAt (x.parkedBytes ++ [x.stopCause.code, x.attention.code]) o := fun o ho =>
    (at_ _ (by omega)).trans (parked o)
  have wordOfParked : e2 55 = wordAt (x.parkedBytes ++ [x.stopCause.code, x.attention.code]) 2 :=
    (word _ (by omega)).trans (wordAt_behind parked 2)
  have ending : e 57 = x.stopCause.code ∧ e 58 = x.attention.code :=
    ⟨(ofParked 4 (by decide)).trans (byteAt_behind x.parkedBytes_length 0),
      (ofParked 5 (by decide)).trans (byteAt_behind x.parkedBytes_length 1)⟩
  refine ⟨headed 0 (by decide), headed 1 (by decide), ending.2, fun k => absurd k unknown, fun _ =>
    ⟨fun b => ?_, fun b => ?_, ?_, ?_, ?_, ?_, ?_, ?_, ?_, ?_, fun none o lo hi => ?_, fun r hr => ?_,
      ?_, ?_, fun slot => ?_, ofCounters 0 (by decide), ofCounters 1 (by decide), ofCounters 2 (by decide),
      ofCounters 3 (by decide), ofCounters 4 (by decide), fun none => ?_, fun p hp => ?_, fun none => ?_, fun p hp => ?_,
      ending.1⟩⟩
  · rw [headed 2 (by decide)]
    change (flagByte [m.isSome, m.any Mooring.stale, m.any Mooring.autoRelease, x.beyondPmax, c.isOver, c.isSlack,
      c.isSurging, c.critCondition]).getLsbD b.val = _
    rw [flagByte_getLsbD _ b.isLt]
    match b with
    | 0 | 1 | 2 | 3 | 4 | 5 | 6 | 7 => rfl
  · exact (congrArg (·.getLsbD b.val) (headed 3 (by decide))).trans (x.gearByte_bits b)
  · exact (congrArg (·.extractLsb' 0 2) (headed 4 (by decide))).trans lock
  · exact (congrArg (·.extractLsb' 2 2) (headed 4 (by decide))).trans clutch
  · exact (congrArg (·.getLsbD 4) (headed 4 (by decide))).trans runs
  · exact (congrArg (·.getLsbD 5) (headed 4 (by decide))).trans expired
  · exact (congrArg (·.extractLsb' 6 2) (headed 4 (by decide))).trans rest
  · rw [headed 5 (by decide)]
    change (match x.takeOver with
      | none => 0xFF
      | some t => t.returnState.code : Byte) = _
    cases x.takeOver <;> rfl
  · have place : e2 6 = e 6 ++ e 7 := rfl
    rw [place, headed 6 (by decide), headed 7 (by decide)]
    exact append_extract_word _
  · rw [headed 8 (by decide)]
    change optByte (x.unit.map Fin.val) = _
    cases x.unit <;> rfl
  · obtain ⟨k, hk⟩ := Nat.exists_eq_add_of_le lo
    rw [hk]
    exact (ofRecord k (by omega)).trans (noRecord none k (by omega))
  · obtain ⟨f0, f2, f3, f5, f7, f9, f10, f11, f12, f13, f15⟩ := fields r hr
    exact ⟨(wordOfRecord 0 (by decide)).trans f0, (ofRecord 2 (by decide)).trans f2,
      (wordOfRecord 3 (by decide)).trans f3, (wordOfRecord 5 (by decide)).trans f5,
      (wordOfRecord 7 (by decide)).trans f7, (ofRecord 9 (by decide)).trans f9, (ofRecord 10 (by decide)).trans f10,
      (ofRecord 11 (by decide)).trans f11, (ofRecord 12 (by decide)).trans f12,
      (wordOfRecord 13 (by decide)).trans f13, (ofRecord 15 (by decide)).trans f15⟩
  · exact (word 25 (by decide)).trans ((wordAt_behind latest 0).trans (latestBytes_reads _ _))
  · exact (at_ 27 (by decide)).trans ((window 0).trans used)
  · have place : 28 + 2 * slot.val = 27 + (1 + 2 * slot.val) := by omega
    rw [word _ (by omega), place, wordAt_behind window]
    exact slots slot
  · rcases State.workBytes_reads (s := s) j with ⟨-, bytes⟩ | ⟨p, some, -⟩
    · rw [bytes] at ofWork wordOfWork
      exact ⟨ofWork 0 (by decide), ofWork 1 (by decide), wordOfWork.trans wordAt_zeros⟩
    · rw [none] at some; cases some
  · rcases State.workBytes_reads (s := s) j with ⟨none, -⟩ | ⟨q, some, b, y, z, bytes, reads⟩
    · rw [none] at hp; cases hp
    · cases some.symm.trans hp
      rw [bytes] at ofWork wordOfWork
      rw [show e 49 = _ from ofWork 0 (by decide), show e 50 = _ from ofWork 1 (by decide), wordOfWork]
      exact ⟨rfl, reads⟩
  · rcases x.parkedBytes_reads with ⟨-, bytes⟩ | ⟨p, some, -⟩
    · rw [bytes] at ofParked wordOfParked
      exact ⟨ofParked 0 (by decide), ofParked 1 (by decide), wordOfParked.trans wordAt_zeros⟩
    · rw [none] at some; cases some
  · rcases x.parkedBytes_reads with ⟨none, -⟩ | ⟨q, some, b, y, z, bytes, reads⟩
    · rw [none] at hp; cases hp
    · cases some.symm.trans hp
      rw [bytes] at ofParked wordOfParked
      rw [show e 53 = _ from ofParked 0 (by decide), show e 54 = _ from ofParked 1 (by decide), wordOfParked]
      exact ⟨rfl, reads⟩

end Sys2Proof.Machine
end

