-- ==== Sys2Proof/Proofs/CommandChecks.lean ====
section
/-! PROOF. The checks of the commands that name a station: which one refuses, and what passes them all. -/

namespace Sys2Proof.Machine

variable {s t : State} {i : StationId} {c : CommandSpec} {len st : Byte} {code : Status}

/-! ### A command's checks -/

theorem checked_refused {checks : List (Bool × Status)} (h : firstRefusal checks = some code) (v : Verdict) :
    checked checks v = .refused code := by
  unfold checked
  rw [h]

theorem checked_passed {checks : List (Bool × Status)} (h : firstRefusal checks = none) (v : Verdict) :
    checked checks v = v := by
  unfold checked
  rw [h]

@[simp] theorem firstRefusal_nil : firstRefusal [] = none := rfl

@[simp] theorem firstRefusal_cons (fails : Bool) (status : Status) (rest : List (Bool × Status)) :
    firstRefusal ((fails, status) :: rest) = if fails then some status else firstRefusal rest := rfl

/-- A command that names a known station is refused by the first check of its rule that fails. -/
theorem State.refused_at {checks : State → StationId → List (Bool × Status)} {accept : State → StationId → Verdict}
    (served : s.serves c len) (named : stationOf st = some i) (known : (s.station i).state ≠ .unknown)
    (h : firstRefusal (checks s i) = some code) :
    s.unicast c len (fun s => s.withStation st fun i => checked (checks s i) (accept s i)) = s.refuse c code := by
  refine s.unicast_refused c len _ served ?_
  rw [s.withStation_of_known _ named known, checked_refused h]

/-- A command that names a known station is accepted where every check passes. -/
theorem State.accepted_at {checks : State → StationId → List (Bool × Status)} {accept : State → StationId → State}
    (served : s.serves c len) (named : stationOf st = some i) (known : (s.station i).state ≠ .unknown)
    (h : firstRefusal (checks s i) = none) :
    s.unicast c len (fun s => s.withStation st fun i => checked (checks s i) (.ok (accept s i))) =
      (accept s i).respond c .ok [] := by
  refine s.unicast_accepted c len _ served ?_
  rw [s.withStation_of_known _ named known, checked_passed h]
  rfl

/-! ### MAKE-FAST, ADOPT and AMEND (R29, R32, R33) -/

theorem recordFieldsValid_eq_false {f : RecordFields} (h : ¬ f.acceptable) : recordFieldsValid f = false := by
  rw [← Bool.not_eq_true, recordFieldsValid_iff]
  exact h

/-- The first of the checks of the call that fails (R29 steps 5 to 8). -/
theorem State.ListsOk.callChecks_refuse (h : s.ListsOk) {tag : Nat} {f : RecordFields}
    (fails : (code = .noCall ∧ ∀ c ∈ s.calls, c.tag ≠ tag) ∨
      ∃ c ∈ s.calls, c.tag = tag ∧
        ((code = .wrongBerth ∧ c.berth ≠ berthOf i) ∨
        (code = .callState ∧ c.berth = berthOf i ∧ (c.state = .singling ∨ c.state = .clearing)) ∨
        (code = .badWindow ∧ c.berth = berthOf i ∧ c.state ≠ .singling ∧ c.state ≠ .clearing ∧
          ¬ f.acceptable))) : firstRefusal (s.callChecks i tag f) = some code := by
  unfold State.callChecks
  rcases fails with ⟨rfl, absent⟩ | ⟨x, mem, rfl, fails⟩
  · rw [State.callOf_none.2 absent]
    rfl
  · rw [h.callOf mem]
    rcases fails with ⟨rfl, berth⟩ | ⟨rfl, berth, state⟩ | ⟨rfl, berth, singling, clearing, fields⟩
    · simp [berth]
    · rcases state with state | state <;> simp [berth, state]
    · simp [berth, singling, clearing, recordFieldsValid_eq_false fields]

theorem State.ListsOk.callChecks_pass (h : s.ListsOk) {tag : Nat} {f : RecordFields} (fields : f.acceptable)
    (call : ∃ c ∈ s.calls, c.tag = tag ∧ c.berth = berthOf i ∧ c.state ≠ .singling ∧ c.state ≠ .clearing) :
    firstRefusal (s.callChecks i tag f) = none := by
  obtain ⟨x, mem, rfl, berth, singling, clearing⟩ := call
  unfold State.callChecks
  rw [h.callOf mem]
  simp [berth, singling, clearing, (recordFieldsValid_iff f).2 fields]

/-- Settles O18: in each case the checks before the named one pass, and it fails. -/
theorem mooringCommandsRefuseInOrder : Obligations.MooringCommandsRefuseInOrder := by
  intro s len st tag f i h named known
  have lists := h.calls.listsOk
  refine ⟨fun served code fails => ?_, fun served code fails => ?_, fun served code fails => ?_⟩
  · refine congrArg Host.Outcome.next (State.refused_at served named known ?_)
    rcases fails with ⟨rfl, hold⟩ | ⟨rfl, hold, state⟩ | ⟨rfl, hold, state, record⟩ |
      ⟨rfl, hold, state, record, other⟩ | ⟨hold, state, fails⟩
    · simp [hold]
    · simp [hold, state]
    · simp [hold, state, record]
    · simp [hold, state, record, other]
    · have record : s.mooring i = none := h.records.absent i (by rw [state]; rfl)
      simp [hold, state, record, lists.callChecks_refuse fails]
  · refine congrArg Host.Outcome.next (State.refused_at served named known ?_)
    rcases fails with ⟨rfl, state⟩ | ⟨rfl, state, record⟩ | ⟨rfl, state, record, other⟩ | ⟨state, fails⟩
    · simp [state]
    · simp [state, record]
    · simp [state, record, other]
    · have record : s.mooring i = none := h.records.absent i (by rw [state]; rfl)
      simp [state, record, lists.callChecks_refuse fails]
  · refine congrArg Host.Outcome.next (s.unicast_refused _ len _ served ?_)
    rw [s.withStation_of_known _ named known]
    rcases fails with ⟨rfl, record⟩ | ⟨rfl, record, state⟩ | ⟨rfl, record, released, rewinding, easing, fields⟩
    · rw [record]
    · obtain ⟨r, present⟩ := Option.isSome_iff_exists.1 record
      rw [present]
      refine checked_refused ?_ _
      rcases state with state | state | state <;> simp [state]
    · obtain ⟨r, present⟩ := Option.isSome_iff_exists.1 record
      rw [present]
      refine checked_refused ?_ _
      simp [released, rewinding, easing, recordFieldsValid_eq_false fields]

/-! ### Letting go (R63 to R67) -/

/-- The call of a station is the one whose list names it (R48). -/
theorem State.ListsOk.callAt (h : s.ListsOk) {x : Call} (mem : x ∈ s.calls) (listed : i ∈ x.list) :
    (s.mooring i).bind (fun r => s.callOf r.tag) = some x := by
  obtain ⟨-, stations⟩ := h.lists x mem
  obtain ⟨-, r, present, tag⟩ := stations i listed
  rw [Option.mem_def.1 present, Option.bind_some, tag, h.callOf mem]

theorem State.orderBlocked_iff (x : Call) : s.orderBlocked x i = true ↔ s.rankBlocked x i := by
  unfold State.orderBlocked
  cases own : (s.mooring i).bind Mooring.letGoRank with
  | none => simp [own]
  | some rank =>
    simp [State.rankBlocked, own, and_assoc, Option.any_eq_true]

theorem Station.releasing_iff (x : Station) :
    x.releasing = true ↔ x.state = .released ∧ x.step.any (fun g => g.kind == .release) = true := by
  unfold Station.releasing
  rw [Bool.and_eq_true, beq_iff_eq]

theorem Station.releasing_eq_false {x : Station} (h : ¬ (x.state = .released ∧ x.step.any (fun g => g.kind == .release))) :
    x.releasing = false := by
  rw [← Bool.not_eq_true, Station.releasing_iff]
  exact h

/-- Settles O25: the state lets the command through to the quarter's lock and the let-go check. -/
theorem lettingGoFollowsTheCall : Obligations.LettingGoFollowsTheCall := by
  intro s len st n i x h named mem listed
  have call := h.calls.listsOk.callAt mem listed
  refine ⟨fun served moored => ?_, fun served free state => ?_⟩
  · have known : (s.station i).state ≠ .unknown := fun k => by rw [k] at moored; cases moored
    have out : (s.station i).state ≠ .inLocal := fun k => by rw [k] at moored; cases moored
    have steady : (s.station i).releasing = false :=
      Station.releasing_eq_false fun ⟨k, _⟩ => by rw [k] at moored; cases moored
    refine ⟨fun locked => ?_, fun unlocked held key => ?_, fun unlocked singling blocked => ?_⟩ <;>
      refine congrArg Host.Outcome.next (State.refused_at served named known ?_)
    · simp [out, steady, moored, locked]
    · have answer : s.letGoRelease i = some .callHeld := by
        unfold State.letGoRelease
        rw [call]
        rcases held with held | held <;> simp [held, key]
      simp [out, steady, moored, unlocked, askedCheck, answer]
    · have answer : s.letGoRelease i = some .order := by
        unfold State.letGoRelease
        rw [call]
        simp [singling, (State.orderBlocked_iff x).2 blocked]
      simp [out, steady, moored, unlocked, askedCheck, answer]
  · have known : (s.station i).state ≠ .unknown := fun k => by rw [k] at state; rcases state with k | k <;> cases k
    have out : (s.station i).state ≠ .inLocal := fun k => by rw [k] at state; rcases state with k | k <;> cases k
    have open_ : ((s.station i).state == .fast || (s.station i).state == .eased) = true := by
      rwa [Bool.or_eq_true, beq_iff_eq, beq_iff_eq]
    refine ⟨fun locked => ?_, fun unlocked other => ?_, fun unlocked singling blocked => ?_⟩ <;>
      refine congrArg Host.Outcome.next (State.refused_at served named known ?_)
    · simp [free, out, open_, locked]
    · have answer : s.letGoSlacken i = some .callState := by
        unfold State.letGoSlacken
        rw [call]
        cases k : x.state with
        | singling => exact absurd k other
        | opened | held | strained | clearing => simp [k]
      simp [free, out, open_, unlocked, askedCheck, answer]
    · have answer : s.letGoSlacken i = some .order := by
        unfold State.letGoSlacken
        rw [call]
        simp [singling, (State.orderBlocked_iff x).2 blocked]
      simp [free, out, open_, unlocked, askedCheck, answer]

/-- The let-go check passes a SLACKEN of a station in a SINGLING call whose order allows it (R67). -/
theorem State.letGoSlacken_pass (lists : s.ListsOk)
    (allows : ∀ c ∈ s.calls, i ∈ c.list → c.state = .singling ∧ ¬ s.rankBlocked c i) : s.letGoSlacken i = none := by
  unfold State.letGoSlacken
  cases record : s.mooring i with
  | none => rfl
  | some r =>
    obtain ⟨x, mem, tag, listed⟩ := lists.records i r record
    have call := lists.callAt mem listed
    rw [record] at call
    obtain ⟨singling, order⟩ := allows x mem listed
    rw [call]
    have order : s.orderBlocked x i = false := by rw [← Bool.not_eq_true, State.orderBlocked_iff]; exact order
    simp [singling, order]

/-- The let-go check passes a RELEASE by the call's state, its order and KEY (R65, R66). -/
theorem State.letGoRelease_pass (lists : s.ListsOk)
    (allows : ∀ c ∈ s.calls, i ∈ c.list → c.state = .opened ∨ c.state = .clearing ∨
      (c.state = .singling ∧ ¬ s.rankBlocked c i) ∨
      ((c.state = .held ∨ c.state = .strained) ∧ s.inputs.key = true)) : s.letGoRelease i = none := by
  unfold State.letGoRelease
  cases record : s.mooring i with
  | none => rfl
  | some r =>
    obtain ⟨x, mem, tag, listed⟩ := lists.records i r record
    have call := lists.callAt mem listed
    rw [record] at call
    rw [call]
    rcases allows x mem listed with state | state | ⟨state, order⟩ | ⟨state | state, key⟩
    · simp [state]
    · simp [state]
    · have order : s.orderBlocked x i = false := by rw [← Bool.not_eq_true, State.orderBlocked_iff]; exact order
      simp [state, order]
    · simp [state, key]
    · simp [state, key]

/-! ### The commands of the lines (R17, R21, R129, R135, R139) -/

/-- The commanded and the sensed gear differ (R15). -/
theorem Station.disagrees_iff (x : Station) :
    x.disagrees = true ↔ x.senLock ≠ some x.cmdLock ∨ x.senClutch ≠ x.cmdClutch := by
  unfold Station.disagrees
  simp

/-- The room is missing (R135). -/
theorem State.payoutRoom_lt_iff : s.payoutRoom i < Config.slackenMin ↔
    (s.calibration i).maxPayout < (s.station i).length + 10 := by
  unfold State.payoutRoom
  change _ < 10 ↔ _
  omega

/-- Settles O26: in each case the checks before the named one pass, and it fails. -/
theorem stationCommandsRefuseInOrder : Obligations.StationCommandsRefuseInOrder := by
  intro s len st n i h named known
  dsimp only
  have lists := h.calls.listsOk
  refine ⟨fun served code fails => ?_, fun served code fails => ?_, fun served code fails => ?_,
    fun served code fails => ?_, fun served fails => ?_⟩ <;>
    refine congrArg Host.Outcome.next (State.refused_at served named known ?_)
  · rcases fails with ⟨rfl, hold⟩ | ⟨rfl, free, state⟩ | ⟨rfl, free, out, other⟩
    · simp [hold]
    · simp [free, state]
    · simp [free, out, other]
  · rcases fails with ⟨rfl, state⟩ | ⟨rfl, state, step⟩ | ⟨rfl, out, steady, moored, other⟩
    · simp [state]
    · simp [state, (Station.releasing_iff _).2 ⟨state, step⟩]
    · simp [out, Station.releasing_eq_false steady, moored, other]
  · rcases fails with ⟨rfl, hold⟩ | ⟨rfl, free, state⟩ | ⟨rfl, free, out, fast, eased⟩ |
      ⟨rfl, free, state, unlocked, allows, room⟩
    · simp [hold]
    · simp [free, state]
    · simp [free, out, fast, eased]
    · have pass : firstRefusal [askedCheck (s.letGoSlacken i), (decide (s.payoutRoom i < Config.slackenMin), .limit)] =
          some .limit := by
        rw [State.letGoSlacken_pass lists allows]
        simp [askedCheck, State.payoutRoom_lt_iff.2 room]
      rcases state with state | state <;> simpa [free, state, unlocked] using pass
  · rcases fails with ⟨rfl, hold⟩ | ⟨rfl, free, state⟩ | ⟨rfl, free, state, step⟩ | ⟨rfl, free, out, released, paying⟩
    · simp [hold]
    · simp [free, state]
    · simp [free, state, (Station.releasing_iff _).2 ⟨state, step⟩]
    · have steady : (s.station i).releasing = false := Station.releasing_eq_false fun k => released k.1
      simp [free, out, steady, released, paying]
  · by_cases fault : (s.station i).state = .fault
    · by_cases differs : (s.station i).disagrees = true
      · simp [fault, differs]
      · have valid : (s.channel i).valid ≠ 8 := by
          rcases fails with k | k | k | k
          · exact absurd fault k
          · exact absurd ((Station.disagrees_iff _).2 (.inl k)) differs
          · exact absurd ((Station.disagrees_iff _).2 (.inr k)) differs
          · exact k
        simp [fault, differs, show ¬(s.channel i).valid = Config.sampleRun from valid]
    · simp [fault]

end Sys2Proof.Machine
end

