-- ==== Sys2Proof/Proofs/Outcomes.lean ====
section
/-! PROOF. What the end of an event makes of the state its acts leave: the station it was at, the calls, the units it frees, the queue. -/

namespace Sys2Proof.Machine

variable {s t : State} {i : StationId} {old : LineState}

/-! ### Nothing to grant and nothing to evaluate -/

theorem State.Stuck.grantAll (h : s.Stuck) : s.grantAll = s := by
  unfold State.grantAll
  simp only [h.grantOne]

theorem State.GrantsOk.stuck (h : s.GrantsOk) : s.Stuck := by
  by_cases hold : s.hold = true
  · exact .inl hold
  · by_cases waits : s.queue = []
    · exact .inr (.inr waits)
    · exact .inr (.inl ((State.idleUnit_eq_none s).2 (h (by simpa using hold) waits)))

theorem State.evaluate_of_settled (h : ∀ c ∈ s.calls, s.transitionOf c = none) (tag : Nat) : s.evaluate tag = s := by
  unfold State.evaluate State.evaluateOnce
  cases e : s.callOf tag with
  | none => rfl
  | some c => simp only [h c (State.callOf_some e).1, reduceCtorEq, if_false]

theorem State.settleCalls_of_settled (h : ∀ c ∈ s.calls, s.transitionOf c = none) (before : State) :
    State.settleCalls before s = s := by
  have fold : ∀ l : List Nat, l.foldl State.evaluate s = s := by
    intro l
    induction l with
    | nil => rfl
    | cons tag l ih => rw [List.foldl_cons, State.evaluate_of_settled h, ih]
  exact fold _

theorem any_congr_mem {α : Type} {l : List α} {p q : α → Bool} (h : ∀ x ∈ l, p x = q x) : l.any p = l.any q := by
  induction l with
  | nil => rfl
  | cons y l ih =>
    rw [List.any_cons, List.any_cons, h y List.mem_cons_self, ih fun x hx => h x (List.mem_cons_of_mem _ hx)]

theorem all_congr_mem {α : Type} {l : List α} {p q : α → Bool} (h : ∀ x ∈ l, p x = q x) : l.all p = l.all q := by
  induction l with
  | nil => rfl
  | cons y l ih =>
    rw [List.all_cons, List.all_cons, h y List.mem_cons_self, ih fun x hx => h x (List.mem_cons_of_mem _ hx)]

/-- A call goes where its table, the holding and the steadiness of its stations send it (R56). -/
theorem State.transitionOf_congr (calls : t.calls = s.calls) {c : Call} (holding : ∀ j ∈ c.list, t.holding j = s.holding j)
    (steady : c.state ≠ .singling → ∀ j ∈ c.list, t.steadyFor c.steadyNeed j = s.steadyFor c.steadyNeed j) :
    t.transitionOf c = s.transitionOf c := by
  have alone : t.noOtherActive c = s.noOtherActive c := by
    unfold State.noOtherActive
    rw [calls]
  by_cases singling : c.state = .singling
  · unfold State.transitionOf
    simp only [singling]
    rw [show c.list.any t.holding = c.list.any s.holding from any_congr_mem holding]
  · have test : t.heldTest c = s.heldTest c := by
      unfold State.heldTest
      rw [alone, show c.list.all (t.steadyFor c.steadyNeed) = c.list.all (s.steadyFor c.steadyNeed) from
        all_congr_mem (steady singling)]
    unfold State.transitionOf
    rw [test]
    cases state : c.state with
    | singling => exact absurd state singling
    | opened | held | strained | clearing => rfl

/-! ### Holding and steadiness through grants -/

/-- A grant leaves a station holding or not as it was: the states it may change are moored (R5, R91). -/
theorem State.Whole.grantAll_holding (h : s.Whole) (j : StationId) : s.grantAll.holding j = s.holding j := by
  have only := s.grantAll_only
  have mooring : s.grantAll.mooring j = s.mooring j := by rw [State.mooring, only.moorings]; rfl
  rcases h.grantAll_site j with same | ⟨u, q, hq, station, -⟩
  · have station : s.grantAll.station j = s.station j := (congrArg Site.x same :)
    unfold State.holding
    rw [station, mooring]
  · unfold State.holding
    rw [station, mooring]
    have mem : q ∈ (s.site j).qs := by
      rw [State.requestOf_eq_site] at hq
      exact List.mem_of_mem_head? hq
    obtain ⟨-, work, -⟩ := (h.fit j).doing.of_request mem
    rw [← State.station_eq_site] at work
    simp only [Station.granted]
    split
    · next trim =>
      rcases Work.granted_state work with ⟨-, state | state⟩ | ⟨plain, -⟩
      · rw [state]; rfl
      · rw [state]; rfl
      · rw [trim] at plain; cases plain
    · rfl

/-- A grant leaves a station steady or not as it was: a counter stands outside FAST and TRIMMING at 0 (R54, R86). -/
theorem State.Whole.grantAll_steadyFor (h : s.Whole) {need : Nat} (pos : 1 ≤ need) (j : StationId) :
    s.grantAll.steadyFor need j = s.steadyFor need j := by
  have only := s.grantAll_only
  have mooring : s.grantAll.mooring j = s.mooring j := by rw [State.mooring, only.moorings]; rfl
  have channel : s.grantAll.channel j = s.channel j := by rw [State.channel, only.channels]; rfl
  rcases h.grantAll_site j with same | ⟨u, q, hq, station, -⟩
  · have station : s.grantAll.station j = s.station j := (congrArg Site.x same :)
    unfold State.steadyFor
    rw [station, mooring, channel]
  · unfold State.steadyFor
    rw [station, mooring, channel]
    have mem : q ∈ (s.site j).qs := by
      rw [State.requestOf_eq_site] at hq
      exact List.mem_of_mem_head? hq
    obtain ⟨-, work, -⟩ := (h.fit j).doing.of_request mem
    rw [← State.station_eq_site] at work
    simp only [Station.granted]
    split
    · next trim =>
      rcases Work.granted_state work with ⟨-, state | state⟩ | ⟨plain, -⟩
      · rw [state]; rfl
      · have still : (s.channel j).steady = 0 := by
          by_contra counts
          obtain ⟨state' | state', -⟩ := (h.fit j).watched.steady counts
          · rw [← State.station_eq_site, state] at state'; cases state'
          · rw [← State.station_eq_site, state] at state'; cases state'
        rw [still, decide_eq_false (by omega), Bool.and_false, Bool.and_false]
      · rw [trim] at plain; cases plain
    · rfl

theorem State.Whole.grantAll_transitionOf (h : s.Whole) {c : Call} (need : 1 ≤ c.steadyNeed) :
    s.grantAll.transitionOf c = s.transitionOf c :=
  State.transitionOf_congr s.grantAll_only.calls (fun j _ => h.grantAll_holding j)
    fun _ j _ => h.grantAll_steadyFor need j

/-- An event that leaves every call where its evaluation leaves it moves no call (R56). -/
theorem State.Inv.settleCalls_eq (h : s.Inv) (whole : t.Whole) (calls : t.calls = s.calls)
    (stay : ∀ c ∈ s.calls, t.transitionOf c = none) (before : State) :
    State.settleCalls before t.grantAll = t.grantAll := by
  refine State.settleCalls_of_settled (fun c hc => ?_) before
  rw [t.grantAll_only.calls, calls] at hc
  obtain ⟨-, -, -, -, need, -⟩ := h.calls.tableOk.ranges c hc
  rw [whole.grantAll_transitionOf need]
  exact stay c hc

/-- An event that leaves the calls and what they are evaluated by moves no call (R56). -/
theorem State.Inv.stay (h : s.Inv) (calls : t.calls = s.calls) (holding : ∀ j, t.holding j = s.holding j)
    (steady : ∀ need, 1 ≤ need → ∀ j, t.steadyFor need j = s.steadyFor need j) :
    ∀ c ∈ s.calls, t.transitionOf c = none := by
  intro c hc
  obtain ⟨-, -, -, -, need, -⟩ := h.calls.tableOk.ranges c hc
  rw [State.transitionOf_congr calls (fun j _ => holding j) fun _ j _ => steady _ need j]
  exact h.calls.settled c hc

theorem State.Inv.settle_callsKept (h : s.Inv) (whole : t.Whole) (calls : t.calls = s.calls)
    (a : t.permitA = s.permitA) (b : t.permitB = s.permitB) (stay : ∀ c ∈ s.calls, t.transitionOf c = none) :
    s.callsKept (State.settle s t) := by
  unfold State.settle
  rw [h.settleCalls_eq whole calls stay]
  have only := t.grantAll_only
  exact ⟨only.calls.trans calls, only.permitA.trans a, only.permitB.trans b⟩

/-- An event that leaves the drive and the calls alone ends where its acts do (R56, R113). -/
theorem State.Inv.settle_eq (h : s.Inv) (whole : t.Whole) (calls : t.calls = s.calls) (holding : ∀ j, t.holding j = s.holding j)
    (steady : ∀ need, 1 ≤ need → ∀ j, t.steadyFor need j = s.steadyFor need j) (stuck : t.Stuck) :
    State.settle s t = t := by
  unfold State.settle
  rw [h.settleCalls_eq whole calls (h.stay calls holding steady), stuck.grantAll]

theorem State.Inv.stuck (h : s.Inv) (hold : t.hold = s.hold) (queue : t.queue = s.queue) (units : t.units = s.units) :
    t.Stuck := by
  have idle : t.idleUnit = s.idleUnit := by
    unfold State.idleUnit State.unit
    rw [units]
  unfold State.Stuck
  rw [hold, queue, idle]
  exact h.grants.stuck

/-! ### An event at one station -/

theorem State.Acts.whole (acts : State.Acts i s t) (h : s.Inv) (after : (t.site i).After old) : t.Whole := by
  refine ⟨acts.sound h.whole.sound, fun j => ?_, fun j => ?_⟩ <;> by_cases e : j = i
  · exact e ▸ after.fit
  · exact (acts.site_of_ne h.whole.sound e).fit (h.whole.fit j)
  · exact e ▸ after.held
  · exact (acts.site_of_ne h.whole.sound e).held (h.whole.held j)

/-- The end of an event leaves a station without a request alone. -/
theorem State.settle_rests (before : State) (none : (t.site i).qs = []) :
    (State.settle before t).station i = (t.site i).x ∧ (State.settle before t).requestOf i = Option.none := by
  have waits := (State.site_qs_eq_nil t i).1 none
  refine ⟨State.settle_station_of_none before t i waits, ?_⟩
  obtain ⟨n, drops⟩ := t.grantAll_queue
  refine List.find?_eq_none.2 fun q hq => ?_
  rw [State.settle_queue, drops] at hq
  simpa using waits q (List.mem_of_mem_drop hq)

/-- A station with a request asks at the end of an event (R113). -/
theorem State.settle_asks (before : State) (q : Request) (one : (t.site i).qs = [q]) :
    (State.settle before t).asks i (t.site i).x q := by
  unfold State.asks
  rw [State.settle_station_eq, State.settle_queue]
  rcases t.grantAll_station i q one with ⟨station, queue⟩ | ⟨u, station, granted, served, run⟩
  · exact .inl ⟨station, queue⟩
  · refine .inr ⟨u, station, ?_⟩
    rw [State.settle_unit_eq]
    exact ⟨granted, served, run⟩

/-- What the end of an event, `u`, makes of the state `t` its acts at a station have left. -/
structure State.Ends (i : StationId) (s t u : State) : Prop where
  channel : u.channel i = (t.site i).c
  mooring : u.mooring i = (t.site i).r
  alert : u.alert = t.alert
  onlyAt : s.OnlyAt u i
  permits : u.permitsOk
  rests : (t.site i).qs = [] → u.station i = (t.site i).x ∧ u.requestOf i = none
  asks : ∀ q, (t.site i).qs = [q] → u.asks i (t.site i).x q
  calls : t.sameCalls u
  drops : ∃ grants : Fin 5, u.queue = t.queue.drop grants
  unit : ∀ v, u.unit v = t.unit v ∨ ((t.unit v).state = .idle ∧ (u.unit v).state = .granted)

/-- The end of an event whose acts at one station leave that station where it may. -/
theorem State.Acts.ends (acts : State.Acts i s t) (h : s.Inv) (running : s.phase = .running)
    (after : (t.site i).After (s.station i).state) : State.Ends i s t (State.settle s t) where
  channel := State.settle_channel s t i
  mooring := State.settle_mooring s t i
  alert := State.settle_alert s t
  onlyAt := acts.onlyAt h.whole.sound (acts.whole h after) s
  permits := (acts.stepped (c := .frameGapTimeout) h running after).inv.calls.permits
  rests := State.settle_rests s
  asks := State.settle_asks s
  calls := State.settle_sameCalls s t
  drops := by
    rw [State.settle_queue]
    exact t.grantAll_drops
  unit v := by
    rw [State.settle_unit_eq]
    exact t.grantAll_unit_cases v

namespace State.Ends

variable {u : State}

/-- The end of an event that has placed one request (R109). -/
theorem queues (h : State.Ends i s t u) {place : Request → List Request → List Request} {q : Request}
    (one : (t.site i).qs = [q]) (queue : t.queue = place q (s.queue.filter (fun p => p.station != q.station))) :
    u.asks i (t.site i).x q ∧ s.queuesBy place u q := by
  obtain ⟨grants, drops⟩ := h.drops
  exact ⟨h.asks q one, grants, by rw [drops, queue]⟩

theorem sameCalls (h : State.Ends i s t u) (calls : t.calls = s.calls) : s.sameCalls u := by
  have := h.calls
  unfold State.sameCalls at *
  rw [this, calls]

/-- A unit that the event has released is free at its end (R113, R115, R121). -/
theorem freed (h : State.Ends i s t u) {v : UnitId}
    (released : t.unit v = .unserved (if (s.unit v).state = .faulted then .faulted else .idle)) : s.freed u v := by
  unfold State.freed
  rcases h.unit v with same | ⟨idle, granted⟩
  · rw [same, released]
    split
    · rfl
    · exact .inl rfl
  · rw [released] at idle
    split
    · next faulted => rw [if_pos faulted] at idle; cases idle
    · exact .inr granted

end State.Ends

/-- A unit that acts have released stands unserved through the acts after (R115, R121). -/
theorem State.Acts.released {m : State} (acts : State.Acts i (m.releaseUnit i) t) (sound : m.Sound) {v : UnitId}
    (unit : (m.station i).unit = some v) (faulted : (m.unit v).state = .faulted ↔ (s.unit v).state = .faulted) :
    t.unit v = .unserved (if (s.unit v).state = .faulted then .faulted else .idle) := by
  have free : (m.releaseUnit i).unit v = .unserved (if (s.unit v).state = .faulted then .faulted else .idle) := by
    rw [State.releaseUnit_unit _ _ unit]
    simp only [faulted]
  rw [acts.unit_of_ne ((m.releaseUnit_acts i).sound sound) (by rw [free]; nofun), free]

/-- The answer to a command changes the response alone. -/
theorem State.OnlyAt.respond (h : s.OnlyAt t i) (c : CommandSpec) (status : Status) (payload : List Byte) :
    (s.respond c status payload).OnlyAt (t.respond c status payload) i where
  others j hj := h.others j hj
  units u hu := h.units u hu
  backdrop := by
    have address : t.unitAddress = s.unitAddress := (congrArg State.unitAddress h.backdrop :)
    have e : ∀ r : State, (r.respond c status payload).backdrop =
        { r.backdrop with tx := some (responseFrame r.unitAddress c.code status payload) } := fun _ => rfl
    rw [e, e, h.backdrop, address]

/-! ### What leaves the calls as they stand

Only the creation and the retirement of a record change the list of a call; each other operation keeps the table. -/

section

variable (s i)

@[simp] theorem State.raise_calls (reason : Attention) : (s.raise i reason).calls = s.calls := by
  obtain ⟨-, -, -, -, calls⟩ := s.raise_only i reason
  exact calls

@[simp] theorem State.reformCritical_calls : s.reformCritical.calls = s.calls := by
  rw [State.reformCritical_eq]

@[simp] theorem State.assertAlert_calls : s.assertAlert.calls = s.calls := by
  rw [State.assertAlert_eq]

@[simp] theorem State.setCritCondition_calls (level : Bool) : (s.setCritCondition i level).calls = s.calls := by
  unfold State.setCritCondition
  split <;> simp

@[simp] theorem State.emptyWindow_calls : (s.emptyWindow i).calls = s.calls := rfl

@[simp] theorem State.resetSteady_calls : (s.resetSteady i).calls = s.calls := rfl

@[simp] theorem State.enter_calls (state : LineState) : (s.enter i state).calls = s.calls := by
  obtain ⟨-, -, -, calls, -⟩ := s.enter_only i state
  exact calls

@[simp] theorem State.submit_calls (w : Work) (b : Bool) : (s.submit i w b).calls = s.calls := rfl

@[simp] theorem State.requeue_calls (w : Work) (b : Bool) : (s.requeue i w b).calls = s.calls := rfl

@[simp] theorem State.withdraw_calls : (s.withdraw i).calls = s.calls := rfl

@[simp] theorem State.redirect_calls (d : Direction) (c : Bool) : (s.redirect i d c).calls = s.calls := rfl

@[simp] theorem State.withdrawTrim_calls : (s.withdrawTrim i).calls = s.calls := by
  unfold State.withdrawTrim
  split
  · split <;> rfl
  · rfl

@[simp] theorem State.releaseUnit_calls : (s.releaseUnit i).calls = s.calls := by
  unfold State.releaseUnit
  split <;> rfl

@[simp] theorem State.faultUnit_calls (u : UnitId) : (s.faultUnit u).calls = s.calls := by
  unfold State.faultUnit
  simp

@[simp] theorem State.setStop_calls (level : Bool) : (s.setStop i level).calls = s.calls := by
  unfold State.setStop
  split <;> rfl

@[simp] theorem State.dropActive_calls : (s.dropActive i).calls = s.calls := rfl

@[simp] theorem State.park_calls (w : Work) (b : Bool) : (s.park i w b).calls = s.calls := rfl

@[simp] theorem State.unpark_calls : (s.unpark i).calls = s.calls := rfl

@[simp] theorem State.giveBack_calls : (s.giveBack i).calls = s.calls := by
  unfold State.giveBack
  simp

@[simp] theorem State.parkActive_calls (a : ActiveOp) : (s.parkActive i a).calls = s.calls := rfl

@[simp] theorem State.commandedFailure_calls (a : ActiveOp) : (s.commandedFailure i a).calls = s.calls := by
  unfold State.commandedFailure
  dsimp only
  split
  · simp
  · split <;> rfl

@[simp] theorem State.failWaiting_calls : (s.failWaiting i).calls = s.calls := by
  unfold State.failWaiting
  dsimp only
  split
  · rfl
  · split
    · split <;> simp
    · simp

@[simp] theorem State.submitParked_calls : (s.submitParked i).calls = s.calls := by
  unfold State.submitParked
  split <;> rfl

@[simp] theorem State.setStale_calls : (s.setStale i).calls = s.calls := by
  unfold State.setStale
  split <;> rfl

@[simp] theorem State.wantTrim_calls (wanted : Option (Direction × Bool)) : (s.wantTrim i wanted).calls = s.calls := by
  unfold State.wantTrim
  split <;> rfl

@[simp] theorem State.wantCriticalRender_calls : (s.wantCriticalRender i).calls = s.calls := by
  unfold State.wantCriticalRender
  split <;> simp

@[simp] theorem State.renderIfCritical_calls (cause : StopCause) : (s.renderIfCritical i cause).calls = s.calls := by
  unfold State.renderIfCritical
  split <;> simp

@[simp] theorem State.engageDone_calls : (s.engageDone i).calls = s.calls := by
  unfold State.engageDone
  split
  · split <;> rfl
  · rfl

@[simp] theorem State.stopMotion_calls (cause : StopCause) : (s.stopMotion i cause).calls = s.calls := by
  unfold State.stopMotion
  simp

@[simp] theorem State.updateLength_calls : (s.updateLength i).calls = s.calls := by
  unfold State.updateLength
  split
  · rfl
  · dsimp only
    split <;> simp

@[simp] theorem State.dropWork_calls : (s.dropWork i).calls = s.calls := rfl

@[simp] theorem State.disagreementTest_calls : (s.disagreementTest i).calls = s.calls := by
  unfold State.disagreementTest
  split
  · split <;> rfl
  · rfl

/-- A gear step other than the motion lock step keeps the calls at its start. -/
theorem State.startStep_calls (kind : StepKind) (lock : LockPos) (clutch : ClutchPos) (other : kind ≠ .motionLock) :
    (s.startStep i kind lock clutch).calls = s.calls := by
  unfold State.startStep State.tryComplete
  split
  · rfl
  · next g step =>
    rw [State.station_onStation_self, Option.some.injEq] at step
    subst step
    split
    · cases kind with
      | motionLock => exact absurd rfl other
      | motionUnlock => exact (State.setStop_calls _ i false).trans rfl
      | rewindEngage => exact (State.engageDone_calls _ i).trans rfl
      | runOut | payoutStop | makeFast | release | stow | handBack => rfl
    · rfl

@[simp] theorem State.enterFault_calls (cause : StopCause) (reason : Attention) :
    (s.enterFault i cause reason).calls = s.calls := by
  unfold State.enterFault
  simp

@[simp] theorem State.releaseSequence_calls (cause : StopCause) : (s.releaseSequence i cause).calls = s.calls := by
  unfold State.releaseSequence
  dsimp only
  rw [State.startStep_calls _ i .release _ _ nofun]
  split <;> simp

@[simp] theorem State.takeOverActive_calls : (s.takeOverActive i).calls = s.calls := by
  unfold State.takeOverActive
  split
  · rfl
  · split
    · rfl
    · split
      · rfl
      · rfl
      · rfl
      · split <;> rfl

@[simp] theorem State.takeOverPending_calls : (s.takeOverPending i).calls = s.calls := by
  unfold State.takeOverPending
  split
  · rfl
  · split <;> rfl

@[simp] theorem State.enterLocal_calls : (s.enterLocal i).calls = s.calls := by
  unfold State.enterLocal
  dsimp only
  split <;> simp

@[simp] theorem State.deferredTakeOver_calls : (s.deferredTakeOver i).calls = s.calls := by
  unfold State.deferredTakeOver
  split <;> simp

@[simp] theorem State.discardParkedHeave_calls : (s.discardParkedHeave i).calls = s.calls := by
  unfold State.discardParkedHeave
  dsimp only
  split <;> simp

end

end Sys2Proof.Machine
end

