-- ==== Sys2Proof/Proofs/LineCommands.lean ====
section
/-! PROOF. The commands of the lines once their checks have passed: RUN-OUT, CLEAR-FAULT, SLACKEN, RETIRE and RELEASE (chapters 1 and 7). -/

namespace Sys2Proof.Machine

variable {s t : State} {i : StationId} {len st : Byte}

/-! ### Entries and steps as records -/

/-- An entry to a state outside TRIMMING, as the two records it writes (R6, R85, R87). -/
theorem State.enter_eq {new : LineState} (trimming : new ≠ .trimming) (fast : new = .fast → (s.station i).state ≠ .fast) :
    s.enter i new = (s.setStation i ((s.station i).entered new)).setChannel i ((s.channel i).entering new) := by
  unfold State.enter Channel.entering Channel.leftBand
  simp only [trimming, if_false]
  by_cases f : new = .fast
  · simp only [f, fast f, if_true, if_false]
    rfl
  · simp only [f, if_false]
    have twice : ∀ r : State, (r.emptyWindow i).resetSteady i =
        r.setChannel i { (r.channel i).emptied with steady := 0 } := by
      intro r
      unfold State.emptyWindow State.resetSteady State.onChannel
      rw [State.channel_setChannel_self]
      unfold State.setChannel
      simp
    rw [twice]
    rfl

/-- The channel of a station outside FAST and TRIMMING stands through its entries (R85, R87). -/
theorem Channel.Watched.entering_self {c : Channel} {state : LineState} {r : Option Mooring} {d : Nat}
    (h : c.Watched state r d) (out : state ≠ .fast ∧ state ≠ .trimming) (new : LineState) : c.entering new = c := by
  obtain ⟨steady, window, isOver, isSlack⟩ := h.out_of_band out
  obtain ⟨-, -, -, -, -, overCount, slackCount, surging, -⟩ := h.inRange
  rw [window] at overCount slackCount
  rw [isOver, isSlack] at surging
  have overCount := Nat.le_zero.1 overCount
  have slackCount := Nat.le_zero.1 slackCount
  unfold Channel.entering Channel.leftBand
  obtain ⟨⟩ := c
  simp only [Channel.emptied] at *
  subst steady window isOver isSlack surging overCount slackCount
  split <;> rfl

theorem State.enter_out {new : LineState} (watched : (s.channel i).Watched (s.station i).state (s.mooring i)
    (s.calibration i).decimation) (out : (s.station i).state ≠ .fast ∧ (s.station i).state ≠ .trimming)
    (trimming : new ≠ .trimming) : s.enter i new = s.setStation i ((s.station i).entered new) := by
  rw [State.enter_eq trimming fun _ => out.1, watched.entering_self out]
  exact State.setChannel_self (s := s.setStation i _)

/-! ### What calls are evaluated by (R5, R54) -/

theorem State.holding_of_none (none : s.mooring i = none) : s.holding i = false := by
  unfold State.holding
  rw [none]
  rfl

theorem State.steadyFor_of_none (none : s.mooring i = none) (need : Nat) : s.steadyFor need i = false := by
  unfold State.steadyFor
  rw [none]
  simp

theorem State.steadyFor_of_state (out : (s.station i).state ≠ .fast ∧ (s.station i).state ≠ .trimming) (need : Nat) :
    s.steadyFor need i = false := by
  unfold State.steadyFor
  simp [out.1, out.2]

theorem State.steadyFor_of_still (still : (s.channel i).steady = 0) {need : Nat} (pos : 1 ≤ need) :
    s.steadyFor need i = false := by
  unfold State.steadyFor
  rw [still, decide_eq_false (by omega), Bool.and_false]

/-- Only the station of an event may begin or cease to hold. -/
theorem State.Local.holding (here : State.Local i s t) (self : t.holding i = s.holding i) (j : StationId) :
    t.holding j = s.holding j := by
  by_cases e : j = i
  · rw [e, self]
  · unfold State.holding
    rw [here.station j e, here.mooring j e]

theorem State.Local.steadyFor (here : State.Local i s t) {need : Nat} (self : t.steadyFor need i = s.steadyFor need i)
    (j : StationId) : t.steadyFor need j = s.steadyFor need j := by
  by_cases e : j = i
  · rw [e, self]
  · unfold State.steadyFor
    rw [here.station j e, here.mooring j e, here.channel j e]

/-- An accepted command whose acts touch neither the drive nor what calls are evaluated by. -/
theorem State.Acts.settle_eq {old : LineState} (acts : State.Acts i s t) (h : s.Inv) (after : (t.site i).After old)
    (calls : t.calls = s.calls) (queue : t.queue = s.queue) (units : t.units = s.units)
    (holding : t.holding i = s.holding i)
    (steady : ∀ need, 1 ≤ need → t.steadyFor need i = s.steadyFor need i) : State.settle s t = t :=
  h.settle_eq (acts.whole h after) calls (acts.local.holding holding)
    (fun need pos => acts.local.steadyFor (steady need pos)) (h.stuck acts.local.hold queue units)

/-- An event at a station keeps every call in place where it keeps what the station's call is evaluated by (R56). -/
theorem State.Acts.stay (acts : State.Acts i s t) (h : s.Inv) (calls : t.calls = s.calls)
    (holding : t.holding i = s.holding i)
    (steady : ∀ c ∈ s.calls, i ∈ c.list → c.state ≠ .singling → t.steadyFor c.steadyNeed i = s.steadyFor c.steadyNeed i) :
    ∀ c ∈ s.calls, t.transitionOf c = none := by
  intro c hc
  rw [State.transitionOf_congr calls (fun j _ => acts.local.holding holding j) fun state j hj => ?_]
  · exact h.calls.settled c hc
  · by_cases e : j = i
    · subst e
      exact steady c hc hj state
    · unfold State.steadyFor
      rw [acts.local.station j e, acts.local.mooring j e, acts.local.channel j e]

theorem State.Whole.holding_of_moored (h : s.Whole) (moored : (s.station i).state.moored = true) : s.holding i = true := by
  unfold State.holding
  rw [h.recordsOk.present i moored, moored]
  rfl

/-! ### RUN-OUT (R17) -/

/-- Settles O27: a STOWED station has no record, so that its move concerns no call and no unit. -/
theorem runOutFreesTheLine : Obligations.RunOutFreesTheLine := by
  intro s len st i h served named free state
  have known : (s.station i).state ≠ .unknown := by rw [state]; exact nofun
  have none : s.mooring i = none := h.records.absent i (by rw [state]; rfl)
  have out : (s.station i).state ≠ .fast ∧ (s.station i).state ≠ .trimming := by rw [state]; exact ⟨nofun, nofun⟩
  have acts : State.Acts i s ((s.enter i .paying).startStep i .runOut .unlocked .free) :=
    (s.enter_acts i _).trans (State.startStep_acts_of_ne _ i .runOut _ _ nofun)
  have after := State.runOut_after (h.fit i) state
  have eq : (s.enter i .paying).startStep i .runOut .unlocked .free = s.setStation i
      (((s.station i).entered .paying).stepping .runOut .unlocked .free s.settings.gearLimit) := by
    rw [State.startStep_plain _ _ _ _ (by decide), State.enter_out (new := .paying) (h.fit i).watched out nofun,
      State.station_setStation_self, State.setStation_setStation]
    rfl
  rw [eq] at acts after
  have settled := acts.settle_eq h after rfl rfl rfl
    ((State.holding_of_none (by exact none)).trans (State.holding_of_none none).symm)
    (fun need _ => (State.steadyFor_of_none (by exact none) need).trans (State.steadyFor_of_none none need).symm)
  refine congrArg Host.Outcome.next (Eq.trans (State.accepted_at served named known ?_) ?_)
  · simp [free, state]
  · rw [eq, settled]

/-! ### CLEAR-FAULT (R21, R154) -/

theorem State.setMooring_self : s.setMooring i (s.mooring i) = s := by
  have : s.moorings.set i.val s.moorings[i] i.isLt = s.moorings := Vector.set_getElem_self _
  rw [State.setMooring, State.mooring, this]

/-- The list of R21, once the clutch has been sensed. -/
theorem State.stateByList_eq (known : (s.station i).senClutch.isSome = true) : s.stateByList i =
    if (s.station i).senClutch = some .free then .released
    else if (s.mooring i).isSome then .fast
    else if s.settings.stowTolerance < (s.station i).length then .outUnclaimed
    else .stowed := by
  obtain ⟨clutch, sensed⟩ := Option.isSome_iff_exists.1 known
  unfold State.stateByList
  simp only [sensed]
  cases clutch <;> cases s.mooring i <;> simp

/-- A station that leaves a state outside FAST and TRIMMING by the list of R21: its two records, and a record that has
become stale where it goes to FAST (R21, R38). -/
theorem State.enterByList_eq (watched : (s.channel i).Watched (s.station i).state (s.mooring i)
    (s.calibration i).decimation) (out : (s.station i).state ≠ .fast ∧ (s.station i).state ≠ .trimming)
    (known : (s.station i).senClutch.isSome = true) : s.enterByList i (s.stateByList i) =
      (s.setStation i ((s.station i).entered (s.stateByList i))).setMooring i
        (if s.stateByList i = .fast then (s.mooring i).map (fun r => { r with stale := true }) else s.mooring i) := by
  have entered : ∀ new : LineState, new ≠ .trimming → s.enter i new = s.setStation i ((s.station i).entered new) :=
    fun new trimming => State.enter_out watched out trimming
  have kept : ∀ x, (s.setStation i x).setMooring i (s.mooring i) = s.setStation i x :=
    fun x => State.setMooring_self (s := s.setStation i x)
  have listed := State.stateByList_eq known
  unfold State.enterByList
  generalize s.stateByList i = state at listed
  by_cases free : (s.station i).senClutch = some .free
  · rw [if_pos free] at listed
    subst listed
    simp only [entered _ (nofun : LineState.released ≠ .trimming), reduceCtorEq, if_false, kept]
  rw [if_neg free] at listed
  cases record : s.mooring i with
  | some r =>
    rw [record, Option.isSome_some, if_pos rfl] at listed
    subst listed
    have still : (s.channel i).steady = 0 := (watched.out_of_band out).1
    simp only [entered _ (nofun : LineState.fast ≠ .trimming), if_true, Option.map_some]
    unfold State.setStale
    rw [State.setStation_mooring, record]
    dsimp only
    unfold State.resetSteady
    have same : { s.channel i with steady := 0 } = s.channel i := by rw [← still]
    have channel : ∀ x r, ((s.setStation i x).setMooring i r).onChannel i (fun c => { c with steady := 0 }) =
        (s.setStation i x).setMooring i r := by
      intro x r
      have := State.setChannel_self (s := (s.setStation i x).setMooring i r) (i := i)
      rw [State.onChannel, State.setMooring_channel, State.setStation_channel, same]
      exact this
    exact channel _ _
  | none =>
    rw [record, Option.isSome_none, if_neg nofun] at listed
    rw [record] at kept
    by_cases out : s.settings.stowTolerance < (s.station i).length
    · rw [if_pos out] at listed
      subst listed
      simp only [entered _ (nofun : LineState.outUnclaimed ≠ .trimming), reduceCtorEq, if_false, kept]
    · rw [if_neg out] at listed
      subst listed
      simp only [State.stow, entered _ (nofun : LineState.stowed ≠ .trimming), reduceCtorEq, if_false, kept]
      unfold State.retireRecord
      rw [State.setStation_mooring, record]

/-- A take-over of a station without work (R153). -/
theorem State.enterLocal_idle (request : s.requestOf i = none) (active : (s.station i).active = none)
    (unit : (s.station i).unit = none) : s.enterLocal i =
      (s.setStation i { (s.station i).entered .inLocal with
        step := none
        gearTimer := none
        motionTimer := none
        takeOver := some ⟨(s.station i).returnState, some s.settings.takeOverLimit⟩ }).setChannel i
          ((s.channel i).entering .inLocal) := by
  have pending : s.takeOverPending i = s := by
    unfold State.takeOverPending
    rw [request]
  have carried : s.takeOverActive i = s := by
    unfold State.takeOverActive
    rw [active]
  have released := State.releaseUnit_of_none s i unit
  unfold State.enterLocal
  simp only [pending, carried, active, Option.bind_none, Option.isSome_none, Bool.false_eq_true, if_false, released]
  rw [State.enter_eq (new := .inLocal) nofun nofun]
  unfold State.onStation
  rw [State.setChannel_station, State.station_setStation_self]
  exact congrArg (fun r : State => r.setChannel i _) (State.setStation_setStation s i _ _)

/-- A station without work and without a step that has left UNKNOWN or FAULT enters LOCAL where its take-over input is
asserted (R154). -/
theorem State.deferredTakeOver_idle (request : s.requestOf i = none) (active : (s.station i).active = none)
    (unit : (s.station i).unit = none) (step : (s.station i).step = none) (timer : (s.station i).gearTimer = none)
    (motion : (s.station i).motionTimer = none) (channel : (s.channel i).entering .inLocal = s.channel i)
    (fault : (s.station i).state ≠ .fault) (returns : (s.station i).returnState = (s.station i).state) :
    s.deferredTakeOver i = s.setStation i
      (if s.inputs.takeOver[i] then { (s.station i).entered .inLocal with
        takeOver := some ⟨(s.station i).state, some s.settings.takeOverLimit⟩ }
      else s.station i) := by
  unfold State.deferredTakeOver
  by_cases input : s.inputs.takeOver[i] = true
  · have station : { (s.station i).entered .inLocal with
        step := none
        gearTimer := none
        motionTimer := none
        takeOver := some ⟨(s.station i).state, some s.settings.takeOverLimit⟩ } =
        { (s.station i).entered .inLocal with
          takeOver := some ⟨(s.station i).state, some s.settings.takeOverLimit⟩ } := by
      simp only [Station.entered, step, timer, motion]
    rw [if_pos (by rw [Bool.and_eq_true, bne_iff_ne]; exact ⟨input, fault⟩), if_pos input,
      State.enterLocal_idle request active unit, channel, returns, station]
    exact State.setChannel_self (s := s.setStation i _)
  · rw [if_neg input, if_neg (by rw [Bool.and_eq_true]; exact fun k => input k.1), State.setStation_self]

/-- A station in FAULT has no work and no step. -/
theorem State.Inv.fault_idle (h : s.Inv) (state : (s.station i).state = .fault) : (s.site i).Idle ∧
    (s.station i).step = none ∧ (s.station i).gearTimer = none := by
  have fit := h.fit i
  have state : (s.site i).x.state = .fault := state
  refine ⟨fit.doing.idle (by rw [state]; rfl), ?_, fit.geared.rest (by rw [state]; rfl)⟩
  rw [Option.eq_none_iff_forall_not_mem]
  intro g hg
  have := (fit.geared.step g hg).1
  rw [state] at this
  cases this

/-- Settles O31: the two records that the list and the take-over write; no call is evaluated anew. -/
theorem clearFaultFollowsTheGear : Obligations.ClearFaultFollowsTheGear := by
  intro s len st i h served named state lock clutch valid x new
  have known : (s.station i).state ≠ .unknown := by rw [state]; exact nofun
  have out : (s.station i).state ≠ .fast ∧ (s.station i).state ≠ .trimming := by rw [state]; exact ⟨nofun, nofun⟩
  have fit := h.fit i
  have agrees : (s.station i).disagrees = false := by
    rw [← Bool.not_eq_true, Station.disagrees_iff]
    rintro (k | k)
    · exact k lock
    · exact k clutch
  obtain ⟨idle, step, timer⟩ := h.fault_idle state
  obtain ⟨-, -, sensed⟩ := fit.geared.known known
  have listed : s.stateByList i = new := State.stateByList_eq sensed
  have entered := State.enterByList_eq fit.watched out sensed
  have after := State.clearFault_after fit state agrees
  have acts : State.Acts i s ((s.enterByList i (s.stateByList i)).deferredTakeOver i) :=
    (s.enterByList_acts i _).trans (State.deferredTakeOver_acts _ i)
  have takes : new ≠ .fault ∧ Station.returnState (x.entered new) = new ∧ new ≠ .inLocal ∧ new ≠ .trimming := by
    rw [← listed]
    rcases s.stateByList_cases i with ⟨e, -⟩ | e | ⟨e, -⟩ | e <;> rw [e] <;> exact ⟨nofun, rfl, nofun, nofun⟩
  have eq : (s.enterByList i (s.stateByList i)).deferredTakeOver i = (s.setStation i
      (if s.inputs.takeOver[i] then
        { x.entered .inLocal with takeOver := some ⟨new, some s.settings.takeOverLimit⟩ }
      else x.entered new)).setMooring i
      (if new = .fast then (s.mooring i).map (fun r => { r with stale := true }) else s.mooring i) := by
    rw [entered, listed]
    generalize (if new = .fast then (s.mooring i).map (fun r => { r with stale := true }) else s.mooring i) = record
    have station : ((s.setStation i (x.entered new)).setMooring i record).station i = x.entered new := by
      rw [State.setMooring_station, State.station_setStation_self]
    have request : s.requestOf i = none := by
      rw [State.requestOf_eq_site, idle.qs]
      rfl
    rw [State.deferredTakeOver_idle (s := (s.setStation i (x.entered new)).setMooring i record) (by exact request) (by rw [station]; exact idle.active) (by rw [station]; exact idle.unit)
      (by rw [station]; exact step) (by rw [station]; exact timer) (by rw [station]; exact idle.timer)
      (fit.watched.entering_self out .inLocal) (by rw [station]; exact takes.1) (by rw [station]; exact takes.2.1), station]
    exact congrArg (fun t : State => t.setMooring i record) (State.setStation_setStation s i (x.entered new) _)
  rw [eq] at acts after
  refine congrArg Host.Outcome.next (Eq.trans (State.accepted_at served named known ?_) ?_)
  · simp [state, agrees, valid, Config.sampleRun]
  rw [eq]
  refine congrArg (fun t : State => t.respond Command.clearFault .ok []) (acts.settle_eq h after rfl rfl rfl ?_ ?_)
  · have moored : new.moored = ((s.mooring i).isSome && x.senClutch == some .engaged) := by
      obtain ⟨clutch, sensed⟩ := Option.isSome_iff_exists.1 sensed
      have sensed : x.senClutch = some clutch := sensed
      simp only [new, sensed]
      by_cases far : s.settings.stowTolerance < x.length <;> cases clutch <;> cases s.mooring i <;>
        simp [far, LineState.moored]
    have same : (if new = .fast then (s.mooring i).map (fun r => { r with stale := true }) else s.mooring i).isSome =
        (s.mooring i).isSome := by
      split <;> cases s.mooring i <;> rfl
    unfold State.holding
    simp only [State.mooring_setMooring_self, State.setMooring_station, State.station_setStation_self, same, state]
    by_cases input : s.inputs.takeOver[i] = true
    · simp only [input, if_true]
      rfl
    · simp only [input, Bool.false_eq_true, if_false]
      change ((s.mooring i).isSome && (new.moored || ((new == .inLocal || new == .fault) && x.senClutch == some .engaged))) =
        ((s.mooring i).isSome && (x.senClutch == some .engaged))
      simp only [moored, beq_eq_false_iff_ne.2 takes.1, beq_eq_false_iff_ne.2 takes.2.2.1]
      cases s.mooring i <;> simp
  · intro need _
    rw [State.steadyFor_of_state out]
    by_cases fast : new = .fast
    · unfold State.steadyFor
      rw [State.mooring_setMooring_self, if_pos fast]
      cases s.mooring i <;> simp
    · refine State.steadyFor_of_state ?_ need
      rw [State.setMooring_station, State.station_setStation_self]
      split
      · exact ⟨nofun, nofun⟩
      · exact ⟨fast, takes.2.2.2⟩

/-! ### SLACKEN (R135, R136) -/

theorem State.withdrawTrim_queue (trims : ∀ q ∈ (s.site i).qs, q.work.isTrim = true) :
    (s.withdrawTrim i).queue = s.queue.filter (fun q => q.station != i) := by
  unfold State.withdrawTrim
  rw [State.requestOf_eq_site]
  cases qs : (s.site i).qs with
  | nil =>
    have none := (State.site_qs_eq_nil s i).1 qs
    exact (List.filter_eq_self.2 fun q hq => by simpa using none q hq).symm
  | cons q l =>
    rw [List.head?_cons]
    dsimp only
    rw [if_pos (trims q (by rw [qs]; exact List.mem_cons_self))]
    rfl

/-- What a SLACKEN leaves of the site of its station. -/
theorem State.slackened_site (h : (s.site i).Fit) (state : (s.site i).x.state = .fast ∨ (s.site i).x.state = .eased)
    (length : Nat) : (s.slackened i length).site i = { s.site i with
      x := (s.site i).x.entered .easing
      c := (s.site i).c.leftBand
      qs := [⟨i, .slacken (min length (s.payoutRoom i)), false⟩] } := by
  obtain ⟨-, -, -, -, -, -, trims⟩ := h.resting state
  have empty : ((s.withdrawTrim i).enter i .easing).site i = { s.site i with
      x := (s.site i).x.entered .easing
      c := (s.site i).c.leftBand
      qs := [] } := by
    rw [State.site_enter_out (state := .easing) nofun nofun, State.site_withdrawTrim]
    cases qs : (s.site i).qs with
    | nil => rfl
    | cons q l => simp [trims q (by rw [qs]; exact List.mem_cons_self)]
  unfold State.slackened
  rw [State.site_submit _ _ _ (by rw [empty]), empty]

/-- Settles O29: the station's call is SINGLING and goes by who holds, so that no call moves. -/
theorem slackenEasesTheLine : Obligations.SlackenEasesTheLine := by
  intro s len st n i h served named free state unlocked allows room
  have known : (s.station i).state ≠ .unknown := by rcases state with e | e <;> rw [e] <;> exact nofun
  have out : (s.station i).state ≠ .inLocal := by rcases state with e | e <;> rw [e] <;> exact nofun
  have fit := h.fit i
  obtain ⟨-, -, -, -, -, -, trims⟩ := fit.resting state
  have running := State.takesFrames_running served.1
  have acts := s.slackened_acts i (clamp 10 2000 n.toNat)
  have after := State.slackened_after fit free state (clamp 10 2000 n.toNat)
  have ends := acts.ends h running after
  have site := State.slackened_site fit state (clamp 10 2000 n.toNat)
  have calls : (s.slackened i (clamp 10 2000 n.toNat)).calls = s.calls := by
    unfold State.slackened
    simp
  have whole := acts.whole h after
  have moored : (s.station i).state.moored = true := by rcases state with e | e <;> rw [e] <;> rfl
  have kept := h.settle_callsKept whole calls acts.local.permitA acts.local.permitB (acts.stay h calls ?_
    fun c hc hi singling => absurd (allows c hc hi).1 singling)
  · refine ⟨_, congrArg Host.Outcome.next (State.accepted_at served named known ?_), ?_, ends.channel.trans ?_,
      ends.mooring.trans ?_, kept, ends.alert.trans ?_, ends.onlyAt.respond _ _ _⟩
    · have open_ : ((s.station i).state == .fast || (s.station i).state == .eased) = true := by
        rwa [Bool.or_eq_true, beq_iff_eq, beq_iff_eq]
      have roomy : ¬ s.payoutRoom i < Config.slackenMin := by
        rw [State.payoutRoom_lt_iff]
        omega
      simp [free, out, open_, unlocked, askedCheck, State.letGoSlacken_pass h.calls.listsOk allows, roomy]
    · have placed := ends.queues (place := insertTail) (q := ⟨i, .slacken (min (clamp 10 2000 n.toNat) (s.payoutRoom i)), false⟩)
        (by rw [site]) ?_
      · rw [← clamp_eq_max_min (by decide : 10 ≤ 2000)]
        rw [site] at placed
        exact placed
      · unfold State.slackened
        change insertTail _ ((s.withdrawTrim i).enter i .easing).queue = _
        obtain ⟨-, -, queue, -⟩ := (s.withdrawTrim i).enter_only i .easing
        rw [queue, State.withdrawTrim_queue trims]
    · rw [site]
      rfl
    · rw [site]
      rfl
    · exact (congrArg Site.alert site :)
  · rw [whole.holding_of_moored (by rw [State.station_eq_site, site]; rfl), h.whole.holding_of_moored moored]

/-! ### RETIRE (R139, R140) -/

theorem State.holding_of_state (out : (s.station i).state.moored = false ∧ (s.station i).state ≠ .inLocal ∧
    (s.station i).state ≠ .fault) : s.holding i = false := by
  obtain ⟨moored, inLocal, fault⟩ := out
  unfold State.holding
  simp [moored, inLocal, fault]

/-- The queue of a state in which the station waits for nothing. -/
theorem State.others_eq_queue (none : (s.site i).qs = []) : s.queue.filter (fun q => q.station != i) = s.queue :=
  List.filter_eq_self.2 fun q hq => by simpa using (State.site_qs_eq_nil s i).1 none q hq

/-- The station record at the start of the rewind engage step (R140). -/
def Station.retiring (x : Station) (limit : Nat) : Station :=
  { (x.entered .rewinding).stepping .rewindEngage .locked .engaged limit with active := some ⟨.rewind, false, .awaiting⟩ }

/-- The state before the rewind engage step. -/
def State.retiring (s : State) (i : StationId) : State :=
  (s.enter i .rewinding).onStation i (fun x => { x with cmdLock := .locked, active := some ⟨.rewind, false, .awaiting⟩ })

theorem State.retired_eq : s.retired i = (s.retiring i).startStep i .rewindEngage .locked .engaged := rfl

theorem State.retiring_only : (s.retiring i).queue = s.queue ∧ (s.retiring i).units = s.units ∧
    (s.retiring i).calls = s.calls ∧ (s.retiring i).site i = { s.site i with
      x := { (s.site i).x.entered .rewinding with cmdLock := .locked, active := some ⟨.rewind, false, .awaiting⟩ }
      c := (s.site i).c.leftBand } := by
  obtain ⟨-, units, queue, calls, -⟩ := s.enter_only i .rewinding
  refine ⟨queue, units, calls, ?_⟩
  unfold State.retiring
  rw [State.site_onStation _ _ (by rfl), State.site_enter_out (state := .rewinding) nofun nofun]

/-- Where the senses do not yet show LOCKED and ENGAGED the step stands. -/
theorem State.retired_open (open_ : (s.station i).shut = false) :
    (s.retired i).queue = s.queue ∧ (s.retired i).units = s.units ∧ (s.retired i).calls = s.calls ∧
      (s.retired i).site i = { s.site i with
        x := (s.site i).x.retiring s.settings.gearLimit
        c := (s.site i).c.leftBand } := by
  obtain ⟨queue, units, calls, site⟩ := State.retiring_only (s := s) (i := i)
  have differs : ¬ (((s.retiring i).site i).x.senLock = some .locked ∧ ((s.retiring i).site i).x.senClutch = some .engaged) := by
    rw [site]
    exact fun k => Bool.false_ne_true (open_.symm.trans ((Station.shut_iff _).2 k))
  rw [State.retired_eq]
  refine ⟨?_, ?_, ?_, ?_⟩
  · rw [State.startStep_of_open _ _ _ _ _ differs]; exact queue
  · rw [State.startStep_of_open _ _ _ _ _ differs]; exact units
  · rw [State.startStep_of_open _ _ _ _ _ differs]; exact calls
  · rw [State.site_startStep_of_open _ _ _ differs, site]
    rfl

/-- Where they do, it completes at its start and the REWIND is submitted. -/
theorem State.retired_shut (shut : (s.station i).shut = true) (free : (s.site i).qs = [])
    (active : (s.station i).active = none) :
    (s.retired i).queue = insertTail ⟨i, .rewind, false⟩ s.queue ∧ (s.retired i).calls = s.calls ∧
      (s.retired i).site i = { s.site i with
        x := (s.site i).x.entered .rewinding |>.stepping .rewindEngage .locked .engaged s.settings.gearLimit
        c := (s.site i).c.leftBand
        qs := [⟨i, .rewind, false⟩] } := by
  obtain ⟨queue, units, calls, site⟩ := State.retiring_only (s := s) (i := i)
  have agreed : ((s.retiring i).site i).x.senLock = some .locked ∧ ((s.retiring i).site i).x.senClutch = some .engaged := by
    rw [site]
    exact (Station.shut_iff _).1 shut
  have act : ((s.retiring i).site i).x.active = some ⟨.rewind, false, .awaiting⟩ := by rw [site]
  have done : s.retired i = State.engageDone ((s.retiring i).setStation i (((s.retiring i).station i).stepping .rewindEngage
      .locked .engaged (s.retiring i).settings.gearLimit)) i := by
    rw [State.retired_eq, State.startStep_of_agreed _ _ _ _ _ agreed]
    rfl
  refine ⟨?_, ?_, ?_⟩
  · rw [done]
    unfold State.engageDone
    rw [State.station_setStation_self]
    simp only [Station.stepping, State.station_eq_site, act, ActiveOp.isAwaiting, if_true]
    exact congrArg (insertTail _) queue
  · rw [State.retired_eq, State.startStep_calls _ _ .rewindEngage _ _ nofun, calls]
  · rw [State.retired_eq, State.site_startEngageStep (b := false) (by rw [site]; exact free) act, site]
    rw [if_pos (by exact shut), Station.stepping_agreed _ _ (by exact (Station.shut_iff _).1 shut)]
    have active : (s.site i).x.active = none := active
    simp only [Station.lockedUp, Station.entered, active]

/-- Settles O30: a REWINDING station holds as little as a RELEASED or PAYING one. -/
theorem retireStartsTheRewind : Obligations.RetireStartsTheRewind := by
  intro s len st i h served named free state steady x
  have known : (s.station i).state ≠ .unknown := by rcases state with e | e <;> rw [e] <;> exact nofun
  have local_ : (s.station i).state ≠ .inLocal := by rcases state with e | e <;> rw [e] <;> exact nofun
  have out : (s.station i).state.moored = false ∧ (s.station i).state ≠ .inLocal ∧ (s.station i).state ≠ .fault := by
    rcases state with e | e <;> rw [e] <;> exact ⟨rfl, nofun, nofun⟩
  have band : (s.station i).state ≠ .fast ∧ (s.station i).state ≠ .trimming := by
    rcases state with e | e <;> rw [e] <;> exact ⟨nofun, nofun⟩
  have fit := h.fit i
  have idle := fit.doing.idle (by rcases state with e | e <;> rw [← State.station_eq_site, e] <;> rfl)
  have channel : (s.site i).c.leftBand = s.channel i := fit.watched.entering_self band .rewinding
  have acts := s.retired_acts i
  have after := State.retired_after fit free state
  have ends := acts.ends h (State.takesFrames_running served.1) after
  have accepted : firstRefusal [(s.hold, .hold), ((s.station i).state == .inLocal, .inLocal),
      ((s.station i).releasing, .busy),
      (!((s.station i).state == .released || (s.station i).state == .paying), .wrongState)] = none := by
    have states : ((s.station i).state == .released || (s.station i).state == .paying) = true := by
      rwa [Bool.or_eq_true, beq_iff_eq, beq_iff_eq]
    have still : (s.station i).releasing = false := Station.releasing_eq_false fun k =>
      Bool.false_ne_true (steady.symm.trans k.2)
    simp [free, local_, states, still]
  have steadyEq : ∀ r : State, (r.station i).state = .rewinding → ∀ need, r.steadyFor need i = s.steadyFor need i :=
    fun r new need => (State.steadyFor_of_state (by rw [new]; exact ⟨nofun, nofun⟩) need).trans
      (State.steadyFor_of_state band need).symm
  have holdingEq : ∀ r : State, (r.station i).state = .rewinding → r.holding i = s.holding i := fun r new =>
    (State.holding_of_state (by rw [new]; exact ⟨rfl, nofun, nofun⟩)).trans (State.holding_of_state out).symm
  refine ⟨_, congrArg Host.Outcome.next (State.accepted_at served named known accepted), ?_⟩
  by_cases shut : x.shut = true
  · obtain ⟨queue, calls, site⟩ := State.retired_shut shut idle.qs idle.active
    have new : ((s.retired i).station i).state = .rewinding := by rw [State.station_eq_site, site]; rfl
    have kept := h.settle_callsKept (acts.whole h after) calls acts.local.permitA acts.local.permitB
      (acts.stay h calls (holdingEq _ new) fun _ _ _ _ => steadyEq _ new _)
    have placed := ends.queues (place := insertTail) (q := ⟨i, .rewind, false⟩) (by rw [site])
      (by rw [queue, State.others_eq_queue idle.qs])
    rw [site] at placed
    rw [if_pos shut]
    refine ⟨placed, ends.channel.trans ?_, ends.mooring.trans ?_, kept, ends.alert.trans ?_, ends.onlyAt.respond _ _ _⟩
    · rw [site]; exact channel
    · rw [site]; rfl
    · exact (congrArg Site.alert site :)
  · obtain ⟨queue, units, calls, site⟩ := State.retired_open (Bool.eq_false_iff.2 shut)
    have new : ((s.retired i).station i).state = .rewinding := by rw [State.station_eq_site, site]; rfl
    have kept := h.settle_callsKept (acts.whole h after) calls acts.local.permitA acts.local.permitB
      (acts.stay h calls (holdingEq _ new) fun _ _ _ _ => steadyEq _ new _)
    have settled := acts.settle_eq h after calls queue units (holdingEq _ new) fun need _ => steadyEq _ new need
    have station := (ends.rests (by rw [site]; exact idle.qs)).1
    rw [site] at station
    rw [if_neg shut]
    refine ⟨⟨station, ?_, ?_⟩, ends.channel.trans ?_, ends.mooring.trans ?_, kept, ends.alert.trans ?_,
      ends.onlyAt.respond _ _ _⟩
    · exact (congrArg State.queue settled :).trans queue
    · exact (congrArg State.units settled :).trans units
    · rw [site]; exact channel
    · rw [site]; rfl
    · exact (congrArg Site.alert site :)

/-! ### RELEASE (R129, R130) -/

theorem State.stopMotion_unit_state (cause : StopCause) (u : UnitId) :
    ((s.stopMotion i cause).unit u).state = (s.unit u).state := by
  unfold State.stopMotion State.setStop
  split
  · rfl
  · next v _ =>
    rw [State.onStation_unit, State.unit_onUnit]
    split
    · next e => rw [e]
    · rfl

/-- The release sequence frees the unit of its station (R130). -/
theorem State.releaseSequence_freed (h : s.Sound) {u : UnitId} (unit : (s.station i).unit = some u) (cause : StopCause) :
    (s.releaseSequence i cause).unit u = .unserved (if (s.unit u).state = .faulted then .faulted else .idle) := by
  have acts : ∀ m : State, State.Acts i (m.releaseUnit i)
      ((((m.releaseUnit i).dropWork i).enter i .released).startStep i .release .unlocked .free) := fun m =>
    ((State.dropWork_acts _ i).trans (State.enter_acts _ i .released)).trans
      (State.startStep_acts_of_ne _ i .release _ _ nofun)
  unfold State.releaseSequence
  dsimp only
  split
  · refine (acts _).released ((s.stopMotion_acts i cause).sound h) ?_ (by rw [State.stopMotion_unit_state])
    rw [State.stopMotion_station]
    exact unit
  · exact (acts s).released h unit Iff.rfl

/-- Settles O28, from the site of a release sequence and the unit it frees. -/
theorem releaseLetsTheLineGo : Obligations.ReleaseLetsTheLineGo := by
  intro s len st i h served named state unlocked allows x
  have ne : ∀ other : LineState, other.moored = false → other ≠ .outUnclaimed → (s.station i).state ≠ other := by
    rintro other unmoored claimed e
    rw [e, unmoored] at state
    rcases state with k | k
    · cases k
    · exact claimed k
  have acts := s.releaseSequence_acts i .withdrawn
  have ends := acts.ends h (State.takesFrames_running served.1) (State.releaseSequence_after (h.fit i) state .withdrawn)
  have site := State.site_releaseSequence (s := s) (i := i) .withdrawn
  obtain ⟨station, request⟩ := ends.rests (by rw [site])
  have checks : firstRefusal [((s.station i).state == .inLocal, .inLocal), ((s.station i).releasing, .busy),
      (!((s.station i).state.moored || (s.station i).state == .outUnclaimed), .wrongState),
      (s.quarterLocked i, .locked), askedCheck (s.letGoRelease i)] = none := by
    have released : (s.station i).releasing = false := Station.releasing_eq_false fun k => ne .released rfl nofun k.1
    have states : ((s.station i).state.moored || (s.station i).state == .outUnclaimed) = true := by
      rwa [Bool.or_eq_true, beq_iff_eq]
    simp [ne .inLocal rfl nofun, released, states, unlocked, askedCheck, State.letGoRelease_pass h.calls.listsOk allows]
  have station := station.trans (State.releaseSequence_station s i .withdrawn)
  have freed : ∀ u ∈ x.unit, s.freed (State.settle s (s.releaseSequence i .withdrawn)) u := fun u hu =>
    ends.freed (State.releaseSequence_freed h.whole.sound hu .withdrawn)
  have calls := ends.sameCalls (s.releaseSequence_calls i .withdrawn)
  have answer : exec (.release len st) s = .next ((State.settle s (s.releaseSequence i .withdrawn)).respond
      Command.release .ok []) :=
    congrArg Host.Outcome.next (State.accepted_at served named (ne .unknown rfl nofun) checks)
  have channel := ends.channel
  have mooring := ends.mooring
  have alert : (State.settle s (s.releaseSequence i .withdrawn)).alert = s.alert :=
    ends.alert.trans (congrArg Site.alert site :)
  rw [site] at channel mooring
  have permits := ends.permits
  have onlyAt := ends.onlyAt
  clear ends
  generalize State.settle s (s.releaseSequence i .withdrawn) = u at *
  exact ⟨_, answer, station, channel, mooring, request, freed, calls, permits, alert, onlyAt.respond _ _ _⟩

end Sys2Proof.Machine
end

