-- ==== Sys2Proof/Proofs/MooringCommands.lean ====
section
/-! PROOF. The commands of the mooring table once their checks have passed: MAKE-FAST and ADOPT (chapter 2). -/

namespace Sys2Proof.Machine

variable {s t : State} {i : StationId} {len st : Byte}

/-! ### A HELD call whose station has ceased to be steady (R56) -/

theorem State.SameTable.noOtherActive (h : s.SameTable t) (c : Call) : t.noOtherActive c = s.noOtherActive c :=
  h.all (fun d => d.tag == c.tag || d.berth != c.berth || !d.state.active) fun _ => rfl

/-- A state in which one HELD call fails its test and every other call stands: that call becomes STRAINED (R56). -/
theorem State.TableOk.settleCalls_strained (h : s.TableOk) (lists : s.ListsOk) {c : Call} (hc : c ∈ s.calls)
    (held : c.state = .held) (fails : s.heldTest c = false)
    (others : ∀ d ∈ s.calls, d.tag ≠ c.tag → s.transitionOf d = none) {before : State}
    (due : State.evaluationDue before s c = true) : State.settleCalls before s = s.callTo c .strained := by
  have own : ∀ e ∈ s.calls, e.tag = c.tag → e = c := fun e he tag => lists.tag_inj he hc tag
  have goes : s.transitionOf c = some .strained := by
    unfold State.transitionOf
    simp [held, fails]
  have alone : s.noOtherActive c = true := h.noOtherActive hc (by rw [held]; rfl)
  have settled : ∀ d ∈ (s.callTo c .strained).calls, (s.callTo c .strained).transitionOf d = none := by
    intro d hd
    obtain ⟨e, he, form⟩ := State.mem_callTo.1 hd
    by_cases tag : e.tag = c.tag
    · rw [if_pos tag, own e he tag] at form
      rw [← form]
      exact State.settled_of_transition own goes
    · rw [if_neg tag] at form
      rw [← form]
      exact h.settled_callTo lists hc (fun _ => alone) he tag (others e he tag) fun _ _ => .inl rfl
  have first : s.evaluate c.tag = s.callTo c .strained := by
    unfold State.evaluate State.evaluateOnce
    rw [lists.callOf hc]
    dsimp only
    rw [goes]
    rfl
  have other : ∀ tag, tag ≠ c.tag → s.evaluate tag = s := by
    intro tag ne
    unfold State.evaluate State.evaluateOnce
    cases e : s.callOf tag with
    | none => rfl
    | some d =>
      obtain ⟨hd, rfl⟩ := State.callOf_some e
      simp only [others d hd ne, reduceCtorEq, if_false]
  have stands : ∀ l : List Nat, l.foldl State.evaluate (s.callTo c .strained) = s.callTo c .strained := by
    intro l
    induction l with
    | nil => rfl
    | cons tag l ih => rw [List.foldl_cons, State.evaluate_of_settled settled, ih]
  have fold : ∀ l : List Nat, c.tag ∈ l → l.foldl State.evaluate s = s.callTo c .strained := by
    intro l mem
    induction l with
    | nil => cases mem
    | cons tag l ih =>
      rw [List.foldl_cons]
      by_cases e : tag = c.tag
      · rw [e, first, stands]
      · rw [other tag e]
        exact ih ((List.mem_cons.1 mem).resolve_left fun k => e k.symm)
  exact fold _ (List.mem_map.2 ⟨c, List.mem_filter.2 ⟨hc, due⟩, rfl⟩)

/-- The calls after an event at a station that is not steady at its end: a HELD call of the station has become STRAINED,
and every other call stands (R56). -/
theorem State.Acts.settle_unsteady (acts : State.Acts i s t) (h : s.Inv) (whole : t.Whole)
    (unsteady : ∀ need, 1 ≤ need → t.steadyFor need i = false)
    (holds : ∀ c ∈ t.calls, i ∈ c.list → c.state = .singling → c.list.any t.holding = true)
    (others : ∀ c ∈ t.calls, i ∉ c.list → c ∈ s.calls) : (State.settle s t).calls =
      t.calls.map (fun c => if i ∈ c.list ∧ c.state = .held then { c with state := .strained } else c) := by
  have same := acts.local.sameTable.trans t.grantAll_sameTable
  have table : t.grantAll.TableOk := h.calls.tableOk.congr same
  have lists : t.grantAll.ListsOk := whole.grantAll.sound.lists
  have calls : t.grantAll.calls = t.calls := t.grantAll_only.calls
  have need : ∀ c ∈ t.grantAll.calls, 1 ≤ c.steadyNeed := fun c hc => by
    obtain ⟨-, -, -, -, need, -⟩ := table.ranges c hc
    exact need
  have fails : ∀ c ∈ t.grantAll.calls, i ∈ c.list → t.grantAll.heldTest c = false := by
    intro c hc hi
    have false_ : c.list.all (t.grantAll.steadyFor c.steadyNeed) = false := by
      rw [List.all_eq_false]
      refine ⟨i, hi, ?_⟩
      rw [whole.grantAll_steadyFor (need c hc), unsteady _ (need c hc)]
      exact Bool.false_ne_true
    unfold State.heldTest
    rw [false_, Bool.and_false, Bool.false_and]
  have apart : ∀ c ∈ t.grantAll.calls, i ∉ c.list → t.grantAll.transitionOf c = none := by
    intro c hc hi
    rw [calls] at hc
    have mem := others c hc hi
    have stay := h.calls.settled c mem
    have ne : ∀ j ∈ c.list, j ≠ i := fun j hj e => hi (e ▸ hj)
    rw [← stay]
    have holding : c.list.any t.grantAll.holding = c.list.any s.holding := any_congr_mem fun j hj => by
      rw [whole.grantAll_holding]
      unfold State.holding
      rw [acts.local.station j (ne j hj), acts.local.mooring j (ne j hj)]
    have steady : c.list.all (t.grantAll.steadyFor c.steadyNeed) = c.list.all (s.steadyFor c.steadyNeed) :=
      all_congr_mem fun j hj => by
        rw [whole.grantAll_steadyFor (need c (by rw [calls]; exact hc))]
        unfold State.steadyFor
        rw [acts.local.station j (ne j hj), acts.local.mooring j (ne j hj), acts.local.channel j (ne j hj)]
    unfold State.transitionOf State.heldTest
    rw [holding, steady, same.noOtherActive]
  have here : ∀ c ∈ t.grantAll.calls, i ∈ c.list → c.state ≠ .held → t.grantAll.transitionOf c = none := by
    intro c hc hi state
    rw [State.transitionOf_eq_none]
    cases e : c.state with
    | opened | strained => exact fails c hc hi
    | held => exact absurd e state
    | singling =>
      dsimp only
      rw [any_congr_mem fun j _ => whole.grantAll_holding j]
      exact holds c (by rwa [calls] at hc) hi e
    | clearing => trivial
  by_cases found : ∃ c ∈ t.grantAll.calls, i ∈ c.list ∧ c.state = .held
  · obtain ⟨c, hc, hi, held⟩ := found
    have unique : ∀ d ∈ t.grantAll.calls, i ∈ d.list → d.tag = c.tag := by
      intro d hd hj
      obtain ⟨-, stations⟩ := lists.lists c hc
      obtain ⟨-, stations'⟩ := lists.lists d hd
      obtain ⟨-, r, hr, tag⟩ := stations i hi
      obtain ⟨-, r', hr', tag'⟩ := stations' i hj
      rw [Option.mem_def.1 hr, Option.mem_def, Option.some.injEq] at hr'
      rw [← tag, ← tag', hr']
    have due : State.evaluationDue s t.grantAll c = true := by
      unfold State.evaluationDue
      cases e : s.callOf c.tag with
      | none => rfl
      | some d =>
        obtain ⟨hd, tag⟩ := State.callOf_some e
        dsimp only
        by_cases list : d.list = c.list
        · obtain ⟨d', hd', bare⟩ := same.mem hc
          obtain ⟨tag', -, state, -, need'⟩ := Call.bare_eq bare
          obtain rfl := h.calls.listsOk.tag_inj hd hd' (tag.trans tag'.symm)
          have stay := (State.transitionOf_eq_none d).1 (h.calls.settled d hd)
          rw [state, held] at stay
          obtain ⟨⟨-, all⟩, -⟩ := (State.heldTest_iff d).1 stay
          have was : s.steadyFor c.steadyNeed i = true := by
            rw [← need']
            exact List.all_eq_true.1 all i (by rw [list]; exact hi)
          have any : c.list.any (fun j => s.holding j != t.grantAll.holding j ||
              s.steadyFor c.steadyNeed j != t.grantAll.steadyFor c.steadyNeed j) = true := by
            rw [List.any_eq_true]
            refine ⟨i, hi, ?_⟩
            rw [was, whole.grantAll_steadyFor (need c hc), unsteady _ (need c hc)]
            simp
          rw [any, Bool.or_true]
        · rw [bne_iff_ne.2 list, Bool.true_or]
    have settled := table.settleCalls_strained lists hc held (fails c hc hi) (fun d hd tag => by
      by_cases hj : i ∈ d.list
      · exact absurd (unique d hd hj) tag
      · exact apart d hd hj) due
    unfold State.settle
    rw [settled, State.callTo_calls, calls]
    refine List.map_congr_left fun d hd => ?_
    rw [← calls] at hd
    by_cases tag : d.tag = c.tag
    · obtain rfl := lists.tag_inj hd hc tag
      rw [if_pos rfl, if_pos ⟨hi, held⟩]
    · rw [if_neg tag, if_neg fun k => tag (unique d hd k.1)]
  · have settled : State.settleCalls s t.grantAll = t.grantAll := by
      refine State.settleCalls_of_settled (fun c hc => ?_) s
      by_cases hi : i ∈ c.list
      · exact here c hc hi fun held => found ⟨c, hc, hi, held⟩
      · exact apart c hc hi
    unfold State.settle
    rw [settled, calls]
    refine (List.map_id _).symm.trans (List.map_congr_left fun d hd => ?_)
    rw [← calls] at hd
    rw [if_neg fun k => found ⟨d, hd, k⟩]
    rfl

/-! ### MAKE-FAST and ADOPT (R29, R30, R32) -/

/-- The channel of a station that has no record, once one has been created (R46). -/
theorem State.Inv.createRecord_site (h : s.Inv) (none : s.mooring i = none) (r : Mooring) :
    (s.createRecord i r).site i = { s.site i with
      r := some r
      c := { s.channel i with readingSinceRecord := false } } := by
  obtain ⟨count, condition⟩ := h.channels.noRecord i none
  have count : (s.site i).c.critCount = 0 := count
  have condition : (s.site i).c.critCondition = false := condition
  rw [State.site_createRecord, if_pos condition]
  have : { (s.site i).c with critCount := 0, readingSinceRecord := false, critCondition := false } =
      { s.channel i with readingSinceRecord := false } := by
    rw [← count, ← condition]
    rfl
  rw [this]

theorem State.createRecord_calls (r : Mooring) : (s.createRecord i r).calls =
    s.calls.map (fun c => if c.tag = r.tag then { c with list := c.list ++ [i] } else c) := by
  unfold State.createRecord State.clearCritical
  rw [State.setCritCondition_calls]
  rfl

theorem State.setCritCondition_queue (level : Bool) : (s.setCritCondition i level).queue = s.queue := by
  unfold State.setCritCondition
  split
  · rfl
  · rw [State.reformCritical_eq]
    rfl

theorem State.createRecord_queue (r : Mooring) : (s.createRecord i r).queue = s.queue :=
  State.setCritCondition_queue false

/-- A station without a record is in no list (R48). -/
theorem State.ListsOk.not_listed (h : s.ListsOk) (none : s.mooring i = none) {c : Call} (hc : c ∈ s.calls) : i ∉ c.list := by
  intro hi
  obtain ⟨-, stations⟩ := h.lists c hc
  obtain ⟨-, r, hr, -⟩ := stations i hi
  rw [none] at hr
  cases hr

/-- The calls after a station has joined the list of one (R30, R48, R56). -/
theorem State.ListsOk.joined_calls (h : s.ListsOk) (none : s.mooring i = none) (tag : Nat) :
    (s.calls.map (fun c => if c.tag = tag then { c with list := c.list ++ [i] } else c)).map
      (fun c => if i ∈ c.list ∧ c.state = .held then { c with state := .strained } else c) =
    s.calls.map (fun c => if c.tag = tag then c.joined i else c) := by
  rw [List.map_map]
  refine List.map_congr_left fun c hc => ?_
  have fresh := h.not_listed none hc
  simp only [Function.comp_apply]
  by_cases e : c.tag = tag
  · simp only [if_pos e, List.mem_append, List.mem_singleton, or_true, true_and, Call.joined]
    split <;> rfl
  · rw [if_neg e, if_neg fun k => fresh k.1, if_neg e]

/-- The state MAKE-FAST leaves (R30). -/
def State.madeFast (s : State) (i : StationId) (r : Mooring) : State :=
  (((s.createRecord i r).enter i .heaving).startStep i .makeFast .locked .engaged).submit i .heave false

theorem State.madeFast_site (h : s.Inv) (state : (s.station i).state = .paying) (r : Mooring) :
    (s.madeFast i r).site i = { s.site i with
      x := ((s.station i).entered .heaving).stepping .makeFast .locked .engaged s.settings.gearLimit
      c := { s.channel i with readingSinceRecord := false }
      r := some r
      qs := [⟨i, .heave, false⟩] } := by
  have out : (s.station i).state ≠ .fast ∧ (s.station i).state ≠ .trimming := by rw [state]; exact ⟨nofun, nofun⟩
  have none : s.mooring i = none := h.records.absent i (by rw [state]; rfl)
  have idle := (h.fit i).doing.idle (by rw [← State.station_eq_site, state]; rfl)
  have band : ({ s.channel i with readingSinceRecord := false } : Channel).leftBand =
      { s.channel i with readingSinceRecord := false } := by
    have self := (h.fit i).watched.entering_self out .heaving
    exact congrArg (fun c : Channel => { c with readingSinceRecord := false }) self
  have site : (((s.createRecord i r).enter i .heaving).startStep i .makeFast .locked .engaged).site i = _ :=
    State.site_startStep_plain _ _ _ (by decide)
  rw [State.site_enter_out (state := .heaving) nofun nofun, h.createRecord_site none] at site
  unfold State.madeFast
  rw [State.site_submit _ _ _ (by rw [site]; exact idle.qs), site, band]
  rfl

theorem State.madeFast_calls (r : Mooring) : (s.madeFast i r).calls =
    s.calls.map (fun c => if c.tag = r.tag then { c with list := c.list ++ [i] } else c) := by
  unfold State.madeFast
  rw [State.submit_calls, State.startStep_calls _ _ .makeFast _ _ nofun, State.enter_calls, State.createRecord_calls]

theorem State.madeFast_queue (r : Mooring) : (s.madeFast i r).queue = insertTail ⟨i, .heave, false⟩ s.queue := by
  unfold State.madeFast
  rw [State.startStep_plain _ _ _ _ (by decide)]
  obtain ⟨-, -, queue, -⟩ := (s.createRecord i r).enter_only i .heaving
  exact congrArg (insertTail _) (queue.trans (State.createRecord_queue r))

/-- Settles O19: the record and the list it joins, the step, the HEAVE, and the call that is no longer steady. -/
theorem makeFastCreatesAMooring : Obligations.MakeFastCreatesAMooring := by
  intro s len st tag f i h served named free state fields call
  have known : (s.station i).state ≠ .unknown := by rw [state]; exact nofun
  have none : s.mooring i = none := h.records.absent i (by rw [state]; rfl)
  have lists := h.calls.listsOk
  have checks : firstRefusal ([(s.hold, .hold), ((s.station i).state == .inLocal, .inLocal),
      ((s.mooring i).isSome, .occupied), ((s.station i).state != .paying, .wrongState)] ++
        s.callChecks i tag.toNat f) = Option.none := by
    simp [free, state, none, lists.callChecks_pass fields call]
  have answer : exec (.makeFast len st tag f) s =
      .next ((State.settle s (s.madeFast i (mooringFrom f tag.toNat))).respond Command.makeFast .ok []) :=
    congrArg Host.Outcome.next (State.accepted_at served named known checks)
  obtain ⟨c, hc, tagged, berth, -, -⟩ := call
  have acts : State.Acts i s (s.madeFast i (mooringFrom f tag.toNat)) :=
    (((State.createRecord_acts s i _ none ⟨c, hc, tagged, berth⟩).trans (State.enter_acts _ i .heaving)).trans
      (State.startStep_acts_of_ne _ i .makeFast _ _ nofun)).trans (State.submit_acts _ i _ _)
  have after := State.makeFast_after (h.fit i) free state (mooringFrom_valid f tag.toNat fields)
  have whole := acts.whole h after
  have ends := acts.ends h (State.takesFrames_running served.1) after
  have site := State.madeFast_site h state (mooringFrom f tag.toNat)
  have queue := State.madeFast_queue (s := s) (i := i) (mooringFrom f tag.toNat)
  have table := State.madeFast_calls (s := s) (i := i) (mooringFrom f tag.toNat)
  generalize s.madeFast i (mooringFrom f tag.toNat) = m at *
  have idle := (h.fit i).doing.idle (by rw [← State.station_eq_site, state]; rfl)
  have placed := ends.queues (place := insertTail) (q := ⟨i, .heave, false⟩) (by rw [site])
    (by rw [queue, State.others_eq_queue idle.qs])
  have new : (m.station i).state = .heaving := by rw [State.station_eq_site, site]; rfl
  have calls := acts.settle_unsteady h whole
    (fun need _ => State.steadyFor_of_state (by rw [new]; exact ⟨nofun, nofun⟩) need)
    (fun c _ hi _ => List.any_eq_true.2 ⟨i, hi, whole.holding_of_moored (by rw [new]; rfl)⟩) ?_
  · rw [table, show (mooringFrom f tag.toNat).tag = tag.toNat from rfl, lists.joined_calls none] at calls
    have channel := ends.channel
    have mooring := ends.mooring
    have alert := ends.alert.trans (congrArg Site.alert site : m.alert = s.alert)
    have permits := ends.permits
    have onlyAt := ends.onlyAt
    rw [site] at channel mooring placed
    clear ends
    generalize State.settle s m = u at *
    exact ⟨_, answer, placed, mooring, channel, calls, permits, alert, onlyAt.respond _ _ _⟩
  · intro x hx out
    rw [table] at hx
    obtain ⟨d, hd, e⟩ := List.mem_map.1 hx
    split at e
    · exact absurd (by rw [← e]; simp) out
    · exact e ▸ hd

/-- The state ADOPT leaves (R32). -/
def State.adopted (s : State) (i : StationId) (r : Mooring) : State := (s.createRecord i r).enter i .fast

theorem State.adopted_site (h : s.Inv) (state : (s.station i).state = .outUnclaimed) (r : Mooring) :
    (s.adopted i r).site i = { s.site i with
      x := (s.station i).entered .fast
      c := { s.channel i with readingSinceRecord := false }
      r := some r } := by
  have out : (s.station i).state ≠ .fast ∧ (s.station i).state ≠ .trimming := by rw [state]; exact ⟨nofun, nofun⟩
  have none : s.mooring i = none := h.records.absent i (by rw [state]; rfl)
  have created := h.createRecord_site none r
  have band : ({ s.channel i with readingSinceRecord := false } : Channel).entering .fast =
      { s.channel i with readingSinceRecord := false } := by
    have self := (h.fit i).watched.entering_self out .fast
    exact congrArg (fun c : Channel => { c with readingSinceRecord := false }) self
  unfold State.adopted
  rw [State.site_enter_of (state := .fast) nofun (by rw [created]; exact out.1), created, band]
  rfl

theorem State.adopted_only (r : Mooring) : (s.adopted i r).queue = s.queue ∧ (s.adopted i r).units = s.units ∧
    (s.adopted i r).calls = s.calls.map (fun c => if c.tag = r.tag then { c with list := c.list ++ [i] } else c) := by
  obtain ⟨-, units, queue, calls, -⟩ := (s.createRecord i r).enter_only i .fast
  refine ⟨queue.trans (State.createRecord_queue r), units.trans ?_, calls.trans (State.createRecord_calls r)⟩
  unfold State.createRecord State.clearCritical State.setCritCondition
  split
  · rfl
  · rw [State.reformCritical_eq]
    rfl

/-- Settles O20: the record and the list it joins; the drive stands. -/
theorem adoptCreatesAMooring : Obligations.AdoptCreatesAMooring := by
  intro s len st tag f i h served named state fields call
  have known : (s.station i).state ≠ .unknown := by rw [state]; exact nofun
  have none : s.mooring i = none := h.records.absent i (by rw [state]; rfl)
  have lists := h.calls.listsOk
  have checks : firstRefusal ([((s.station i).state == .inLocal, .inLocal), ((s.mooring i).isSome, .occupied),
      ((s.station i).state != .outUnclaimed, .wrongState)] ++ s.callChecks i tag.toNat f) = Option.none := by
    simp [state, none, lists.callChecks_pass fields call]
  have answer : exec (.adopt len st tag f) s =
      .next ((State.settle s (s.adopted i (mooringFrom f tag.toNat))).respond Command.adopt .ok []) :=
    congrArg Host.Outcome.next (State.accepted_at served named known checks)
  obtain ⟨c, hc, tagged, berth, -, -⟩ := call
  have acts : State.Acts i s (s.adopted i (mooringFrom f tag.toNat)) :=
    (State.createRecord_acts s i _ none ⟨c, hc, tagged, berth⟩).trans (State.enter_acts _ i .fast)
  have after := State.adopt_after (h.fit i) state (mooringFrom_valid f tag.toNat fields)
  have whole := acts.whole h after
  have ends := acts.ends h (State.takesFrames_running served.1) after
  have site := State.adopted_site h state (mooringFrom f tag.toNat)
  obtain ⟨queue, units, table⟩ := State.adopted_only (s := s) (i := i) (mooringFrom f tag.toNat)
  generalize s.adopted i (mooringFrom f tag.toNat) = m at *
  have stands := (h.stuck acts.local.hold queue units).grantAll
  have new : (m.station i).state = .fast := by rw [State.station_eq_site, site]; rfl
  have still : (m.channel i).steady = 0 := by
    rw [State.channel_eq_site, site]
    exact ((h.fit i).watched.out_of_band (by rw [← State.station_eq_site, state]; exact ⟨nofun, nofun⟩)).1
  have calls := acts.settle_unsteady h whole (fun need pos => State.steadyFor_of_still still pos)
    (fun c _ hi _ => List.any_eq_true.2 ⟨i, hi, whole.holding_of_moored (by rw [new]; rfl)⟩) ?_
  · rw [table, show (mooringFrom f tag.toNat).tag = tag.toNat from rfl, lists.joined_calls none] at calls
    have idle := (h.fit i).doing.idle (by rw [← State.station_eq_site, state]; rfl)
    obtain ⟨station, -⟩ := ends.rests (by rw [site]; exact idle.qs)
    have channel := ends.channel
    have mooring := ends.mooring
    have alert := ends.alert.trans (congrArg Site.alert site : m.alert = s.alert)
    have permits := ends.permits
    have onlyAt := ends.onlyAt
    have queue : (State.settle s m).queue = s.queue := by rw [State.settle_queue, stands, queue]
    have units : (State.settle s m).units = s.units := by
      unfold State.settle
      rw [(State.settleCalls_only s m.grantAll).units, stands, units]
    rw [site] at channel mooring station
    clear ends stands
    generalize State.settle s m = u at *
    exact ⟨_, answer, station, mooring, channel, calls, permits, alert, queue, units, onlyAt.respond _ _ _⟩
  · intro x hx out
    rw [table] at hx
    obtain ⟨d, hd, e⟩ := List.mem_map.1 hx
    split at e
    · exact absurd (by rw [← e]; simp) out
    · exact e ▸ hd

end Sys2Proof.Machine
end

