-- ==== Sys2Proof/Proofs/AmendCommand.lean ====
section
/-! PROOF. AMEND once its checks have passed (chapter 2). -/

namespace Sys2Proof.Machine

variable {s t : State} {i : StationId} {len st : Byte}

/-! ### AMEND (R34 to R36) -/

/-- The record of a station is replaced, its window emptied, its counter reset and its pending TRIM withdrawn (R34). -/
def State.rerecorded (s : State) (i : StationId) (new : Mooring) : State :=
  (((s.setMooring i (some new)).emptyWindow i).resetSteady i).withdrawTrim i

/-- A station record after an AMEND in its state (R35). -/
def Station.afresh (x : Station) : Station :=
  { x with
    state := if x.state = .eased then .fast else x.state
    resting := if x.state = .trimming then some .fast else if x.state = .eased then none else x.resting }

theorem Station.afresh_of_other {x : Station} (eased : x.state ≠ .eased) (trimming : x.state ≠ .trimming) :
    x.afresh = x := by
  unfold Station.afresh
  rw [if_neg eased, if_neg trimming, if_neg eased]

theorem State.rerecorded_site (h : (s.site i).Fit) (new : Mooring) : (s.rerecorded i new).site i = { s.site i with
    r := some new
    c := (s.site i).c.leftBand
    qs := (s.site i).qs.filter (fun q => !q.work.isTrim) } := by
  have waits : (if (s.site i).qs.head?.any (fun q => q.work.isTrim) then [] else (s.site i).qs) =
      (s.site i).qs.filter (fun q => !q.work.isTrim) := by
    have few := h.doing.requests_le_one
    match qs : (s.site i).qs with
    | [] => rfl
    | [q] => cases trim : q.work.isTrim <;> simp [trim]
    | _ :: _ :: _ =>
      rw [qs] at few
      simp at few
  unfold State.rerecorded
  rw [State.site_withdrawTrim, State.resetSteady, State.site_onChannel, State.emptyWindow, State.site_onChannel,
    State.site_setMooring, ← waits]
  rfl

theorem State.withdrawTrim_units : (s.withdrawTrim i).units = s.units := by
  unfold State.withdrawTrim
  split
  · split <;> rfl
  · rfl

theorem State.withdrawTrim_empty (none : s.queue = []) : (s.withdrawTrim i).queue = [] := by
  unfold State.withdrawTrim
  split
  · split
    · exact congrArg (List.filter _) none
    · exact none
  · exact none

theorem State.amendByState_only : (s.amendByState i).units = s.units ∧ (s.amendByState i).queue = s.queue ∧
    (s.amendByState i).calls = s.calls := by
  obtain ⟨-, units, queue, calls, -⟩ := s.enter_only i .fast
  unfold State.amendByState
  split
  · exact ⟨rfl, rfl, rfl⟩
  · exact ⟨units, queue, calls⟩
  all_goals exact ⟨rfl, rfl, rfl⟩

theorem State.amendByState_site (band : (s.site i).c = (s.site i).c.leftBand) : (s.amendByState i).site i = { s.site i with
    x := (s.site i).x.afresh } := by
  unfold State.amendByState
  rw [State.station_eq_site]
  cases state : (s.site i).x.state with
  | trimming =>
    dsimp only
    rw [State.site_onStation _ _ (by rfl)]
    simp only [Station.afresh, state, reduceCtorEq, if_false, if_true]
  | eased =>
    have emptied : (s.site i).c.entering .fast = (s.site i).c := by
      rw [band]
      rfl
    dsimp only
    rw [State.site_enter_of (state := .fast) nofun (by rw [state]; exact nofun), emptied]
    simp only [Station.afresh, Station.entered, state, reduceCtorEq, if_false, if_true]
  | _ => rw [Station.afresh_of_other (by rw [state]; exact nofun) (by rw [state]; exact nofun)]

/-- A HEAVING station whose parked HEAVE is discarded (R36, R96). -/
theorem State.discardParkedHeave_site (state : (s.site i).x.state = .heaving) :
    (s.discardParkedHeave i).site i = { s.site i with
      x := { ((s.site i).x.entered .fast) with
        parked := none
        unit := none
        step := (s.site i).x.step.map (fun g => if g.kind = .motionLock then { g with kind := .handBack } else g) }
      c := (s.site i).c.emptied
      v := none } := by
  have released : ((s.unpark i).releaseUnit i).site i = { s.site i with
      x := { (s.site i).x with parked := none, unit := none }
      v := none } := by
    rw [State.site_releaseUnit, State.site_unpark]
  unfold State.discardParkedHeave
  dsimp only
  rw [State.station_eq_site, State.site_unpark, if_pos (by exact state)]
  have stepped : (((s.unpark i).releaseUnit i).onStation i (fun x => { x with step := x.step.map (fun g =>
      if g.kind = .motionLock then { g with kind := .handBack } else g) })).site i = { s.site i with
        x := { (s.site i).x with
          parked := none
          unit := none
          step := (s.site i).x.step.map (fun g => if g.kind = .motionLock then { g with kind := .handBack } else g) }
        v := none } := by
    rw [State.site_onStation _ _ (by rfl), released]
  rw [State.site_enter_of (state := .fast) nofun (by rw [stepped]; change (s.site i).x.state ≠ _; rw [state]; exact nofun),
    stepped]
  rfl

/-- The unit of a station whose parked HEAVE is discarded is freed (R36). -/
theorem State.discardParkedHeave_released (h : s.Sound) (state : (s.station i).state = .heaving) {u : UnitId}
    (unit : (s.station i).unit = some u) : (s.discardParkedHeave i).unit u =
      .unserved (if (s.unit u).state = .faulted then .faulted else .idle) := by
  have acts : State.Acts i ((s.unpark i).releaseUnit i) (s.discardParkedHeave i) := by
    unfold State.discardParkedHeave
    dsimp only
    rw [State.station_eq_site, State.site_unpark, if_pos (by exact state)]
    exact (State.Acts.onStation _ i _ rfl rfl).trans (State.enter_acts _ i .fast)
  refine acts.released ((s.unpark_acts i).sound h) ?_ Iff.rfl
  rw [State.station_eq_site, State.site_unpark]
  exact unit

/-- A station whose parked HEAVE is discarded elsewhere, in LOCAL. -/
theorem State.discardParkedHeave_other (state : (s.station i).state ≠ .heaving) : s.discardParkedHeave i = s.unpark i := by
  unfold State.discardParkedHeave
  dsimp only
  rw [State.station_eq_site, State.site_unpark, if_neg (by exact state)]

theorem State.Stuck.of_less (h : s.Stuck) (hold : t.hold = s.hold) (units : t.units = s.units)
    (queue : s.queue = [] → t.queue = []) : t.Stuck := by
  have idle : t.idleUnit = s.idleUnit := by
    unfold State.idleUnit State.unit
    rw [units]
  unfold State.Stuck
  rw [hold, idle]
  exact h.imp_right (Or.imp_right queue)

/-- A station record after an AMEND, which may discard a parked HEAVE (R35, R36). -/
def Station.amended (x : Station) (discards : Prop) [Decidable discards] : Station :=
  { x with
    state := if x.state = .eased ∨ (x.state = .heaving ∧ discards) then .fast else x.state
    resting := if x.state = .trimming then some .fast
      else if x.state = .eased ∨ (x.state = .heaving ∧ discards) then none else x.resting
    parked := if discards then none else x.parked
    unit := if x.state = .heaving ∧ discards then none else x.unit
    step := if x.state = .heaving ∧ discards then
        x.step.map (fun g => if g.kind = .motionLock then { g with kind := .handBack } else g)
      else x.step }

/-- The AMEND discards the parked HEAVE of its station (R36). -/
abbrev Station.discards (x : Station) (old new : Mooring) : Prop :=
  x.parked.any (fun p => p.work == .heave) ∧ (new.slackLimit ≠ old.slackLimit ∨ new.highLimit ≠ old.highLimit)

/-- What an AMEND leaves of the site of its station, and the unit it may free. -/
theorem State.Inv.amended_site (h : s.Inv) (old new : Mooring) (record : s.mooring i = some old) (tag : new.tag = old.tag) :
    (∃ v, (s.amended i old new).site i = { s.site i with
      x := (s.station i).amended ((s.station i).discards old new)
      r := some new
      c := (s.site i).c.leftBand
      qs := (s.site i).qs.filter (fun q => !q.work.isTrim)
      v := v }) ∧ (s.amended i old new).calls = s.calls ∧
      ((s.station i).state = .heaving ∧ (s.station i).discards old new → (s.site i).qs = [] ∧
        ∀ u ∈ (s.station i).unit, (s.amended i old new).unit u =
          .unserved (if (s.unit u).state = .faulted then .faulted else .idle)) ∧
      (¬((s.station i).state = .heaving ∧ (s.station i).discards old new) → (s.amended i old new).Stuck) := by
  have fit := h.fit i
  have acts : State.Acts i s ((s.rerecorded i new).amendByState i) :=
    ((((Relation.ReflTransGen.single (.amend s old new record tag)).trans (State.emptyWindow_acts _ i)).trans
      (State.resetSteady_acts _ i)).trans (State.withdrawTrim_acts _ i)).trans (State.amendByState_acts _ i)
  have sound := acts.sound h.whole.sound
  have rerecorded := State.rerecorded_site fit new
  have site := State.amendByState_site (s := s.rerecorded i new) (i := i) (by rw [rerecorded]; rfl)
  rw [rerecorded] at site
  obtain ⟨units, queue, calls⟩ := State.amendByState_only (s := s.rerecorded i new) (i := i)
  have units : ((s.rerecorded i new).amendByState i).units = s.units := units.trans State.withdrawTrim_units
  have calls : ((s.rerecorded i new).amendByState i).calls = s.calls := calls.trans (State.withdrawTrim_calls _ i)
  have empty : s.queue = [] → ((s.rerecorded i new).amendByState i).queue = [] := fun none =>
    queue.trans (State.withdrawTrim_empty none)
  have hold := acts.local.hold
  have stuck : ((s.rerecorded i new).amendByState i).Stuck := h.grants.stuck.of_less hold units empty
  have form : s.amended i old new = ((s.rerecorded i new).amendByState i).amendParked i old new := rfl
  rw [form]
  clear form
  generalize (s.rerecorded i new).amendByState i = m at *
  have park : (m.station i).parked = (s.station i).parked := by rw [State.station_eq_site, site]; rfl
  by_cases discards : (s.station i).discards old new
  · obtain ⟨heave, limits⟩ := discards
    have parks : ∃ p, (s.station i).parked = some p ∧ p.work = .heave := by
      obtain ⟨p, hp, work⟩ := (Option.any_eq_true _ _).1 heave
      exact ⟨p, hp, by simpa using work⟩
    obtain ⟨p, parked, work⟩ := parks
    obtain ⟨qs, -, -, parkedIn, -⟩ := fit.parked parked
    have unparked : m.amendParked i old new = m.discardParkedHeave i := by
      unfold State.amendParked
      rw [park, if_pos ⟨heave, limits.imp (fun k => k.symm) fun k => k.symm⟩]
    rw [unparked]
    by_cases heaving : (s.station i).state = .heaving
    · have same : (s.site i).x.afresh = (s.site i).x := Station.afresh_of_other
        (by rw [← State.station_eq_site, heaving]; exact nofun) (by rw [← State.station_eq_site, heaving]; exact nofun)
      rw [same] at site
      have unit : (m.station i).unit = (s.station i).unit := by rw [State.station_eq_site, site]; rfl
      have state : (m.station i).state = .heaving := by rw [State.station_eq_site, site]; exact heaving
      have both : (s.station i).state = .heaving ∧ (s.station i).discards old new := ⟨heaving, heave, limits⟩
      refine ⟨⟨none, ?_⟩, (State.discardParkedHeave_calls m i).trans calls, fun _ => ⟨qs, fun u hu => ?_⟩,
        fun k => absurd both k⟩
      · rw [State.discardParkedHeave_site state, site]
        have x : (s.station i).amended ((s.station i).discards old new) = { ((s.site i).x.entered .fast) with
            parked := none
            unit := none
            step := (s.site i).x.step.map (fun g => if g.kind = .motionLock then { g with kind := .handBack } else g) } := by
          have gives : (s.station i).state = .eased ∨ ((s.station i).state = .heaving ∧ (s.station i).discards old new) := .inr both
          have steady : (s.station i).state ≠ .trimming := by rw [heaving]; exact nofun
          unfold Station.amended
          simp only [if_pos gives, if_neg steady, if_pos both, if_pos both.2]
          rfl
        rw [x]
        rfl
      · have same : m.unit u = s.unit u := by
          unfold State.unit
          rw [units]
        rw [← same]
        exact State.discardParkedHeave_released sound state (by rw [unit]; exact hu)
    · have inLocal : (s.station i).state = .inLocal := by
        rw [work] at parkedIn
        have : (s.station i).state = .heaving ∨ (s.station i).state = .inLocal := by
          simpa [Work.parkedIn, State.station_eq_site] using parkedIn
        exact this.resolve_left heaving
      have same : (s.site i).x.afresh = (s.site i).x := Station.afresh_of_other
        (by rw [← State.station_eq_site, inLocal]; exact nofun) (by rw [← State.station_eq_site, inLocal]; exact nofun)
      rw [same] at site
      rw [State.discardParkedHeave_other (by rw [State.station_eq_site, site]; exact heaving)]
      refine ⟨⟨(s.site i).v, ?_⟩, calls, fun k => absurd k.1 heaving, fun _ => stuck.of_less rfl rfl fun k => k⟩
      rw [State.site_unpark, site]
      have x : (s.station i).amended ((s.station i).discards old new) = { (s.site i).x with parked := none } := by
        have not : ¬((s.station i).state = .eased ∨ ((s.station i).state = .heaving ∧ (s.station i).discards old new)) := by
          rw [inLocal]
          exact fun k => k.elim nofun fun k => nomatch k.1
        have steady : (s.station i).state ≠ .trimming := by rw [inLocal]; exact nofun
        have kept : ¬((s.station i).state = .heaving ∧ (s.station i).discards old new) := fun k => heaving k.1
        have drops : (s.station i).discards old new := ⟨heave, limits⟩
        unfold Station.amended
        simp only [if_neg not, if_neg steady, if_neg kept, if_pos drops]
        rfl
      rw [x]
  · have stays : m.amendParked i old new = m := by
      unfold State.amendParked
      rw [park, if_neg fun k => discards ⟨k.1, k.2.imp (fun k => k.symm) fun k => k.symm⟩]
    rw [stays]
    refine ⟨⟨(s.site i).v, ?_⟩, calls, fun k => absurd k.2 discards, fun _ => stuck⟩
    rw [site]
    have x : (s.station i).amended ((s.station i).discards old new) = (s.site i).x.afresh := by
      unfold Station.amended Station.afresh
      simp only [discards, and_false, or_false, if_false]
      rfl
    rw [x]

/-- A record that stands in a moored state goes on holding the line through an AMEND. -/
theorem Station.amended_moored (x : Station) (discards : Prop) [Decidable discards] :
    (x.amended discards).state.moored = x.state.moored ∧
      ((x.amended discards).state = .inLocal ↔ x.state = .inLocal) ∧
      ((x.amended discards).state = .fault ↔ x.state = .fault) := by
  by_cases gives : x.state = .eased ∨ (x.state = .heaving ∧ discards)
  · have was : x.state = .eased ∨ x.state = .heaving := gives.imp_right And.left
    have state : (x.amended discards).state = .fast := if_pos gives
    rw [state]
    rcases was with e | e <;> rw [e] <;> decide
  · have state : (x.amended discards).state = x.state := if_neg gives
    rw [state]
    exact ⟨rfl, Iff.rfl, Iff.rfl⟩

/-- Settles O21: the record replaced, the station regulated afresh, and the parked HEAVE given up. -/
theorem amendReplacesTheRecord : Obligations.AmendReplacesTheRecord := by
  intro s len st f i h served named fields released rewinding easing r record
  have record : s.mooring i = some r := record
  have known : (s.station i).state ≠ .unknown := fun state => by
    rw [h.records.absent i (by rw [state]; rfl)] at record
    cases record
  have checks : firstRefusal [((s.station i).state == .released || (s.station i).state == .rewinding ||
      (s.station i).state == .easing, Status.wrongState), (!recordFieldsValid f, .badWindow)] = none := by
    simp [released, rewinding, easing, (recordFieldsValid_iff f).2 fields]
  have answer : exec (.amend len st f) s =
      .next ((State.settle s (s.amended i r (mooringFrom f r.tag))).respond Command.amend .ok []) := by
    refine congrArg Host.Outcome.next (s.unicast_accepted _ len _ served ?_)
    rw [s.withStation_of_known _ named known, record]
    exact checked_passed checks _
  have acts := s.amended_acts i r (mooringFrom f r.tag) record rfl
  have after := State.amended_after (h.fit i) (h.held i) record (mooringFrom_valid f r.tag fields)
  have whole := acts.whole h after
  have ends := acts.ends h (State.takesFrames_running served.1) after
  obtain ⟨⟨v, site⟩, table, gives, stands⟩ := h.amended_site (i := i) r (mooringFrom f r.tag) record rfl
  generalize s.amended i r (mooringFrom f r.tag) = m at *
  generalize new : mooringFrom f r.tag = r' at *
  have x : m.station i = (s.station i).amended ((s.station i).discards r r') := by rw [State.station_eq_site, site]
  have still : (m.channel i).steady = 0 := by rw [State.channel_eq_site, site]; rfl
  have holding : m.holding i = s.holding i := by
    obtain ⟨moored, inLocal, fault⟩ := (s.station i).amended_moored ((s.station i).discards r r')
    have senses : (m.station i).senClutch = (s.station i).senClutch := by rw [x]; rfl
    have present : (m.mooring i).isSome = (s.mooring i).isSome := by rw [State.mooring_eq_site, site, record]; rfl
    rw [← x] at moored inLocal fault
    unfold State.holding
    have inLocal : ((m.station i).state == .inLocal) = ((s.station i).state == .inLocal) :=
      Bool.eq_iff_iff.2 (by simpa using inLocal)
    have fault : ((m.station i).state == .fault) = ((s.station i).state == .fault) :=
      Bool.eq_iff_iff.2 (by simpa using fault)
    rw [present, moored, senses, inLocal, fault]
  have calls := acts.settle_unsteady h whole (fun need pos => State.steadyFor_of_still still pos)
    (fun c hc _ singling => by
      rw [table] at hc
      rw [any_congr_mem fun j _ => acts.local.holding holding j]
      have stay := (State.transitionOf_eq_none c).1 (h.calls.settled c hc)
      rw [singling] at stay
      exact stay) (fun c hc _ => table ▸ hc)
  have station : (State.settle s m).station i = (m.site i).x ∧
      (State.settle s m).queue.filter (fun q => q.station == i) = (m.site i).qs := by
    by_cases g : (s.station i).state = .heaving ∧ (s.station i).discards r r'
    · have none : (m.site i).qs = [] := by
        rw [site]
        exact congrArg (List.filter _) (gives g).1
      refine ⟨(ends.rests none).1, ?_⟩
      obtain ⟨grants, drops⟩ := ends.drops
      rw [none, drops, List.filter_eq_nil_iff]
      exact fun q hq => List.filter_eq_nil_iff.1 none q (List.mem_of_mem_drop hq)
    · have stuck := (stands g).grantAll
      rw [State.settle_station_eq, State.settle_queue, stuck]
      exact ⟨rfl, rfl⟩
  obtain ⟨station, requests⟩ := station
  have freed : (s.station i).state = .heaving → (s.station i).discards r r' →
      ∀ u ∈ (s.station i).unit, s.freed (State.settle s m) u := fun state discards u hu =>
    ends.freed ((gives ⟨state, discards⟩).2 u hu)
  have channel := ends.channel
  have mooring := ends.mooring
  have alert := ends.alert.trans (congrArg Site.alert site : m.alert = s.alert)
  have permits := ends.permits
  have onlyAt := ends.onlyAt
  rw [table] at calls
  rw [site] at channel mooring station requests
  clear ends gives stands
  generalize State.settle s m = u at *
  have form : (u.respond Command.amend .ok []).station i = (s.station i).amended ((s.station i).discards r r') := station
  refine ⟨_, answer, mooring, channel, ?_, ?_, freed, ?_, calls, permits, alert, onlyAt.respond _ _ _⟩
  · rw [form]
    rfl
  · dsimp only
    rw [form]
    rfl
  · exact requests.trans ((List.filter_filter ..).trans (by simp only [Bool.and_comm]))

end Sys2Proof.Machine
end

