-- ==== Sys2Proof/Proofs/CallCommands.lean ====
section
/-! PROOF. The commands of the call table: OPEN-CALL, CLOSE-CALL and SINGLE-UP (chapter 3). -/

namespace Sys2Proof.Machine

variable {s t : State} {len : Byte} {tag : BitVec 16}

/-! ### OPEN-CALL and CLOSE-CALL (R47, R49 to R51) -/

theorem berthOfCode_none {code : Byte} (h : 1 < code.toNat) : berthOfCode code = none := by
  unfold berthOfCode
  split
  · omega
  · omega
  · rfl

theorem berthOfCode_code (side : Berth) : berthOfCode side.code = some side := by
  cases side <;> rfl

theorem berthOfCode_some {code : Byte} (h : code.toNat ≤ 1) : (berthOfCode code).isSome = true := by
  unfold berthOfCode
  split
  · rfl
  · rfl
  · next zero one => exact absurd h (by have : code.toNat ≠ 0 := zero; have : code.toNat ≠ 1 := one; omega)

theorem State.length_callsOn (side : Berth) : (s.callsOn side).length = s.calls.countP (fun c => c.berth == side) :=
  List.countP_eq_length_filter.symm

/-- A new call has no line and does not pass the HELD test, and the other calls stand (R55, R56). -/
theorem State.CallsOk.settleCalls_adding (h : s.CallsOk) {n : Call} (opened : n.state = .opened) (empty : n.list = [])
    (lines : 1 ≤ n.minLines) (before : State) : State.settleCalls before (s.adding n) = s.adding n := by
  refine State.settleCalls_of_settled (fun c hc => ?_) before
  rw [State.transitionOf_adding opened]
  rcases List.mem_append.1 hc with old | new
  · exact h.settled c old
  · obtain rfl := List.mem_singleton.1 new
    rw [State.transitionOf_eq_none, opened]
    unfold State.heldTest
    rw [empty, decide_eq_false (by rw [List.length_nil]; omega)]
    rfl

theorem clamp_eight (n : Nat) : clamp 1 8 n = max 1 (min n 8) := clamp_eq_max_min (by decide) n

theorem clamp_byte (b : Byte) : clamp 1 255 b.toNat = max 1 b.toNat := by
  have := b.isLt
  rw [clamp_eq_max_min (by decide), Nat.min_eq_left (by omega)]

/-- Settles O22: the checks in order, and the table with the call added or removed. -/
theorem callsOpenAndClose : Obligations.CallsOpenAndClose := by
  intro s len tag h
  refine ⟨fun berth minLines steadyNeed served => ?_, fun served => ?_⟩
  · dsimp only
    have positive : tag ≠ 0 → (tag.toNat == 0) = false := fun k => by
      rw [beq_eq_false_iff_ne]
      exact fun e => k (BitVec.eq_of_toNat_eq e)
    refine ⟨fun bad => ?_, fun nonzero low taken => ?_, fun side code nonzero fresh => ⟨fun full => ?_, fun room few => ?_⟩⟩
    · refine congrArg Host.Outcome.next (s.unicast_refused _ len _ served (checked_refused ?_ _))
      rcases bad with rfl | high
      · rfl
      · rw [berthOfCode_none high]
        cases zero : tag.toNat == 0 <;> simp
    · obtain ⟨c, hc, named⟩ := taken
      refine congrArg Host.Outcome.next (s.unicast_refused _ len _ served (checked_refused ?_ _))
      have some : (berthOfCode berth).isNone = false := by rw [Option.isNone_eq_false_iff]; exact berthOfCode_some low
      have taken : (s.callOf tag.toNat).isSome = true := by rw [← named, h.calls.listsOk.callOf hc]; rfl
      rw [positive nonzero, taken]
      rw [some]
      rfl
    · refine congrArg Host.Outcome.next (s.unicast_refused _ len _ served (checked_refused ?_ _))
      rw [positive nonzero, ← code, berthOfCode_code, State.callOf_none.2 fresh]
      simp only [Option.any_some, Option.isNone_some, Option.isSome_none, State.length_callsOn, Config.callsMax,
        Config.callsPerBerth, firstRefusal_cons, firstRefusal_nil]
      rcases full with full | full
      · simp [full]
      · by_cases many : 4 ≤ s.calls.length <;> simp [full, many]
    · refine congrArg Host.Outcome.next (s.unicast_accepted _ len _ served ?_)
      rw [checked_passed]
      · have added := h.calls.settleCalls_adding (n := newCall tag.toNat side minLines.toNat steadyNeed.toNat) rfl rfl
          (clamp_mem (by decide : 1 ≤ 8) minLines.toNat).1 s
        rw [← code, berthOfCode_code, ← clamp_eight, ← clamp_byte]
        exact congrArg Verdict.ok added
      · rw [positive nonzero, ← code, berthOfCode_code, State.callOf_none.2 fresh]
        simp [State.length_callsOn, Config.callsMax, Config.callsPerBerth, Nat.not_le.2 room, Nat.not_le.2 few]
  · dsimp only
    refine ⟨fun none => ?_, fun c hc named => ⟨fun bad => ?_, fun state empty => ?_⟩⟩
    · refine congrArg Host.Outcome.next (s.unicast_refused _ len _ served ?_)
      rw [State.callOf_none.2 none]
    · refine congrArg Host.Outcome.next (s.unicast_refused _ len _ served ?_)
      rw [← named, h.calls.listsOk.callOf hc]
      refine checked_refused ?_ _
      rcases bad with e | e | e | e
      · rw [e]; rfl
      · rw [e]; rfl
      · rw [e]; rfl
      · cases active : c.state.active <;> simp [active, e]
    · refine congrArg Host.Outcome.next (s.unicast_accepted _ len _ served ?_)
      rw [← named, h.calls.listsOk.callOf hc]
      refine checked_passed ?_ _
      rw [empty]
      rcases state with e | e <;> rw [e] <;> rfl

/-! ### SINGLE-UP (R57 to R59, R61) -/

/-- One evaluation, as the new table (R56). -/
theorem State.ListsOk.evaluateOnce_calls (h : s.ListsOk) {d : Call} (hd : d ∈ s.calls) : (s.evaluateOnce d.tag).calls =
    s.calls.map (fun e => if e.tag = d.tag then { e with state := (s.transitionOf d).getD d.state } else e) := by
  unfold State.evaluateOnce
  rw [h.callOf hd]
  dsimp only
  cases s.transitionOf d with
  | some state => exact State.callTo_calls d state
  | none =>
    refine (List.map_id _).symm.trans (List.map_congr_left fun e he => ?_)
    split
    · next tag =>
      obtain rfl := h.tag_inj he hd tag
      rfl
    · rfl

/-- A call that has gone to SINGLING, as its evaluation finds it. -/
theorem State.ListsOk.callOf_singled (h : s.ListsOk) {c : Call} (hc : c ∈ s.calls) :
    (s.callTo c .singling).callOf c.tag = some { c with state := .singling } := by
  have lists := (s.callTo_only c .singling).listsOk h
  exact lists.callOf (c := { c with state := .singling }) (State.mem_callTo.2 ⟨c, hc, if_pos rfl⟩)

/-- What SINGLE-UP leaves of a call of the table: the call itself departs, and where nothing holds it any more an OPEN
call of its berth that passes the HELD test becomes HELD (R57, R58). -/
def State.singledUp (s : State) (c d : Call) : Call :=
  if d.tag = c.tag then { d with state := if c.list.any s.holding then CallState.singling else .clearing }
  else if c.list.any s.holding = false ∧ d.berth = c.berth ∧ d.state = CallState.opened ∧
      d.minLines ≤ d.list.length ∧ d.list.all (s.steadyFor d.steadyNeed) = true then
    { d with state := .held }
  else d

/-- The other call of the berth of a call that has gone to CLEARING: none is active beside it, so the HELD test of an
OPEN call asks for its lines only (R55, R57). -/
theorem State.CallsOk.transitionOf_other (h : s.CallsOk) {c d : Call} (alone : s.noOtherActive c = true)
    (hd : d ∈ s.calls) (tag : d.tag ≠ c.tag) (berth : d.berth = c.berth) (only : s.CallsOnly t)
    (calls : ∀ e ∈ t.calls, (e ∈ s.calls ∧ e.tag ≠ c.tag) ∨ e.state = .clearing) :
    t.transitionOf d = if d.state = .opened ∧ d.minLines ≤ d.list.length ∧
      d.list.all (s.steadyFor d.steadyNeed) = true then some .held else none := by
  have inactive : d.state.active = false := by
    cases active : d.state.active with
    | false => rfl
    | true => exact absurd ((State.noOtherActive_iff c).1 alone d hd berth active) tag
  have free : t.noOtherActive d = true := by
    rw [State.noOtherActive_iff]
    intro e he same active
    rcases calls e he with ⟨old, other⟩ | clearing
    · exact absurd ((State.noOtherActive_iff c).1 alone e old (same.trans berth) active) other
    · rw [clearing] at active
      cases active
  unfold State.transitionOf State.heldTest
  rw [free, only.steadyFor]
  cases state : d.state with
  | opened => simp
  | clearing => simp
  | held | strained | singling => rw [state] at inactive; cases inactive

theorem State.CallsOk.singled_calls (h : s.CallsOk) {c : Call} (hc : c ∈ s.calls) (alone : s.noOtherActive c = true) :
    ((s.callTo c .singling).evaluate c.tag).calls = s.calls.map (s.singledUp c) := by
  have own : ∀ e ∈ s.calls, e.tag = c.tag → e = c := fun e he tag => h.listsOk.tag_inj he hc tag
  have only := s.callTo_only c .singling
  have lists := only.listsOk h.listsOk
  have mem : ({ c with state := .singling } : Call) ∈ (s.callTo c .singling).calls :=
    State.mem_callTo.2 ⟨c, hc, if_pos rfl⟩
  have calls := State.callTo_calls (s := s) c .singling
  have once := lists.evaluateOnce_calls mem
  have goes : (s.callTo c .singling).transitionOf { c with state := .singling } =
      if c.list.any s.holding then none else some .clearing := by
    unfold State.transitionOf
    rw [only.holding]
  have once : ((s.callTo c .singling).evaluateOnce c.tag).calls = s.calls.map (fun d => if d.tag = c.tag then
      { d with state := if c.list.any s.holding then CallState.singling else .clearing } else d) := by
    refine once.trans ?_
    rw [calls, List.map_map, goes]
    refine List.map_congr_left fun d _ => ?_
    by_cases tag : d.tag = c.tag
    · simp only [Function.comp_apply, if_pos tag]
      split <;> rfl
    · simp only [Function.comp_apply, if_neg tag]
  unfold State.evaluate
  rw [h.listsOk.callOf_singled hc]
  dsimp only
  rw [goes]
  cases holds : c.list.any s.holding with
  | true =>
    rw [if_pos rfl, if_neg nofun, once]
    refine List.map_congr_left fun d _ => ?_
    unfold State.singledUp
    simp only [holds, Bool.true_eq_false, false_and, if_false, if_true]
  | false =>
    rw [holds] at once
    rw [if_neg Bool.false_ne_true, if_pos rfl]
    have size := (h.tableOk.callTo h.listsOk hc fun _ => alone).othersOf mem
    have onlyOnce := only.trans ((s.callTo c .singling).evaluateOnce_only c.tag)
    generalize u : (s.callTo c .singling).evaluateOnce c.tag = v at *
    have others : ∀ d ∈ s.calls, d.tag ≠ c.tag → d.berth = c.berth →
        d.tag ∈ (s.callTo c .singling).othersOf { c with state := .singling } := fun d hd tag berth =>
      State.Evaluating.mem_othersOf (c := { c with state := .singling })
        (State.mem_callTo.2 ⟨d, hd, if_neg tag⟩) tag berth
    match list : (s.callTo c .singling).othersOf { c with state := .singling } with
    | _ :: _ :: _ =>
      rw [list] at size
      simp at size
    | [] =>
      rw [List.foldl_nil, once]
      refine List.map_congr_left fun d hd => ?_
      unfold State.singledUp
      by_cases tag : d.tag = c.tag
      · simp only [if_pos tag, holds]
      · have berth : d.berth ≠ c.berth := fun berth => by
          have among := others d hd tag berth
          rw [list] at among
          exact absurd among List.not_mem_nil
        simp [tag, berth]
    | [tag] =>
      rw [List.foldl_cons, List.foldl_nil]
      have named : tag ∈ (s.callTo c .singling).othersOf { c with state := .singling } := by
        rw [list]; exact List.mem_singleton.2 rfl
      unfold State.othersOf at named
      obtain ⟨d, hd, rfl⟩ := List.mem_map.1 named
      simp only [List.mem_filter, Bool.and_eq_true, bne_iff_ne, beq_iff_eq] at hd
      obtain ⟨hd, other, berth⟩ := hd
      obtain ⟨e, he, rfl⟩ := State.mem_callTo.1 hd
      have other : e.tag ≠ c.tag := fun k => by simp [k] at other
      rw [if_neg other] at berth hd named list ⊢
      have inV : e ∈ v.calls := by
        rw [once]
        exact List.mem_map.2 ⟨e, he, if_neg other⟩
      have goesOn : v.transitionOf e = _ := h.transitionOf_other alone he other berth onlyOnce fun x hx => by
        rw [once] at hx
        obtain ⟨y, hy, rfl⟩ := List.mem_map.1 hx
        by_cases k : y.tag = c.tag
        · rw [if_pos k]; exact .inr rfl
        · rw [if_neg k]; exact .inl ⟨hy, k⟩
      rw [(onlyOnce.listsOk h.listsOk).evaluateOnce_calls inV, once, List.map_map, goesOn]
      refine List.map_congr_left fun d hd => ?_
      unfold State.singledUp
      by_cases tag : d.tag = c.tag
      · have apart : d.tag ≠ e.tag := fun k => other (k.symm.trans tag)
        simp only [Function.comp_apply, if_pos tag, holds, if_neg apart]
      · by_cases tag' : d.tag = e.tag
        · obtain rfl := h.listsOk.tag_inj hd he tag'
          simp only [Function.comp_apply, if_neg tag, if_true, holds, berth, true_and]
          split
          · rfl
          · rw [← berth]
            rfl
        · have apart : d.berth ≠ c.berth := fun k => by
            have := others d hd tag k
            rw [list] at this
            exact tag' (List.mem_singleton.1 this)
          simp [tag, tag', apart]

theorem State.CallsOk.alone_iff (h : s.CallsOk) {c : Call} (hc : c ∈ s.calls) (singling : c.state ≠ .singling)
    (clearing : c.state ≠ .clearing) : s.noOtherActive c = true ↔
      ¬(c.state = .opened ∧ ∃ d ∈ s.calls, d.tag ≠ c.tag ∧ d.berth = c.berth ∧ d.state.active = true) := by
  by_cases opened : c.state = .opened
  · rw [State.noOtherActive_iff]
    refine ⟨fun k ⟨_, d, hd, tag, berth, active⟩ => tag (k d hd berth active), fun k d hd berth active => ?_⟩
    by_contra tag
    exact k ⟨opened, d, hd, tag, berth, active⟩
  · exact iff_of_true (h.tableOk.noOtherActive hc ((CallState.active_iff _).2 ⟨opened, clearing⟩)) fun k => opened k.1

/-- Settles O23: the refusals, and the table after the evaluation. -/
theorem singleUpStartsTheDeparture : Obligations.SingleUpStartsTheDeparture := by
  intro s len tag h served
  dsimp only
  refine ⟨fun none => ?_, fun c hc named => ?_⟩
  · refine congrArg Host.Outcome.next (s.unicast_refused _ len _ served ?_)
    rw [State.callOf_none.2 none]
  · have found : s.callOf tag.toNat = some c := by rw [← named]; exact h.calls.listsOk.callOf hc
    refine ⟨fun bad => ?_, fun singling clearing free => ?_⟩
    · refine congrArg Host.Outcome.next (s.unicast_refused _ len _ served ?_)
      rw [found]
      refine checked_refused ?_ _
      rcases bad with state | state | blocked
      · rw [state]; rfl
      · rw [state]; rfl
      · have other := mt (h.calls.alone_iff hc (by rw [blocked.1]; nofun) (by rw [blocked.1]; nofun)).1 (not_not.2 blocked)
        rw [blocked.1, Bool.eq_false_iff.2 other]
        rfl
    · have alone := (h.calls.alone_iff hc singling clearing).2 free
      have answer : exec (.singleUp len tag) s =
          .next (((s.callTo c .singling).evaluate c.tag).respond Command.singleUp .ok []) := by
        refine congrArg Host.Outcome.next (s.unicast_accepted _ len _ served ?_)
        rw [found]
        refine checked_passed ?_ _
        simp [singling, clearing, alone]
      have calls := h.calls.singled_calls hc alone
      have permits := (h.singled_evaluating hc alone).callsOk.permits
      have form := State.eq_of_offTable ((s.callTo_only c .singling).trans (State.evaluate_only _ c.tag)).offTable
      generalize (s.callTo c .singling).evaluate c.tag = t at *
      refine ⟨t.permitA, t.permitB, ?_, fun u hu => ?_⟩
      · rw [answer, form, calls]
        rfl
      · cases answer.symm.trans hu
        exact permits

end Sys2Proof.Machine
end

