-- ==== Sys2Proof/Proofs/SamplesAndFaults.lean ====
section
/-! PROOF. Samples that form no reading, and what takes a station to FAULT (chapters 1 and 4). -/

namespace Sys2Proof.Machine

variable {s t : State} {i : StationId}

/-! ### Samples that form no reading (R70 to R72, R74, R76) -/

theorem isRail_iff (raw : BitVec 16) : isRail raw.toNat = true ↔ raw = 0 ∨ raw = 0xFFFF := by
  unfold isRail
  rw [Bool.or_eq_true, beq_iff_eq, beq_iff_eq]
  exact or_congr ⟨fun e => BitVec.eq_of_toNat_eq e, fun e => by rw [e]; rfl⟩
    ⟨fun e => BitVec.eq_of_toNat_eq e, fun e => by rw [e]; rfl⟩

theorem State.setChannel_setChannel (a b : Channel) : (s.setChannel i a).setChannel i b = s.setChannel i b := by
  unfold State.setChannel
  simp only [State.mk.injEq, true_and, and_true]
  exact Vector.set_set ..

theorem State.onChannel_eq (f : Channel → Channel) : s.onChannel i f = s.setChannel i (f (s.channel i)) := rfl

/-- A channel that keeps its steady counter keeps what the calls are evaluated by. -/
theorem State.setChannel_settle_eq (h : s.Inv) {c : Channel} (critical : c.critCondition = (s.channel i).critCondition)
    (still : c.steady = (s.channel i).steady) (after : ((s.setChannel i c).site i).After (s.site i).x.state) :
    State.settle s (s.setChannel i c) = s.setChannel i c := by
  refine State.Acts.settle_eq (.single (.channel s c critical)) h after rfl rfl rfl rfl fun need _ => ?_
  unfold State.steadyFor
  rw [State.channel_setChannel_self, still]
  rfl

theorem State.railSample_counting (h : (s.channel i).rail ≠ 7) : s.railSample i =
    s.setChannel i { s.channel i with rail := min 8 ((s.channel i).rail + 1), valid := 0 } := by
  unfold State.railSample
  dsimp only
  rw [if_neg (by rw [show Config.sampleRun = 8 from rfl]; omega)]
  rfl

theorem State.railSample_eighth (h : (s.channel i).rail = 7) : s.railSample i =
    (s.setChannel i { s.channel i with rail := 8, valid := 0, sum := 0, count := 0 }).sensorFault i := by
  unfold State.railSample
  dsimp only
  rw [if_pos (by rw [h]; rfl), State.onChannel_eq, State.onChannel_eq, State.setChannel_setChannel,
    State.channel_setChannel_self, h]
  rfl

theorem State.validSample_counting {raw : Nat} (h : (s.channel i).count + 1 < (s.calibration i).decimation) :
    s.validSample i raw = s.setChannel i { s.channel i with
      rail := 0
      valid := min 8 ((s.channel i).valid + 1)
      sum := (s.channel i).sum + (s.calibration i).calibrate raw
      count := (s.channel i).count + 1 } := by
  unfold State.validSample
  dsimp only
  rw [State.onChannel_eq, State.channel_setChannel_self, if_neg (by dsimp only; omega)]
  rfl

/-- Settles O37: the counters alone move. -/
theorem samplesMoveTheCounters : Obligations.SamplesMoveTheCounters := by
  intro s i raw h c
  refine ⟨fun idle => ?_, fun running rail few => ?_, fun running low high few => ?_⟩
  · exact congrArg Host.Outcome.next (if_neg idle)
  · have after := State.railSample_after (h.fit i) (h.held i)
    rw [State.railSample_counting few] at after
    refine congrArg Host.Outcome.next ((if_pos running).trans ?_)
    rw [if_pos ((isRail_iff raw).2 rail), State.railSample_counting few]
    exact State.setChannel_settle_eq h rfl rfl after
  · have after := State.validSample_after (h.fit i) (h.held i) raw.toNat
    rw [State.validSample_counting few] at after
    refine congrArg Host.Outcome.next ((if_pos running).trans ?_)
    rw [if_neg (mt (isRail_iff raw).1 fun k => k.elim low high), State.validSample_counting few]
    exact State.setChannel_settle_eq h rfl rfl after

/-! ### Entry to FAULT (R14, R15, R19, R20, R72) -/

/-- The unit of a station that enters FAULT is freed (R19). -/
theorem State.enterFault_freed (h : s.Sound) {u : UnitId} (unit : (s.station i).unit = some u) (cause : StopCause)
    (reason : Attention) :
    (s.enterFault i cause reason).unit u = .unserved (if (s.unit u).state = .faulted then .faulted else .idle) := by
  have acts : State.Acts i (s.releaseUnit i) (s.enterFault i cause reason) :=
    (((State.dropWork_acts _ i).trans (State.enter_acts _ i .fault)).trans
      (State.Acts.onStation _ i _ rfl rfl)).trans (State.raise_acts _ i reason)
  exact acts.released h unit Iff.rfl

/-- What an event leaves that takes a station to FAULT, its channel having become `c` (R19). -/
theorem State.Inv.faulted_ends (h : s.Inv) (running : s.phase = .running) (known : (s.station i).state ≠ .unknown)
    {c : Channel} (critical : c.critCondition = (s.channel i).critCondition)
    (watched : c.Watched (s.station i).state (s.mooring i) (s.calibration i).decimation) (cause : StopCause)
    (reason : Attention) :
    let t := State.settle s ((s.setChannel i c).enterFault i cause reason)
    t.station i = (s.station i).faulted cause reason ∧ t.channel i = c.leftBand ∧ t.mooring i = s.mooring i ∧
      t.requestOf i = none ∧ (∀ u ∈ (s.station i).unit, s.freed t u) ∧ s.sameCalls t ∧ t.permitsOk ∧
      t.alert = s.alertAfter i reason ∧ s.OnlyAt t i := by
  intro t
  have first : State.Acts i s (s.setChannel i c) := .single (.channel s c critical)
  have acts : State.Acts i s ((s.setChannel i c).enterFault i cause reason) :=
    first.trans (State.enterFault_acts _ i cause reason)
  have start : (s.setChannel i c).site i = { s.site i with c := c } := State.site_onChannel s fun _ => c
  have after : (((s.setChannel i c).enterFault i cause reason).site i).After (s.station i).state := by
    have sensed := (h.fit i).geared.sensedAll (by rwa [← State.station_eq_site])
    refine State.enterFault_after_of (state := (s.station i).state) ?_ ?_ ?_ cause reason _
    · rw [start]; exact (h.fit i).recorded.valid
    · rw [start]; exact watched
    · rw [start]; exact sensed
  have ends := acts.ends h running after
  have site := State.site_enterFault (s := s.setChannel i c) (i := i) cause reason
  rw [start] at site
  obtain ⟨station, request⟩ := ends.rests (by rw [site])
  have freed : ∀ u ∈ (s.station i).unit, s.freed t u := fun u hu =>
    ends.freed (State.enterFault_freed (first.sound h.whole.sound) hu cause reason)
  refine ⟨station.trans (congrArg Site.x site), ends.channel.trans (congrArg Site.c site),
    ends.mooring.trans (congrArg Site.r site), request, freed, ?_, ends.permits, ?_, ends.onlyAt⟩
  · exact ends.sameCalls (State.enterFault_calls _ i cause reason)
  · exact ends.alert.trans (congrArg Site.alert site)

/-- A sensor fault in a state that FAULT follows (R72). -/
theorem State.sensorFault_entering (known : (s.station i).state ≠ .unknown) (out : (s.station i).state ≠ .inLocal)
    (fault : (s.station i).state ≠ .fault) : s.sensorFault i = s.enterFault i .sensor .sensor := by
  unfold State.sensorFault
  cases state : (s.station i).state with
  | unknown => exact absurd state known
  | inLocal => exact absurd state out
  | fault => exact absurd state fault
  | _ => rfl

theorem State.sensorFault_unknown (state : (s.station i).state = .unknown) : s.sensorFault i =
    s.setStation i { s.station i with pendingSensorFault := true } := by
  unfold State.sensorFault
  rw [state]
  rfl

/-- A sensor fault in LOCAL, where it becomes pending, and in FAULT (R20, R72). -/
theorem State.sensorFault_standing (state : (s.station i).state = .inLocal ∨ (s.station i).state = .fault) :
    s.sensorFault i = { s.setStation i { (s.station i).noticing .sensor with
      pendingSensorFault := (s.station i).pendingSensorFault || (s.station i).state == .inLocal } with
      alert := s.alertAfter i .sensor } := by
  unfold State.sensorFault
  rcases state with e | e <;> rw [e] <;> dsimp only
  · have level : (s.onStation i (fun x => { x with pendingSensorFault := true })).alertAfter i .sensor =
        s.alertAfter i .sensor := by
      unfold State.alertAfter
      rw [State.station_onStation_self]
      rfl
    rw [State.raise_eq, level, State.onStation_eq, State.setStation_setStation, State.station_setStation_self,
      show (LineState.inLocal == LineState.inLocal) = true from rfl, Bool.or_true]
    rfl
  · rw [State.raise_eq, show (LineState.fault == LineState.inLocal) = false from rfl, Bool.or_false]
    rfl

/-- Settles O35: the entry to FAULT and the pending sensor fault. -/
theorem faultsDropTheWork : Obligations.FaultsDropTheWork := by
  intro s i raw h running
  dsimp only
  refine ⟨fun timer => ?_, fun rail seven => ?_⟩
  · have known : (s.station i).state ≠ .unknown := fun state => by
      rw [h.gear.rest i (by rw [state]; rfl)] at timer
      cases timer
    have ends := h.faulted_ends running known (c := s.channel i) rfl (h.fit i).watched .gear .gear
    rw [State.setChannel_self] at ends
    refine ⟨_, congrArg Host.Outcome.next (if_pos ⟨running, timer⟩), ends⟩
  · have answer : exec (.loadSampleArrival i raw) s = .next (State.settle s
        ((s.setChannel i { s.channel i with rail := 8, valid := 0, sum := 0, count := 0 }).sensorFault i)) := by
      refine congrArg Host.Outcome.next ((if_pos running).trans ?_)
      rw [if_pos ((isRail_iff raw).2 rail), State.railSample_eighth seven]
    have after := State.railSample_after (h.fit i) (h.held i)
    rw [State.railSample_eighth seven] at after
    generalize railed : { s.channel i with rail := 8, valid := 0, sum := 0, count := 0 } = c at *
    have critical : c.critCondition = (s.channel i).critCondition := by rw [← railed]
    have steady : c.steady = (s.channel i).steady := by rw [← railed]
    have watched : c.Watched (s.station i).state (s.mooring i) (s.calibration i).decimation := by
      obtain ⟨-, count, latest, -⟩ := (h.fit i).watched.inRange
      rw [← railed]
      exact (h.fit i).watched.counters _ (Nat.zero_le _) (by exact Nat.zero_lt_of_lt count) (by decide) (Nat.zero_le _) latest
    have first : State.Acts i s (s.setChannel i c) := .single (.channel s c critical)
    have acts : State.Acts i s ((s.setChannel i c).sensorFault i) := first.trans (State.sensorFault_acts _ i)
    -- A fault that changes neither the state nor the record of its station leaves the calls as they stand.
    have stands : ∀ x : Station, ∀ a : Bool, x.state = (s.station i).state → x.senClutch = (s.station i).senClutch →
        (s.setChannel i c).sensorFault i = { (s.setChannel i c).setStation i x with alert := a } →
        State.settle s ((s.setChannel i c).sensorFault i) = { (s.setChannel i c).setStation i x with alert := a } := by
      intro x a state clutch eq
      rw [eq] at acts after ⊢
      have new : ({ (s.setChannel i c).setStation i x with alert := a } : State).station i = x :=
        (s.setChannel i c).station_setStation_self i x
      have channel : ({ (s.setChannel i c).setStation i x with alert := a } : State).channel i = c :=
        s.channel_setChannel_self i c
      refine acts.settle_eq h after rfl rfl rfl ?_ fun need _ => ?_
      · unfold State.holding
        rw [new, state, clutch]
        rfl
      · unfold State.steadyFor
        rw [new, channel, state, steady]
        rfl
    refine ⟨fun known out fault => ?_, fun state => ?_, fun state => ?_⟩
    · rw [State.sensorFault_entering (s := s.setChannel i c) known out fault] at answer
      exact ⟨_, answer, h.faulted_ends running known critical watched .sensor .sensor⟩
    · rw [answer]
      exact congrArg Host.Outcome.next (stands { s.station i with pendingSensorFault := true } s.alert rfl rfl
        (State.sensorFault_unknown state))
    · rw [answer]
      exact congrArg Host.Outcome.next (stands { (s.station i).noticing .sensor with
        pendingSensorFault := (s.station i).pendingSensorFault || (s.station i).state == .inLocal }
        (s.alertAfter i .sensor) rfl rfl (State.sensorFault_standing state))

end Sys2Proof.Machine
end

