-- ==== Sys2Proof/Proofs/DrumPositions.lean ====
section
/-! PROOF. Drum positions at a station that is not moving (chapter 1). -/

namespace Sys2Proof.Machine

variable {s t : State} {i : StationId}

theorem Attention.not_outranks_self (reason : Attention) : reason.outranks reason = false :=
  decide_eq_false (Nat.lt_irrefl _)

/-- A reason that has been raised does not outrank what stands (R23). -/
theorem Station.outranks_noticing (x : Station) (reason : Attention) :
    reason.outranks (x.noticing reason).attention = false := by
  unfold Station.noticing
  dsimp only
  cases h : reason.outranks x.attention
  · rw [if_neg Bool.false_ne_true]; exact h
  · rw [if_pos rfl]; exact reason.not_outranks_self

theorem Station.noticing_of_not_outranks {x : Station} {reason : Attention} (h : reason.outranks x.attention = false) :
    x.noticing reason = x := by
  unfold Station.noticing
  rw [h, if_neg Bool.false_ne_true]

theorem Station.measured_position (x : Station) (cal : Calibration) (position : Option Nat) (count : Nat) :
    Station.measured { x with position := position } cal count = x.measured cal count := by
  unfold Station.measured
  dsimp only
  split <;> rfl

theorem State.setStation_setStation_alert (x y : Station) (a : Bool) :
    ({ (s.setStation i x).setStation i y with alert := a } : State) = { s.setStation i y with alert := a } :=
  congrArg (fun r : State => { r with alert := a }) (State.setStation_setStation s i x y)

/-- What a drum position leaves before the tests of a motion or a payout (R8, R9). -/
theorem State.drum_measured (count : Nat) : (s.onStation i (fun x => { x with position := some count })).updateLength i =
    { s.setStation i ((s.station i).measured (s.calibration i) count) with
      alert := if (s.calibration i).maxPayout < (s.calibration i).rawLength count ∧ (s.station i).beyondPmax = false
        then s.alertAfter i .limit else s.alert } := by
  have station := s.station_onStation_self i (fun x => { x with position := some count })
  rw [State.updateLength_eq (by rw [station]), station]
  have level : (s.onStation i (fun x => { x with position := some count })).alertAfter i .limit = s.alertAfter i .limit := by
    unfold State.alertAfter
    rw [station]
    rfl
  rw [level, Station.measured_position]
  exact State.setStation_setStation_alert _ _ _

theorem Station.measured_kept (x : Station) (cal : Calibration) (count : Nat) :
    (x.measured cal count).state = x.state ∧ (x.measured cal count).senClutch = x.senClutch ∧
      (x.measured cal count).active = x.active ∧ (x.measured cal count).cmdLock = x.cmdLock := by
  unfold Station.measured
  dsimp only
  split <;> exact ⟨rfl, rfl, rfl, rfl⟩

/-- A position raises LIMIT where the line goes beyond Pmax, and keeps the reason elsewhere (R9). -/
theorem Station.measured_attention (x : Station) (cal : Calibration) (count : Nat) :
    (x.measured cal count).attention = if cal.maxPayout < cal.rawLength count ∧ x.beyondPmax = false then
      (x.noticing .limit).attention else x.attention := by
  unfold Station.measured
  simp only [Bool.and_eq_true, decide_eq_true_iff, Bool.not_eq_true']
  split <;> rfl

/-- Where LIMIT is raised twice by one position the second raise finds the first (R23). -/
theorem State.alertAfter_measured {count : Nat} {a : Bool} (h : a = if (s.calibration i).maxPayout <
    (s.calibration i).rawLength count ∧ (s.station i).beyondPmax = false then s.alertAfter i .limit else s.alert) :
    ({ s.setStation i ((s.station i).measured (s.calibration i) count) with alert := a } : State).alertAfter i .limit =
      s.alertAfter i .limit := by
  have attention : (({ s.setStation i ((s.station i).measured (s.calibration i) count) with
      alert := a } : State).station i).attention = _ :=
    (congrArg Station.attention (s.station_setStation_self i _)).trans (Station.measured_attention _ _ _)
  conv_lhs => unfold State.alertAfter
  rw [attention]
  change (a || _) = _
  split at h
  · next k => rw [if_pos k, Station.outranks_noticing, h, Bool.false_and, Bool.or_false]
  · next k => rw [if_neg k, h]; rfl

/-- An event that changes the record of one station alone, and neither its state nor its sensed clutch, ends as it
stands: no grant becomes possible and no call moves (R5, R54, R113). -/
theorem State.Acts.settle_station {x : Station} {a : Bool} {old : LineState}
    (acts : State.Acts i s { s.setStation i x with alert := a }) (h : s.Inv)
    (after : (({ s.setStation i x with alert := a } : State).site i).After old)
    (state : x.state = (s.station i).state) (clutch : x.senClutch = (s.station i).senClutch) :
    State.settle s { s.setStation i x with alert := a } = { s.setStation i x with alert := a } := by
  have new : ({ s.setStation i x with alert := a } : State).station i = x := s.station_setStation_self i x
  refine acts.settle_eq h after rfl rfl rfl ?_ fun need _ => ?_
  · unfold State.holding
    rw [new, state, clutch]
    rfl
  · unfold State.steadyFor
    rw [new, state]
    rfl

/-- A drum position while the part is at work at a station that has left UNKNOWN (R8). -/
abbrev State.drumAt (s : State) (i : StationId) (count : Nat) : State :=
  (s.onStation i (fun x => { x with position := some count })).drumMoved i

theorem State.drumAt_acts (count : Nat) : State.Acts i s (s.drumAt i count) :=
  (State.Acts.onStation s i (fun x => { x with position := some count }) rfl rfl).trans (State.drumMoved_acts _ i)

theorem State.Inv.drumAt_after (h : s.Inv) (count : Nat) : ((s.drumAt i count).site i).After (s.station i).state := by
  obtain ⟨-, site⟩ := State.onStation_site_acts (s := s) (i := i) (fun x => { x with position := some count }) rfl rfl
  have after := State.drumMoved_after (s := s.onStation i (fun x => { x with position := some count })) (i := i)
    (by rw [site]; exact (h.fit i).position count) (by rw [site]; exact (h.held i).congr rfl rfl rfl)
  rw [site] at after
  exact after

theorem State.exec_drumPosition (running : s.phase = .running) (known : (s.station i).state ≠ .unknown)
    (count : BitVec 24) : exec (.drumPositionArrival i count) s = .next (State.settle s (s.drumAt i count.toNat)) := by
  refine congrArg Host.Outcome.next ?_
  rw [running]
  exact congrArg (State.settle s) (if_neg known)

theorem State.motionTests_still (still : s.motionOf i = none) : s.motionTests i = s := by
  unfold State.motionTests
  dsimp only
  split
  · next moves => rw [still] at moves; cases moves
  · rfl

/-- A station that is measured and does nothing more. -/
theorem State.drumAt_still {count : Nat} (still : s.motionOf i = none)
    (stays : ¬((s.station i).state = .paying ∧ (s.station i).cmdLock = .unlocked ∧
      (s.calibration i).maxPayout ≤ (s.calibration i).rawLength count)) :
    s.drumAt i count = { s.setStation i ((s.station i).measured (s.calibration i) count) with
      alert := if (s.calibration i).maxPayout < (s.calibration i).rawLength count ∧ (s.station i).beyondPmax = false
        then s.alertAfter i .limit else s.alert } := by
  obtain ⟨state, -, active, cmdLock⟩ := (s.station i).measured_kept (s.calibration i) count
  unfold State.drumAt State.drumMoved
  dsimp only
  rw [State.drum_measured]
  generalize level : (if (s.calibration i).maxPayout < (s.calibration i).rawLength count ∧ (s.station i).beyondPmax = false
    then s.alertAfter i .limit else s.alert) = a
  generalize made : ({ s.setStation i ((s.station i).measured (s.calibration i) count) with alert := a } : State) = t
  have new : t.station i = (s.station i).measured (s.calibration i) count := by
    rw [← made]; exact s.station_setStation_self i _
  split
  · next paying =>
    unfold State.payoutStop
    dsimp only
    rw [new] at paying ⊢
    refine if_neg fun ⟨reaches, unlocked⟩ => stays ⟨state.symm.trans paying, cmdLock.symm.trans unlocked, ?_⟩
    rw [← made] at reaches
    exact reaches
  · have rests : t.motionOf i = none := by
      unfold State.motionOf
      rw [new, active]
      exact still
    exact State.motionTests_still rests

/-- The payout stop (R18). -/
theorem State.drumAt_payoutStop {count : Nat} (paying : (s.station i).state = .paying)
    (unlocked : (s.station i).cmdLock = .unlocked)
    (reaches : (s.calibration i).maxPayout ≤ (s.calibration i).rawLength count) :
    s.drumAt i count = { s.setStation i ((((s.station i).measured (s.calibration i) count).noticing .limit).stepping
        .payoutStop .locked .free s.settings.gearLimit) with alert := s.alertAfter i .limit } := by
  obtain ⟨state, -, active, cmdLock⟩ := (s.station i).measured_kept (s.calibration i) count
  unfold State.drumAt State.drumMoved
  dsimp only
  rw [State.drum_measured]
  generalize level : (if (s.calibration i).maxPayout < (s.calibration i).rawLength count ∧ (s.station i).beyondPmax = false
    then s.alertAfter i .limit else s.alert) = a
  have raised := State.alertAfter_measured level.symm
  generalize made : ({ s.setStation i ((s.station i).measured (s.calibration i) count) with alert := a } : State) = t at raised ⊢
  have new : t.station i = (s.station i).measured (s.calibration i) count := by
    rw [← made]; exact s.station_setStation_self i _
  have reaches' : (t.calibration i).maxPayout ≤ (t.calibration i).rawLength ((t.station i).position.getD 0) := by
    rw [new, ← made]
    exact reaches
  rw [if_pos (by rw [new, state, paying])]
  unfold State.payoutStop
  dsimp only
  rw [if_pos ⟨reaches', by rw [new, cmdLock, unlocked]⟩, State.startStep_plain _ _ _ _ (by decide), new, State.raise_eq,
    State.station_setStation_self]
  have level' : (t.setStation i (((s.station i).measured (s.calibration i) count).stepping .payoutStop .locked .free
      t.settings.gearLimit)).alertAfter i .limit = s.alertAfter i .limit := by
    rw [← raised]
    unfold State.alertAfter
    rw [State.station_setStation_self, new]
    rfl
  rw [level', State.setStation_setStation, ← made]
  exact State.setStation_setStation_alert (s := s) (i := i) ((s.station i).measured (s.calibration i) count) _ _

/-- Settles O34: P and its flag, and the payout stop. -/
theorem drumPositionsMeasureTheLine : Obligations.DrumPositionsMeasureTheLine := by
  intro s i count h
  refine ⟨fun off => ?_, fun running known still => ?_⟩
  · change Host.Outcome.next _ = _
    rw [off]
  · dsimp only
    obtain ⟨state, senClutch, -⟩ := (s.station i).measured_kept (s.calibration i) count.toNat
    have acts := State.drumAt_acts (s := s) (i := i) count.toNat
    have after := h.drumAt_after (i := i) count.toNat
    rw [State.exec_drumPosition running known]
    refine ⟨rfl, fun stays => ?_, fun ⟨paying, unlocked, reaches⟩ => ?_⟩
    · rw [State.drumAt_still still stays] at acts after ⊢
      exact congrArg Host.Outcome.next (acts.settle_station h after state senClutch)
    · rw [State.drumAt_payoutStop paying unlocked reaches] at acts after ⊢
      exact congrArg Host.Outcome.next (acts.settle_station h after state senClutch)

end Sys2Proof.Machine
end

