-- ==== Sys2Proof/Proofs/LeavingUnknown.lean ====
section
/-! PROOF. How a station leaves UNKNOWN, at the arrival that completes its senses and at the completion of the store
read (chapter 11). -/

namespace Sys2Proof.Machine

variable {s t : State} {i : StationId}

/-- A station without record, work, step or wait, as one in UNKNOWN stands (R2, R4, R181). -/
structure State.Vacant (s : State) (i : StationId) : Prop where
  mooring : s.mooring i = none
  request : s.requestOf i = none
  channel : (s.channel i).leftBand = s.channel i
  unit : (s.station i).unit = none
  active : (s.station i).active = none
  motion : (s.station i).motionTimer = none
  step : (s.station i).step = none
  timer : (s.station i).gearTimer = none
  lock : (s.station i).cmdLock = .locked

theorem Site.Fit.vacant (h : (s.site i).Fit) (state : (s.station i).state = .unknown) : s.Vacant i := by
  have state : (s.site i).x.state = .unknown := state
  have idle := h.doing.idle (by rw [state]; rfl)
  have step : (s.site i).x.step = none := by
    rw [Option.eq_none_iff_forall_not_mem]
    intro g hg
    have rest := (h.geared.step g hg).1
    rw [state] at rest
    cases rest
  refine ⟨h.recorded.absent (by rw [state]; rfl), ?_, h.watched.entering_self (by rw [state]; exact ⟨nofun, nofun⟩) .stowed,
    idle.unit, idle.active, idle.timer, step, h.geared.rest (by rw [state]; rfl), h.geared.locked (.inl state)⟩
  rw [State.requestOf_eq_site, idle.qs]
  rfl

namespace State.Vacant

theorem setStation (h : s.Vacant i) (x : Station) (unit : x.unit = none) (active : x.active = none)
    (motion : x.motionTimer = none) (step : x.step = none) (timer : x.gearTimer = none) (lock : x.cmdLock = .locked) :
    (s.setStation i x).Vacant i := by
  have new := s.station_setStation_self i x
  exact ⟨h.mooring, h.request, h.channel, by rw [new]; exact unit, by rw [new]; exact active, by rw [new]; exact motion,
    by rw [new]; exact step, by rw [new]; exact timer, by rw [new]; exact lock⟩

theorem enter (h : s.Vacant i) {new : LineState} (trimming : new ≠ .trimming) (fast : new ≠ .fast) :
    s.enter i new = s.setStation i ((s.station i).entered new) := by
  rw [State.enter_eq trimming fun k => absurd k fast]
  unfold Channel.entering
  rw [if_neg fast, h.channel]
  exact State.setChannel_self (s := s.setStation i _)

theorem stow (h : s.Vacant i) : s.stow i = s.setStation i ((s.station i).entered .stowed) := by
  unfold State.stow State.retireRecord
  rw [h.enter (new := .stowed) nofun nofun, State.setStation_mooring, h.mooring]

end State.Vacant

/-- A station record that has left UNKNOWN, before a take-over (R183, R184). -/
def Station.rebuilt (x : Station) (state : LineState) (limit : Nat) : Station :=
  { x with
    pendingSensorFault := false
    resting := none
    state := state
    cmdClutch := if state = .stowed then some .engaged else x.cmdClutch
    step := if state = .stowed ∧ x.shut = false then some ⟨.stow, .locked, .engaged⟩ else none
    gearTimer := if (state == .stowed && !x.shut) || x.senLock != some .locked then some limit else none }

/-- The state the row of R183 gives from P. -/
def Station.rowState (x : Station) (tolerance : Nat) : LineState :=
  if x.length ≤ tolerance then .stowed else if x.senClutch = some .free then .released else .outUnclaimed

/-- A station that was not found stowed watches its gear (R15, R184). -/
theorem State.Vacant.disagreement (h : s.Vacant i) (clutch : (s.station i).cmdClutch = (s.station i).senClutch)
    {new : LineState} (trimming : new ≠ .trimming) (fast : new ≠ .fast) :
    (s.enter i new).disagreementTest i = s.setStation i { (s.station i).entered new with
      gearTimer := if (s.station i).senLock != some .locked then some s.settings.gearLimit else none } := by
  rw [h.enter trimming fast]
  unfold State.disagreementTest
  rw [State.station_setStation_self]
  have disagrees : ((s.station i).entered new).disagrees = ((s.station i).senLock != some .locked) := by
    unfold Station.disagrees Station.entered
    dsimp only
    rw [h.lock, clutch, bne_self_eq_false, Bool.or_false]
  have timer : ((s.station i).entered new).gearTimer.isNone = true := by
    unfold Station.entered
    rw [h.timer]
    rfl
  rw [disagrees, if_pos timer]
  split
  · rw [State.onStation_eq, State.setStation_setStation, State.station_setStation_self]
    rfl
  · rw [State.onStation_eq, State.setStation_setStation, State.station_setStation_self]

theorem State.Vacant.reconstruct (h : s.Vacant i) (stands : s.sensorFaultStands i = false)
    (clutch : (s.station i).cmdClutch = (s.station i).senClutch) : s.reconstruct i = s.setStation i
      ((s.station i).rebuilt ((s.station i).rowState s.settings.stowTolerance) s.settings.gearLimit) := by
  have clear : s.clearPendingFault i = s.setStation i { s.station i with pendingSensorFault := false } := rfl
  have cleared := h.setStation { s.station i with pendingSensorFault := false } h.unit h.active h.motion h.step h.timer h.lock
  have new := s.station_setStation_self i { s.station i with pendingSensorFault := false }
  unfold State.reconstruct Station.rowState
  dsimp only
  rw [stands, if_neg Bool.false_ne_true, clear]
  change (if (s.station i).length ≤ s.settings.stowTolerance then _ else _) = _
  by_cases low : (s.station i).length ≤ s.settings.stowTolerance
  · rw [if_pos low, if_pos low, cleared.stow, new, State.setStation_setStation, State.onStation_eq,
      State.station_setStation_self, State.setStation_setStation]
    by_cases shut : (s.station i).senLock = some .locked ∧ (s.station i).senClutch = some .engaged
    · rw [if_pos shut.symm]
      have shut' : (s.station i).shut = true := (Station.shut_iff _).2 shut
      refine congrArg (s.setStation i) ?_
      simp [Station.rebuilt, Station.entered, shut', shut.1, h.step, h.timer]
    · rw [if_neg fun k => shut k.symm, State.startStep_plain _ _ _ _ (by decide), State.station_setStation_self,
        State.setStation_setStation, Station.stepping_open .stow _ (by exact shut)]
      have shut' : (s.station i).shut = false := Bool.eq_false_iff.2 fun k => shut ((Station.shut_iff _).1 k)
      refine congrArg (s.setStation i) ?_
      simp only [Station.rebuilt, Station.entered, shut', h.lock, and_self, if_true, Bool.not_false, Bool.and_true,
        show (LineState.stowed == LineState.stowed) = true from rfl, Bool.true_or]
      rfl
  · rw [if_neg low, if_neg low]
    have watches : ∀ state : LineState, state ≠ .stowed → Station.rebuilt (s.station i) state s.settings.gearLimit =
        { Station.entered { s.station i with pendingSensorFault := false } state with
          gearTimer := if (s.station i).senLock != some .locked then some s.settings.gearLimit else none } := by
      intro state other
      have out : (state == LineState.stowed) = false := beq_eq_false_iff_ne.2 other
      simp only [Station.rebuilt, Station.entered, other, out, false_and, if_false, h.step, Bool.false_and, Bool.false_or]
    by_cases free : (s.station i).senClutch = some .free
    · rw [if_pos free, if_pos free, cleared.disagreement (new := .released) (by rw [new]; exact clutch) nofun nofun, new,
        State.setStation_setStation, watches .released nofun]
      rfl
    · rw [if_neg free, if_neg free, cleared.disagreement (new := .outUnclaimed) (by rw [new]; exact clutch) nofun nofun, new,
        State.setStation_setStation, watches .outUnclaimed nofun]
      rfl

/-- A take-over whose input is asserted as its station leaves UNKNOWN (R154). -/
theorem State.Vacant.deferredTakeOver (h : s.Vacant i) {x : Station} (unit : x.unit = none) (active : x.active = none)
    (fault : x.state ≠ .fault) (returns : x.returnState = x.state) : (s.setStation i x).deferredTakeOver i =
      s.setStation i (if s.inputs.takeOver[i] then
        { x.entered .inLocal with
          step := none
          gearTimer := none
          motionTimer := none
          takeOver := some ⟨x.state, some s.settings.takeOverLimit⟩ }
        else x) := by
  have new := s.station_setStation_self i x
  unfold State.deferredTakeOver
  change (if (s.inputs.takeOver[i] && ((s.setStation i x).station i).state != .fault) = true then _ else _) = _
  rw [new, bne_iff_ne.2 fault, Bool.and_true]
  by_cases input : s.inputs.takeOver[i] = true
  · have band : ((s.setStation i x).channel i).entering .inLocal = (s.setStation i x).channel i := h.channel
    rw [if_pos input, if_pos input, State.enterLocal_idle (s := s.setStation i x) h.request (by rw [new]; exact active) (by rw [new]; exact unit),
      band, new, returns, State.setStation_setStation]
    exact State.setChannel_self (s := s.setStation i _)
  · rw [if_neg input, if_neg input]

/-- A station that leaves UNKNOWN without a sensor fault (R183, R184). -/
theorem State.Vacant.leaveUnknown (h : s.Vacant i) (state : (s.station i).state = .unknown)
    (complete : (s.station i).complete = true) (stands : s.sensorFaultStands i = false) : s.leaveUnknown i =
      { s.setStation i ((s.station i).found (s.calibration i) s.settings s.inputs.takeOver[i]) with
        alert := if (s.calibration i).maxPayout < (s.calibration i).rawLength ((s.station i).position.getD 0) ∧
            (s.station i).beyondPmax = false then s.alertAfter i .limit else s.alert } := by
  obtain ⟨count, position⟩ : ∃ count, (s.station i).position = some count := by
    refine Option.isSome_iff_exists.1 ?_
    unfold Station.complete at complete
    rw [Bool.and_eq_true, Bool.and_eq_true] at complete
    exact complete.1.1
  have pos : (s.station i).position.getD 0 = count := by rw [position]; rfl
  unfold State.leaveUnknown
  rw [if_pos ⟨state, complete⟩, State.updateLength_eq position, pos]
  generalize (if (s.calibration i).maxPayout < (s.calibration i).rawLength count ∧ (s.station i).beyondPmax = false
    then s.alertAfter i .limit else s.alert) = a
  have form := (s.station i).measured_fields (s.calibration i) count
  -- The record with P worked out and the clutch outputs at what is sensed.
  generalize record : ({ (s.station i).measured (s.calibration i) count with
    cmdClutch := ((s.station i).measured (s.calibration i) count).senClutch } : Station) = z
  have start : ({ s with alert := a } : State).Vacant i := ⟨h.mooring, h.request, h.channel, h.unit, h.active, h.motion,
    h.step, h.timer, h.lock⟩
  have vacant : (({ s with alert := a } : State).setStation i z).Vacant i := by
    rw [← record]
    exact start.setStation _ ((congrArg Station.unit form).trans h.unit) ((congrArg Station.active form).trans h.active)
      ((congrArg Station.motionTimer form).trans h.motion) ((congrArg Station.step form).trans h.step)
      ((congrArg Station.gearTimer form).trans h.timer) ((congrArg Station.cmdLock form).trans h.lock)
  have new := State.station_setStation_self ({ s with alert := a } : State) i z
  have unit : z.unit = none := by rw [← new]; exact vacant.unit
  have active : z.active = none := by rw [← new]; exact vacant.active
  have clutch : z.cmdClutch = z.senClutch := by rw [← record]
  have stands' : (({ s with alert := a } : State).setStation i z).sensorFaultStands i = false := by
    unfold State.sensorFaultStands
    rw [new, ← record]
    exact (congrArg (fun x : Station => x.pendingSensorFault && decide ((s.channel i).valid < Config.sampleRun)) form).trans
      stands
  change State.deferredTakeOver (State.reconstruct ((({ s with alert := a } : State).setStation i
    ((s.station i).measured (s.calibration i) count)).onStation i (fun x => { x with cmdClutch := x.senClutch })) i) i =
    ({ s with alert := a } : State).setStation i _
  have row : z.rowState s.settings.stowTolerance = (s.station i).foundState (s.calibration i) s.settings := by
    have sensed : z.senClutch = (s.station i).senClutch := by rw [← record]; exact (congrArg Station.senClutch form :)
    have length : z.length = min ((s.calibration i).rawLength count) (s.calibration i).maxPayout := by rw [← record]; rfl
    unfold Station.rowState Station.foundState
    rw [pos, sensed, length]
  have row' : z.rowState s.settings.stowTolerance = .stowed ∨ z.rowState s.settings.stowTolerance = .released ∨
      z.rowState s.settings.stowTolerance = .outUnclaimed := by
    unfold Station.rowState
    split
    · exact .inl rfl
    · split
      · exact .inr (.inl rfl)
      · exact .inr (.inr rfl)
  rw [State.onStation_eq, State.setStation_setStation, State.station_setStation_self, record,
    vacant.reconstruct stands' (by rw [new]; exact clutch), new, State.setStation_setStation]
  change State.deferredTakeOver (State.setStation _ i (z.rebuilt (z.rowState s.settings.stowTolerance) s.settings.gearLimit)) i = _
  rw [start.deferredTakeOver (x := z.rebuilt (z.rowState s.settings.stowTolerance) s.settings.gearLimit) unit active
    (by rcases row' with e | e | e <;> rw [e] <;> exact nofun) (by rcases row' with e | e | e <;> rw [e] <;> rfl), row]
  refine congrArg (State.setStation _ i) ?_
  have step : ((s.station i).measured (s.calibration i) count).step = none := (congrArg Station.step form).trans h.step
  have timer : ((s.station i).measured (s.calibration i) count).gearTimer = none :=
    (congrArg Station.gearTimer form).trans h.timer
  have motion : ((s.station i).measured (s.calibration i) count).motionTimer = none :=
    (congrArg Station.motionTimer form).trans h.motion
  have senClutch : ((s.station i).measured (s.calibration i) count).senClutch = (s.station i).senClutch :=
    (congrArg Station.senClutch form :)
  have senLock : ((s.station i).measured (s.calibration i) count).senLock = (s.station i).senLock :=
    (congrArg Station.senLock form :)
  unfold Station.found
  rw [pos]
  generalize (s.station i).measured (s.calibration i) count = y at *
  generalize (s.station i).foundState (s.calibration i) s.settings = found at *
  have shut : z.shut = (s.station i).shut := by
    rw [← record]
    unfold Station.shut
    dsimp only
    rw [senClutch, senLock]
  have lock : z.senLock = (s.station i).senLock := by rw [← record]; exact senLock
  unfold Station.rebuilt Station.entered
  rw [shut, lock, ← record]
  dsimp only
  rw [senClutch, senLock]
  split
  · rw [step, timer, motion]
    rfl
  · rfl

theorem State.Vacant.withdraw (h : s.Vacant i) : s.withdraw i = s := by
  have none : ∀ q ∈ s.queue, (q.station != i) = true := fun q hq => by
    rw [bne_iff_ne]
    intro e
    have found := List.find?_eq_none.1 h.request q hq
    rw [e] at found
    exact found (beq_self_eq_true i)
  unfold State.withdraw
  rw [List.filter_eq_self.2 none]

/-- A vacant station enters FAULT (R19). -/
theorem State.Vacant.enterFault (h : s.Vacant i) (cause : StopCause) (reason : Attention) : s.enterFault i cause reason =
    { s.setStation i ((s.station i).faulted cause reason) with alert := s.alertAfter i reason } := by
  have dropped : s.dropWork i = s.setStation i { s.station i with active := none, parked := none, motionTimer := none } := by
    unfold State.dropWork
    rw [h.withdraw]
    rfl
  have idle := h.setStation { s.station i with active := none, parked := none, motionTimer := none } h.unit rfl rfl h.step
    h.timer h.lock
  unfold State.enterFault
  dsimp only
  rw [State.releaseUnit_of_none s i h.unit, dropped, idle.enter (new := .fault) nofun nofun, State.setStation_setStation,
    State.onStation_eq, State.setStation_setStation, State.station_setStation_self, State.station_setStation_self,
    State.raise_eq, State.setStation_setStation, State.station_setStation_self]
  have unit := h.unit
  have level : (s.setStation i { Station.entered { s.station i with
      active := none, parked := none, motionTimer := none } .fault with
        step := none, gearTimer := none, cmdLock := .locked, takeOver := none, stopCause := cause,
        pendingSensorFault := false }).alertAfter i reason = s.alertAfter i reason := by
    unfold State.alertAfter
    rw [State.station_setStation_self]
    rfl
  rw [level]
  unfold Station.faulted Station.idled Station.noticing Station.entered
  rw [unit]

/-- SENSOR outranks LIMIT, so that its raise decides where both are raised (R23). -/
theorem Attention.sensor_outranks (held : Attention) : Attention.sensor.outranks (if Attention.limit.outranks held then
    .limit else held) = Attention.sensor.outranks held ∧ (Attention.limit.outranks held = true →
      Attention.sensor.outranks held = true) := by
  cases held <;> decide

/-- A station that leaves UNKNOWN under a standing sensor fault (R20). -/
theorem State.Vacant.leaveUnknown_faulted (h : s.Vacant i) (state : (s.station i).state = .unknown)
    (complete : (s.station i).complete = true) (stands : s.sensorFaultStands i = true) : s.leaveUnknown i =
      { s.setStation i { ((s.station i).measured (s.calibration i) ((s.station i).position.getD 0)).faulted .sensor .sensor with
          cmdClutch := (s.station i).senClutch } with
        alert := s.alertAfter i .sensor } := by
  obtain ⟨count, position⟩ : ∃ count, (s.station i).position = some count := by
    refine Option.isSome_iff_exists.1 ?_
    unfold Station.complete at complete
    rw [Bool.and_eq_true, Bool.and_eq_true] at complete
    exact complete.1.1
  have pos : (s.station i).position.getD 0 = count := by rw [position]; rfl
  have attention := (s.station i).measured_attention (s.calibration i) count
  have form := (s.station i).measured_fields (s.calibration i) count
  unfold State.leaveUnknown
  rw [if_pos ⟨state, complete⟩, State.updateLength_eq position, pos]
  generalize level : (if (s.calibration i).maxPayout < (s.calibration i).rawLength count ∧ (s.station i).beyondPmax = false
    then s.alertAfter i .limit else s.alert) = a
  generalize record : ({ (s.station i).measured (s.calibration i) count with
    cmdClutch := ((s.station i).measured (s.calibration i) count).senClutch } : Station) = z
  have start : ({ s with alert := a } : State).Vacant i := ⟨h.mooring, h.request, h.channel, h.unit, h.active, h.motion,
    h.step, h.timer, h.lock⟩
  have vacant : (({ s with alert := a } : State).setStation i z).Vacant i := by
    rw [← record]
    exact start.setStation _ ((congrArg Station.unit form).trans h.unit) ((congrArg Station.active form).trans h.active)
      ((congrArg Station.motionTimer form).trans h.motion) ((congrArg Station.step form).trans h.step)
      ((congrArg Station.gearTimer form).trans h.timer) ((congrArg Station.cmdLock form).trans h.lock)
  have new := State.station_setStation_self ({ s with alert := a } : State) i z
  have stands' : (({ s with alert := a } : State).setStation i z).sensorFaultStands i = true := by
    unfold State.sensorFaultStands
    rw [new, ← record]
    exact (congrArg (fun x : Station => x.pendingSensorFault && decide ((s.channel i).valid < Config.sampleRun)) form).trans
      stands
  have raised : (({ s with alert := a } : State).setStation i z).alertAfter i .sensor = s.alertAfter i .sensor := by
    have held : z.attention = _ := (congrArg Station.attention record.symm).trans attention
    conv_lhs => unfold State.alertAfter
    rw [new, held]
    change (a || (_ && s.inForce.alertMode != .criticalOnly)) = _
    obtain ⟨outranks, higher⟩ := Attention.sensor_outranks (s.station i).attention
    split at level
    · next k =>
      rw [if_pos k, ← level]
      unfold Station.noticing State.alertAfter
      dsimp only
      rw [outranks]
      cases limit : Attention.limit.outranks (s.station i).attention with
      | false => simp
      | true => rw [higher limit]; simp
    · next k => rw [if_neg k, ← level]; rfl
  change State.deferredTakeOver (State.reconstruct ((({ s with alert := a } : State).setStation i
    ((s.station i).measured (s.calibration i) count)).onStation i (fun x => { x with cmdClutch := x.senClutch })) i) i = _
  rw [State.onStation_eq, State.setStation_setStation, State.station_setStation_self, record]
  unfold State.reconstruct
  dsimp only
  rw [stands', if_pos rfl, vacant.enterFault, raised, new]
  have sensed : ((s.station i).measured (s.calibration i) count).senClutch = (s.station i).senClutch :=
    (congrArg Station.senClutch form :)
  have fault : z.faulted .sensor .sensor = { ((s.station i).measured (s.calibration i) count).faulted .sensor .sensor with
      cmdClutch := (s.station i).senClutch } := by
    rw [← record, ← sensed]
    rfl
  rw [State.setStation_setStation, fault]
  generalize made : ({ ({ s with alert := a } : State).setStation i
    { ((s.station i).measured (s.calibration i) count).faulted .sensor .sensor with
      cmdClutch := (s.station i).senClutch } with alert := s.alertAfter i .sensor } : State) = t
  have state : (t.station i).state = .fault := by
    rw [← made]
    exact congrArg Station.state (s.station_setStation_self i _)
  unfold State.deferredTakeOver
  rw [state, if_neg (by simp), ← made]
  rfl

/-! ### The arrival that completes the senses (R183) -/

/-- A drum position or a sense that is stored, as a record. -/
theorem State.arrival_stored {c : Instr} {y : Station} (arrival : (∃ count : BitVec 24, c = .drumPositionArrival i count ∧
      y = { s.station i with position := some count.toNat }) ∨
      ∃ sense, c = .gearSenseArrival i sense ∧ y = (s.station i).sensed sense) :
    (∃ position lock clutch, y = (s.station i).storing position lock clutch) ∧
      (s.phase = .reading → exec c s = .next (s.setStation i y)) ∧
      (s.phase = .running → (s.station i).state = .unknown →
        exec c s = .next (State.settle s ((s.setStation i y).leaveUnknown i))) := by
  rcases arrival with ⟨count, rfl, rfl⟩ | ⟨sense, rfl, rfl⟩
  · refine ⟨⟨some count.toNat, (s.station i).senLock, (s.station i).senClutch, rfl⟩, fun reading => ?_, fun running unknown => ?_⟩
    · change Host.Outcome.next _ = _
      rw [reading]
      rfl
    · change Host.Outcome.next _ = _
      rw [running]
      exact congrArg (fun t => Host.Outcome.next (State.settle s t)) (if_pos unknown)
  · refine ⟨?_, fun reading => ?_, fun running unknown => ?_⟩
    · cases sense with
      | lock p => exact ⟨(s.station i).position, some p, (s.station i).senClutch, rfl⟩
      | clutch p => exact ⟨(s.station i).position, (s.station i).senLock, some p, rfl⟩
    · change Host.Outcome.next _ = _
      rw [reading]
      rfl
    · change Host.Outcome.next _ = _
      rw [running]
      exact congrArg (fun t => Host.Outcome.next (State.settle s t)) (if_pos unknown)

/-- Settles O16: stored in UNKNOWN, found, or in FAULT. -/
theorem stationsLeaveUnknownByWhatTheySense : Obligations.StationsLeaveUnknownByWhatTheySense := by
  intro s i c y h arrival
  obtain ⟨⟨position, lock, clutch, stored⟩, reading, arrives⟩ := State.arrival_stored arrival
  refine ⟨reading, fun running unknown => ?_⟩
  have answer := arrives running unknown
  have first : State.Acts i s (s.setStation i y) := .single (.station s y (by rw [stored]; rfl) (by rw [stored]; rfl))
  have new := s.station_setStation_self i y
  have site : (s.setStation i y).site i = { s.site i with x := y } :=
    s.site_setStation y (by rw [stored]; rfl)
  have fit : ((s.setStation i y).site i).Fit := by
    rw [site, stored]
    exact (h.fit i).store unknown position lock clutch
  have state : y.state = .unknown := by rw [stored]; exact unknown
  have vacant := fit.vacant (by rw [new]; exact state)
  have acts : State.Acts i s ((s.setStation i y).leaveUnknown i) := first.trans (State.leaveUnknown_acts _ i)
  have after : (((s.setStation i y).leaveUnknown i).site i).After .unknown :=
    State.leaveUnknown_after fit (by rw [site]; exact (h.held i).congr rfl rfl (by rw [stored]; rfl))
      (by rw [site]; exact state)
  have none : s.mooring i = none := vacant.mooring
  -- The record of the station alone has changed, and a station without a record moves no call.
  have ends : ∀ (x : Station) (a : Bool), (s.setStation i y).leaveUnknown i = { s.setStation i x with alert := a } →
      exec c s = .next { s.setStation i x with alert := a } := by
    intro x a form
    rw [form] at acts after answer
    refine answer.trans (congrArg Host.Outcome.next (acts.settle_eq h after rfl rfl rfl ?_ fun need _ => ?_))
    · exact (State.holding_of_none (s := { s.setStation i x with alert := a }) none).trans (State.holding_of_none none).symm
    · exact (State.steadyFor_of_none (s := { s.setStation i x with alert := a }) none need).trans
        (State.steadyFor_of_none none need).symm
  have stands : (s.setStation i y).sensorFaultStands i = s.sensorFaultStands i := by
    unfold State.sensorFaultStands
    rw [new, stored]
    rfl
  have level : ∀ reason, (s.setStation i y).alertAfter i reason = s.alertAfter i reason := fun reason => by
    unfold State.alertAfter
    rw [new, stored]
    rfl
  refine ⟨fun waits => ends y s.alert ?_, fun complete free => ?_, fun complete fault => ?_⟩
  · unfold State.leaveUnknown
    rw [new, if_neg fun k => by rw [waits] at k; exact Bool.false_ne_true k.2]
    rfl
  · have left := vacant.leaveUnknown (by rw [new]; exact state) (by rw [new]; exact complete) (by rw [stands]; exact free)
    rw [new, level] at left
    exact ends _ _ (left.trans (State.setStation_setStation_alert _ _ _))
  · have left := vacant.leaveUnknown_faulted (by rw [new]; exact state) (by rw [new]; exact complete)
      (by rw [stands]; exact fault)
    rw [new, level] at left
    have left := left.trans (State.setStation_setStation_alert _ _ _)
    have whole := acts.whole h after
    have answer' := ends _ _ left
    have onlyAt := acts.onlyAt h.whole.sound whole s
    rw [Host.Outcome.next.inj (answer.symm.trans answer')] at onlyAt
    exact ⟨_, answer', s.station_setStation_self i _, rfl, rfl, rfl, rfl, rfl, onlyAt, rfl, rfl, rfl⟩

end Sys2Proof.Machine
end

