-- ==== Sys2Proof/Proofs/StoreRead.lean ====
section
/-! PROOF. The completion of the store read (chapter 11). -/

namespace Sys2Proof.Machine

variable {s t : State} {i : StationId}

/-- ALERT handed a raise whose source stands (R177, R178). -/
theorem State.assertAlert_of_level (level : s.followLevel = true) : s.assertAlert =
    { s with alert := s.alert || s.inForce.alertMode != .criticalOnly } := by
  unfold State.assertAlert State.reformFollow
  cases mode : s.inForce.alertMode with
  | latched => rw [show (AlertMode.latched != .criticalOnly) = true from rfl, Bool.or_true]
  | follow => rw [level, show (AlertMode.follow != .criticalOnly) = true from rfl, Bool.or_true]
  | criticalOnly => rw [show (AlertMode.criticalOnly != .criticalOnly) = false from rfl, Bool.or_false]

/-- A unit that goes out of service asserts ALERT but in CRITICAL-ONLY mode (R118, R178). -/
theorem State.faultUnit_eq (u : UnitId) : s.faultUnit u =
    { s.setUnit u { s.unit u with state := .faulted, readyTimer := none, run := none, stop := true } with
      alert := s.alert || s.inForce.alertMode != .criticalOnly } :=
  State.assertAlert_of_level ((State.followLevel_iff _).2 (.inr ⟨u, by rw [State.unit_onUnit_self]⟩))

/-- The ALERT state stands at the level of its sources, as it does where every raise since the start has been handed on
(R178). -/
def State.Followed (s : State) : Prop := s.alert = (s.inForce.alertMode != .criticalOnly && s.followLevel)

/-! ### The fault inputs of the units (R111, R182) -/

/-- A unit after its fault input has been read. -/
abbrev State.readUnit (s : State) (u : UnitId) : DriveUnit := .unserved (if s.inputs.fault[u] then .faulted else .idle)

theorem State.Followed.faultUnit (h : s.Followed) (u : UnitId) : (s.faultUnit u).Followed := by
  unfold State.Followed at h ⊢
  have level : (s.faultUnit u).followLevel = true := by
    refine (State.followLevel_iff _).2 (.inr ⟨u, ?_⟩)
    rw [State.faultUnit_eq, State.with_alert_unit, State.unit_setUnit, if_pos rfl]
  rw [level, Bool.and_true, State.faultUnit_eq]
  change (s.alert || s.inForce.alertMode != .criticalOnly) = (s.inForce.alertMode != .criticalOnly)
  rw [h]
  cases s.inForce.alertMode != .criticalOnly <;> simp

theorem State.foldl_readFaultInput_units (l : List UnitId) (s : State) (followed : s.Followed)
    (units : ∀ u, s.unit u = s.readUnit u ∨ (u ∈ l ∧ s.unit u = .unserved .idle)) :
    (l.foldl State.readFaultInput s).Followed ∧ ∀ u, (l.foldl State.readFaultInput s).unit u = s.readUnit u := by
  induction l generalizing s with
  | nil => exact ⟨followed, fun u => (units u).resolve_right fun k => nomatch k.1⟩
  | cons v l ih =>
    rw [List.foldl_cons]
    have only : (s.readFaultInput v).inputs = s.inputs := by
      unfold State.readFaultInput
      split
      · rw [State.faultUnit_only]
      · rfl
    have first : (s.readFaultInput v).Followed := by
      unfold State.readFaultInput
      split
      · exact followed.faultUnit v
      · exact followed
    have other : ∀ u, u ≠ v → (s.readFaultInput v).unit u = s.unit u := by
      intro u ne
      unfold State.readFaultInput
      split
      · exact State.faultUnit_unit_of_ne ne
      · rfl
    have self : (s.readFaultInput v).unit v = s.readUnit v := by
      unfold State.readFaultInput State.readUnit
      rcases units v with e | ⟨-, e⟩
      · rw [if_neg fun k => ?_]
        · exact e
        · rw [e, State.readUnit, if_pos k.1] at k
          cases k.2
      · by_cases k : s.inputs.fault[v] = true
        · rw [if_pos ⟨k, by rw [e]; rfl⟩, if_pos k, State.faultUnit_eq, State.with_alert_unit, State.unit_setUnit_self, e]
          rfl
        · rw [if_neg fun h => k h.1, if_neg k]
          exact e
    have same : ∀ u, (s.readFaultInput v).readUnit u = s.readUnit u := fun u => by
      unfold State.readUnit
      rw [only]
    obtain ⟨done, ends⟩ := ih (s.readFaultInput v) first fun u => by
      rw [same]
      by_cases e : u = v
      · rw [e]
        exact .inl self
      · rw [other u e]
        exact (units u).imp_right fun k => ⟨(List.mem_cons.1 k.1).resolve_left e, k.2⟩
    exact ⟨done, fun u => (ends u).trans (same u)⟩

/-! ### The stations (R183, R184) -/

/-- A station that a store read finds in UNKNOWN. -/
structure State.Resting (s : State) (i : StationId) : Prop where
  vacant : s.Vacant i
  state : (s.station i).state = .unknown
  fault : s.sensorFaultStands i = false
  attention : (s.station i).attention = .none

theorem State.Resting.congr (h : s.Resting i) (station : t.station i = s.station i) (mooring : t.mooring i = s.mooring i)
    (request : t.requestOf i = s.requestOf i) (channel : t.channel i = s.channel i) : t.Resting i := by
  obtain ⟨vacant, state, fault, attention⟩ := h
  refine ⟨⟨mooring.trans vacant.mooring, request.trans vacant.request, by rw [channel]; exact vacant.channel, ?_, ?_, ?_, ?_,
    ?_, ?_⟩, ?_, ?_, ?_⟩
  · rw [station]; exact vacant.unit
  · rw [station]; exact vacant.active
  · rw [station]; exact vacant.motion
  · rw [station]; exact vacant.step
  · rw [station]; exact vacant.timer
  · rw [station]; exact vacant.lock
  · rw [station]; exact state
  · unfold State.sensorFaultStands
    rw [station, channel]
    exact fault
  · rw [station]; exact attention

/-- The record a station has once the store has been read. -/
def State.foundAt (s : State) (i : StationId) : Station :=
  if (s.station i).complete then (s.station i).found (s.calibration i) s.settings s.inputs.takeOver[i] else s.station i

theorem Station.found_attention (x : Station) (cal : Calibration) (set : Settings) (takeOver : Bool) :
    (x.found cal set takeOver).attention = (x.measured cal (x.position.getD 0)).attention := by
  unfold Station.found
  dsimp only
  split <;> rfl

theorem State.followLevel_setStation {x : Station} {a : Bool} (h : x.attention = (s.station i).attention) :
    ({ s.setStation i x with alert := a } : State).followLevel = s.followLevel :=
  State.followLevel_congr (fun j => by
    rw [State.with_alert_station, State.station_setStation]
    split
    · next e => rw [e, h]
    · rfl) fun _ => Iff.rfl

/-- A station that leaves UNKNOWN raises LIMIT or nothing (R9, R178). -/
theorem State.Followed.leaveUnknown (h : s.Followed) (rest : s.Resting i) : (s.leaveUnknown i).Followed ∧
    ∃ a, s.leaveUnknown i = { s.setStation i (s.foundAt i) with alert := a } := by
  unfold State.foundAt
  by_cases complete : (s.station i).complete = true
  · rw [if_pos complete, rest.vacant.leaveUnknown rest.state complete rest.fault]
    refine ⟨?_, _, rfl⟩
    have raised := (s.station i).measured_attention (s.calibration i) ((s.station i).position.getD 0)
    rw [← Station.found_attention _ _ s.settings s.inputs.takeOver[i]] at raised
    generalize (s.station i).found (s.calibration i) s.settings s.inputs.takeOver[i] = x at *
    split
    · next beyond =>
      rw [if_pos beyond] at raised
      have level : ({ s.setStation i x with alert := s.alertAfter i .limit } : State).followLevel = true := by
        refine State.followLevel_of_attention _ i ?_
        rw [State.with_alert_station, State.station_setStation_self, raised]
        unfold Station.noticing
        rw [rest.attention]
        exact nofun
      unfold State.Followed
      rw [level, Bool.and_true]
      change (s.alert || (_ && s.inForce.alertMode != .criticalOnly)) = (s.inForce.alertMode != .criticalOnly)
      rw [rest.attention, show s.alert = _ from h]
      cases s.inForce.alertMode != .criticalOnly
      · rw [Bool.false_and, Bool.and_false, Bool.or_false]
      · rw [Bool.and_true]
        exact Bool.or_true _
    · next stays =>
      rw [if_neg stays] at raised
      unfold State.Followed
      rw [State.followLevel_setStation raised]
      exact h
  · rw [if_neg complete, State.setStation_self]
    have stands : s.leaveUnknown i = s := if_neg fun k => complete k.2
    rw [stands]
    exact ⟨h, s.alert, rfl⟩

theorem State.foldl_leaveUnknown (l : List StationId) (nodup : l.Nodup) (s : State) (h : s.Followed)
    (rest : ∀ i ∈ l, s.Resting i) : (l.foldl State.leaveUnknown s).Followed ∧
      (∃ stations a, l.foldl State.leaveUnknown s = { s with stations := stations, alert := a }) ∧
      ∀ j, (l.foldl State.leaveUnknown s).station j = if j ∈ l then s.foundAt j else s.station j := by
  induction l generalizing s with
  | nil => exact ⟨h, ⟨s.stations, s.alert, rfl⟩, fun j => (if_neg List.not_mem_nil).symm⟩
  | cons i l ih =>
    rw [List.nodup_cons] at nodup
    obtain ⟨followed, a, form⟩ := h.leaveUnknown (rest i List.mem_cons_self)
    rw [List.foldl_cons]
    have other : ∀ j, j ≠ i → (s.leaveUnknown i).station j = s.station j := fun j ne => by
      rw [form, State.with_alert_station, State.station_setStation, if_neg ne]
    have found : ∀ j, j ≠ i → (s.leaveUnknown i).foundAt j = s.foundAt j := fun j ne => by
      unfold State.foundAt
      rw [other j ne, form]
      rfl
    obtain ⟨done, ⟨stations, a', only⟩, station⟩ := ih nodup.2 _ followed fun j hj => by
      have ne : j ≠ i := fun e => nodup.1 (e ▸ hj)
      refine (rest j (List.mem_cons_of_mem _ hj)).congr (other j ne) ?_ ?_ ?_ <;> rw [form] <;> rfl
    refine ⟨done, ⟨stations, a', ?_⟩, fun j => (station j).trans ?_⟩
    · rw [only, form]
      rfl
    · by_cases e : j = i
      · rw [e, if_neg nodup.1, if_pos List.mem_cons_self, form, State.with_alert_station, State.station_setStation_self]
      · rw [found j e, other j e]
        simp only [List.mem_cons, e, false_or]

/-! ### The completion (R182) -/

theorem State.RestOk.resting (h : s.RestOk) (idle : s.phase ≠ .running) (i : StationId) : s.Resting i := by
  obtain ⟨-, queue, -⟩ := h.tables idle
  have station := h.stations idle i
  have request : s.requestOf i = none := by
    unfold State.requestOf
    rw [queue]
    rfl
  refine ⟨⟨h.moorings idle i, request, by rw [h.channels idle i]; rfl, ?_, ?_, ?_, ?_, ?_, ?_⟩, ?_, ?_, ?_⟩
  case refine_8 =>
    unfold State.sensorFaultStands
    rw [station]
    rfl
  all_goals
    rw [station]
    rfl

/-- Settles O15: the fault inputs first, then the stations in order, and nothing left to grant or evaluate. -/
theorem storeReadStartsThePart : Obligations.StoreReadStartsThePart := by
  intro s h
  refine ⟨fun idle => congrArg Host.Outcome.next (if_neg idle), fun reading => ?_⟩
  have idle : s.phase ≠ .running := by rw [reading]; exact nofun
  have rest := h.rest
  obtain ⟨noCalls, noQueue, permitA, permitB⟩ := rest.tables idle
  obtain ⟨level, -⟩ := rest.quiet idle
  have sound := (h.loadStore_whole idle).sound
  have loaded : s.loadStore.Followed := by
    unfold State.Followed
    rw [show s.loadStore.followLevel = s.followLevel from rfl, level, Bool.and_false]
    rfl
  have units : ∀ u, s.loadStore.unit u = s.loadStore.readUnit u ∨ (u ∈ allUnits ∧ s.loadStore.unit u = .unserved .idle) :=
    fun u => .inr ⟨mem_allUnits u, rest.units idle u⟩
  obtain ⟨-, only, -⟩ := State.foldl_readFaultInput allUnits s.loadStore sound
  obtain ⟨followed, unit⟩ := State.foldl_readFaultInput_units allUnits s.loadStore loaded units
  have answer : exec .storeReadComplete s = .next (State.settle s (allStations.foldl State.leaveUnknown
      (allUnits.foldl State.readFaultInput s.loadStore))) := congrArg Host.Outcome.next (if_pos reading)
  generalize allUnits.foldl State.readFaultInput s.loadStore = r at *
  obtain ⟨done, ⟨stations, a, form⟩, station⟩ := State.foldl_leaveUnknown allStations allStations_nodup r followed fun i _ =>
    (rest.resting idle i).congr (by rw [only]; rfl) (by rw [only]; rfl) (by rw [only]; rfl) (by rw [only]; rfl)
  have found : ∀ i, r.foundAt i = if (s.station i).complete then
      (s.station i).found s.store.calibrations[i] s.store.settings s.inputs.takeOver[i] else s.station i := fun i => by
    rw [only]
    rfl
  generalize allStations.foldl State.leaveUnknown r = t at *
  have queue : t.queue = [] := by rw [form, only]; exact noQueue
  have calls : t.calls = [] := by rw [form, only]; exact noCalls
  have stands : State.settle s t = t := by
    unfold State.settle
    rw [State.Stuck.grantAll (.inr (.inr queue))]
    exact State.settleCalls_of_settled (by rw [calls]; exact nofun) s
  rw [stands] at answer
  have running : t.phase = .running := by rw [form, only]; rfl
  have inForce : t.inForce = s.store := by rw [form, only]; rfl
  have mode : t.inForce.alertMode = s.store.alertMode := by rw [inForce]
  refine ⟨t, answer, running, inForce, by rw [form, only]; rfl, by rw [form, only]; rfl, by rw [form, only]; rfl, queue,
    calls, by rw [form, only]; exact permitA, by rw [form, only]; exact permitB, fun u => ?_, fun i => ⟨?_, ?_, ?_⟩, ?_, ?_⟩
  · have same : t.unit u = r.unit u := by rw [form]; rfl
    exact same.trans (unit u)
  · have same : t.channel i = s.channel i := by rw [form, only]; rfl
    exact same.trans (rest.channels idle i)
  · have same : t.mooring i = s.mooring i := by rw [form, only]; rfl
    exact same.trans (rest.moorings idle i)
  · rw [station, if_pos (mem_allStations i), found]
  · rw [← mode]
    exact done
  · unfold State.alertOutputHigh
    rw [running, inForce]
    cases s.store.alertPolarity <;> rfl

end Sys2Proof.Machine
end

