-- ==== Sys2Proof/Proofs/GearSenses.lean ====
section
/-! PROOF. Gear senses: waits, steps and their continuations (chapter 1). -/

namespace Sys2Proof.Machine

variable {s t : State} {i : StationId}

/-! ### The completion test and the disagreement test (R12, R15) -/

theorem State.tryComplete_waits {g : GearStep} (step : (s.station i).step = some g)
    (open_ : ¬((s.station i).senLock = some g.lock ∧ (s.station i).senClutch = some g.clutch)) : s.tryComplete i = s := by
  unfold State.tryComplete
  rw [step]
  exact if_neg open_

theorem State.tryComplete_done {g : GearStep} (step : (s.station i).step = some g)
    (agreed : (s.station i).senLock = some g.lock ∧ (s.station i).senClutch = some g.clutch) : s.tryComplete i =
      (s.setStation i { s.station i with step := none, gearTimer := none }).continueStep i g.kind := by
  unfold State.tryComplete
  rw [step]
  exact if_pos agreed

theorem State.disagreementTest_eq : s.disagreementTest i = s.setStation i { s.station i with
    gearTimer := if (s.station i).disagrees then some ((s.station i).gearTimer.getD s.settings.gearLimit) else none } := by
  unfold State.disagreementTest
  by_cases disagrees : (s.station i).disagrees = true
  · rw [if_pos disagrees, if_pos disagrees]
    cases timer : (s.station i).gearTimer with
    | none =>
      rw [if_pos (by rfl)]
      rfl
    | some n =>
      rw [if_neg (by simp)]
      have self : ({ s.station i with gearTimer := some ((some n).getD s.settings.gearLimit) } : Station) = s.station i := by
        rw [Option.getD_some, ← timer]
      rw [self, State.setStation_self]
  · rw [if_neg disagrees, if_neg disagrees]
    rfl

theorem State.gearSensed_of_step {g : GearStep} (step : (s.station i).step = some g) : s.gearSensed i = s.tryComplete i := by
  unfold State.gearSensed
  dsimp only
  rw [step]
  rfl

/-- A continuation with nothing to do (R12). -/
theorem State.continueStep_stands {kind : StepKind} (unlock : kind ≠ .motionUnlock) (lock : kind ≠ .motionLock)
    (engage : kind = .rewindEngage → (s.station i).active.any ActiveOp.isAwaiting = false) : s.continueStep i kind = s := by
  cases kind with
  | motionUnlock => exact absurd rfl unlock
  | motionLock => exact absurd rfl lock
  | rewindEngage =>
    have waits := engage rfl
    unfold State.continueStep State.engageDone
    cases act : (s.station i).active with
    | none => rfl
    | some a =>
      rw [act, Option.any_some] at waits
      exact if_neg (by rw [waits]; exact Bool.false_ne_true)
  | _ => rfl

theorem State.Stuck.of_states (h : s.Stuck) (hold : t.hold = s.hold) (queue : t.queue = s.queue)
    (units : ∀ u, (t.unit u).state = (s.unit u).state) : t.Stuck := by
  unfold State.Stuck at h ⊢
  rw [State.idleUnit_eq_none] at h ⊢
  rw [hold, queue]
  exact h.imp_right (Or.imp_left fun k u => by rw [units]; exact k u)

theorem State.holding_congr (state : (t.station i).state = (s.station i).state) (mooring : t.mooring i = s.mooring i)
    (out : (s.station i).state ≠ .inLocal ∧ (s.station i).state ≠ .fault) : t.holding i = s.holding i := by
  unfold State.holding
  rw [state, mooring, beq_eq_false_iff_ne.2 out.1, beq_eq_false_iff_ne.2 out.2]
  rfl

theorem State.steadyFor_congr (state : (t.station i).state = (s.station i).state) (mooring : t.mooring i = s.mooring i)
    (steady : (t.channel i).steady = (s.channel i).steady) (need : Nat) : t.steadyFor need i = s.steadyFor need i := by
  unfold State.steadyFor
  rw [state, mooring, steady]

/-- A station with an active operation has no request (R108). -/
theorem State.Inv.noRequest (h : s.Inv) {a : ActiveOp} (active : (s.station i).active = some a) : (s.site i).qs = [] := by
  rw [State.site_qs_eq_nil]
  rintro q hq rfl
  obtain ⟨-, -, none, -⟩ := h.work.pending q hq
  rw [none] at active
  cases active

/-! ### A sense as an event -/

/-- A sense while the part is at work at a station that has left UNKNOWN (R11). -/
abbrev State.sensedAt (s : State) (i : StationId) (sense : GearSense) : State :=
  (s.setStation i ((s.station i).sensed sense)).gearSensed i

theorem State.exec_gearSense (running : s.phase = .running) (known : (s.station i).state ≠ .unknown) (sense : GearSense) :
    exec (.gearSenseArrival i sense) s = .next (State.settle s (s.sensedAt i sense)) := by
  refine congrArg Host.Outcome.next ?_
  rw [running]
  exact congrArg (State.settle s) (if_neg known)

theorem State.Inv.sensedAt_acts (h : s.Inv) (sense : GearSense) : State.Acts i s (s.sensedAt i sense) := by
  have plain : (((s.station i).sensed sense).attention = (s.station i).attention) ∧
      (((s.station i).sensed sense).unit = (s.station i).unit) := by cases sense <;> exact ⟨rfl, rfl⟩
  refine .trans (.single (.station s _ plain.1 plain.2)) (State.gearSensed_acts _ i fun u serves => ?_)
  rw [State.station_setStation_self, plain.2] at serves
  exact h.busyAt i u serves

theorem State.Inv.sensedAt_after (h : s.Inv) (known : (s.station i).state ≠ .unknown) (sense : GearSense) :
    ((s.sensedAt i sense).site i).After (s.station i).state :=
  State.gearSensed_after (h.fit i) (h.held i) known sense

/-- An event that changes the record of one station alone, and neither its state nor, in LOCAL and FAULT, its sensed
clutch, ends as it stands (R5, R54, R113). -/
theorem State.Acts.settle_stationOut {x : Station} {old : LineState} (acts : State.Acts i s (s.setStation i x)) (h : s.Inv)
    (after : ((s.setStation i x).site i).After old) (state : x.state = (s.station i).state)
    (out : (s.station i).state ≠ .inLocal ∧ (s.station i).state ≠ .fault) :
    State.settle s (s.setStation i x) = s.setStation i x := by
  have state : ((s.setStation i x).station i).state = (s.station i).state := by rw [s.station_setStation_self i x, state]
  exact acts.settle_eq h after rfl rfl rfl (State.holding_congr state rfl out)
    fun need _ => State.steadyFor_congr state rfl rfl need

/-- Settles O32: the stored sense, the wait, and the continuation of each step. -/
theorem gearSensesServeTheStation : Obligations.GearSensesServeTheStation := by
  intro s i sense h running known
  dsimp only
  have acts := h.sensedAt_acts (i := i) sense
  have after := h.sensedAt_after known sense
  have eq := Station.sensed_eq (s.station i) sense
  rw [State.exec_gearSense running known]
  generalize made : (s.station i).sensed sense = y at *
  have new := s.station_setStation_self i y
  have kept : y.state = (s.station i).state ∧ y.step = (s.station i).step ∧ y.gearTimer = (s.station i).gearTimer ∧
      y.active = (s.station i).active ∧ y.unit = (s.station i).unit :=
    ⟨(congrArg Station.state eq :), (congrArg Station.step eq :), (congrArg Station.gearTimer eq :),
      (congrArg Station.active eq :), (congrArg Station.unit eq :)⟩
  obtain ⟨state, step, timer, active, unit⟩ := kept
  have noStep : (s.station i).state.gearAtRest = true → (s.station i).step = none := fun rest => by
    rw [Option.eq_none_iff_forall_not_mem]
    intro g hg
    have watched := (h.gear.step i g hg).1
    rw [rest] at watched
    cases watched
  -- A step that both senses do not show yet waits, and one that they show goes on with its continuation.
  have watched : ∀ g ∈ (s.station i).step, (s.station i).state.gearAtRest = false := fun g hg => (h.gear.step i g hg).1
  unfold State.sensedAt at acts after ⊢
  rw [made] at acts after ⊢
  refine ⟨fun rest => ?_, fun out fault still => ?_, fun g hg => ⟨fun open_ => ?_, fun agreed => ?_⟩⟩
  · have rests : (s.station i).state.gearAtRest = true := by rcases rest with e | e <;> rw [e] <;> rfl
    have stored : (s.setStation i y).gearSensed i = s.setStation i y := by
      unfold State.gearSensed
      dsimp only
      rw [new, step, noStep rests, state]
      exact if_pos rest
    rw [stored] at acts after ⊢
    have ends := acts.ends h running after
    have stuck := (h.stuck (t := s.setStation i y) rfl rfl rfl).grantAll
    have station : (State.settle s (s.setStation i y)).station i = y := by rw [State.settle_station_eq, stuck, new]
    have units : (State.settle s (s.setStation i y)).units = s.units := by
      unfold State.settle
      rw [(State.settleCalls_only s _).units, stuck]
      rfl
    exact ⟨_, rfl, station, ends.channel, ends.mooring, by rw [State.settle_queue, stuck]; rfl, units,
      ends.sameCalls rfl, ends.permits, ends.alert, ends.onlyAt⟩
  · have watches : (s.setStation i y).gearSensed i = s.setStation i { y with
        gearTimer := if y.disagrees then some ((s.station i).gearTimer.getD s.settings.gearLimit) else none } := by
      have none : ((s.setStation i y).station i).step = none := by rw [new, step, still]
      have watches : ¬(((s.setStation i y).station i).state = .inLocal ∨ ((s.setStation i y).station i).state = .fault) := by
        rw [new, state]
        exact fun k => k.elim out fault
      unfold State.gearSensed
      dsimp only
      rw [none, if_neg (by simp), if_neg watches, State.disagreementTest_eq, new, timer, State.setStation_setStation]
      rfl
    rw [watches] at acts after ⊢
    exact congrArg Host.Outcome.next (acts.settle_stationOut h after state ⟨out, fault⟩)
  all_goals
    have out : (s.station i).state ≠ .inLocal ∧ (s.station i).state ≠ .fault := by
      have moves := watched g hg
      refine ⟨fun e => ?_, fun e => ?_⟩ <;> rw [e] at moves <;> cases moves
    have stepping : ((s.setStation i y).station i).step = some g := by rw [new, step]; exact hg
    rw [State.gearSensed_of_step stepping] at acts after ⊢
  · rw [State.tryComplete_waits stepping (by rw [new]; exact open_)] at acts after ⊢
    exact congrArg Host.Outcome.next (acts.settle_stationOut h after state out)
  · rw [State.tryComplete_done stepping (by rw [new]; exact agreed), new, State.setStation_setStation] at acts after ⊢
    generalize done_ : ({ y with step := none, gearTimer := none } : Station) = done at *
    have new := s.station_setStation_self i done
    have state : done.state = (s.station i).state := by rw [← done_]; exact state
    have active : done.active = (s.station i).active := by rw [← done_]; exact active
    have unit : done.unit = (s.station i).unit := by rw [← done_]; exact unit
    refine ⟨fun unlock lock engage => ?_, fun kind u hu => ?_, fun kind a ha awaiting => ?_⟩
    · rw [State.continueStep_stands unlock lock fun k => by rw [new, active]; exact engage k] at acts after ⊢
      exact congrArg Host.Outcome.next (acts.settle_stationOut h after state out)
    · have freed : (s.setStation i done).continueStep i g.kind =
          (s.setStation i done).setUnit u { s.unit u with stop := false } := by
        rw [kind]
        unfold State.continueStep State.setStop
        dsimp only
        rw [new, unit, Option.mem_def.1 hu]
        rfl
      rw [freed] at acts after ⊢
      have same : (((s.setStation i done).setUnit u { s.unit u with stop := false }).station i).state =
          (s.station i).state := by rw [State.setUnit_station, new, state]
      refine congrArg Host.Outcome.next (h.settle_eq (acts.whole h after) rfl
        (acts.local.holding (State.holding_congr same rfl out))
        (fun need _ j => acts.local.steadyFor (State.steadyFor_congr same rfl rfl need) j)
        (h.grants.stuck.of_states rfl rfl fun v => ?_))
      rw [State.unit_setUnit]
      split
      · next e => rw [e]
      · rfl
    · have engages : (s.setStation i done).continueStep i g.kind =
          (s.setStation i { done with active := none }).submit i a.work a.retryUsed := by
        rw [kind]
        unfold State.continueStep State.engageDone
        dsimp only
        rw [new, active, Option.mem_def.1 ha]
        dsimp only
        rw [if_pos awaiting]
        unfold State.dropActive
        rw [State.onStation_eq, new, State.setStation_setStation]
      obtain ⟨rewind, -⟩ := h.drive.engaging i a ha awaiting
      rw [engages, rewind] at acts after ⊢
      have free := h.noRequest (Option.mem_def.1 ha)
      have first := s.site_setStation (i := i) { done with active := none } unit
      have site := State.site_submit (s.setStation i { done with active := none }) (i := i) .rewind a.retryUsed
        (by rw [first]; exact free)
      rw [first] at site
      have same : (((s.setStation i { done with active := none }).submit i .rewind a.retryUsed).station i).state =
          (s.station i).state := by
        rw [State.station_eq_site, site]
        exact state
      have ends := acts.ends h running after
      have placed := ends.queues (place := insertTail) (q := ⟨i, .rewind, a.retryUsed⟩) (by rw [site])
        (congrArg (insertTail _) (State.others_eq_queue free).symm)
      have kept := h.settle_callsKept (acts.whole h after) rfl rfl rfl (acts.stay h rfl
        (State.holding_congr same rfl out) fun _ _ _ _ => State.steadyFor_congr same rfl rfl _)
      rw [site] at placed
      subst done_
      exact ⟨_, rfl, placed, ends.channel, ends.mooring, kept, ends.alert, ends.onlyAt⟩

end Sys2Proof.Machine
end

