-- ==== Sys2Proof/Proofs/QueueOrder.lean ====
section

/-! PROOF. The queue's insertions by its runs, and one grant (TheQueueGrantsInOrder). -/

namespace Sys2Proof.Machine

/-- In a queue that stands in its runs everything behind a request is of its run or a later one. -/
theorem filter_later_of_pairwise {x : Request} {xs : List Request} {keep : Request → Bool}
    (sorted : (x :: xs).Pairwise (fun a b => a.work.opClass.run ≤ b.work.opClass.run))
    (drops : ∀ p : Request, x.work.opClass.run ≤ p.work.opClass.run → keep p = false) :
    (x :: xs).filter keep = [] ∧ (x :: xs).filter (fun p => !keep p) = x :: xs := by
  have later : ∀ p ∈ x :: xs, keep p = false := by
    intro p hp
    rcases List.mem_cons.mp hp with rfl | hp
    · exact drops p le_rfl
    · exact drops p ((List.pairwise_cons.mp sorted).1 p hp)
  exact ⟨List.filter_eq_nil_iff.mpr (fun p hp => by simp [later p hp]),
    List.filter_eq_self.mpr (fun p hp => by simp [later p hp])⟩

/-- R109: a submission joins behind its own and the earlier runs. -/
theorem insertTail_eq_filters (q : Request) {l : List Request}
    (sorted : l.Pairwise (fun a b => a.work.opClass.run ≤ b.work.opClass.run)) :
    insertTail q l = l.filter (fun p => p.work.opClass.run ≤ q.work.opClass.run) ++
      q :: l.filter (fun p => q.work.opClass.run < p.work.opClass.run) := by
  induction l with
  | nil => rfl
  | cons x xs ih =>
    unfold insertTail
    by_cases earlier : x.work.opClass.run ≤ q.work.opClass.run
    · have rest := ih (List.pairwise_cons.mp sorted).2
      simp [earlier, Nat.not_lt.mpr earlier, List.filter_cons, rest]
    · obtain ⟨none_before, all_after⟩ := filter_later_of_pairwise
        (keep := fun p => p.work.opClass.run ≤ q.work.opClass.run) sorted (fun p hp => by
          simpa using lt_of_lt_of_le (Nat.lt_of_not_le earlier) hp)
      have after : ∀ p : Request, decide (q.work.opClass.run < p.work.opClass.run) =
          !decide (p.work.opClass.run ≤ q.work.opClass.run) := fun p => by
        rw [← decide_not, decide_eq_decide, Nat.not_le]
      rw [if_neg earlier, none_before, List.nil_append]
      simp only [after, all_after]

/-- R109: a requeue joins ahead of its own and the later runs. -/
theorem insertHead_eq_filters (q : Request) {l : List Request}
    (sorted : l.Pairwise (fun a b => a.work.opClass.run ≤ b.work.opClass.run)) :
    insertHead q l = l.filter (fun p => p.work.opClass.run < q.work.opClass.run) ++
      q :: l.filter (fun p => q.work.opClass.run ≤ p.work.opClass.run) := by
  induction l with
  | nil => rfl
  | cons x xs ih =>
    unfold insertHead
    by_cases earlier : x.work.opClass.run < q.work.opClass.run
    · have rest := ih (List.pairwise_cons.mp sorted).2
      simp [earlier, Nat.not_le.mpr earlier, List.filter_cons, rest]
    · obtain ⟨none_before, all_after⟩ := filter_later_of_pairwise
        (keep := fun p => p.work.opClass.run < q.work.opClass.run) sorted (fun p hp => by
          simpa using (Nat.le_of_not_lt earlier).trans hp)
      have after : ∀ p : Request, decide (q.work.opClass.run ≤ p.work.opClass.run) =
          !decide (p.work.opClass.run < q.work.opClass.run) := fun p => by
        rw [← decide_not, decide_eq_decide, Nat.not_lt]
      rw [if_neg earlier, none_before, List.nil_append]
      simp only [after, all_after]

/-- R113: the unit granted is the lowest-numbered IDLE one. -/
theorem State.idleUnit_eq_some {s : State} {u : UnitId} (idle : (s.unit u).state = .idle)
    (lowest : ∀ v, v < u → (s.unit v).state ≠ .idle) : s.idleUnit = some u := by
  rcases found : s.idleUnit with _ | v
  · exact absurd idle ((State.idleUnit_eq_none s).1 found u)
  obtain ⟨vidle, before, after, split, earlier⟩ := List.find?_eq_some_iff_append.mp found
  have sorted : (before ++ v :: after).Pairwise (· < ·) := by rw [← split]; decide
  have member : u ∈ before ++ v :: after := by rw [← split]; exact (by decide : ∀ w : UnitId, w ∈ allUnits) u
  rcases List.mem_append.mp member with inside | inside
  · exact absurd idle (by simpa using earlier u inside)
  rcases List.mem_cons.mp inside with rfl | inside
  · rfl
  · have below : v < u := (List.pairwise_cons.mp (List.pairwise_append.mp sorted).2.1).1 u inside
    exact absurd (by simpa using vidle) (lowest v below)

/-- R114: the station's part in its grant. -/
theorem State.takeGrant_eq (s : State) (u : UnitId) (q : Request) :
    s.takeGrant u q = s.setStation q.station ((s.station q.station).granted u q) := by
  by_cases trim : q.work.isTrim
  · simp [State.takeGrant, trim, State.enter, onStation_eq, Station.granted, setStation_setStation]
  · simp [State.takeGrant, trim, onStation_eq, Station.granted]

/-- Settles O47. -/
theorem theQueueGrantsInOrder : Obligations.TheQueueGrantsInOrder := by
  unfold Obligations.TheQueueGrantsInOrder
  refine ⟨fun q l sorted => ⟨insertTail_eq_filters q sorted, insertHead_eq_filters q sorted⟩, fun s => ⟨?_, ?_⟩⟩
  · rintro (hold | empty | busy)
    · exact State.Stuck.grantOne (.inl hold)
    · exact State.Stuck.grantOne (.inr (.inr empty))
    · exact State.Stuck.grantOne (.inr (.inl ((State.idleUnit_eq_none s).2 busy)))
  · intro q rest u hold queue idle lowest
    rw [State.grantOne, hold, State.idleUnit_eq_some idle lowest, queue]
    exact State.takeGrant_eq _ u q

end Sys2Proof.Machine

end

