-- ==== Sys2Proof/Proofs/TakeOvers.lean ====
section

/-! PROOF. Take-overs and the expiry of their timer (TakeOversParkTheWork). -/

namespace Sys2Proof.Machine

variable {s t : State} {i : StationId}

/-- An active operation stands beside no request and no parked operation (R1, R108). -/
theorem Site.Doing.of_active {k : Site} (h : k.Doing) {a : ActiveOp} (active : k.x.active = some a) :
    k.qs = [] ∧ k.x.parked = none := by
  cases h with
  | free _ _ _ act | pending _ _ _ _ _ act | parked _ _ _ _ _ _ act => rw [act] at active; cases active
  | awaiting _ qs _ _ _ _ park | granted _ _ _ _ qs _ _ _ _ park | moving _ _ _ _ _ qs _ _ _ _ park =>
    exact ⟨qs, park⟩
  | locking _ _ qs _ _ act => exact ⟨qs, (act a active).2.1⟩

/-- What a take-over leaves in the park slot (R153; log 17). -/
def State.carried (s : State) (i : StationId) : Option ParkedOp :=
  match (s.station i).active, s.requestOf i with
  | some a, _ =>
    if a.work.isTrim = true then none
    else match a.phase with
      | .awaiting | .granted | .moving _ => some ⟨a.remainingWork, a.retryUsed⟩
      | .ended _ =>
        if (s.station i).stopCause = .driveFault ∧ a.retryUsed = false then some ⟨a.work, a.retryUsed⟩ else none
  | none, some q => if q.work.isTrim = true then none else some ⟨q.work, q.retryUsed⟩
  | none, none => (s.station i).parked

theorem State.takeOverActive_of_none (none : (s.station i).active = none) : s.takeOverActive i = s := by
  unfold State.takeOverActive
  rw [none]

theorem State.takeOverPending_of_none (none : s.requestOf i = none) : s.takeOverPending i = s := by
  unfold State.takeOverPending
  rw [none]

theorem State.site_takeOverActive {a : ActiveOp} (active : (s.station i).active = some a)
    (parked : (s.station i).parked = none) : (s.takeOverActive i).site i = { s.site i with
      x := { (s.site i).x with active := none, parked := s.carried i } } := by
  have ended : ∀ m, a.phase = .ended m → a.remainingWork = a.work := fun m e => by
    unfold ActiveOp.remainingWork; rw [e]; split <;> simp_all
  unfold State.takeOverActive State.carried
  rw [active]
  dsimp only
  rw [State.station_eq_site] at parked
  split
  · rw [State.site_dropActive, ← parked]
  cases e : a.phase with
  | awaiting => rw [State.parkActive, State.site_dropActive, State.site_park]
  | granted => rw [State.parkActive, State.site_dropActive, State.site_park]
  | moving m => rw [State.parkActive, State.site_dropActive, State.site_park]
  | ended m =>
    dsimp only
    split
    · rw [State.parkActive, State.site_dropActive, State.site_park, ended m e]
    · rw [State.site_dropActive, ← parked]

/-- A take-over leaves of a station's work what the park slot carries (R153). -/
theorem State.site_takeOverWork (h : (s.site i).Doing) :
    ((s.takeOverPending i).takeOverActive i).site i = { s.site i with
      x := { (s.site i).x with active := none, parked := s.carried i }
      qs := [] } := by
  rcases active : (s.station i).active with _ | a
  · rcases request : s.requestOf i with _ | q
    · have qs : (s.site i).qs = [] := by rwa [State.requestOf_eq_site, List.head?_eq_none_iff] at request
      have carried : s.carried i = (s.site i).x.parked := by unfold State.carried; rw [active, request]; rfl
      rw [State.takeOverPending_of_none request, State.takeOverActive_of_none active, carried, ← qs, ← active]
      rfl
    · have mem : q ∈ (s.site i).qs := by rw [State.requestOf_eq_site] at request; exact List.mem_of_head? request
      obtain ⟨-, -, -, -, -, parked, -, -⟩ := h.of_request mem
      have site : (s.takeOverPending i).site i = { s.site i with
          x := { (s.site i).x with active := none, parked := s.carried i }
          qs := [] } := by
        unfold State.takeOverPending State.carried
        rw [active, request]
        dsimp only
        split
        · rw [State.site_withdraw, ← active, ← parked]; rfl
        · rw [State.site_park, State.site_withdraw, ← active]; rfl
      rw [State.takeOverActive_of_none (congrArg (fun k : Site => k.x.active) site), site]
  · obtain ⟨qs, parked⟩ := h.of_active active
    have request : s.requestOf i = none := by rw [State.requestOf_eq_site, qs]; rfl
    rw [State.takeOverPending_of_none request, State.site_takeOverActive active parked, ← qs]

theorem State.takeOverWork_units (s : State) (i : StationId) :
    ((s.takeOverPending i).takeOverActive i).units = s.units := by
  have active : ∀ r : State, (r.takeOverActive i).units = r.units := fun r => by
    unfold State.takeOverActive State.parkActive
    (repeat' split) <;> rfl
  rw [active]
  unfold State.takeOverPending
  (repeat' split) <;> rfl

/-- R153 as one equation. -/
theorem State.site_enterLocal (h : (s.site i).Doing) : (s.enterLocal i).site i = { s.site i with
    x := { (s.site i).x with
      state := .inLocal
      resting := none
      unit := none
      active := none
      parked := s.carried i
      motionTimer := none
      step := none
      gearTimer := none
      stopCause := if (s.motionOf i).isSome then .takeOver else (s.site i).x.stopCause
      cmdLock := if (s.motionOf i).isSome then .locked else (s.site i).x.cmdLock
      cmdClutch := if (s.motionOf i).isSome then some .engaged else (s.site i).x.cmdClutch
      takeOver := some ⟨(s.station i).returnState, some s.settings.takeOverLimit⟩ }
    c := (s.site i).c.leftBand
    qs := []
    v := none } := by
  have site := State.site_takeOverWork h
  unfold State.enterLocal
  rw [State.motionOf_eq_site]
  dsimp only
  rw [State.site_onStation _ _ (by rfl), State.site_enter, State.site_releaseUnit]
  simp only [State.settings_eq_site _ i]
  split
  · next moves =>
    rw [State.site_onStation _ _ (by rfl), State.site_stopMotion, site]
    rw [State.station_eq_site] at moves
    simp only [moves, if_true]
    rfl
  · next still =>
    rw [State.station_eq_site] at still
    rw [site]
    simp only [still]
    rfl

/-- A take-over frees the unit of its station (R153). -/
theorem State.enterLocal_freed (h : s.Sound) (doing : (s.site i).Doing) {u : UnitId}
    (unit : (s.station i).unit = some u) :
    (s.enterLocal i).unit u = .unserved (if (s.unit u).state = .faulted then .faulted else .idle) := by
  have work : State.Acts i s ((s.takeOverPending i).takeOverActive i) :=
    (s.takeOverPending_acts i).trans (State.takeOverActive_acts _ i)
  have held : (((s.takeOverPending i).takeOverActive i).station i).unit = some u :=
    (congrArg (fun k : Site => k.x.unit) (State.site_takeOverWork doing)).trans unit
  have same : ((s.takeOverPending i).takeOverActive i).unit u = s.unit u :=
    congrArg (fun units : Vector DriveUnit 4 => units[u]) (s.takeOverWork_units i)
  have rest : ∀ m : State, ∀ f : Station → Station, (∀ x, (f x).attention = x.attention ∧ (f x).unit = x.unit) →
      State.Acts i (m.releaseUnit i) (((m.releaseUnit i).enter i .inLocal).onStation i f) := fun m f keeps =>
    (State.enter_acts _ i .inLocal).trans (State.Acts.onStation _ i f (keeps _).1 (keeps _).2)
  unfold State.enterLocal
  dsimp only
  split
  · refine (rest _ _ (fun _ => ⟨rfl, rfl⟩)).released ?_ ?_ ?_
    · exact State.Acts.sound ((work.trans (State.stopMotion_acts _ i _)).trans (State.Acts.onStation _ i _ rfl rfl)) h
    · rw [State.station_onStation_self, State.stopMotion_station]
      exact held
    · rw [State.onStation_unit, State.stopMotion_unit_state, same]
  · exact (rest _ _ (fun _ => ⟨rfl, rfl⟩)).released (work.sound h) held (by rw [same])

/-- Whether a station holds goes by its state, its sensed clutch and the presence of its record (R5). -/
theorem State.holding_of_gear (state : (t.station i).state = (s.station i).state)
    (clutch : (t.station i).senClutch = (s.station i).senClutch)
    (record : (t.mooring i).isSome = (s.mooring i).isSome) : t.holding i = s.holding i := by
  unfold State.holding
  rw [state, clutch, record]

theorem State.setMooring_setStation (r : Option Mooring) (x : Station) :
    (s.setMooring i r).setStation i x = (s.setStation i x).setMooring i r := rfl

/-- The expiry of the take-over timer at a station in LOCAL as one equation (R38, R156). -/
theorem State.Inv.takeOverExpired_eq (h : s.Inv) (state : (s.station i).state = .inLocal) :
    s.takeOverExpired i =
      let y := { s.station i with
        takeOver := (s.station i).takeOver.map (fun o => { o with timer := none }), parked := none }
      match s.mooring i with
      | none => s.setStation i y
      | some r => { (s.setStation i (y.noticing .stale)).setMooring i (some { r with stale := true }) with
          alert := s.alertAfter i .stale } := by
  have still : { s.channel i with steady := 0 } = s.channel i := by
    have steady := ((h.fit i).watched.out_of_band (by rw [State.station_eq_site] at state; rw [state]; decide)).1
    exact steady ▸ rfl
  unfold State.takeOverExpired State.setStale
  dsimp only
  rw [State.onStation_eq]
  rcases record : s.mooring i with _ | r
  · rfl
  · rw [State.setStation_mooring, record]
    dsimp only [Option.isSome_some, if_true]
    have same : ∀ m : State, m.channel i = s.channel i → m.resetSteady i = m := fun m e => by
      rw [State.resetSteady, State.onChannel_eq, e, still, ← e, State.setChannel_self]
    rw [if_pos rfl, same]
    · rw [State.raise_eq, State.setMooring_setStation, State.setMooring_station, State.station_setStation_self,
        State.setStation_setStation]
      unfold State.alertAfter
      rw [State.setMooring_station, State.station_setStation_self]
      rfl
    · rfl

/-- Settles O50. -/
theorem takeOversParkTheWork : Obligations.TakeOversParkTheWork := by
  intro s i h running x before held returns moves
  have changed : before.Inv := h.inputs _
  have carried : held = before.carried i := rfl
  refine ⟨fun state => ?_, fun known fault inLocal => ?_, fun timer => ?_⟩
  · exact congrArg Host.Outcome.next (if_neg fun takes =>
      state.elim takes.2.1 (fun out => out.elim takes.2.2.1 takes.2.2.2))
  · have doing : (before.site i).Doing := (changed.fit i).doing
    have acts := before.enterLocal_acts i
    have ends := acts.ends changed running (State.enterLocal_after (changed.fit i) known inLocal fault _)
    have site := State.site_enterLocal doing
    obtain ⟨station, request⟩ := ends.rests (by rw [site])
    have answer : exec (.takeOverAsserted i) s = .next (State.settle before (before.enterLocal i)) :=
      congrArg Host.Outcome.next (if_pos ⟨running, known, fault, inLocal⟩)
    have freed : ∀ u ∈ x.unit, s.freed (State.settle before (before.enterLocal i)) u := fun u hu =>
      ends.freed (State.enterLocal_freed changed.whole.sound doing hu)
    have calls : s.sameCalls (State.settle before (before.enterLocal i)) := ends.sameCalls (before.enterLocal_calls i)
    have channel := ends.channel
    have mooring := ends.mooring
    have alert := ends.alert.trans (congrArg Site.alert site :)
    rw [site] at channel mooring station
    have permits := ends.permits
    have onlyAt := ends.onlyAt
    clear ends
    generalize State.settle before (before.enterLocal i) = u at *
    exact ⟨u, answer, station, channel, mooring, request, freed, calls, permits, alert, onlyAt⟩
  · have taken : x.takeOver.isSome = true := by
      cases e : x.takeOver with
      | none => rw [e] at timer; cases timer
      | some o => rfl
    have inLocal : x.state = .inLocal := (h.fit i).recorded.takeOver.mp taken
    have after := State.takeOverExpired_after (h.fit i) inLocal
    have acts := s.takeOverExpired_acts i
    have eq := h.takeOverExpired_eq inLocal
    dsimp only at eq
    have stands : State.settle s (s.takeOverExpired i) = s.takeOverExpired i := by
      have same : (s.takeOverExpired i).calls = s.calls ∧ (s.takeOverExpired i).queue = s.queue ∧
          (s.takeOverExpired i).units = s.units := by
        rw [eq]; split <;> exact ⟨rfl, rfl, rfl⟩
      have gear : ((s.takeOverExpired i).station i).state = x.state ∧
          ((s.takeOverExpired i).station i).senClutch = x.senClutch ∧
          ((s.takeOverExpired i).mooring i).isSome = (s.mooring i).isSome := by
        rw [eq]
        split
        · rw [State.station_setStation_self, State.setStation_mooring]; exact ⟨rfl, rfl, rfl⟩
        · next record =>
          rw [record]
          exact ⟨(congrArg Station.state (State.station_setStation_self s i _) :),
            (congrArg Station.senClutch (State.station_setStation_self s i _) :),
            (congrArg Option.isSome (State.mooring_setMooring_self (s.setStation i _) i _) :)⟩
      refine acts.settle_eq h after same.1 same.2.1 same.2.2 (State.holding_of_gear gear.1 gear.2.1 gear.2.2) fun need _ => ?_
      rw [State.steadyFor_of_state (by rw [gear.1, inLocal]; decide), State.steadyFor_of_state (by rw [inLocal]; decide)]
    exact (congrArg Host.Outcome.next ((if_pos ⟨running, inLocal, timer⟩).trans (stands.trans eq)))

end Sys2Proof.Machine

end

