-- ==== Sys2Proof/Proofs/TakeOverEnds.lean ====
section

/-! PROOF. The end of a take-over as equations (TakeOversEndByTheGear). -/

namespace Sys2Proof.Machine

variable {s t : State} {i : StationId}

/-! ### The station and the record of a station that is handed back -/

/-- The state with another station record and mooring at one station. -/
def State.handed (s : State) (i : StationId) (x : Station) (r : Option Mooring) : State :=
  (s.setStation i x).setMooring i r

namespace State

theorem handed_station (x : Station) (r : Option Mooring) : (s.handed i x r).station i = x := by
  unfold State.handed
  rw [State.setMooring_station, State.station_setStation_self]

theorem handed_setStation (x y : Station) (r : Option Mooring) : (s.handed i x r).setStation i y = s.handed i y r := by
  unfold State.handed
  rw [State.setMooring_setStation, State.setStation_setStation]

theorem setStation_handed (x y : Station) (r : Option Mooring) : (s.setStation i x).handed i y r = s.handed i y r := by
  unfold State.handed
  rw [State.setStation_setStation]

theorem site_handed (x : Station) (r : Option Mooring) (unit : x.unit = (s.station i).unit) :
    (s.handed i x r).site i = { s.site i with x := x, r := r } := by
  unfold State.handed
  rw [State.site_setMooring, State.site_setStation _ _ unit]

end State

/-! ### The state that is taken (R157 steps 2 and 3) -/

/-- The state that a station in LOCAL takes: its return state, or what replaces it. -/
def State.takenBack (s : State) (i : StationId) (state : LineState) : LineState :=
  if s.returnStands i state then
    if state = .rewinding ∧ (s.station i).parked.any (fun p => p.work == .rewind) = false then .released else state
  else s.stateByList i

/-- The record of a station that leaves LOCAL: stale where the station goes to FAST by the list. -/
def State.recordBack (s : State) (i : StationId) (state : LineState) : Option Mooring :=
  if s.returnStands i state = false ∧ s.takenBack i state = .fast then
    (s.mooring i).map (fun r => { r with stale := true })
  else s.mooring i

theorem State.stow_of_none (none : s.mooring i = none) : s.stow i = s.enter i .stowed := by
  have record : (s.enter i .stowed).mooring i = Option.none :=
    (congrArg Site.r (State.site_enter s .stowed)).trans none
  unfold State.stow State.retireRecord
  rw [record]

theorem State.takeReturnState_eq (watched : (s.channel i).Watched (s.station i).state (s.mooring i)
    (s.calibration i).decimation) (out : (s.station i).state ≠ .fast ∧ (s.station i).state ≠ .trimming)
    (known : (s.station i).senClutch.isSome = true) {state : LineState} (absent : state = .stowed → s.mooring i = none) :
    s.takeReturnState i state = s.handed i ((s.station i).entered (s.takenBack i state)) (s.recordBack i state) := by
  have kept : ∀ x, s.handed i x (s.mooring i) = s.setStation i x := fun x => State.setMooring_self (s := s.setStation i x)
  have entered : ∀ new : LineState, new ≠ .trimming → s.enter i new = s.setStation i ((s.station i).entered new) :=
    fun new trimming => State.enter_out watched out trimming
  have rewinds : (s.station i).parked.all (fun p => p.work != .rewind) =
      !(s.station i).parked.any (fun p => p.work == .rewind) := by
    cases (s.station i).parked <;> rfl
  unfold State.takeReturnState State.recordBack State.takenBack
  by_cases stands : s.returnStands i state = true
  · have trimming : state ≠ .trimming := by rintro rfl; cases stands
    simp only [stands, if_true, rewinds, Bool.not_eq_true', Bool.true_eq_false, false_and, if_false, kept]
    split
    · exact entered .released nofun
    split
    · next e => rw [State.stow_of_none (absent e), e]; exact entered .stowed nofun
    · exact entered _ trimming
  · rw [if_neg stands, State.enterByList_eq watched out known]
    simp only [stands, Bool.false_eq_true, if_false, true_and]
    rfl

/-! ### The gear and the parked operation (R157 step 4, R158) -/

/-- The station record once its gear is commanded anew. -/
def Station.handedBack (x : Station) (limit : Nat) : Station :=
  if x.state = .paying ∨ x.state = .released then
    { x with cmdLock := x.senLock.getD x.cmdLock, cmdClutch := x.senClutch }
  else x.stepping .handBack .locked .engaged limit

theorem State.handBack_eq : s.handBack i = s.setStation i ((s.station i).handedBack s.settings.gearLimit) := by
  have steps : s.startStep i .handBack .locked .engaged =
      s.setStation i ((s.station i).stepping .handBack .locked .engaged s.settings.gearLimit) :=
    State.startStep_plain _ _ _ _ (by decide)
  by_cases sensed : (s.station i).state = .paying ∨ (s.station i).state = .released
  · have back : (s.station i).handedBack s.settings.gearLimit = _ := if_pos sensed
    have handed : s.handBack i = s.onStation i (fun x =>
        { x with cmdLock := x.senLock.getD x.cmdLock, cmdClutch := x.senClutch }) := by
      unfold State.handBack
      rcases sensed with e | e <;> rw [e]
    rw [handed, back, State.onStation_eq]
  · have back : (s.station i).handedBack s.settings.gearLimit = _ := if_neg sensed
    rw [back, ← steps]
    unfold State.handBack
    split
    · next e => exact absurd (.inl e) sensed
    · next e => exact absurd (.inr e) sensed
    all_goals rfl

theorem resumeState_goes {state goes : LineState} {w : Work} (h : resumeState state w = some goes) :
    goes ≠ .trimming ∧ goes ≠ .fast := by
  rcases (resumeState_cases h).1 with ⟨-, rfl⟩ | ⟨-, rfl⟩ | ⟨-, rfl⟩ <;> exact ⟨nofun, nofun⟩

section
variable {p : ParkedOp} (parked : (s.station i).parked = some p)
include parked

theorem State.resumeParked_drops (resume : resumeState (s.station i).state p.work = none) :
    s.resumeParked i = s.setStation i { s.station i with parked := none } := by
  unfold State.resumeParked
  rw [parked]
  dsimp only
  rw [resume]
  exact State.onStation_eq _

variable {goes : LineState} (resume : resumeState (s.station i).state p.work = some goes)
include resume

theorem State.resumeParked_waits (hold : s.hold = true) (channel : (s.channel i).leftBand = s.channel i) :
    s.resumeParked i = s.setStation i ((s.station i).entered goes) := by
  obtain ⟨trimming, fast⟩ := resumeState_goes resume
  unfold State.resumeParked
  rw [parked]
  dsimp only
  rw [resume]
  dsimp only
  rw [if_pos hold, State.enter_eq trimming (fun e => absurd e fast), Channel.entering, if_neg fast, channel]
  exact State.setChannel_self (s := s.setStation i _)

theorem State.resumeParked_submits (hold : s.hold = false) (channel : (s.channel i).leftBand = s.channel i) :
    s.resumeParked i = (s.setStation i { (s.station i).entered goes with parked := none }).submit i p.work p.retryUsed := by
  obtain ⟨trimming, fast⟩ := resumeState_goes resume
  have entered : s.enter i goes = s.setStation i ((s.station i).entered goes) := by
    rw [State.enter_eq trimming (fun e => absurd e fast), Channel.entering, if_neg fast, channel]
    exact State.setChannel_self (s := s.setStation i _)
  unfold State.resumeParked
  rw [parked]
  dsimp only
  rw [resume]
  dsimp only
  have still : (Station.entered (s.station i) goes).parked = some p := parked
  rw [if_neg (by rw [hold]; decide), entered]
  unfold State.submitParked
  rw [State.station_setStation_self, still]
  dsimp only
  rw [State.unpark, State.onStation_eq, State.setStation_setStation, State.station_setStation_self]

end

/-! ### The whole of it (R20, R157, R158) -/

/-- The station record of a station that leaves LOCAL in a state, its gear commanded anew. -/
def Station.backIn (x : Station) (state : LineState) (limit : Nat) : Station :=
  { x.entered state with takeOver := none, pendingSensorFault := false }.handedBack limit

theorem Station.handedBack_kept (x : Station) (limit : Nat) : (x.handedBack limit).state = x.state ∧
    (x.handedBack limit).parked = x.parked ∧ (x.handedBack limit).unit = x.unit := by
  unfold Station.handedBack
  split <;> exact ⟨rfl, rfl, rfl⟩

theorem Station.backIn_kept (x : Station) (state : LineState) (limit : Nat) : (x.backIn state limit).state = state ∧
    (x.backIn state limit).parked = x.parked ∧ (x.backIn state limit).unit = x.unit :=
  Station.handedBack_kept _ limit

/-- A station without a standing sensor fault takes its state, its record and its gear, and deals with what is parked. -/
theorem State.endTakeOver_eq {o : TakeOver} (taken : (s.station i).takeOver = some o)
    (stands : s.sensorFaultStands i = false) (watched : (s.channel i).Watched (s.station i).state (s.mooring i)
    (s.calibration i).decimation) (state : (s.station i).state = .inLocal)
    (known : (s.station i).senClutch.isSome = true) (absent : o.returnState = .stowed → s.mooring i = none) :
    s.endTakeOver i = (s.handed i ((s.station i).backIn (s.takenBack i o.returnState) s.settings.gearLimit)
      (s.recordBack i o.returnState)).resumeParked i := by
  have cleared : (s.onStation i (fun x => { x with takeOver := none })).clearPendingFault i =
      s.setStation i { s.station i with takeOver := none, pendingSensorFault := false } := by
    rw [State.clearPendingFault, State.onStation_eq, State.onStation_eq, State.setStation_setStation,
      State.station_setStation_self]
  have returned := State.takeReturnState_eq (s := s.setStation i { s.station i with
      takeOver := none, pendingSensorFault := false }) (i := i) (state := o.returnState)
    (by rw [State.station_setStation_self]; exact watched)
    (by rw [State.station_setStation_self]; dsimp only; rw [state]; decide)
    (by rw [State.station_setStation_self]; exact known) absent
  have same : ∀ x : Station, x.senClutch = (s.station i).senClutch → x.length = (s.station i).length →
      x.parked = (s.station i).parked → (s.setStation i x).takenBack i o.returnState = s.takenBack i o.returnState ∧
        (s.setStation i x).recordBack i o.returnState = s.recordBack i o.returnState := by
    intro x clutch length parked
    have stands : (s.setStation i x).returnStands i o.returnState = s.returnStands i o.returnState := by
      unfold State.returnStands
      rw [State.station_setStation_self, clutch, length]
      rfl
    have listed : (s.setStation i x).stateByList i = s.stateByList i := by
      unfold State.stateByList
      dsimp only
      rw [State.station_setStation_self, clutch, length]
      rfl
    have back : (s.setStation i x).takenBack i o.returnState = s.takenBack i o.returnState := by
      unfold State.takenBack
      rw [stands, listed, State.station_setStation_self, parked]
    refine ⟨back, ?_⟩
    unfold State.recordBack
    rw [stands, back]
    rfl
  obtain ⟨back, record⟩ := same { s.station i with takeOver := none, pendingSensorFault := false } rfl rfl rfl
  unfold State.endTakeOver
  rw [taken]
  dsimp only
  rw [stands, if_neg (by decide), cleared, returned, State.handBack_eq, State.handed_station, State.handed_setStation,
    State.setStation_handed, State.station_setStation_self, back, record]
  rfl

/-- The queue and the units stand where no grant can follow. -/
theorem State.Stuck.settle_drive (h : t.Stuck) (before : State) :
    (State.settle before t).queue = t.queue ∧ (State.settle before t).units = t.units := by
  have only := State.settleCalls_only before t
  unfold State.settle
  rw [h.grantAll]
  exact ⟨only.queue, only.units⟩

/-- What an entry to FAULT leaves of the drive at a station without a unit and without a request. -/
theorem State.enterFault_drive (unit : (s.station i).unit = none) (request : (s.site i).qs = []) (cause : StopCause)
    (reason : Attention) : (s.enterFault i cause reason).queue = s.queue ∧ (s.enterFault i cause reason).units = s.units := by
  have others := State.others_eq_queue request
  have entered : ∀ m : State, (m.enter i .fault).queue = m.queue ∧ (m.enter i .fault).units = m.units := fun m => by
    rw [State.enter_eq (new := .fault) nofun nofun]; exact ⟨rfl, rfl⟩
  have dropped : (s.dropWork i).queue = s.queue ∧ (s.dropWork i).units = s.units := ⟨others, rfl⟩
  unfold State.enterFault
  rw [State.releaseUnit_of_none s i unit, State.raise_eq]
  exact ⟨(entered _).1.trans dropped.1, (entered _).2.trans dropped.2⟩

/-- The state of a station in LOCAL is borne out as the sensed clutch and P say (R157). -/
theorem State.returnStands_eq (known : (s.station i).senClutch.isSome = true) (state : LineState) :
    let out := decide (s.settings.stowTolerance < (s.station i).length)
    let engaged := (s.station i).senClutch == some .engaged
    s.returnStands i state = match state with
      | .fast | .eased | .rewinding => engaged
      | .outUnclaimed => engaged && out
      | .paying => !engaged
      | .released => true
      | .stowed => engaged && !out
      | .unknown | .heaving | .trimming | .easing | .inLocal | .fault => false := by
  obtain ⟨clutch, sensed⟩ := Option.isSome_iff_exists.1 known
  unfold State.returnStands
  dsimp only
  rw [sensed]
  cases state
  case paying => cases clutch <;> rfl
  all_goals rfl

theorem State.stateByList_eq_engaged (known : (s.station i).senClutch.isSome = true) :
    let engaged := (s.station i).senClutch == some .engaged
    s.stateByList i = if (s.mooring i).isSome ∧ engaged then .fast
      else if ¬ engaged then .released
      else if decide (s.settings.stowTolerance < (s.station i).length) then .outUnclaimed
      else .stowed := by
  obtain ⟨clutch, sensed⟩ := Option.isSome_iff_exists.1 known
  rw [State.stateByList_eq known]
  dsimp only
  rw [sensed]
  cases clutch <;> simp

theorem State.resumeParked_of_none (parked : (s.station i).parked = none) : s.resumeParked i = s := by
  unfold State.resumeParked
  rw [parked]

theorem State.resumeParked_calls : (s.resumeParked i).calls = s.calls := by
  unfold State.resumeParked
  (repeat' split) <;> simp

/-- What an event has done to a station that it hands back with the gear `g`, and with what is parked dealt with. -/
theorem State.Ends.resumed {g : Station} {r : Option Mooring} {u : State}
    (ends : State.Ends i s ((s.handed i g r).resumeParked i) u) (parked : g.parked = (s.station i).parked)
    (unit : g.unit = (s.station i).unit) (qs : (s.site i).qs = []) (still : (s.channel i).leftBand = s.channel i)
    (drive : ((s.handed i g r).resumeParked i).queue = s.queue → ((s.handed i g r).resumeParked i).units = s.units →
      u.queue = s.queue ∧ u.units = s.units) :
    u.channel i = s.channel i ∧ u.mooring i = r ∧ u.alert = s.alert ∧
      ((s.station i).parked = none → u.station i = g ∧ u.queue = s.queue ∧ u.units = s.units) ∧
      ∀ p, (s.station i).parked = some p →
        (resumeState g.state p.work = none →
          u.station i = { g with parked := none } ∧ u.queue = s.queue ∧ u.units = s.units) ∧
        ∀ goes, resumeState g.state p.work = some goes →
          if s.hold then u.station i = g.entered goes ∧ u.queue = s.queue ∧ u.units = s.units
          else s.submits u i { g.entered goes with parked := none } ⟨i, p.work, p.retryUsed⟩ := by
  have settled : ∀ y : Station, (s.handed i g r).resumeParked i = s.handed i y r → y.unit = (s.station i).unit →
      (u.channel i = s.channel i ∧ u.mooring i = r ∧ u.alert = s.alert) ∧
        u.station i = y ∧ u.queue = s.queue ∧ u.units = s.units := fun y eq free => by
    have site := State.site_handed (s := s) y r free
    rw [eq] at ends drive
    obtain ⟨station, -⟩ := ends.rests (by rw [site]; exact qs)
    exact ⟨⟨ends.channel.trans (congrArg Site.c site), ends.mooring.trans (congrArg Site.r site),
      ends.alert.trans (congrArg Site.alert site)⟩, station.trans (congrArg Site.x site), drive rfl rfl⟩
  rcases held : (s.station i).parked with _ | p
  · have eq := State.resumeParked_of_none (s := s.handed i g r) (i := i) (by rw [State.handed_station, parked, held])
    obtain ⟨⟨channel, mooring, alert⟩, rest⟩ := settled g eq unit
    exact ⟨channel, mooring, alert, fun _ => rest, nofun⟩
  have at_ : ((s.handed i g r).station i).parked = some p := by rw [State.handed_station, parked, held]
  rcases resume : resumeState g.state p.work with _ | goes
  · have eq := State.resumeParked_drops at_ (by rw [State.handed_station]; exact resume)
    rw [State.handed_setStation, State.handed_station] at eq
    obtain ⟨⟨channel, mooring, alert⟩, rest⟩ := settled _ eq unit
    refine ⟨channel, mooring, alert, nofun, fun p' same => ?_⟩
    cases same
    exact ⟨fun _ => rest, fun goes k => by rw [resume] at k; cases k⟩
  have resume' : resumeState ((s.handed i g r).station i).state p.work = some goes := by
    rw [State.handed_station]; exact resume
  suffices chosen : u.channel i = s.channel i ∧ u.mooring i = r ∧ u.alert = s.alert ∧
      (if s.hold then u.station i = g.entered goes ∧ u.queue = s.queue ∧ u.units = s.units
        else s.submits u i { g.entered goes with parked := none } ⟨i, p.work, p.retryUsed⟩) by
    obtain ⟨channel, mooring, alert, rest⟩ := chosen
    refine ⟨channel, mooring, alert, nofun, fun p' same => ?_⟩
    cases same
    exact ⟨fun k => (by rw [resume] at k; cases k), fun goes' k => by rw [resume] at k; cases k; exact rest⟩
  by_cases hold : s.hold = true
  · have eq := State.resumeParked_waits at_ resume' hold still
    rw [State.handed_setStation, State.handed_station] at eq
    obtain ⟨⟨channel, mooring, alert⟩, rest⟩ := settled _ eq unit
    exact ⟨channel, mooring, alert, by rw [if_pos hold]; exact rest⟩
  · have eq := State.resumeParked_submits at_ resume' (Bool.eq_false_iff.2 hold) still
    rw [State.handed_setStation, State.handed_station] at eq
    have start := State.site_handed (s := s) { g.entered goes with parked := none } r unit
    have site := State.site_submit (s := s.handed i { g.entered goes with parked := none } r) (i := i) p.work p.retryUsed
      (by rw [start]; exact qs)
    rw [← eq, start] at site
    have asks := ends.queues (place := insertTail) (q := ⟨i, p.work, p.retryUsed⟩) (by rw [site]) (by
      rw [eq, State.others_eq_queue qs]; rfl)
    rw [site] at asks
    exact ⟨ends.channel.trans (congrArg Site.c site), ends.mooring.trans (congrArg Site.r site),
      ends.alert.trans (congrArg Site.alert site), by rw [if_neg hold]; exact asks⟩

/-- Settles O51. -/
theorem takeOversEndByTheGear : Obligations.TakeOversEndByTheGear := by
  intro s i h running x before out engaged stands listed rewinds
  have changed : before.Inv := h.inputs _
  refine ⟨fun away => congrArg Host.Outcome.next (if_neg fun takes => away takes.2), fun o taken => ?_⟩
  have fit := h.fit i
  have inLocal : x.state = .inLocal := fit.recorded.takeOver.mp (by
    rw [← State.station_eq_site, show (s.station i).takeOver = some o from taken]; rfl)
  obtain ⟨qs, -, unit, -, -, -, -, -, -⟩ := fit.inLocal inLocal
  have acts := before.endTakeOver_acts i
  have ends := acts.ends changed running (State.endTakeOver_after (changed.fit i) inLocal)
  have answer : exec (.takeOverEnded i) s = .next (State.settle before (before.endTakeOver i)) :=
    congrArg Host.Outcome.next (if_pos ⟨running, inLocal⟩)
  have drive : (before.endTakeOver i).queue = s.queue → (before.endTakeOver i).units = s.units →
      (State.settle before (before.endTakeOver i)).queue = s.queue ∧
        (State.settle before (before.endTakeOver i)).units = s.units := fun queue units => by
    obtain ⟨a, b⟩ := (changed.stuck acts.local.hold queue units).settle_drive before
    exact ⟨a.trans queue, b.trans units⟩
  have still : (s.channel i).leftBand = s.channel i :=
    Channel.Watched.entering_self fit.watched (by rw [← State.station_eq_site]; exact ⟨by rw [inLocal]; decide, by rw [inLocal]; decide⟩) .inLocal
  by_cases fault : s.sensorFaultStands i = true
  · have eq : before.endTakeOver i = (before.onStation i (fun x => { x with takeOver := none })).enterFault i .sensor .sensor := by
      unfold State.endTakeOver
      rw [show (before.station i).takeOver = some o from taken]
      exact if_pos fault
    have site := State.site_enterFault (s := before.onStation i (fun x => { x with takeOver := none })) (i := i) .sensor .sensor
    rw [← eq, State.site_onStation _ _ (by rfl)] at site
    obtain ⟨station, request⟩ := ends.rests (by rw [site])
    have free : ((before.onStation i (fun x => { x with takeOver := none })).station i).unit = none := by
      rw [State.station_onStation_self]; exact unit
    obtain ⟨queue, units⟩ := State.enterFault_drive (s := before.onStation i (fun x => { x with takeOver := none })) free qs
      .sensor .sensor
    obtain ⟨queue, units⟩ := drive (by rw [eq]; exact queue) (by rw [eq]; exact units)
    have calls : s.sameCalls (State.settle before (before.endTakeOver i)) :=
      ends.sameCalls (by rw [eq]; exact State.enterFault_calls _ i .sensor .sensor)
    have station := station.trans (congrArg Site.x site)
    have channel := (ends.channel.trans (congrArg Site.c site)).trans still
    have mooring := ends.mooring.trans (congrArg Site.r site)
    have alert := ends.alert.trans (congrArg Site.alert site)
    exact ⟨_, answer, ends.onlyAt, calls, ends.permits, channel,
      fun _ => ⟨station, mooring, alert, queue, units⟩, fun k => absurd fault (by rw [k]; decide)⟩
  · have stood : s.sensorFaultStands i = false := Bool.eq_false_iff.2 fault
    have known : (s.station i).senClutch.isSome = true := (fit.geared.sensedAll (by
      rw [← State.station_eq_site, show (s.station i).state = .inLocal from inLocal]; decide)).2.2
    have absent : o.returnState = .stowed → s.mooring i = none := fun e => by
      have returns := fit.recorded.returns o taken
      rw [e] at returns
      exact Option.isNone_iff_eq_none.mp (by simpa [LineState.returns, State.mooring_eq_site] using returns)
    have eq := State.endTakeOver_eq (s := before) taken stood fit.watched inLocal known absent
    have stands_eq : before.returnStands i o.returnState = stands o.returnState := State.returnStands_eq known _
    have listed_eq : before.stateByList i = listed := State.stateByList_eq_engaged known
    have state_eq : before.takenBack i o.returnState = if stands o.returnState then
        if o.returnState = .rewinding ∧ rewinds = false then .released else o.returnState
      else listed := by
      unfold State.takenBack
      rw [stands_eq, listed_eq]
      rfl
    have record_eq : before.recordBack i o.returnState = if stands o.returnState = false ∧
        before.takenBack i o.returnState = .fast then (s.mooring i).map (fun r => { r with stale := true })
      else s.mooring i := by
      unfold State.recordBack
      rw [stands_eq]
      rfl
    have calls : s.sameCalls (State.settle before (before.endTakeOver i)) := ends.sameCalls (by
      rw [eq, State.resumeParked_calls]; rfl)
    rw [state_eq] at eq record_eq
    rw [record_eq] at eq
    rw [eq] at ends drive answer calls
    obtain ⟨state_kept, parked_kept, unit_kept⟩ := Station.backIn_kept (before.station i) (if stands o.returnState then
        if o.returnState = .rewinding ∧ rewinds = false then .released else o.returnState
      else listed) before.settings.gearLimit
    obtain ⟨channel, mooring, alert, empty, resumes⟩ := ends.resumed parked_kept unit_kept qs still drive
    have onlyAt := ends.onlyAt
    have permits := ends.permits
    clear ends eq
    generalize State.settle before _ = u at *
    refine ⟨u, answer, onlyAt, calls, permits, channel, fun k => absurd k fault, fun _ => ?_⟩
    intro state y geared
    refine ⟨mooring, alert, ?_⟩
    split
    · next none_parked => exact empty none_parked
    · next p held =>
      obtain ⟨drops, goes⟩ := resumes p held
      split
      · next resume => exact drops (by rw [state_kept]; exact resume)
      · next goes' resume => exact goes goes' (by rw [state_kept]; exact resume)

end Sys2Proof.Machine

end

