-- ==== Sys2Proof/Proofs/Resuming.lean ====
section

/-! PROOF. A change of the hold deals with every station in turn; RESUME-ALL (ResumingSubmitsTheParked). -/

namespace Sys2Proof.Machine

variable {s t : State} {i : StationId}

/-- A change of the hold's level and acts at each station in turn: each finds its own site as it stood. -/
theorem State.Inv.hold_folded (h : s.Inv) {f : State → StationId → State} (acts : ∀ s i, State.Acts i s (f s i))
    (level : Bool) (after : ∀ (m : State) (i : StationId), (m.site i).Fit → (m.site i).hold = level →
      ((f m i).site i).After (m.site i).x.state) :
    let t := allStations.foldl f { s with hold := level }
    t.Whole ∧ t.backdrop = { s with hold := level }.backdrop ∧
      ∀ j, ∃ m : State, (State.site { s with hold := level } j).Alike (m.site j) ∧
        ((f m j).site j).Alike (t.site j) := by
  intro t
  have sound : State.Sound { s with hold := level } :=
    h.whole.sound.of_stations ⟨h.alertFits.follow, h.alertFits.critical⟩ (fun _ => rfl) rfl rfl rfl rfl
  obtain ⟨sound, -, backdrop, -, sites⟩ :=
    State.foldl_acts acts allStations allStations_nodup { s with hold := level } sound
  have site : ∀ j, ∃ m : State, (State.site { s with hold := level } j).Alike (m.site j) ∧
      ((f m j).site j).Alike (t.site j) := fun j => sites j (mem_allStations j)
  have ends : ∀ j, ∃ old, (t.site j).After old := fun j => by
    obtain ⟨m, start, done⟩ := site j
    have fit : (State.site { s with hold := level } j).Fit :=
      (h.fit j).congr rfl rfl rfl rfl rfl rfl rfl rfl rfl rfl rfl rfl rfl
    exact ⟨_, done.after (after m j (start.fit fit) start.hold)⟩
  exact ⟨⟨sound, fun j => (ends j).elim fun _ k => k.fit, fun j => (ends j).elim fun _ k => k.held⟩, backdrop, site⟩

/-! ### The queue that the resumed operations make -/

/-- A request stands before another: its class runs earlier, or it is of the same class and a lower station (R150). -/
def Request.Leads (p q : Request) : Prop :=
  p.work.opClass.run < q.work.opClass.run ∨ (p.work.opClass = q.work.opClass ∧ p.station < q.station)

theorem OpClass.run_injective {a b : OpClass} (h : a.run = b.run) : a = b := by
  cases a <;> cases b <;> first | rfl | (revert h; decide)

theorem Request.Leads.run_le {p q : Request} (h : p.Leads q) : p.work.opClass.run ≤ q.work.opClass.run := by
  rcases h with earlier | ⟨same, -⟩
  · exact earlier.le
  · rw [same]

/-- A submission by a station above those that wait keeps the order. -/
theorem insertTail_leads {q : Request} {l : List Request} (sorted : l.Pairwise Request.Leads)
    (above : ∀ p ∈ l, p.station < q.station) : (insertTail q l).Pairwise Request.Leads := by
  rw [insertTail_eq_filters q (sorted.imp Request.Leads.run_le), List.pairwise_append, List.pairwise_cons]
  refine ⟨sorted.filter _, ⟨fun p hp => ?_, sorted.filter _⟩, fun p hp r hr => ?_⟩
  · obtain ⟨-, later⟩ := List.mem_filter.mp hp
    exact .inl (of_decide_eq_true later)
  · obtain ⟨mem, upTo⟩ := List.mem_filter.mp hp
    have upTo := of_decide_eq_true upTo
    rcases List.mem_cons.mp hr with rfl | hr
    · rcases Nat.lt_or_eq_of_le upTo with earlier | same
      · exact .inl earlier
      · exact .inr ⟨OpClass.run_injective same, above p mem⟩
    · obtain ⟨-, later⟩ := List.mem_filter.mp hr
      exact .inl (upTo.trans_lt (of_decide_eq_true later))

/-- A station's part in RESUME-ALL changes its park slot and the queue only. -/
theorem State.resumeStation_only (s : State) (i : StationId) : ∃ x : Station,
    (s.resumeStation i = s.setStation i x ∨
      ∃ w b, s.resumeStation i = (s.setStation i x).submit i w b) := by
  unfold State.resumeStation State.submitParked
  split
  · exact ⟨s.station i, .inl State.setStation_self.symm⟩
  split
  · exact ⟨s.station i, .inl State.setStation_self.symm⟩
  · exact ⟨_, .inr ⟨_, _, rfl⟩⟩

theorem State.foldl_resumeStation_leads (l : List StationId) (ascending : l.Pairwise (· < ·)) (s : State)
    (sorted : s.queue.Pairwise Request.Leads) (below : ∀ q ∈ s.queue, ∀ j ∈ l, q.station < j) :
    (l.foldl State.resumeStation s).queue.Pairwise Request.Leads := by
  induction l generalizing s with
  | nil => exact sorted
  | cons i l ih =>
    obtain ⟨first, ascending⟩ := List.pairwise_cons.mp ascending
    obtain ⟨x, stays | ⟨w, b, submits⟩⟩ := s.resumeStation_only i
    · refine ih ascending _ (by rw [stays]; exact sorted) fun q hq j hj => ?_
      rw [stays] at hq
      exact below q hq j (List.mem_cons_of_mem _ hj)
    · refine ih ascending _ ?_ fun q hq j hj => ?_
      · rw [submits]
        exact insertTail_leads sorted fun p hp => below p hp i List.mem_cons_self
      · rw [submits] at hq
        rcases mem_insertTail.mp hq with rfl | hq
        · exact first j hj
        · exact below q hq j (List.mem_cons_of_mem _ hj)

theorem State.foldl_resumeStation_stands (l : List StationId) (s : State) :
    (l.foldl State.resumeStation s).calls = s.calls ∧ (l.foldl State.resumeStation s).permitA = s.permitA ∧
      (l.foldl State.resumeStation s).permitB = s.permitB ∧ (l.foldl State.resumeStation s).alert = s.alert ∧
      (l.foldl State.resumeStation s).channels = s.channels ∧ (l.foldl State.resumeStation s).moorings = s.moorings := by
  induction l generalizing s with
  | nil => exact ⟨rfl, rfl, rfl, rfl, rfl, rfl⟩
  | cons i l ih =>
    obtain ⟨calls, permitA, permitB, alert, channels, moorings⟩ := ih (s.resumeStation i)
    obtain ⟨x, stays | ⟨w, b, submits⟩⟩ := s.resumeStation_only i
    · rw [stays] at calls permitA permitB alert channels moorings
      rw [List.foldl_cons, stays]
      exact ⟨calls, permitA, permitB, alert, channels, moorings⟩
    · rw [submits] at calls permitA permitB alert channels moorings
      rw [List.foldl_cons, submits]
      exact ⟨calls, permitA, permitB, alert, channels, moorings⟩

/-! ### RESUME-ALL -/

/-- A station in LOCAL, or one whose unit is still held by the stop, keeps its parked operation; another submits it. -/
theorem State.site_resumeStation (qs : (s.site i).qs = []) : (s.resumeStation i).site i =
    if (s.site i).x.state = .inLocal ∨ (s.site i).x.unit.isSome then s.site i
    else { s.site i with
      x := { (s.site i).x with parked := none }
      qs := ((s.site i).x.parked.map (fun p => (⟨i, p.work, p.retryUsed⟩ : Request))).toList } := by
  unfold State.resumeStation
  rw [State.station_eq_site]
  split
  · rfl
  · exact State.site_submitParked _ qs

theorem exec_resumeAll {len : Byte} (broadcast : Bool) (served : s.serves Command.resumeAll len) :
    exec (.resumeAll broadcast len) s = .next
      (if s.inputs.hold then (if broadcast then s else s.refuse Command.resumeAll .hold)
      else if broadcast then s.clearHold else s.clearHold.respond Command.resumeAll .ok []) := by
  refine congrArg Host.Outcome.next ?_
  cases broadcast with
  | true =>
    simp only [if_true]
    cases input : s.inputs.hold with
    | true => simp only [Bool.true_eq_false, and_false, if_false, if_true]
    | false =>
      simp only [Bool.false_eq_true, if_false, and_true]
      exact if_pos ⟨served.1, served.2.1⟩
  | false =>
    simp only [Bool.false_eq_true, if_false]
    rw [State.unicast_answered served, State.answered_check]
    rfl

/-- The end of an event that acts have led up to, answered or not. -/
theorem State.settle_respond_backdrop {before m : State} (h : m.backdrop = before.backdrop) (c : CommandSpec)
    (status : Status) (payload : List Byte) :
    ((State.settle s m).respond c status payload).backdrop = (before.respond c status payload).backdrop := by
  have e : ∀ r : State, (r.respond c status payload).backdrop =
      { r.backdrop with tx := some (responseFrame r.unitAddress c.code status payload) } := fun _ => rfl
  have backdrop := (State.settle_backdrop s m).trans h
  have address : (State.settle s m).unitAddress = before.unitAddress := (congrArg State.unitAddress backdrop :)
  rw [e, e, backdrop, address]

/-- Settles O49. -/
theorem resumingSubmitsTheParked : Obligations.ResumingSubmitsTheParked := by
  intro s broadcast len before h served form c
  have run := exec_resumeAll broadcast served
  refine ⟨fun asserted => ?_, fun input off => ?_, fun input hold => ?_⟩
  · exact run.trans (congrArg Host.Outcome.next (if_pos asserted))
  · have off' : s.clearHold = s := by
      unfold State.clearHold
      rw [if_neg (by rw [off]; decide)]
    rw [run, input, if_neg (by decide), off', form]
  · have cleared : s.clearHold = State.settle s (allStations.foldl State.resumeStation { s with hold := false }) :=
      if_pos hold
    have empty : s.queue = [] := (h.work.held hold).1
    obtain ⟨whole, backdrop, sites⟩ := h.hold_folded (fun s i => s.resumeStation_acts i) false
      (fun m i fit free => State.resumeStation_after fit free)
    obtain ⟨calls, permitA, permitB, alert, channels, moorings⟩ :=
      State.foldl_resumeStation_stands allStations { s with hold := false }
    have leads := State.foldl_resumeStation_leads allStations (by decide) { s with hold := false }
      (by rw [show State.queue { s with hold := false } = [] from empty]; exact .nil)
      (by rw [show State.queue { s with hold := false } = [] from empty]; exact nofun)
    generalize allStations.foldl State.resumeStation { s with hold := false } = m at *
    have site : ∀ i, (m.site i).c = s.channel i ∧ (m.site i).r = s.mooring i ∧
        (((s.station i).state = .inLocal ∨ (s.station i).unit.isSome = true) →
          (m.site i).x = s.station i ∧ (m.site i).qs = []) ∧
        (¬((s.station i).state = .inLocal ∨ (s.station i).unit.isSome = true) →
          (m.site i).x = { s.station i with parked := none } ∧
            (m.site i).qs = ((s.station i).parked.map (fun p => (⟨i, p.work, p.retryUsed⟩ : Request))).toList) := by
      intro i
      obtain ⟨m', start, done⟩ := sites i
      have qs : (m'.site i).qs = [] := (congrArg Site.qs start :).trans (by
        change List.filter _ s.queue = []
        rw [empty]; rfl)
      have resumed := State.site_resumeStation qs
      have c : (m'.site i).c = s.channel i := (congrArg Site.c start :)
      have r : (m'.site i).r = s.mooring i := (congrArg Site.r start :)
      rw [start.x] at resumed
      change _ = ite ((s.station i).state = .inLocal ∨ (s.station i).unit.isSome = true) _ _ at resumed
      have x : (m'.site i).x = s.station i := start.x
      split at resumed
      · next stays =>
        rw [resumed] at done
        exact ⟨(congrArg Site.c done :).trans c, (congrArg Site.r done :).trans r,
          fun _ => ⟨(congrArg Site.x done :).trans x, (congrArg Site.qs done :).trans qs⟩, fun k => absurd stays k⟩
      · next goes =>
        rw [resumed] at done
        exact ⟨(congrArg Site.c done :).trans c, (congrArg Site.r done :).trans r, fun k => absurd k goes,
          fun _ => ⟨(congrArg Site.x done :), (congrArg Site.qs done :)⟩⟩
    have like : ∀ i, (m.station i).state = (s.station i).state ∧ (m.station i).senClutch = (s.station i).senClutch :=
      fun i => by
        obtain ⟨-, -, stays, goes⟩ := site i
        by_cases k : (s.station i).state = .inLocal ∨ (s.station i).unit.isSome = true
        · rw [State.station_eq_site m, (stays k).1]; exact ⟨rfl, rfl⟩
        · rw [State.station_eq_site m, (goes k).1]; exact ⟨rfl, rfl⟩
    have kept : s.callsKept (State.settle s m) := by
      refine h.settle_callsKept whole calls permitA permitB (h.stay calls (fun j => ?_) fun need _ j => ?_)
      · exact State.holding_of_gear (like j).1 (like j).2 (congrArg Option.isSome (site j).2.1)
      · exact State.steadyFor_congr (like j).1 (site j).2.1 (congrArg Channel.steady (site j).1) need
    have sorted : (State.settle s m).queue.Pairwise Request.Leads := by
      obtain ⟨n, drops⟩ := m.grantAll_queue
      rw [State.settle_queue, drops]
      exact leads.drop
    have level := (State.settle_alert s m).trans alert
    have asks : ∀ i, (∀ p ∈ (s.station i).parked, (s.station i).state ≠ .inLocal → (s.station i).unit = none →
          (State.settle s m).asks i { s.station i with parked := none } ⟨i, p.work, p.retryUsed⟩) ∧
        ((s.station i).parked = none ∨ (s.station i).state = .inLocal ∨ (s.station i).unit.isSome = true →
          (State.settle s m).station i = s.station i ∧ (State.settle s m).requestOf i = none) := by
      intro i
      obtain ⟨-, -, stays, goes⟩ := site i
      refine ⟨fun p hp out free => ?_, fun keeps => ?_⟩
      · obtain ⟨x, qs⟩ := goes (by rw [free]; rintro (e | e); exacts [out e, Bool.noConfusion e])
        rw [show (s.station i).parked = some p from hp] at qs
        rw [← x]
        exact State.settle_asks s _ qs
      · by_cases k : (s.station i).state = .inLocal ∨ (s.station i).unit.isSome = true
        · rw [← (stays k).1]
          exact State.settle_rests s (stays k).2
        · have none := keeps.resolve_right k
          obtain ⟨x, qs⟩ := goes k
          rw [none] at qs
          have same : { s.station i with parked := Option.none } = s.station i := by rw [← none]
          rw [same] at x
          rw [← x]
          exact State.settle_rests s qs
    have channels' : (State.settle s m).channels = s.channels := (State.settle_channels s m).trans channels
    have moorings' : (State.settle s m).moorings = s.moorings := (State.settle_moorings s m).trans moorings
    rw [cleared, input] at run
    cases broadcast with
    | true =>
      have form : before = s := form
      have backdrop : (State.settle s m).backdrop = { before with hold := false }.backdrop := by
        rw [form]; exact (State.settle_backdrop s m).trans backdrop
      exact ⟨_, run, backdrop, level, kept, channels', moorings', sorted, asks⟩
    | false =>
      have form : before = s.respond Command.resumeAll .ok [] := form
      have backdrop : ((State.settle s m).respond Command.resumeAll .ok []).backdrop =
          { before with hold := false }.backdrop := by
        rw [form]; exact State.settle_respond_backdrop backdrop _ _ _
      exact ⟨_, run, backdrop, level, kept, channels', moorings', sorted, asks⟩

end Sys2Proof.Machine

end

