-- ==== Sys2Proof/Proofs/ReadingStages.lean ====
section

/-! PROOF. The stages of a reading as equations: the station record, the channel and the ALERT state that they leave (R77). -/

namespace Sys2Proof.Machine

variable {s t : State} {i : StationId}

/-! ### One raise after another (R23) -/

/-- A reason that ranks above another takes its place, whichever is raised first. -/
theorem Station.noticing_noticing (x : Station) {low high : Attention} (above : high.priority ≤ low.priority) :
    (x.noticing low).noticing high = x.noticing high := by
  unfold Station.noticing Attention.outranks
  by_cases l : low.priority < x.attention.priority
  · by_cases h : high.priority < low.priority
    · simp [l, h, h.trans l]
    · have same : high.priority = low.priority := by omega
      have equal : high = low := by
        revert same
        cases high <;> cases low <;> first | (intro; rfl) | (intro k; cases k)
      simp [equal, l]
  · simp [l]

/-- What a raise tells the ALERT state, a lower reason having been raised before it. -/
theorem Station.outranks_noticing_or (x : Station) {low high : Attention} (above : high.priority < low.priority) :
    (low.outranks x.attention || high.outranks (x.noticing low).attention) = high.outranks x.attention := by
  unfold Station.noticing Attention.outranks
  by_cases l : low.priority < x.attention.priority
  · simp [l, above, above.trans l]
  · simp [l]

/-! ### A station record, a channel and an ALERT state -/

/-- The state with another station record and channel at one station, and another ALERT state. -/
def State.read (s : State) (i : StationId) (x : Station) (c : Channel) (a : Bool) : State :=
  { (s.setStation i x).setChannel i c with alert := a }

namespace State

variable (x y : Station) (c d : Channel) (a b : Bool)

theorem read_station : (s.read i x c a).station i = x := State.station_setStation_self s i x

theorem read_channel : (s.read i x c a).channel i = c := State.channel_setChannel_self (s.setStation i x) i c

theorem read_self : s.read i (s.station i) c s.alert = s.setChannel i c := by
  unfold State.read
  rw [State.setStation_self]
  rfl

theorem read_setStation : (s.read i x c a).setStation i y = s.read i y c a := by
  change { ((s.setStation i x).setStation i y).setChannel i c with alert := a } = _
  rw [State.setStation_setStation]
  rfl

theorem read_setChannel : (s.read i x c a).setChannel i d = s.read i x d a := by
  change { ((s.setStation i x).setChannel i c).setChannel i d with alert := a } = _
  rw [State.setChannel_setChannel]
  rfl

theorem read_onChannel (f : Channel → Channel) : (s.read i x c a).onChannel i f = s.read i x (f c) a := by
  rw [State.onChannel_eq, State.read_channel, State.read_setChannel]

theorem site_read (unit : x.unit = (s.station i).unit) :
    (s.read i x c a).site i = { s.site i with x := x, c := c, alert := a } := by
  change { ((s.setStation i x).onChannel i fun _ => c).site i with alert := a } = _
  rw [State.site_onChannel, State.site_setStation _ _ unit]

theorem read_raise (reason : Attention) : (s.read i x c a).raise i reason = s.read i (x.noticing reason) c
    (a || (reason.outranks x.attention && s.inForce.alertMode != .criticalOnly)) := by
  rw [State.raise_eq, State.read_setStation, State.read_station]
  unfold State.alertAfter
  rw [State.read_station]
  rfl

theorem read_setCritCondition (unit : x.unit = (s.station i).unit) (level : Bool) :
    (s.read i x c a).setCritCondition i level = s.read i x { c with critCondition := level }
      (if c.critCondition = level ∨ s.inForce.alertMode ≠ .criticalOnly then a
      else level || (s.site i).othersCritical) := by
  unfold State.setCritCondition
  rw [State.read_channel]
  by_cases same : c.critCondition = level
  · rw [if_pos same, if_pos (.inl same), ← same]
  · have formed : (s.read i x { c with critCondition := level } a).criticalLevel = (level || (s.site i).othersCritical) := by
      rw [State.criticalLevel_eq_site _ i, State.site_read _ _ _ unit]
    rw [if_neg same, State.read_onChannel]
    unfold State.reformCritical
    change (match s.inForce.alertMode with | .criticalOnly => _ | .latched | .follow => _) = _
    cases mode : s.inForce.alertMode with
    | criticalOnly =>
      rw [if_neg fun k => k.elim same (fun k => k rfl), ← formed]
      rfl
    | latched | follow => rw [if_pos (.inr nofun)]

end State

/-! ### The stages (R77) -/

/-- The channel after the critical test of a reading (R78, R79). -/
def Channel.judged (c : Channel) (r : Mooring) (v : Nat) : Channel :=
  { c with
    critCount := if r.isCritical v then min 2 (c.critCount + 1) else 0
    critCondition := r.critAfter c.critCondition v }

/-- The channel after the window stage (R81 to R83). -/
def Channel.joined (c : Channel) (r : Mooring) (state : LineState) (v : Nat) : Channel :=
  if state = .fast ∧ r.stale = false then c.windowed r v else c

/-- The channel after the steady stage (R39, R86). -/
def Channel.steadied (c : Channel) (r : Mooring) (state : LineState) (v : Nat) : Channel :=
  if state = .fast ∨ state = .trimming then
    { c with steady := if r.stale then 0 else if r.inBand v then min Config.steadyMax (c.steady + 1) else 0 }
  else c

/-- A reading sets SURGING (R83). -/
def Channel.surges (c : Channel) (r : Mooring) (state : LineState) (v : Nat) : Bool :=
  decide (state = .fast ∧ r.stale = false ∧ (c.windowed r v).isSurging = true ∧ c.isSurging = false)

abbrev State.stages (s : State) (i : StationId) (v : Nat) : State :=
  ((s.criticalStage i v).windowStage i v).steadyStage i v

/-- The ALERT state that the critical level of a station calls for (R178). -/
def State.alertOn (s : State) (i : StationId) (level : Bool) : Bool :=
  if s.inForce.alertMode = .criticalOnly then level || (s.site i).othersCritical else s.alert

theorem State.AlertFits.alertOn (h : s.AlertFits) : s.alert = s.alertOn i (s.channel i).critCondition := by
  unfold State.alertOn
  split
  · next only => rw [h.critical only, State.criticalLevel_eq_site s i]; rfl
  · rfl

theorem State.criticalStage_read (h : s.AlertFits) {r : Mooring} (record : s.mooring i = some r) {c : Channel}
    (same : c.critCondition = (s.channel i).critCondition) (v : Nat) :
    (s.setChannel i c).criticalStage i v =
      s.read i (s.station i) (c.judged r v) (s.alertOn i (r.critAfter c.critCondition v)) := by
  unfold State.criticalStage
  rw [State.setChannel_mooring, record]
  dsimp only
  rw [← State.read_self, State.read_onChannel, State.read_setCritCondition _ _ _ rfl, State.read_channel]
  have alert : (if c.critCondition = r.critAfter c.critCondition v ∨ s.inForce.alertMode ≠ .criticalOnly then s.alert
      else r.critAfter c.critCondition v || (s.site i).othersCritical) = s.alertOn i (r.critAfter c.critCondition v) := by
    by_cases only : s.inForce.alertMode = .criticalOnly
    · by_cases still : c.critCondition = r.critAfter c.critCondition v
      · rw [if_pos (.inl still), ← still, same]; exact h.alertOn
      · rw [if_neg (by simp [still, only]), State.alertOn, if_pos only]
    · rw [if_pos (.inr only), State.alertOn, if_neg only]
  dsimp only
  rw [alert]
  rfl

theorem State.windowStage_read {r : Mooring} (record : s.mooring i = some r) (x : Station) (c : Channel) (a : Bool)
    (v : Nat) : (s.read i x c a).windowStage i v =
      s.read i (if c.surges r x.state v then x.noticing .surging else x) (c.joined r x.state v)
        (a || (c.surges r x.state v &&
          (Attention.surging.outranks x.attention && s.inForce.alertMode != .criticalOnly))) := by
  unfold State.windowStage
  rw [show (s.read i x c a).mooring i = some r from record]
  dsimp only
  rw [State.read_station, State.read_channel, State.read_onChannel, State.read_channel, State.read_raise]
  unfold Channel.joined
  by_cases fast : x.state = .fast ∧ r.stale = false
  · rw [if_pos fast, if_pos fast]
    by_cases sets : (c.windowed r v).isSurging = true ∧ c.isSurging = false
    · have surges : c.surges r x.state v = true := decide_eq_true ⟨fast.1, fast.2, sets⟩
      rw [if_pos sets, surges, if_pos rfl, Bool.true_and]
    · have none : c.surges r x.state v = false := decide_eq_false fun k => sets k.2.2
      rw [if_neg sets, none, if_neg (by decide), Bool.false_and, Bool.or_false]
  · have none : c.surges r x.state v = false := decide_eq_false fun k => fast ⟨k.1, k.2.1⟩
    rw [if_neg fast, if_neg fast, none, if_neg (by decide), Bool.false_and, Bool.or_false]

theorem State.steadyStage_read {r : Mooring} (record : s.mooring i = some r) (x : Station) (c : Channel) (a : Bool)
    (v : Nat) : (s.read i x c a).steadyStage i v = s.read i x (c.steadied r x.state v) a := by
  unfold State.steadyStage Channel.steadied
  rw [show (s.read i x c a).mooring i = some r from record]
  dsimp only
  rw [State.read_station]
  split
  · exact State.read_onChannel _ _ _ _
  · rfl

theorem State.stages_read (h : s.AlertFits) {r : Mooring} (record : s.mooring i = some r) {c : Channel}
    (same : c.critCondition = (s.channel i).critCondition) (v : Nat) :
    let x := s.station i
    let d := c.judged r v
    (s.setChannel i c).stages i v =
      s.read i (if d.surges r x.state v then x.noticing .surging else x)
        ((d.joined r x.state v).steadied r x.state v)
        (s.alertOn i (r.critAfter c.critCondition v) ||
          (d.surges r x.state v && (Attention.surging.outranks x.attention && s.inForce.alertMode != .criticalOnly))) := by
  intro x d
  have state : (if d.surges r x.state v then x.noticing .surging else x).state = x.state := by split <;> rfl
  rw [State.stages, State.criticalStage_read h record same, State.windowStage_read record, State.steadyStage_read record]
  congr 2

theorem State.stages_of_none (record : s.mooring i = none) (v : Nat) : s.stages i v = s := by
  unfold State.stages
  have critical : s.criticalStage i v = s := by unfold State.criticalStage; rw [record]
  have window : s.windowStage i v = s := by unfold State.windowStage; rw [record]
  have steady : s.steadyStage i v = s := by unfold State.steadyStage; rw [record]
  rw [critical, window, steady]

/-! ### The reading that a sample forms (R74, R76) -/

/-- The channel once the D-th sample has formed a reading. -/
def Channel.formed (c : Channel) (v : Nat) : Channel :=
  { c with
    rail := 0
    valid := min 8 (c.valid + 1)
    sum := 0
    count := 0
    latest := some v
    readingSinceRecord := true }

/-- The reading that a valid sample forms. -/
def State.formedReading (s : State) (i : StationId) (raw : Nat) : Nat :=
  ((s.channel i).sum + (s.calibration i).calibrate raw + (s.calibration i).decimation / 2) / (s.calibration i).decimation

theorem State.validSample_forming {raw : Nat} (last : (s.channel i).count + 1 = (s.calibration i).decimation) :
    s.validSample i raw =
      ((s.setChannel i ((s.channel i).formed (s.formedReading i raw))).stages i (s.formedReading i raw)).controllerReading i
        (s.formedReading i raw) := by
  unfold State.validSample
  dsimp only
  rw [State.onChannel_eq, State.channel_setChannel_self]
  dsimp only
  rw [if_pos last.ge]
  unfold State.readingFormed
  rw [State.onChannel_eq, State.channel_setChannel_self, State.setChannel_setChannel]
  rfl

theorem exec_forming {raw : BitVec 16} (running : s.phase = .running) (low : raw ≠ 0) (high : raw ≠ 0xFFFF) :
    exec (.loadSampleArrival i raw) s = .next (State.settle s (s.validSample i raw.toNat)) := by
  refine congrArg Host.Outcome.next ((if_pos running).trans ?_)
  rw [if_neg (mt (isRail_iff raw).1 fun k => k.elim low high)]

/-- What a load sample leaves at the end of its event. -/
theorem State.Inv.sample_ends (h : s.Inv) (running : s.phase = .running) (raw : Nat) :
    State.Ends i s (s.validSample i raw) (State.settle s (s.validSample i raw)) :=
  (s.validSample_acts i raw).ends h running (State.validSample_after (h.fit i) (h.held i) raw)

end Sys2Proof.Machine

end

