-- ==== Sys2Proof/Proofs/AutoRelease.lean ====
section

/-! PROOF. Critical readings: what they find, and the auto-release (RepeatedCriticalReadingsReleaseTheLine). -/

namespace Sys2Proof.Machine

variable {s t : State} {i : StationId}

/-! ### What a critical reading finds -/

/-- The channel after the stages of a critical reading (R78, R79, R86). -/
structure Channel.Found (old : Channel) (v : Nat) (c : Channel) : Prop where
  condition : c.critCondition = true
  count : c.critCount = min 2 (old.critCount + 1)
  latest : c.latest = some v
  steady : c.steady = 0

theorem Channel.joined_kept (c : Channel) (r : Mooring) (state : LineState) (v : Nat) :
    (c.joined r state v).critCondition = c.critCondition ∧ (c.joined r state v).critCount = c.critCount ∧
      (c.joined r state v).latest = c.latest ∧ (c.joined r state v).steady = c.steady := by
  unfold Channel.joined
  split <;> exact ⟨rfl, rfl, rfl, rfl⟩

theorem Channel.steadied_kept (c : Channel) (r : Mooring) (state : LineState) (v : Nat) :
    (c.steadied r state v).critCondition = c.critCondition ∧ (c.steadied r state v).critCount = c.critCount ∧
      (c.steadied r state v).latest = c.latest := by
  unfold Channel.steadied
  split <;> exact ⟨rfl, rfl, rfl⟩

theorem Channel.Watched.found {c : Channel} {state : LineState} {record : Option Mooring} {d : Nat}
    (h : c.Watched state record d) {r : Mooring} {v : Nat} (critical : r.criticalLimit ≤ v) :
    c.Found v ((((c.formed v).judged r v).joined r state v).steadied r state v) := by
  obtain ⟨condition, count, latest, steady⟩ := ((c.formed v).judged r v).joined_kept r state v
  obtain ⟨condition', count', latest'⟩ := (((c.formed v).judged r v).joined r state v).steadied_kept r state v
  have isCritical : r.isCritical v = true := decide_eq_true critical
  refine ⟨?_, ?_, latest'.trans latest, ?_⟩
  · rw [condition', condition]
    exact if_pos critical
  · rw [count', count]
    exact if_pos isCritical
  · have out : r.inBand v = false := decide_eq_false fun k => absurd k.2 (not_lt.2 critical)
    unfold Channel.steadied
    split
    · rw [out]; simp
    · next band => rw [steady]; exact (h.out_of_band (not_or.1 band)).1

/-- The ALERT state after a critical reading (R177, R178). -/
def State.alertCritical (s : State) (i : StationId) (reason : Attention) : Bool :=
  if s.inForce.alertMode = .criticalOnly then true else s.alertAfter i reason

/-- R106: an auto-release is due. -/
abbrev State.releaseDue (s : State) (i : StationId) (r : Mooring) : Prop :=
  (s.station i).state.moored = true ∧ 1 ≤ (s.channel i).critCount ∧ r.autoRelease = true ∧ s.quarterLocked i = false

theorem State.autoReleaseDue_read {r : Mooring} (record : s.mooring i = some r) {x : Station}
    (state : x.state = (s.station i).state) {c : Channel} (count : c.critCount = min 2 ((s.channel i).critCount + 1))
    (a : Bool) : (s.read i x c a).autoReleaseDue i = true ↔ s.releaseDue i r := by
  have two : (min 2 ((s.channel i).critCount + 1) == 2) = decide (1 ≤ (s.channel i).critCount) := by
    rw [Bool.eq_iff_iff, beq_iff_eq, decide_eq_true_iff]
    omega
  unfold State.autoReleaseDue
  rw [State.read_station, State.read_channel, show (s.read i x c a).mooring i = some r from record,
    show (s.read i x c a).quarterLocked i = s.quarterLocked i from rfl, state, count, two]
  simp only [Option.any_some, Bool.and_eq_true, decide_eq_true_iff, Bool.not_eq_true', and_assoc]

/-- Beside the channel a critical reading raises CRITICAL; SURGING raised before it leaves no trace. -/
theorem State.Inv.stages_critical (h : s.Inv) {r : Mooring} (record : s.mooring i = some r) {v : Nat}
    (critical : r.criticalLimit ≤ v) : ∃ c, (s.channel i).Found v c ∧
      ((s.setChannel i ((s.channel i).formed v)).stages i v).raise i .critical =
        s.read i ((s.station i).noticing .critical) c (s.alertCritical i .critical) ∧
      (((s.setChannel i ((s.channel i).formed v)).stages i v).autoReleaseDue i = true ↔ s.releaseDue i r) := by
  have found : (s.channel i).Found v (((((s.channel i).formed v).judged r v).joined r (s.station i).state v).steadied r
      (s.station i).state v) := (h.fit i).watched.found critical
  have level : r.critAfter ((s.channel i).formed v).critCondition v = true := if_pos critical
  rw [State.stages_read h.alertFits record (c := (s.channel i).formed v) rfl, level]
  refine ⟨_, found, ?_, State.autoReleaseDue_read record (by split <;> rfl) found.count _⟩
  rw [State.read_raise]
  generalize (((s.channel i).formed v).judged r v).surges r (s.station i).state v = surges
  have station : (if surges then (s.station i).noticing .surging else s.station i).noticing
      .critical = (s.station i).noticing .critical := by
    split
    · exact Station.noticing_noticing _ (by decide)
    · rfl
  have alert : (s.alertOn i true || (surges && (Attention.surging.outranks (s.station i).attention &&
      s.inForce.alertMode != .criticalOnly)) || (Attention.critical.outranks (if surges then
        (s.station i).noticing .surging else s.station i).attention && s.inForce.alertMode != .criticalOnly)) =
      s.alertCritical i .critical := by
    unfold State.alertOn State.alertCritical State.alertAfter
    by_cases only : s.inForce.alertMode = .criticalOnly
    · simp [only]
    · have above := Station.outranks_noticing_or (s.station i) (low := .surging) (high := .critical) (by decide)
      have off : (s.inForce.alertMode != .criticalOnly) = true := bne_iff_ne.2 only
      rw [if_neg only, if_neg only, off]
      cases surges with
      | true => simp only [Bool.and_true, Bool.true_and, if_true, Bool.or_assoc, above]
      | false => simp
  rw [station, alert]

/-! ### The station controller's part -/

theorem Site.Fit.formedReading_le (h : (s.site i).Fit) (raw : Nat)
    (last : (s.channel i).count + 1 = (s.calibration i).decimation) : s.formedReading i raw ≤ Config.readingMax := by
  obtain ⟨sum, -⟩ := h.watched.inRange
  have sample : (s.calibration i).calibrate raw ≤ Config.readingMax := Calibration.calibrate_le_readingMax _ _
  refine Calibration.reading_le (c := s.calibration i) ?_ (by omega)
  rw [← last, Nat.mul_add, Nat.mul_one]
  exact Nat.add_le_add sum sample

/-- The stages of a reading are acts at the station that leave its work as it was. -/
theorem State.Inv.stages_fit (h : s.Inv) {raw : Nat} (last : (s.channel i).count + 1 = (s.calibration i).decimation) :
    let v := s.formedReading i raw
    let m := (s.setChannel i ((s.channel i).formed v)).stages i v
    State.Acts i s m ∧ (m.site i).Fit ∧ (s.site i).SameWork (m.site i) := by
  intro v m
  have top := (h.fit i).formedReading_le raw last
  have first : State.Acts i s (s.setChannel i ((s.channel i).formed v)) := .single (.channel s _ rfl)
  have stages : State.Acts i (s.setChannel i ((s.channel i).formed v)) m :=
    ((State.criticalStage_acts _ i v).trans (State.windowStage_acts _ i v)).trans (State.steadyStage_acts _ i v)
  have site : (s.setChannel i ((s.channel i).formed v)).site i = { s.site i with c := (s.channel i).formed v } :=
    State.site_onChannel s fun _ => (s.channel i).formed v
  have same : (s.site i).SameWork ((s.setChannel i ((s.channel i).formed v)).site i) := by
    rw [site]; exact ⟨rfl, rfl, rfl, rfl, rfl, rfl, rfl⟩
  have fit₀ := same.fit (h.fit i) (by
    rw [site]
    exact (h.fit i).watched.counters true (Nat.zero_le _) (by rw [← State.calibration_eq_site]; omega) (Nat.zero_le _)
      (Nat.min_le_left _ _) fun w hw => by cases hw; exact top)
  obtain ⟨same₁, fit₁⟩ := State.criticalStage_fit fit₀ v
  obtain ⟨same₂, fit₂⟩ := State.windowStage_fit fit₁ top
  obtain ⟨same₃, fit₃⟩ := State.steadyStage_fit fit₂ v
  exact ⟨first.trans stages, fit₃, ((same.trans same₁).trans same₂).trans same₃⟩

/-- A critical reading that a sample forms: what it finds, then the auto-release or the station's own part. -/
theorem State.Inv.validSample_critical (h : s.Inv) {r : Mooring} (record : s.mooring i = some r) {raw : Nat}
    (last : (s.channel i).count + 1 = (s.calibration i).decimation) (critical : r.criticalLimit ≤ s.formedReading i raw) :
    ∃ c m, (s.channel i).Found (s.formedReading i raw) c ∧ State.Acts i s m ∧ (m.site i).Fit ∧
      m = s.read i ((s.station i).noticing .critical) c (s.alertCritical i .critical) ∧
      (s.releaseDue i r → s.validSample i raw = (m.releaseSequence i .critical).raise i .autoReleased) ∧
      (¬ s.releaseDue i r → s.validSample i raw = m.readingByState i (s.formedReading i raw) true) := by
  obtain ⟨c, found, read, due⟩ := h.stages_critical record critical
  obtain ⟨acts, fit, same⟩ := h.stages_fit (raw := raw) last
  have isCritical : State.isCriticalAt ((s.setChannel i ((s.channel i).formed (s.formedReading i raw))).stages i
      (s.formedReading i raw)) i (s.formedReading i raw) = true := by
    unfold State.isCriticalAt
    rw [State.mooring_eq_site, same.r, ← State.mooring_eq_site, record]
    exact decide_eq_true critical
  refine ⟨c, _, found, acts.trans (State.raise_acts _ i .critical), State.raise_fit fit .critical, read, fun k => ?_,
    fun k => ?_⟩ <;> rw [State.validSample_forming last, State.controllerReading, if_pos isCritical]
  · rw [if_pos (due.2 k)]
  · rw [if_neg (mt due.1 k)]

/-! ### The auto-release (R106) -/

theorem State.alertCritical_then (reason : Attention) (above : reason.priority < Attention.critical.priority) :
    (s.alertCritical i .critical || (reason.outranks ((s.station i).noticing .critical).attention &&
      s.inForce.alertMode != .criticalOnly)) = s.alertCritical i reason := by
  have raised := Station.outranks_noticing_or (s.station i) (low := .critical) (high := reason) above
  unfold State.alertCritical State.alertAfter
  by_cases only : s.inForce.alertMode = .criticalOnly
  · simp [only]
  · rw [if_neg only, if_neg only, bne_iff_ne.2 only]
    simp only [Bool.and_true, Bool.or_assoc, raised]

theorem Channel.Found.leftBand {old c : Channel} {v : Nat} (h : old.Found v c) : c.leftBand.critCount = min 2 (old.critCount + 1) ∧
    c.leftBand.critCondition = true ∧ c.leftBand.window = [] ∧ c.leftBand.steady = 0 :=
  ⟨h.count, h.condition, rfl, rfl⟩

/-- Settles O40. -/
theorem repeatedCriticalReadingsReleaseTheLine : Obligations.RepeatedCriticalReadingsReleaseTheLine := by
  intro s i raw h running low high last r record x c cal v critical moored repeated field unlocked
  obtain ⟨found, m, finds, acts, fit, form, releases, -⟩ := h.validSample_critical (raw := raw.toNat) record last critical
  have eq := releases ⟨moored, repeated, field, unlocked⟩
  have ends := h.sample_ends (i := i) running raw.toNat
  have answer := exec_forming (i := i) running low high
  have start : m.site i = { s.site i with
      x := x.noticing .critical, c := found, alert := s.alertCritical i .critical } := by
    rw [form]; exact State.site_read _ _ _ rfl
  have site := State.site_raise (m.releaseSequence i .critical) (i := i) .autoReleased
  rw [State.site_releaseSequence, start, ← eq] at site
  obtain ⟨station, request⟩ := ends.rests (by rw [site])
  have station := station.trans (congrArg Site.x site)
  have channel := ends.channel.trans (congrArg Site.c site)
  have mooring := ends.mooring.trans (congrArg Site.r site)
  have alert := ends.alert.trans (congrArg Site.alert site)
  have freed : ∀ u ∈ x.unit, s.freed (State.settle s (s.validSample i raw.toNat)) u := fun u hu => by
    refine ends.freed ?_
    have held : (m.station i).unit = some u := (congrArg (fun k : Site => k.x.unit) start :).trans hu
    have same : (m.unit u) = s.unit u := by rw [form]; rfl
    have released := State.releaseSequence_freed (acts.sound h.whole.sound) held .critical
    rw [eq, State.raise_eq, ← same]
    exact released
  have calls : s.sameCalls (State.settle s (s.validSample i raw.toNat)) := ends.sameCalls (by
    rw [eq, State.raise_calls, State.releaseSequence_calls, form]; rfl)
  obtain ⟨count, condition, window, steady⟩ := finds.leftBand
  have two : min 2 (c.critCount + 1) = 2 := by omega
  refine ⟨_, answer, station.trans ?_, by rw [channel]; exact count.trans two, by rw [channel]; exact condition,
    by rw [channel]; exact window, by rw [channel]; exact steady, mooring, request, freed, calls, ends.permits,
    alert.trans (State.alertCritical_then .autoReleased (by decide)), ends.onlyAt⟩
  have higher := x.noticing_noticing (low := .critical) (high := .autoReleased) (by decide)
  rw [show x.idled.noticing .autoReleased = (x.noticing .autoReleased).idled from rfl, ← higher]
  rfl

end Sys2Proof.Machine

end

