-- ==== Sys2Proof/Proofs/FailedOperations.lean ====
section

/-! PROOF. Operations that fail, and units that fail at a grant (FailedGrantsAreRequeued). -/

namespace Sys2Proof.Machine

variable {s t : State} {i : StationId} {u : UnitId} {a : ActiveOp}

/-! ### A commanded operation that fails (R120) -/

theorem State.commandedFailure_abandons (retried : a.retryUsed = true) : s.commandedFailure i a =
    ((s.dropActive i).enter i (s.station i).state.abandoned).raise i .driveFault := by
  unfold State.commandedFailure
  rw [if_pos retried, State.dropActive, State.station_onStation_self]

theorem State.commandedFailure_parks (first : a.retryUsed = false) (hold : s.hold = true) : s.commandedFailure i a =
    (s.dropActive i).park i a.remainingWork true := by
  unfold State.commandedFailure
  rw [if_neg (by rw [first]; decide)]
  exact if_pos hold

theorem State.commandedFailure_requeues (first : a.retryUsed = false) (hold : s.hold = false) : s.commandedFailure i a =
    (s.dropActive i).requeue i a.remainingWork true := by
  unfold State.commandedFailure
  rw [if_neg (by rw [first]; decide)]
  exact if_neg (by rw [show (s.dropActive i).hold = s.hold from rfl, hold]; decide)

theorem State.enter_drive {state : LineState} : (s.enter i state).queue = s.queue ∧ (s.enter i state).units = s.units := by
  unfold State.enter
  dsimp only
  (repeat' split) <;> exact ⟨rfl, rfl⟩

theorem State.releaseUnit_queue : (s.releaseUnit i).queue = s.queue := by
  unfold State.releaseUnit
  split <;> rfl

theorem LineState.abandoned_ends {state : LineState} (work : state.holdsUnit = true) (trimming : state ≠ .trimming) :
    state.abandoned ≠ .trimming ∧ state ≠ .fast := by
  cases state <;> first | (cases work; done) | exact absurd rfl trimming | exact ⟨nofun, nofun⟩

/-! ### A unit that fails at its grant (R117 to R120) -/

/-- What a unit that fails at its grant leaves of its station's site before the operation is dealt with. -/
theorem State.site_failing (unit : (s.station i).unit = some u) : ((s.faultUnit u).releaseUnit i).site i = { s.site i with
    x := { s.station i with unit := none }
    v := none
    alert := s.alert || s.inForce.alertMode != .criticalOnly } := by
  rw [State.site_releaseUnit, State.site_faultUnit _ unit]
  rfl

theorem State.failGranted_eq (served : (s.unit u).served = some i) : s.failGranted u =
    ((s.faultUnit u).releaseUnit i).failWaiting i := by
  unfold State.failGranted
  rw [served]

theorem State.failing_queue : ((s.faultUnit u).releaseUnit i).queue = s.queue := by
  rw [State.releaseUnit_queue, State.faultUnit_only]

theorem State.faultUnit_unit_self : ((s.faultUnit u).unit u).state = .faulted := by
  rw [State.faultUnit_eq]
  exact congrArg DriveUnit.state (State.unit_setUnit_self s u _)

/-- The unit is FAULTED and unserved through whatever the station does with the operation (R115, R117). -/
theorem State.failGranted_unit (h : s.Sound) (served : (s.unit u).served = some i) (unit : (s.station i).unit = some u) :
    (s.failGranted u).unit u = .unserved .faulted := by
  have start : State.Acts i s (s.faultUnit u) := .single (.faultUnit s u served)
  have held : ((s.faultUnit u).station i).unit = some u := by rw [State.faultUnit_only]; exact unit
  have faulted := State.faultUnit_unit_self (s := s) (u := u)
  have released := (State.failWaiting_acts ((s.faultUnit u).releaseUnit i) i).released (s := s.faultUnit u)
    (start.sound h) held Iff.rfl
  rw [State.failGranted_eq served, released, if_pos faulted]

/-- What a failing TRIM goes back to: the head of its class, its station in the resting state (R119). -/
theorem State.failWaiting_trim (active : (s.station i).active = some a) (trim : a.work.isTrim = true)
    (hold : s.hold = false) : s.failWaiting i =
      ((s.dropActive i).enter i (s.restingOf i)).requeue i a.work a.retryUsed := by
  have still : ((s.dropActive i).enter i (s.restingOf i)).hold = s.hold :=
    (congrArg State.hold (State.enter_acts (s.dropActive i) i _).local.backdrop :)
  unfold State.failWaiting
  rw [active]
  dsimp only
  have resting : (s.dropActive i).restingOf i = s.restingOf i := by
    unfold State.restingOf State.dropActive; rw [State.station_onStation_self]
  rw [if_pos trim]
  exact if_neg (by rw [still, hold]; decide)

theorem State.failWaiting_commanded (active : (s.station i).active = some a) (trim : a.work.isTrim = false) :
    s.failWaiting i = s.commandedFailure i a := by
  unfold State.failWaiting
  rw [active]
  exact if_neg (by rw [trim]; decide)

/-- The event of a unit that fails at its grant. -/
theorem State.Inv.failGranted_ends (h : s.Inv) (running : s.phase = .running) (granted : (s.unit u).state = .granted)
    (served : (s.unit u).served = some i) (unit : (s.station i).unit = some u) (active : (s.station i).active = some a)
    (phase : a.phase = .granted) : State.Ends i s (s.failGranted u) (State.settle s (s.failGranted u)) :=
  (State.failGranted_acts s i served).ends h running (State.failGranted_after (h.fit i) served unit active phase)

/-- What the event leaves of the unit, the station and the operation. -/
theorem State.Inv.failed_grant (h : s.Inv) (running : s.phase = .running) (granted : (s.unit u).state = .granted)
    (served : (s.unit u).served = some i) (active : (s.station i).active = some a) :
    let x := s.station i
    let z := { x with unit := none, active := none }
    let t := State.settle s (s.failGranted u)
    t.unit u = .unserved .faulted ∧ s.OnlyAt t i ∧ t.mooring i = s.mooring i ∧ s.sameCalls t ∧ t.permitsOk ∧
      t.alert = (s.alert || s.inForce.alertMode != .criticalOnly) ∧
      (a.work.isTrim = true → ∀ state ∈ x.resting,
        s.requeues t i (z.entered state) ⟨i, a.work, a.retryUsed⟩ ∧
        t.channel i = (s.channel i).entering state) ∧
      (a.work.isTrim = false → a.retryUsed = false →
        s.requeues t i z ⟨i, a.work, true⟩ ∧ t.channel i = s.channel i) ∧
      (a.work.isTrim = false → a.retryUsed = true →
        t.station i = (z.entered x.state.abandoned).noticing .driveFault ∧
        t.channel i = (s.channel i).entering x.state.abandoned) := by
  intro x z t
  have linked : (s.station i).unit = some u := (h.whole.sound.linked i u).2 served
  have phase : a.phase = .granted := by
    obtain ⟨b, hb, phase⟩ := h.granted_active granted linked
    rw [active] at hb; cases hb; exact phase
  have hold : s.hold = false := (h.held i).free_of_granted active phase
  have ends := h.failGranted_ends running granted served linked active phase
  have qs := h.noRequest active
  have ending := (h.fit i).ending_of_granted (w := a.work) (b := a.retryUsed) (by rw [← phase]; exact active)
  have holds := LineState.ne_fast_of_holdsUnit ending.holds
  have eq := State.failGranted_eq served
  have start := State.site_failing linked
  have queue : ((s.faultUnit u).releaseUnit i).queue = s.queue := State.failing_queue
  have calls : ((s.faultUnit u).releaseUnit i).calls = s.calls := by rw [State.releaseUnit_calls, State.faultUnit_calls]
  have faulted : t.unit u = .unserved .faulted := by
    have unit := State.failGranted_unit h.whole.sound served linked
    rcases ends.unit u with same | ⟨idle, -⟩
    · exact same.trans unit
    · rw [unit] at idle; cases idle
  generalize (s.faultUnit u).releaseUnit i = m at eq start queue calls
  have free : m.hold = false := (congrArg Site.hold start :).trans hold
  have station : m.station i = { x with unit := none } := (congrArg Site.x start :)
  have act : (m.station i).active = some a := by rw [station]; exact active
  have dropped : (m.dropActive i).site i = { s.site i with
      x := z, v := none, alert := s.alert || s.inForce.alertMode != .criticalOnly } := by
    rw [State.site_dropActive, start]
  have empty : (m.site i).qs = [] := by rw [start]; exact qs
  have others : s.queue.filter (fun q => q.station != i) = s.queue := State.others_eq_queue qs
  have entered : ∀ state, state ≠ .trimming → ((m.dropActive i).enter i state).site i = { s.site i with
      x := z.entered state, c := (s.channel i).entering state, v := none
      alert := s.alert || s.inForce.alertMode != .criticalOnly } := fun state trimming => by
    rw [State.site_enter_of trimming (by rw [dropped]; exact holds), dropped]
    rfl
  have ended : ∀ (y : Station) (d : Channel) (l : List Request), (s.failGranted u).site i = { s.site i with
      x := y, c := d, v := none, qs := l, alert := s.alert || s.inForce.alertMode != .criticalOnly } →
      t.mooring i = s.mooring i ∧ t.alert = (s.alert || s.inForce.alertMode != .criticalOnly) ∧ t.channel i = d :=
    fun y d l site => ⟨ends.mooring.trans (congrArg Site.r site), ends.alert.trans (congrArg Site.alert site),
      ends.channel.trans (congrArg Site.c site)⟩
  have asks : ∀ (y : Station) (d : Channel) (w : Work) (b : Bool), (s.failGranted u).site i = { s.site i with
      x := y, c := d, v := none, qs := [⟨i, w, b⟩], alert := s.alert || s.inForce.alertMode != .criticalOnly } →
      (s.failGranted u).queue = insertHead ⟨i, w, b⟩ s.queue → s.requeues t i y ⟨i, w, b⟩ := fun y d w b site queued => by
    have placed := ends.queues (place := insertHead) (q := ⟨i, w, b⟩) (by rw [site]) (by rw [others]; exact queued)
    rw [site] at placed
    exact placed
  by_cases trim : a.work.isTrim = true
  · have form := eq.trans (State.failWaiting_trim act trim free)
    have ends_in := ending.restingOf (((Work.activeIn_cases (ending.active a active).1).2).1 trim)
    have trimming : x.resting.getD .fast ≠ .trimming := (LineState.endsIn_cases ends_in).2.2.1
    have rest : m.restingOf i = x.resting.getD .fast := (congrArg (fun y : Station => y.resting.getD .fast) station :)
    have site := State.site_requeue ((m.dropActive i).enter i (m.restingOf i)) (i := i) a.work a.retryUsed (by
      rw [rest, entered _ trimming]; exact qs)
    rw [← form, rest, entered _ trimming] at site
    obtain ⟨mooring, alert, channel⟩ := ended _ _ _ site
    have queued : (s.failGranted u).queue = insertHead ⟨i, a.work, a.retryUsed⟩ s.queue := by
      rw [form, State.requeue, State.enter_drive.1, ← queue]; rfl
    have same := ends.sameCalls (by rw [form]; simpa using calls)
    refine ⟨faulted, ends.onlyAt, mooring, same, ends.permits, alert, fun _ state resting => ?_,
      fun k => absurd trim (by rw [k]; decide), fun k => absurd trim (by rw [k]; decide)⟩
    have rests : x.resting.getD .fast = state := by rw [show x.resting = some state from resting]; rfl
    rw [← rests]
    exact ⟨asks _ _ _ _ site queued, channel⟩
  have trim := Bool.eq_false_iff.2 trim
  by_cases retried : a.retryUsed = true
  · have form := eq.trans ((State.failWaiting_commanded act trim).trans (State.commandedFailure_abandons retried))
    have work := Work.activeIn_cases (ending.active a active).1
    have trimming : x.state.abandoned ≠ .trimming := (LineState.abandoned_ends ending.holds (fun k => Bool.noConfusion (trim.symm.trans (work.2.2 k)))).1
    have site := State.site_raise ((m.dropActive i).enter i (m.station i).state.abandoned) (i := i) .driveFault
    rw [← form, (congrArg Station.state station :), entered _ trimming] at site
    have level : (s.alert || s.inForce.alertMode != .criticalOnly || (Attention.driveFault.outranks
        (z.entered x.state.abandoned).attention && s.inForce.alertMode != .criticalOnly)) =
        (s.alert || s.inForce.alertMode != .criticalOnly) := by
      cases s.alert <;> cases s.inForce.alertMode <;> simp
    have site := site.trans (congrArg (fun a => { s.site i with
      x := (z.entered x.state.abandoned).noticing .driveFault, c := (s.channel i).entering x.state.abandoned
      v := none, alert := a }) level)
    obtain ⟨mooring, alert, channel⟩ := ended _ _ (s.site i).qs site
    have same := ends.sameCalls (by rw [form]; simpa using calls)
    obtain ⟨rests, -⟩ := ends.rests (by rw [site]; exact qs)
    exact ⟨faulted, ends.onlyAt, mooring, same, ends.permits, alert, fun k => absurd (trim.symm.trans k) (by decide),
      fun _ k => absurd retried (by rw [k]; decide), fun _ _ => ⟨rests.trans (congrArg Site.x site), channel⟩⟩
  · have first := Bool.eq_false_iff.2 retried
    have form := eq.trans ((State.failWaiting_commanded act trim).trans (State.commandedFailure_requeues first free))
    have work : a.remainingWork = a.work := by unfold ActiveOp.remainingWork; rw [phase]; split <;> simp_all
    rw [work] at form
    have site := State.site_requeue (m.dropActive i) (i := i) a.work true (by rw [dropped]; exact qs)
    rw [← form, dropped] at site
    obtain ⟨mooring, alert, channel⟩ := ended _ _ _ site
    have queued : (s.failGranted u).queue = insertHead ⟨i, a.work, true⟩ s.queue := by
      rw [form, State.requeue, ← queue]; rfl
    have same := ends.sameCalls (by rw [form]; simpa using calls)
    exact ⟨faulted, ends.onlyAt, mooring, same, ends.permits, alert, fun k => absurd (trim.symm.trans k) (by decide),
      fun _ _ => ⟨asks _ _ _ _ site queued, channel⟩, fun _ k => absurd k retried⟩

/-- Settles O45. -/
theorem failedGrantsAreRequeued : Obligations.FailedGrantsAreRequeued := by
  intro s u c i a h running command granted served active x z before
  have linked : (s.station i).unit = some u := (h.whole.sound.linked i u).2 served
  have phase : a.phase = .granted := by
    obtain ⟨b, hb, phase⟩ := h.granted_active granted linked
    rw [active] at hb; cases hb; exact phase
  have hold : s.hold = false := (h.held i).free_of_granted active phase
  obtain ⟨inputs, form, answer⟩ : ∃ inputs, before = { s with inputs := inputs } ∧
      exec c s = .next (State.settle before (before.failGranted u)) := by
    rcases command with rfl | rfl
    · have same : before = s := if_neg nofun
      have ready : (s.unit u).readyTimer.isSome = true := by
        have ok := h.units u
        unfold DriveUnit.ok at ok
        rw [granted] at ok
        exact ok.2.1
      rw [same]
      exact ⟨s.inputs, rfl, congrArg Host.Outcome.next (if_pos ⟨running, granted, ready⟩)⟩
    · have same : before = s.setFaultInput u true := if_pos rfl
      have asserted : (s.setFaultInput u true).unitFault u = (s.setFaultInput u true).failGranted u := by
        unfold State.unitFault
        rw [show ((s.setFaultInput u true).unit u).state = .granted from granted]
      rw [same, ← asserted]
      exact ⟨_, rfl, congrArg Host.Outcome.next (if_pos running)⟩
  have started : before.Inv := form ▸ h.inputs inputs
  clear_value before
  subst form
  exact ⟨_, answer, started.failed_grant running granted served active⟩

end Sys2Proof.Machine

end

