-- ==== Sys2Proof/Proofs/LockSteps.lean ====
section

/-! PROOF. What the completion of a motion lock step leaves: the station, its request, its unit and the calls (R16). -/

namespace Sys2Proof.Machine

variable {s t : State} {i : StationId} {u : UnitId} {a : ActiveOp}

/-! ### Where an operation ends -/

/-- The lock step of a station ends its operation, and leaves the station in a state (R96, R102, R127, R143). -/
def Station.EndsAs (x : Station) (state : LineState) : Prop :=
  (x.state = .trimming ∧ state = x.resting.getD .fast) ∨
    (x.parked = none ∧ x.endsWell ∧
      ((x.state = .heaving ∧ state = .fast) ∨ (x.state = .easing ∧ state = .eased) ∨
        (x.state = .rewinding ∧ state = if x.stopCause = .done then .stowed else .released)))

/-- A critical render follows a CRITICAL stop while its condition holds, unless the hold is in force (R96). -/
def State.Renders (s : State) (i : StationId) (cause : StopCause) : Prop :=
  cause = .critical ∧ (s.channel i).critCondition = true ∧ s.hold = false

theorem State.renderIfCritical_of_state (out : (s.station i).state ≠ .fast) (cause : StopCause) :
    s.renderIfCritical i cause = s :=
  if_neg fun k => out k.2.2

theorem Site.Ending.ends_state {k : Site} (h : k.Ending) {state : LineState} (ends : k.x.EndsAs state)
    (stow : state ≠ .stowed) : k.x.state.endsIn state = true := by
  rcases ends with ⟨trimming, rfl⟩ | ⟨-, -, ⟨e, rfl⟩ | ⟨e, rfl⟩ | ⟨e, rfl⟩⟩
  · exact h.restingOf trimming
  · rw [e]; rfl
  · rw [e]; rfl
  · rw [e]
    by_cases done : k.x.stopCause = .done
    · rw [if_pos done] at stow; exact absurd rfl stow
    · rw [if_neg done]; rfl

theorem State.lockStepDone_rests (h : (s.site i).Ending) {state : LineState} (ends : (s.station i).EndsAs state)
    (stow : state ≠ .stowed) : s.lockStepDone i =
      ((s.giveBack i).enter i state).renderIfCritical i (s.station i).stopCause := by
  have quits := h.ends_state ends stow
  have entered : (((s.giveBack i).enter i state).station i).state = state := by
    have site := State.site_giveBack_enter (LineState.endsIn_cases quits).2.2.1 (LineState.ne_fast_of_holdsUnit h.holds)
    exact (congrArg (fun k : Site => k.x.state) site :)
  have x := (congrArg Site.x (s.site_releaseUnit (i := i)) :)
  rw [← State.station_eq_site, ← State.station_eq_site] at x
  have cause : ((s.releaseUnit i).station i).stopCause = (s.station i).stopCause := by rw [x]
  have rests : (s.releaseUnit i).restingOf i = (s.station i).resting.getD .fast := by
    unfold State.restingOf; rw [x]
  have well : (s.station i).endsWell → ((s.releaseUnit i).station i).endsWell := fun k => by rw [x]; exact k
  have still : ((s.releaseUnit i).station i).state = (s.station i).state := by rw [x]
  unfold State.lockStepDone
  dsimp only
  rcases ends with ⟨trimming, rfl⟩ | ⟨parked, wells, ⟨e, rfl⟩ | ⟨e, rfl⟩ | ⟨e, rfl⟩⟩
  · rw [trimming, rests]
    rfl
  · rw [e, parked]
    dsimp only [Option.isSome_none]
    rw [if_neg (by decide), State.commandedEnd_heaving i (well wells) (still.trans e), cause]
    rfl
  · rw [e, parked]
    dsimp only [Option.isSome_none]
    rw [if_neg (by decide), State.commandedEnd_easing i (well wells) (still.trans e),
      State.renderIfCritical_of_state (by rw [entered]; decide)]
    rfl
  · rw [e, parked]
    dsimp only [Option.isSome_none]
    rw [if_neg (by decide), State.commandedEnd_rewinding i (well wells) (still.trans e), cause,
      State.renderIfCritical_of_state (by rw [entered]; split <;> decide)]
    split
    · next done => rw [if_pos done] at stow; exact absurd rfl stow
    · rfl

theorem State.lockStepDone_stows (h : (s.site i).Ending) (ends : (s.station i).EndsAs .stowed) : s.lockStepDone i =
    (s.giveBack i).stow i := by
  have x := (congrArg Site.x (s.site_releaseUnit (i := i)) :)
  rw [← State.station_eq_site, ← State.station_eq_site] at x
  rcases ends with ⟨trimming, e⟩ | ⟨parked, wells, ⟨-, e⟩ | ⟨-, e⟩ | ⟨state, e⟩⟩
  · have := h.restingOf trimming
    rw [← State.station_eq_site, ← e, trimming] at this; cases this
  · cases e
  · cases e
  · have done : (s.station i).stopCause = .done := by
      by_contra other
      rw [if_neg other] at e; cases e
    have rewinding : ((s.releaseUnit i).station i).state = .rewinding := by rw [x]; exact state
    unfold State.lockStepDone
    dsimp only
    rw [state, parked]
    dsimp only [Option.isSome_none]
    rw [if_neg (by decide), State.commandedEnd_rewinding i (by rw [x]; exact wells) rewinding,
      if_pos (by rw [x]; exact done)]
    rfl

/-- The states of the operations that a lock step ends, a TRIM aside. -/
theorem Site.Ending.commanded {k : Site} (h : k.Ending) (trimming : k.x.state ≠ .trimming) :
    k.x.state = .heaving ∨ k.x.state = .easing ∨ k.x.state = .rewinding := by
  have holds := h.holds
  cases state : k.x.state <;> rw [state] at holds <;> first
    | (cases holds; done)
    | exact absurd state trimming
    | simp

theorem State.lockStepDone_parked (h : (s.site i).Ending) {p : ParkedOp} (parked : (s.station i).parked = some p) :
    s.lockStepDone i = if s.hold then s.releaseUnit i else (s.releaseUnit i).submitParked i := by
  have trimming : (s.station i).state ≠ .trimming := fun e => by
    have none := h.trimming_parked e
    rw [← State.station_eq_site, parked] at none; cases none
  have hold : (s.releaseUnit i).hold = s.hold := (congrArg Site.hold (s.site_releaseUnit (i := i)) :)
  unfold State.lockStepDone
  dsimp only
  rcases h.commanded trimming with e | e | e <;>
    rw [← State.station_eq_site] at e <;> rw [e, parked, hold] <;> rfl

theorem State.lockStepDone_fails (h : (s.site i).Ending) (active : (s.station i).active = some a)
    (trimming : (s.station i).state ≠ .trimming) (cause : (s.station i).stopCause = .driveFault) :
    s.lockStepDone i = (s.releaseUnit i).commandedFailure i a := by
  have x := (congrArg Site.x (s.site_releaseUnit (i := i)) :)
  rw [← State.station_eq_site, ← State.station_eq_site] at x
  have parked : (s.station i).parked = none := (h.active a active).2
  have failure := State.commandedEnd_of_failure i (s := s.releaseUnit i) (a := a) (by rw [x]; exact cause) (by rw [x]; exact active)
  unfold State.lockStepDone
  dsimp only
  rcases h.commanded trimming with e | e | e <;>
    rw [← State.station_eq_site] at e <;> rw [e, parked] <;> exact (if_neg (by decide)).trans failure

/-! ### What is left at the end of the lock step -/

theorem State.lockStepDone_released (h : s.Sound) (unit : (s.station i).unit = some u) :
    (s.lockStepDone i).unit u = .unserved (if (s.unit u).state = .faulted then .faulted else .idle) := by
  have rest : State.Acts i (s.releaseUnit i) (s.lockStepDone i) := by
    have commanded : State.Acts i (s.releaseUnit i) (if (s.station i).parked.isSome then
        (if (s.releaseUnit i).hold then s.releaseUnit i else (s.releaseUnit i).submitParked i)
        else (s.releaseUnit i).commandedEnd i) := by
      split
      · split
        · exact .refl
        · exact State.submitParked_acts _ i
      · exact State.commandedEnd_acts _ i
    unfold State.lockStepDone
    dsimp only
    split
    · exact ((State.dropActive_acts _ i).trans (State.enter_acts _ i _)).trans (State.renderIfCritical_acts _ i _)
    · exact commanded
    · exact commanded
    · exact commanded
    all_goals exact .refl
  exact rest.released h unit Iff.rfl

theorem State.giveBack_stands : (s.giveBack i).queue = s.queue ∧ (s.giveBack i).calls = s.calls :=
  ⟨State.releaseUnit_queue, s.releaseUnit_calls i⟩

theorem Channel.entering_critCondition (c : Channel) (state : LineState) :
    (c.entering state).critCondition = c.critCondition := by
  unfold Channel.entering
  split <;> rfl

theorem State.renderIfCritical_quiet {cause : StopCause} (quiet : ¬((s.station i).state = .fast ∧ s.Renders i cause)) :
    s.renderIfCritical i cause = s := by
  unfold State.renderIfCritical
  split
  · next k =>
    obtain ⟨critical, condition, fast⟩ := k
    unfold State.wantCriticalRender
    split
    · rfl
    · next hold => exact absurd ⟨fast, critical, condition, Bool.eq_false_iff.2 hold⟩ quiet
  · rfl

theorem State.renderIfCritical_submits {cause : StopCause} (fast : (s.station i).state = .fast)
    (renders : s.Renders i cause) (none : s.requestOf i = none) :
    s.renderIfCritical i cause = s.submit i (.trim .outward true) false := by
  obtain ⟨critical, condition, hold⟩ := renders
  unfold State.renderIfCritical State.wantCriticalRender State.wantTrim
  rw [if_pos ⟨critical, condition, fast⟩, hold, if_neg (by decide), none]

/-- The site of an operation that has ended, before a critical render is thought of. -/
theorem State.site_rests (h : (s.site i).Ending) {state : LineState} (ends : (s.station i).EndsAs state)
    (stow : state ≠ .stowed) : ((s.giveBack i).enter i state).site i = (s.site i).quit state :=
  State.site_giveBack_enter (LineState.endsIn_cases (h.ends_state ends stow)).2.2.1 (LineState.ne_fast_of_holdsUnit h.holds)

theorem State.rests_renders (h : (s.site i).Ending) {state : LineState} (ends : (s.station i).EndsAs state)
    (stow : state ≠ .stowed) (cause : StopCause) :
    ((((s.giveBack i).enter i state).station i).state = .fast ∧ ((s.giveBack i).enter i state).Renders i cause) ↔
      (state = .fast ∧ s.Renders i cause) := by
  have site := State.site_rests h ends stow
  have x : (((s.giveBack i).enter i state).station i).state = state := (congrArg (fun k : Site => k.x.state) site :)
  have c : (((s.giveBack i).enter i state).channel i).critCondition = (s.channel i).critCondition :=
    ((congrArg (fun k : Site => k.c.critCondition) site :)).trans (Channel.entering_critCondition _ _)
  have hold : ((s.giveBack i).enter i state).hold = s.hold := (congrArg Site.hold site :)
  unfold State.Renders
  rw [x, c, hold]

/-- An operation has ended, and no critical render follows. -/
theorem State.lockStepDone_quiet (h : (s.site i).Ending) {state : LineState} (ends : (s.station i).EndsAs state)
    (stow : state ≠ .stowed) (quiet : ¬ (state = .fast ∧ s.Renders i (s.station i).stopCause)) :
    (s.lockStepDone i).site i = (s.site i).quit state ∧ (s.lockStepDone i).queue = s.queue ∧
      (s.lockStepDone i).calls = s.calls := by
  rw [State.lockStepDone_rests h ends stow,
    State.renderIfCritical_quiet (fun k => quiet ((State.rests_renders h ends stow _).1 k))]
  exact ⟨State.site_rests h ends stow, State.enter_drive.1.trans State.giveBack_stands.1,
    (State.enter_calls _ i state).trans State.giveBack_stands.2⟩

/-- An operation has ended in FAST from a CRITICAL stop, and the station asks for a critical render (R96). -/
theorem State.lockStepDone_renders (h : (s.site i).Ending) (ends : (s.station i).EndsAs .fast)
    (renders : s.Renders i (s.station i).stopCause) :
    (s.lockStepDone i).site i = { (s.site i).quit .fast with qs := [⟨i, .trim .outward true, false⟩] } ∧
      (s.lockStepDone i).queue = insertTail ⟨i, .trim .outward true, false⟩ s.queue ∧
      (s.lockStepDone i).calls = s.calls := by
  have site := State.site_rests h ends nofun
  have qs : (((s.giveBack i).enter i .fast).site i).qs = [] := (congrArg Site.qs site).trans h.qs
  have again := (State.rests_renders h ends nofun _).2 ⟨rfl, renders⟩
  have request : ((s.giveBack i).enter i .fast).requestOf i = none := by rw [State.requestOf_eq_site, qs]; rfl
  rw [State.lockStepDone_rests h ends nofun, State.renderIfCritical_submits again.1 again.2 request]
  refine ⟨by rw [State.site_submit _ _ _ qs, site], ?_, ?_⟩
  · exact congrArg _ (State.enter_drive.1.trans State.giveBack_stands.1)
  · exact (State.enter_calls _ i .fast).trans State.giveBack_stands.2

theorem State.ListsOk.listed_tag (h : s.ListsOk) {r : Mooring} (present : s.mooring i = some r) {c : Call} (hc : c ∈ s.calls)
    (hi : i ∈ c.list) : c.tag = r.tag := by
  obtain ⟨-, r', hr', tag⟩ := (h.lists c hc).2 i hi
  rw [present] at hr'; cases hr'; exact tag.symm

/-- A record that is retired takes its station out of the list of its call (R44). -/
theorem State.retireRecord_lists (h : s.ListsOk) (calls : t.calls = s.calls) (mooring : t.mooring i = s.mooring i) :
    (t.retireRecord i).calls.map Call.list = s.calls.map (fun c => c.list.filter (fun j => j != i)) := by
  have stays : ∀ c ∈ s.calls, i ∉ c.list → c.list.filter (fun j => j != i) = c.list := fun c _ hi =>
    List.filter_eq_self.2 fun j hj => by simpa using fun e : j = i => hi (e ▸ hj)
  unfold State.retireRecord
  rw [mooring]
  cases present : s.mooring i with
  | none =>
    dsimp only
    rw [calls]
    exact List.map_congr_left fun c hc => (stays c hc (h.not_listed present hc)).symm
  | some r =>
    dsimp only
    unfold State.clearCritical
    rw [State.setCritCondition_calls, State.onChannel_calls, State.setMooring_calls, State.onCall, calls, List.map_map]
    refine List.map_congr_left fun c hc => ?_
    rw [Function.comp_apply]
    split
    · rfl
    · next tag => exact (stays c hc fun hi => tag (h.listed_tag present hc hi)).symm

theorem State.retireRecord_queue : (s.retireRecord i).queue = s.queue := by
  unfold State.retireRecord State.clearCritical
  split
  · rfl
  · exact State.setCritCondition_queue false

/-- A REWIND has reached its stow: the record is retired (R44, R143). -/
theorem State.lockStepDone_stowed (h : (s.site i).Ending) (lists : s.ListsOk) (ends : (s.station i).EndsAs .stowed) :
    (∃ c alert, (s.lockStepDone i).site i = { s.site i with
        x := { s.station i with state := .stowed, resting := none, unit := none, active := none }
        c := c, r := none, v := none, alert := alert } ∧ c.critCount = 0 ∧ c.critCondition = false ∧
        (s.inForce.alertMode ≠ .criticalOnly → alert = s.alert)) ∧
      (s.lockStepDone i).queue = s.queue ∧
      (s.lockStepDone i).calls.map Call.list = s.calls.map (fun c => c.list.filter (fun j => j != i)) := by
  have given : (s.giveBack i).site i = { s.site i with x := { s.station i with unit := none, active := none }, v := none } := by
    unfold State.giveBack
    rw [State.site_dropActive, State.site_releaseUnit]
    rfl
  have out : ((s.giveBack i).site i).x.state ≠ .fast := by
    rw [given]; exact LineState.ne_fast_of_holdsUnit h.holds
  obtain ⟨c, alert, site, watched⟩ := State.stow_site out (by rw [given]; exact h.watched)
  obtain ⟨count, condition⟩ := watched.noRecord rfl
  have level : s.inForce.alertMode ≠ .criticalOnly → alert = s.alert := fun mode => by
    have kept := congrArg Site.alert (site.symm.trans (State.site_stow out))
    rw [given] at kept
    refine kept.trans ?_
    have other : (s.site i).mode ≠ .criticalOnly := mode
    split
    · simp only [if_neg other, ite_self]
      rfl
    · rfl
  rw [State.lockStepDone_stows h ends]
  refine ⟨⟨c, alert, by rw [site, given]; rfl, count, condition, level⟩, ?_, ?_⟩
  · exact State.retireRecord_queue.trans (State.enter_drive.1.trans State.giveBack_stands.1)
  · refine State.retireRecord_lists lists ((State.enter_calls _ i .stowed).trans State.giveBack_stands.2) ?_
    have entered := State.site_enter_of (s := s.giveBack i) (state := .stowed) nofun out
    rw [given] at entered
    exact (congrArg Site.r entered :)

/-! ### Where an operation goes on -/

/-- The operation of the station is parked, and the hold stands (R147). -/
theorem State.lockStepDone_held (h : (s.site i).Ending) {p : ParkedOp} (parked : (s.station i).parked = some p)
    (hold : s.hold = true) : (s.lockStepDone i).site i = { s.site i with
        x := { s.station i with unit := none }, v := none } ∧
      (s.lockStepDone i).queue = s.queue ∧ (s.lockStepDone i).calls = s.calls := by
  rw [State.lockStepDone_parked h parked, hold, if_pos rfl]
  exact ⟨State.site_releaseUnit s, State.releaseUnit_queue, State.releaseUnit_calls s i⟩

/-- The operation of the station is parked, and the hold has been cleared meanwhile (log 16). -/
theorem State.lockStepDone_resumes (h : (s.site i).Ending) {p : ParkedOp} (parked : (s.station i).parked = some p)
    (free : s.hold = false) : (s.lockStepDone i).site i = { s.site i with
        x := { s.station i with unit := none, parked := none }, qs := [⟨i, p.work, p.retryUsed⟩], v := none } ∧
      (s.lockStepDone i).queue = insertTail ⟨i, p.work, p.retryUsed⟩ s.queue ∧ (s.lockStepDone i).calls = s.calls := by
  have site := State.site_releaseUnit s (i := i)
  have still : ((s.releaseUnit i).station i).parked = some p :=
    (congrArg (fun k : Site => k.x.parked) site :).trans parked
  rw [State.lockStepDone_parked h parked, free, if_neg (by decide)]
  refine ⟨?_, ?_, (State.submitParked_calls _ i).trans (State.releaseUnit_calls s i)⟩
  · have waits : (s.site i).x.parked = some p := parked
    rw [State.site_submitParked _ (by rw [site]; exact h.qs), site, waits]
    rfl
  · unfold State.submitParked
    rw [still]
    exact congrArg _ (State.releaseUnit_queue (i := i))

/-- What an operation that failed in its motion leaves, its unit released (R120). -/
theorem State.site_failed (h : (s.site i).Ending) (active : (s.station i).active = some a) :
    (((s.releaseUnit i).dropActive i).site i = { s.site i with
        x := { s.station i with unit := none, active := none }, v := none }) ∧
      ((s.releaseUnit i).dropActive i).queue = s.queue ∧ ((s.releaseUnit i).dropActive i).calls = s.calls ∧
      (s.station i).parked = none := by
  refine ⟨?_, State.releaseUnit_queue, State.releaseUnit_calls s i, (h.active a active).2⟩
  rw [State.site_dropActive, State.site_releaseUnit]
  rfl

/-- A second failure abandons the operation (R120). -/
theorem State.lockStepDone_abandons (h : (s.site i).Ending) (active : (s.station i).active = some a)
    (trimming : (s.station i).state ≠ .trimming) (cause : (s.station i).stopCause = .driveFault)
    (retried : a.retryUsed = true) :
    (s.lockStepDone i).site i = { (s.site i).quit (s.station i).state.abandoned with
        x := ((s.site i).quit (s.station i).state.abandoned).x.noticing .driveFault
        alert := s.alertAfter i .driveFault } ∧
      (s.lockStepDone i).queue = s.queue ∧ (s.lockStepDone i).calls = s.calls := by
  obtain ⟨dropped, queue, calls, -⟩ := State.site_failed h active
  have x := (congrArg (fun k : Site => k.x.state) (State.site_releaseUnit s (i := i)) :)
  have state : ((s.releaseUnit i).station i).state = (s.station i).state := x
  have ends := LineState.abandoned_ends h.holds trimming
  rw [State.lockStepDone_fails h active trimming cause, State.commandedFailure_abandons retried, state]
  have entered := State.site_enter_of (s := (s.releaseUnit i).dropActive i) (state := (s.station i).state.abandoned) ends.1
    (by rw [dropped]; exact LineState.ne_fast_of_holdsUnit h.holds)
  rw [dropped] at entered
  refine ⟨?_, ?_, ?_⟩
  · rw [State.site_raise, entered]
    rfl
  · exact (congrArg State.queue (State.raise_eq _)).trans (State.enter_drive.1.trans queue)
  · rw [State.raise_calls, State.enter_calls, calls]

/-- A first failure under the hold parks the operation (R120, R147). -/
theorem State.lockStepDone_parks (h : (s.site i).Ending) (active : (s.station i).active = some a)
    (trimming : (s.station i).state ≠ .trimming) (cause : (s.station i).stopCause = .driveFault)
    (first : a.retryUsed = false) (hold : s.hold = true) :
    (s.lockStepDone i).site i = { s.site i with
        x := { s.station i with unit := none, active := none, parked := some ⟨a.remainingWork, true⟩ }, v := none } ∧
      (s.lockStepDone i).queue = s.queue ∧ (s.lockStepDone i).calls = s.calls := by
  obtain ⟨dropped, queue, calls, -⟩ := State.site_failed h active
  have held : (s.releaseUnit i).hold = true := (congrArg Site.hold (State.site_releaseUnit s (i := i)) :).trans hold
  rw [State.lockStepDone_fails h active trimming cause, State.commandedFailure_parks first held]
  exact ⟨by rw [State.site_park, dropped], queue, calls⟩

/-- A first failure requeues the operation at the head of its class (R120). -/
theorem State.lockStepDone_requeues (h : (s.site i).Ending) (active : (s.station i).active = some a)
    (trimming : (s.station i).state ≠ .trimming) (cause : (s.station i).stopCause = .driveFault)
    (first : a.retryUsed = false) (free : s.hold = false) :
    (s.lockStepDone i).site i = { s.site i with
        x := { s.station i with unit := none, active := none }, qs := [⟨i, a.remainingWork, true⟩], v := none } ∧
      (s.lockStepDone i).queue = insertHead ⟨i, a.remainingWork, true⟩ s.queue ∧ (s.lockStepDone i).calls = s.calls := by
  obtain ⟨dropped, queue, calls, -⟩ := State.site_failed h active
  have free' : (s.releaseUnit i).hold = false := (congrArg Site.hold (State.site_releaseUnit s (i := i)) :).trans free
  rw [State.lockStepDone_fails h active trimming cause, State.commandedFailure_requeues first free']
  exact ⟨by rw [State.site_requeue _ _ _ (by rw [dropped]; exact h.qs), dropped], congrArg _ queue, calls⟩

end Sys2Proof.Machine

end

