-- ==== Sys2Proof/Proofs/LockStepEnds.lean ====
section

/-! PROOF. The completion of the motion lock step as an event (R16, R96, R102, R119 to R121, R127, R143, R147). -/

namespace Sys2Proof.Machine

variable {s t : State} {i : StationId} {u : UnitId} {a : ActiveOp}

/-- An event that keeps the station's state, its record and its steady counter keeps the calls (R54, R55). -/
theorem State.Acts.keeps_calls {old : LineState} (acts : State.Acts i s t) (h : s.Inv) (after : (t.site i).After old)
    (calls : t.calls = s.calls) (state : (t.site i).x.state = (s.site i).x.state) (record : (t.site i).r = (s.site i).r)
    (steady : (t.site i).c.steady = (s.site i).c.steady)
    (out : (s.station i).state ≠ .inLocal ∧ (s.station i).state ≠ .fault) : s.callsKept (State.settle s t) :=
  h.settle_callsKept (acts.whole h after) calls acts.local.permitA acts.local.permitB
    (acts.stay h calls (State.holding_congr state record out) fun c _ _ _ => State.steadyFor_congr state record steady _)

/-- What an event leaves of its station, read off its site. -/
theorem State.Ends.of_site {v : State} {k : Site} (h : State.Ends i s t v) (site : t.site i = k) :
    v.channel i = k.c ∧ v.mooring i = k.r ∧ v.alert = k.alert ∧ (k.qs = [] → v.station i = k.x) := by
  subst site
  exact ⟨h.channel, h.mooring, h.alert, fun none => (h.rests none).1⟩

/-- What an event leaves of its station and of the queue where the station, without a request before, asks for one. -/
theorem State.Ends.of_request {v : State} {k : Site} {q : Request} {place : Request → List Request → List Request}
    (h : State.Ends i s t v) (site : t.site i = k) (one : k.qs = [q]) (own : q.station = i) (none : (s.site i).qs = [])
    (queue : t.queue = place q s.queue) : v.asks i k.x q ∧ s.queuesBy place v q := by
  subst site own
  exact h.queues one (by rw [State.others_eq_queue none]; exact queue)

theorem LineState.out_of_holdsUnit {state : LineState} (h : state.holdsUnit = true) : state ≠ .inLocal ∧ state ≠ .fault := by
  constructor <;> rintro rfl <;> cases h

theorem ActiveOp.remainingWork_ended {m : Motion} (phase : a.phase = .ended m) : a.remainingWork = a.work := by
  unfold ActiveOp.remainingWork
  rw [phase]
  cases a.work <;> rfl

/-- What a station in its motion lock step is doing (R16). -/
theorem Site.Doing.of_locking {k : Site} (h : k.Doing) (locking : k.x.locking = true) : ∃ u d, k.x.unit = some u ∧
    k.v = some d ∧ k.qs = [] ∧ ∀ a ∈ k.x.active, k.x.parked = none ∧ ∃ m, a.phase = .ended m := by
  have moves : k.x.still ≠ true := fun still => by
    rw [((Station.still_eq_true_iff _).1 still).1] at locking; cases locking
  cases h with
  | free _ _ _ _ _ _ still | pending _ _ _ _ _ _ _ _ still | parked _ _ _ _ _ _ _ _ still
  | granted _ _ _ _ _ _ _ _ _ _ _ still => exact absurd still moves
  | awaiting _ _ _ _ _ _ _ _ engaging =>
    unfold Station.locking at locking
    cases step : k.x.step with
    | none => rw [step] at locking; cases locking
    | some g => rw [step] at locking engaging; simp_all
  | moving _ _ _ _ _ _ _ _ _ _ _ _ other => rw [locking] at other; cases other
  | locking u d qs _ _ act _ v unit => exact ⟨u, d, unit, v, qs, fun a ha => (act a ha).2⟩

/-- The station record at the completion of the step in flight, the continuation still to come (R12). -/
abbrev Station.stepDone (x : Station) (sense : GearSense) : Station :=
  { x.sensed sense with step := none, gearTimer := none }

/-- The sense that completes the motion lock step (R12, R16). -/
theorem State.Inv.lock_completes (h : s.Inv) {sense : GearSense} (locking : (s.station i).locking = true)
    (shut : ((s.station i).sensed sense).shut = true) : ∃ d, d = s.setStation i ((s.station i).stepDone sense) ∧
      s.sensedAt i sense = d.lockStepDone i ∧ d.site i = { s.site i with x := (s.station i).stepDone sense } ∧
      (d.site i).Ending ∧ State.Acts i s d ∧ (s.station i).state ≠ .unknown ∧
      ∀ a ∈ (s.station i).active, a.remainingWork = a.work := by
  have fit := h.fit i
  have eq := Station.sensed_eq (s.station i) sense
  obtain ⟨g, step, kind⟩ : ∃ g, (s.station i).step = some g ∧ g.kind = .motionLock := by
    unfold Station.locking at locking
    cases step : (s.station i).step with
    | none => rw [step] at locking; cases locking
    | some g => rw [step] at locking; exact ⟨g, rfl, by simpa using locking⟩
  obtain ⟨rest, -, targets, cmdLock, cmdClutch, -⟩ := fit.geared.step g step
  have known := (LineState.ne_unknown_of_watched rest).1
  rw [kind] at targets
  obtain ⟨lock, clutch⟩ := Prod.mk.inj targets
  have agreed := (Station.shut_iff _).1 shut
  have step' : ((s.station i).sensed sense).step = some g := by rw [eq]; exact step
  have unit : ((s.station i).stepDone sense).unit = (s.station i).unit := by
    cases sense <;> rfl
  have attention : ((s.station i).stepDone sense).attention = (s.station i).attention := by
    cases sense <;> rfl
  have site := s.site_setStation (i := i) ((s.station i).stepDone sense) unit
  have form : s.sensedAt i sense = (s.setStation i ((s.station i).stepDone sense)).lockStepDone i := by
    unfold State.sensedAt
    rw [State.gearSensed_of_step (by rw [State.station_setStation_self]; exact step'),
      State.tryComplete_done (g := g) (by rw [State.station_setStation_self]; exact step')
        (by rw [State.station_setStation_self, lock, clutch]; exact agreed),
      kind, State.station_setStation_self, State.setStation_setStation]
    rfl
  have agrees : Station.Geared ((s.station i).stepDone sense) := by
    refine .of_agreed (Station.sensed_known (fit.geared.known known) sense) ?_ rfl rfl ?_
    · cases sense <;> exact rest
    · have lock' : ((s.station i).stepDone sense).cmdLock = .locked := by
        rw [lock] at cmdLock
        cases sense <;> exact cmdLock
      have clutch' : ((s.station i).stepDone sense).cmdClutch = some .engaged := by
        rw [clutch] at cmdClutch
        cases sense <;> exact cmdClutch
      have senses : ((s.station i).stepDone sense).senLock = some .locked ∧
        ((s.station i).stepDone sense).senClutch = some .engaged := agreed
      unfold Station.disagrees
      rw [lock', clutch', senses.1, senses.2]
      rfl
  have ending : (State.site (s.setStation i ((s.station i).stepDone sense)) i).Ending := by
    rw [site]
    exact fit.locked step kind agrees (by cases sense <;> rfl)
  refine ⟨_, rfl, form, site, ending, .single (.station s _ attention unit), known, fun a active => ?_⟩
  obtain ⟨-, -, -, -, -, phases⟩ := fit.doing.of_locking locking
  obtain ⟨-, m, phase⟩ := phases a active
  exact ActiveOp.remainingWork_ended phase

/-- Settles O33, by where the lock step leaves the operation: over, parked, failed or at its stow. -/
theorem lockStepsEndOperations : Obligations.LockStepsEndOperations := by
  intro s i sense u h running locking unit shut x y freed failed ends renders
  obtain ⟨d, form, eq, site, ending, acts, known, works⟩ := h.lock_completes locking shut
  have event := s.exec_gearSense running known sense
  have ended := (h.sensedAt_acts (i := i) sense).ends h running (h.sensedAt_after known sense)
  have after := h.sensedAt_after known sense
  have acts' := h.sensedAt_acts (i := i) sense
  rw [eq] at event ended after acts'
  have dx : d.station i = x.stepDone sense := (congrArg Site.x site :)
  have same : (d.station i).state = x.state ∧ (d.station i).stopCause = x.stopCause ∧ (d.station i).parked = x.parked ∧
      (d.station i).active = x.active ∧ (d.station i).resting = x.resting ∧ (d.station i).unit = x.unit ∧
      (d.station i).attention = x.attention := by
    rw [dx]
    cases sense <;> exact ⟨rfl, rfl, rfl, rfl, rfl, rfl, rfl⟩
  obtain ⟨state, cause, parked, active, resting, unit', attention⟩ := same
  have channel : d.channel i = s.channel i := (congrArg Site.c site :)
  have hold : d.hold = s.hold := (congrArg Site.hold site :)
  have queue : d.queue = s.queue := by rw [form]; rfl
  have calls : d.calls = s.calls := by rw [form]; rfl
  have qs : (s.site i).qs = [] := (congrArg Site.qs site :).symm.trans ending.qs
  have others : s.queue.filter (fun q => q.station != i) = s.queue := State.others_eq_queue qs
  have out : x.state ≠ .inLocal ∧ x.state ≠ .fault := by
    rw [← state]; exact LineState.out_of_holdsUnit ending.holds
  have lets : ∀ {st}, ends st → (d.station i).EndsAs st := by
    rintro st (⟨trimming, rests⟩ | ⟨none, past, work⟩)
    · exact .inl ⟨state.trans trimming, by rw [resting, rests]; rfl⟩
    · refine .inr ⟨parked.trans none, fun k => ?_, ?_⟩
      · rw [cause] at k
        rw [active]
        refine past.resolve_left fun k' => k' ⟨?_, k⟩
        rcases work with ⟨e, -⟩ | ⟨e, -⟩ | ⟨e, -⟩ <;> rw [e] <;> exact nofun
      · rw [state, cause]; exact work
  have rendering : d.Renders i (d.station i).stopCause ↔ renders := by
    unfold State.Renders
    rw [cause, channel, hold]
  have kept : ∀ k : Site, (d.lockStepDone i).site i = k → k.x.state = x.state → k.r = s.mooring i →
      k.c = s.channel i → (d.lockStepDone i).calls = d.calls → s.callsKept (State.settle s (d.lockStepDone i)) :=
    fun k left st r c called => acts'.keeps_calls h after (called.trans calls) (by rw [left]; exact st)
      (by rw [left]; exact r) (by rw [left, c]; rfl) out
  refine ⟨_, event, ended.freed ?_, ended.onlyAt, ended.permits, fun st k stow => ?_, fun k => ?_, fun p hp => ?_,
    fun k a ha => ?_⟩
  · have := State.lockStepDone_released (acts.sound h.whole.sound) (unit'.trans unit)
    rw [show d.unit u = s.unit u by rw [form]; rfl] at this
    exact this
  · by_cases render : st = .fast ∧ renders
    · obtain ⟨rfl, render⟩ := render
      obtain ⟨left, queued, called⟩ := State.lockStepDone_renders ending (lets k) (rendering.2 render)
      rw [site] at left
      obtain ⟨c, r, alert, -⟩ := ended.of_site left
      refine ⟨c, r, ended.sameCalls (called.trans calls), alert, ?_⟩
      rw [if_pos ⟨rfl, render⟩]
      exact ended.of_request left rfl rfl qs (queued.trans (congrArg _ queue))
    · obtain ⟨left, queued, called⟩ := State.lockStepDone_quiet ending (lets k) stow
        (fun k' => render ⟨k'.1, rendering.1 k'.2⟩)
      rw [site] at left
      obtain ⟨c, r, alert, rests⟩ := ended.of_site left
      refine ⟨c, r, ended.sameCalls (called.trans calls), alert, ?_⟩
      rw [if_neg render]
      exact rests qs
  · obtain ⟨⟨c, alert, left, count, condition, -⟩, queued, lists⟩ :=
      State.lockStepDone_stowed ending (acts.sound h.whole.sound).lists (lets k)
    rw [site, dx] at left
    obtain ⟨c, r, -, rests⟩ := ended.of_site left
    refine ⟨rests qs, r, ?_, c ▸ count, c ▸ condition⟩
    have fixed := congrArg (List.map (fun f : Nat × Berth × Nat × Nat × List StationId => f.2.2.2.2)) ended.calls
    rw [List.map_map, List.map_map] at fixed
    rw [calls] at lists
    exact fixed.trans lists
  · by_cases held : s.hold = true
    · obtain ⟨left, queued, called⟩ := State.lockStepDone_held ending (parked.trans hp) (hold.trans held)
      have keeps := kept _ left state (congrArg Site.r site) channel called
      rw [site, dx] at left
      obtain ⟨c, r, alert, rests⟩ := ended.of_site left
      refine ⟨c, r, keeps, alert, ?_⟩
      rw [if_pos held]
      exact rests qs
    · have free := Bool.eq_false_iff.2 held
      obtain ⟨left, queued, called⟩ := State.lockStepDone_resumes ending (parked.trans hp) (hold.trans free)
      have keeps := kept _ left state (congrArg Site.r site) channel called
      rw [site, dx] at left
      obtain ⟨c, r, alert, -⟩ := ended.of_site left
      refine ⟨c, r, keeps, alert, ?_⟩
      rw [if_neg held]
      exact ended.of_request left rfl rfl qs (queued.trans (congrArg _ queue))
  · have active := active.trans ha
    have trimming : (d.station i).state ≠ .trimming := fun e => k.1 (state.symm.trans e)
    have cause := cause.trans k.2
    have work := works a ha
    refine ⟨?_, fun retried => ?_, fun first => ?_⟩
    · have record : ∀ l : Site, (d.lockStepDone i).site i = l → l.r = s.mooring i →
          (State.settle s (d.lockStepDone i)).mooring i = s.mooring i := fun _ left r => (ended.of_site left).2.1.trans r
      have r : (d.site i).r = s.mooring i := congrArg Site.r site
      by_cases retried : a.retryUsed = true
      · exact record _ (State.lockStepDone_abandons ending active trimming cause retried).1 r
      by_cases held : d.hold = true
      · exact record _ (State.lockStepDone_parks ending active trimming cause (Bool.eq_false_iff.2 retried) held).1 r
      · exact record _ (State.lockStepDone_requeues ending active trimming cause (Bool.eq_false_iff.2 retried)
          (Bool.eq_false_iff.2 held)).1 r
    · obtain ⟨left, queued, called⟩ := State.lockStepDone_abandons ending active trimming cause retried
      have alarm : d.alertAfter i .driveFault = s.alertAfter i .driveFault := by
        unfold State.alertAfter
        rw [attention, form]
        rfl
      rw [site, state, alarm] at left
      obtain ⟨c, -, alert, rests⟩ := ended.of_site left
      exact ⟨rests qs, c, alert, ended.sameCalls (called.trans calls)⟩
    · by_cases held : s.hold = true
      · obtain ⟨left, queued, called⟩ := State.lockStepDone_parks ending active trimming cause first (hold.trans held)
        have keeps := kept _ left state (congrArg Site.r site) channel called
        rw [site, dx, work] at left
        obtain ⟨-, -, alert, rests⟩ := ended.of_site left
        refine ⟨keeps, alert, ?_⟩
        rw [if_pos held]
        exact rests qs
      · obtain ⟨left, queued, called⟩ := State.lockStepDone_requeues ending active trimming cause first
          (hold.trans (Bool.eq_false_iff.2 held))
        have keeps := kept _ left state (congrArg Site.r site) channel called
        rw [site, dx, work] at left
        rw [work] at queued
        obtain ⟨-, -, alert, -⟩ := ended.of_site left
        refine ⟨keeps, alert, ?_⟩
        rw [if_neg held]
        exact ended.of_request left rfl rfl qs (queued.trans (congrArg _ queue))

end Sys2Proof.Machine

end

