-- ==== Sys2Proof/Proofs/MotionStops.lean ====
section

/-! PROOF. What the end of a motion leaves: the station behind its lock step, or past it where the gear is still shut
(R12, R16, R126). -/

namespace Sys2Proof.Machine

variable {s t m : State} {i : StationId} {u : UnitId} {a : ActiveOp} {cause : StopCause} {x : Station}

/-- The state `t` ends the motion of a station, `x` its record with what is kept of the operation. -/
structure State.EndsMotion (m t : State) (i : StationId) (cause : StopCause) (x : Station) : Prop where
  locks : x.shut = false → t.site i = { m.site i with
      x := x.stopped cause x.active m.settings.gearLimit, v := (m.site i).v.map (fun d => { d with stop := true }) } ∧
    t.queue = m.queue ∧ t.calls = m.calls ∧ ∀ u, (m.station i).unit = some u → t.unit u = { m.unit u with stop := true }
  completes : x.shut = true → ∃ d, t = d.lockStepDone i ∧ d.site i = { m.site i with
      x := x.stoppedShut cause, v := (m.site i).v.map (fun d => { d with stop := true }) } ∧
    (d.site i).Ending ∧ State.Acts i m d ∧ d.queue = m.queue ∧ d.calls = m.calls ∧
    ∀ u, (m.station i).unit = some u → d.unit u = { m.unit u with stop := true }

theorem State.EndsMotion.of_halted {z : State} (acts : State.Acts i m z) (site : z.site i = { m.site i with
      x := { x with stopCause := cause, motionTimer := none }, v := (m.site i).v.map (fun d => { d with stop := true }) })
    (stopping : (z.site i).Stopping) (queue : z.queue = m.queue) (calls : z.calls = m.calls)
    (unit : ∀ u, (m.station i).unit = some u → z.unit u = { m.unit u with stop := true }) :
    m.EndsMotion (z.startLockStep i) i cause x := by
  have station : z.station i = { x with stopCause := cause, motionTimer := none } := (congrArg Site.x site :)
  have shut : (z.station i).shut = x.shut := by rw [station]; rfl
  refine ⟨fun open_ => ?_, fun closed => ?_⟩
  · have settings : z.settings = m.settings := (congrArg Site.settings site :)
    rw [State.startLockStep_of_open (shut.trans open_)]
    refine ⟨?_, queue, calls, unit⟩
    rw [State.site_setStation _ _ (by rfl), site, station, settings]
    rfl
  · rw [State.startLockStep_of_shut (shut.trans closed)]
    have locked : (z.setStation i (z.station i).lockedUp).site i = { z.site i with x := (z.site i).x.lockedUp } :=
      State.site_setStation _ _ (by rfl)
    refine ⟨_, rfl, ?_, ?_, acts.trans (.single (.station z _ rfl rfl)), queue, calls, unit⟩
    · rw [locked, site]
      rfl
    · rw [locked]
      exact stopping.lockedUp (shut.trans closed)

theorem State.stopMotion_stands : (s.stopMotion i cause).queue = s.queue ∧ (s.stopMotion i cause).calls = s.calls ∧
    ∀ u, (s.station i).unit = some u → (s.stopMotion i cause).unit u = { s.unit u with stop := true } := by
  refine ⟨?_, s.stopMotion_calls i cause, fun u unit => ?_⟩
  · unfold State.stopMotion State.setStop
    split <;> rfl
  · exact s.setStop_unit i unit true

/-- A motion that ends keeps its operation until the lock step is done (R16). -/
theorem State.endMotion_ends (h : (m.site i).Fit) (moves : (m.motionOf i).isSome = true) (cause : StopCause) :
    m.EndsMotion (m.endMotion i cause) i cause
      { m.station i with active := (m.station i).active.map ActiveOp.ended } := by
  have site := m.site_stopMotion (i := i) cause
  obtain ⟨queue, calls, unit⟩ := m.stopMotion_stands (i := i) (cause := cause)
  refine .of_halted (m.stopMotion_acts i cause) site ?_ queue calls unit
  rw [site]
  have := h.stopping moves cause (parked := (m.site i).x.parked) (.inl ⟨rfl, h.moving_parked moves⟩)
  exact this

/-- A motion whose operation is discarded at once (R96, R126, R142, R147). -/
theorem State.endMotionDiscard_ends (h : (m.site i).Fit) (moves : (m.motionOf i).isSome = true) (cause : StopCause) :
    m.EndsMotion (m.endMotionDiscard i cause) i cause { m.station i with active := none } := by
  have site : ((m.stopMotion i cause).dropActive i).site i = _ := State.site_dropActive _
  rw [State.site_stopMotion] at site
  obtain ⟨queue, calls, unit⟩ := m.stopMotion_stands (i := i) (cause := cause)
  refine .of_halted ((m.stopMotion_acts i cause).trans (State.dropActive_acts _ i)) site ?_ queue calls unit
  rw [site]
  refine h.stopping moves cause (parked := (m.site i).x.parked) (.inr ⟨rfl, fun p hp => ?_⟩)
  rw [h.moving_parked moves] at hp; cases hp

/-- The state an operation ends in, once its lock step is done (R102, R127, R142). -/
theorem Station.endsAs_work {w : Work} (work : w.activeIn x.state = true) (parked : x.parked = none) (well : x.endsWell) :
    x.EndsAs (w.endState x.stopCause (x.resting.getD .fast)) := by
  cases w with
  | trim d c => exact .inl ⟨((Work.activeIn_cases work).2).1 rfl, rfl⟩
  | heave => exact .inr ⟨parked, well, .inl ⟨by simpa [Work.activeIn] using work, rfl⟩⟩
  | slacken n => exact .inr ⟨parked, well, .inr (.inl ⟨by simpa [Work.activeIn] using work, rfl⟩)⟩
  | rewind => exact .inr ⟨parked, well, .inr (.inr ⟨by simpa [Work.activeIn] using work, rfl⟩)⟩

/-! ### The gear still shut: the lock step completes at its start -/

namespace State.EndsMotion

/-- The operation is over, and no critical render follows. -/
theorem rests (e : m.EndsMotion t i cause x) (shut : x.shut = true) {state : LineState}
    (ends : (x.stoppedShut cause).EndsAs state) (stow : state ≠ .stowed)
    (quiet : ¬(state = .fast ∧ m.Renders i cause)) : t.site i = { m.site i with
        x := (x.stoppedShut cause).rested state, c := (m.channel i).entering state, v := none } ∧
      t.queue = m.queue ∧ t.calls = m.calls := by
  obtain ⟨d, form, site, ending, -, queue, calls, -⟩ := e.completes shut
  have station : d.station i = x.stoppedShut cause := (congrArg Site.x site :)
  have channel : d.channel i = m.channel i := (congrArg Site.c site :)
  have hold : d.hold = m.hold := (congrArg Site.hold site :)
  have silent : ¬(state = .fast ∧ d.Renders i (d.station i).stopCause) := by
    unfold State.Renders
    rw [station, channel, hold]
    exact quiet
  obtain ⟨left, queued, called⟩ := State.lockStepDone_quiet ending (by rw [station]; exact ends) stow silent
  rw [form]
  exact ⟨left.trans (by rw [site]; rfl), queued.trans queue, called.trans calls⟩

/-- The operation is over in FAST, and the station asks for a critical render (R96). -/
theorem renders (e : m.EndsMotion t i cause x) (shut : x.shut = true) (ends : (x.stoppedShut cause).EndsAs .fast)
    (asks : m.Renders i cause) : t.site i = { m.site i with
        x := (x.stoppedShut cause).rested .fast, c := (m.channel i).entering .fast, v := none
        qs := [⟨i, .trim .outward true, false⟩] } ∧
      t.queue = insertTail ⟨i, .trim .outward true, false⟩ m.queue ∧ t.calls = m.calls := by
  obtain ⟨d, form, site, ending, -, queue, calls, -⟩ := e.completes shut
  have station : d.station i = x.stoppedShut cause := (congrArg Site.x site :)
  have channel : d.channel i = m.channel i := (congrArg Site.c site :)
  have hold : d.hold = m.hold := (congrArg Site.hold site :)
  have again : d.Renders i (d.station i).stopCause := by
    unfold State.Renders
    rw [station, channel, hold]
    exact asks
  obtain ⟨left, queued, called⟩ := State.lockStepDone_renders ending (by rw [station]; exact ends) again
  rw [form]
  exact ⟨left.trans (by rw [site]; rfl), queued.trans (by rw [queue]), called.trans calls⟩

/-- A REWIND that has reached its stow (R143). -/
theorem stows (e : m.EndsMotion t i cause x) (shut : x.shut = true) (lists : m.Sound)
    (ends : (x.stoppedShut cause).EndsAs .stowed) : ∃ c alert, t.site i = { m.site i with
        x := (x.stoppedShut cause).rested .stowed, c := c, r := none, v := none, alert := alert } ∧
      t.queue = m.queue ∧ (m.inForce.alertMode ≠ .criticalOnly → alert = m.alert) := by
  obtain ⟨d, form, site, ending, acts, queue, -, -⟩ := e.completes shut
  have station : d.station i = x.stoppedShut cause := (congrArg Site.x site :)
  have mode : d.inForce.alertMode = m.inForce.alertMode := (congrArg Site.mode site :)
  obtain ⟨⟨c, alert, left, -, -, level⟩, queued, -⟩ :=
    State.lockStepDone_stowed ending (acts.sound lists).lists (by rw [station]; exact ends)
  rw [site, station] at left
  rw [form]
  refine ⟨c, alert, left, queued.trans queue, fun other => (level (by rw [mode]; exact other)).trans ?_⟩
  exact (congrArg Site.alert site :)

theorem frees (e : m.EndsMotion t i cause x) (shut : x.shut = true) (sound : m.Sound)
    (unit : (m.station i).unit = some u) (same : x.unit = (m.station i).unit) :
    t.unit u = .unserved (if (m.unit u).state = .faulted then .faulted else .idle) := by
  obtain ⟨d, form, site, -, acts, -, -, units⟩ := e.completes shut
  have station : d.station i = x.stoppedShut cause := (congrArg Site.x site :)
  have freed := State.lockStepDone_released (acts.sound sound) (by rw [station]; exact same.trans unit)
  rw [units u unit] at freed
  rw [form]
  exact freed

end State.EndsMotion

end Sys2Proof.Machine

end

