-- ==== Sys2Proof/Proofs/MotionTests.lean ====
section

/-! PROOF. The tests of a motion on a drum position, and its timer (R22, R124 to R127). -/

namespace Sys2Proof.Machine

variable {s t m : State} {i : StationId} {u : UnitId} {a : ActiveOp} {n : Motion}

/-- A motion with its figure of the work left worked out on a drum position (R124). -/
abbrev ActiveOp.measured (a : ActiveOp) (n : Motion) (position length : Nat) : ActiveOp :=
  { a with phase := .moving { n with remaining := a.work.leftToDo n position length } }

theorem State.motionTests_eq (active : (s.station i).active = some a) (phase : a.phase = .moving n) :
    s.motionTests i =
      (let x := s.station i
      let p := s.setStation i { x with active := some (a.measured n (x.position.getD 0) x.length) }
      if a.work.atLimit (s.calibration i) x.state.moored (x.position.getD 0) x.length then p.endMotion i .limit
      else if a.work.terminal n (x.position.getD 0) x.length s.settings.stowTolerance then p.endMotion i .done
      else p) := by
  have motion : s.motionOf i = some n := by
    unfold State.motionOf ActiveOp.moving?
    rw [active, Option.bind_some, phase]
  unfold State.motionTests
  dsimp only
  rw [active, motion]
  rfl

/-- A station in motion with another figure of the work left. -/
theorem Site.Fit.measured {k : Site} (h : k.Fit) (active : k.x.active = some a) (phase : a.phase = .moving n) (n' : Motion) :
    Site.Fit { k with x := { k.x with active := some { a with phase := .moving n' } } } := by
  have moves : (k.x.active.bind ActiveOp.moving?).isSome = true := by
    rw [active, Option.bind_some]
    unfold ActiveOp.moving?
    rw [phase]
    rfl
  obtain ⟨w, b, n, act, fit⟩ := h.moving_cases moves
  obtain rfl : a = ⟨w, b, .moving n⟩ := Option.some.inj (active.symm.trans act)
  exact fit n'

/-- What a station in motion is doing: nothing waits, and a RUNNING unit serves it. -/
theorem Site.Doing.of_moving {k : Site} (h : k.Doing) (active : k.x.active = some a) (phase : a.phase = .moving n) :
    ∃ u d, k.x.unit = some u ∧ k.v = some d ∧ d.state = .running ∧ k.qs = [] ∧ k.x.parked = none ∧
      a.work.activeIn k.x.state = true ∧ k.x.locking = false := by
  cases h with
  | free _ _ _ none | pending _ _ _ _ _ none | parked _ _ _ _ _ _ none => rw [none] at active; cases active
  | awaiting b _ act => rw [act] at active; cases active; cases phase
  | granted u d w b _ act => rw [act] at active; cases active; cases phase
  | moving u d w b m qs act work v unit park timer unlocking state =>
    rw [act] at active
    cases active
    exact ⟨u, d, unit, v, state, qs, park, work, unlocking⟩
  | locking u d _ _ _ act =>
    obtain ⟨-, -, m, ended⟩ := act a active
    rw [phase] at ended
    cases ended

/-- What is kept of a motion's operation at its end (R124). -/
theorem ActiveOp.ended_of_moving (phase : a.phase = .moving n) :
    a.ended = { a with work := a.remainingWork, phase := .ended n } := by
  unfold ActiveOp.ended
  rw [phase]

/-- The end cause that the tests of a motion give: LIMIT before DONE (R22). -/
abbrev StopCause.ofTests (atLimit : Bool) : StopCause := if atLimit then .limit else .done

/-- What the tests of a motion leave: the motion goes on, or ends with LIMIT or DONE (R124, R125). -/
theorem State.motionTests_outcome (fit : (s.site i).Fit) (active : (s.station i).active = some a)
    (phase : a.phase = .moving n) {place length : Nat} (position : (s.station i).position.getD 0 = place)
    (out : (s.station i).length = length) :
    let x := s.station i
    let b := a.measured n place length
    let p := s.setStation i { x with active := some b }
    let atLimit := a.work.atLimit (s.calibration i) x.state.moored place length
    let terminal := a.work.terminal n place length s.settings.stowTolerance
    p.site i = { s.site i with x := { x with active := some b } } ∧
      (atLimit = false → terminal = false → s.motionTests i = p) ∧
      (atLimit = true ∨ terminal = true → p.EndsMotion (s.motionTests i) i (.ofTests atLimit)
        { x with active := some b.ended }) := by
  subst position out
  intro x b p atLimit terminal
  have site : p.site i = { s.site i with x := { x with active := some b } } := s.site_setStation _ rfl
  have eq := State.motionTests_eq active phase
  have station : p.station i = { x with active := some b } := (congrArg Site.x site :)
  have moves : (p.motionOf i).isSome = true := by
    unfold State.motionOf
    rw [station]
    rfl
  have fit' : (p.site i).Fit := by rw [site]; exact fit.measured active phase _
  have ends : ∀ cause, p.EndsMotion (p.endMotion i cause) i cause { x with active := some b.ended } := fun cause => by
    have e := State.endMotion_ends fit' moves cause
    rw [station] at e
    exact e
  refine ⟨site, fun off on => ?_, fun stops => ?_⟩
  · rw [eq]
    dsimp only
    rw [if_neg (Bool.eq_false_iff.1 off), if_neg (Bool.eq_false_iff.1 on)]
  · rw [eq]
    dsimp only
    by_cases limit : atLimit = true
    · rw [if_pos limit, show StopCause.ofTests atLimit = .limit from if_pos limit]
      exact ends _
    · rw [if_neg limit, if_pos (stops.resolve_left limit), show StopCause.ofTests atLimit = .done from if_neg limit]
      exact ends _

/-! ### A drum position in a motion -/

/-- The state that a drum position leaves before the tests of a motion (R8, R9). -/
abbrev State.measuredAt (s : State) (i : StationId) (count : Nat) : State :=
  { s.setStation i ((s.station i).measured (s.calibration i) count) with
    alert := if (s.calibration i).maxPayout < (s.calibration i).rawLength count ∧ (s.station i).beyondPmax = false
      then s.alertAfter i .limit else s.alert }

theorem Station.measured_eq (x : Station) (cal : Calibration) (count : Nat) : x.measured cal count = { x with
    position := some count
    length := min (cal.rawLength count) cal.maxPayout
    beyondPmax := decide (cal.maxPayout < cal.rawLength count)
    attention := (x.measured cal count).attention } := by
  unfold Station.measured
  dsimp only
  split <;> rfl

theorem State.site_measuredAt (count : Nat) : (s.measuredAt i count).site i = { s.site i with
    x := (s.station i).measured (s.calibration i) count, alert := (s.measuredAt i count).alert } := by
  rw [State.site_with_alert, State.site_setStation _ _ (by rw [Station.measured_eq]; rfl)]

theorem State.measuredAt_fit (h : (s.site i).Fit) (count : Nat) : ((s.measuredAt i count).site i).Fit := by
  have site := s.site_onStation (i := i) (fun x => { x with position := some count }) rfl
  have fit := (State.updateLength_fit (s := s.onStation i (fun x => { x with position := some count })) (i := i)
    (by rw [site]; exact h.position count)).1
  rw [State.drum_measured] at fit
  exact fit

theorem State.measuredAt_acts (count : Nat) : State.Acts i s (s.measuredAt i count) := by
  have acts : State.Acts i s ((s.onStation i (fun x => { x with position := some count })).updateLength i) :=
    (State.Acts.onStation s i (fun x => { x with position := some count }) rfl rfl).trans (State.updateLength_acts _ i)
  rw [State.drum_measured] at acts
  exact acts

/-- A drum position in a motion goes to the tests of the motion (R124, R125). -/
theorem State.drumAt_moving (holds : (s.station i).state.holdsUnit = true) (count : Nat) :
    s.drumAt i count = (s.measuredAt i count).motionTests i := by
  unfold State.drumAt State.drumMoved
  dsimp only
  rw [State.drum_measured, if_neg]
  have station : (s.measuredAt i count).station i = _ := s.station_setStation_self i _
  rw [station, Station.measured_eq]
  intro paying
  rw [paying] at holds
  cases holds

end Sys2Proof.Machine

end

