-- ==== Sys2Proof/Proofs/MotionEndEvents.lean ====
section

/-! PROOF. The ends of a motion as events: a drum position and the motion timer (R22, R124 to R127). -/

namespace Sys2Proof.Machine

variable {s t m : State} {i : StationId} {u : UnitId} {a : ActiveOp} {n : Motion}

/-- A unit that is not IDLE before the grants of an event stands through them (R113). -/
theorem State.Ends.unit_busy {v : State} (h : State.Ends i s t v) (busy : (t.unit u).state ≠ .idle) : v.unit u = t.unit u :=
  (h.unit u).resolve_right fun k => busy k.1

theorem State.motionOf_moving_eq (active : (s.station i).active = some a) (phase : a.phase = .moving n) :
    s.motionOf i = some n := by
  unfold State.motionOf ActiveOp.moving?
  rw [active, Option.bind_some, phase]

theorem Site.v_eq_unit {s : State} {d : DriveUnit} (unit : (s.station i).unit = some u) (v : (s.site i).v = some d) :
    s.unit u = d := by
  have unfolded : (s.site i).v = (s.station i).unit.map s.unit := rfl
  rw [unit] at unfolded
  exact Option.some.inj (unfolded.symm.trans v)

/-- Only a REWIND that is done ends in STOWED (R102, R127, R143). -/
theorem Station.Recorded.endState_stowed {x : Station} {r : Option Mooring} {w : Work} {cause : StopCause}
    (h : x.Recorded r) (stowed : w.endState cause (x.resting.getD .fast) = .stowed) : w = .rewind ∧ cause = .done := by
  cases w with
  | trim d c =>
    cases resting : x.resting with
    | none => rw [resting] at stowed; cases stowed
    | some state =>
      rw [resting] at stowed
      rcases h.restingState state resting with rfl | rfl <;> cases stowed
  | heave | slacken n => cases stowed
  | rewind =>
    refine ⟨rfl, ?_⟩
    by_contra other
    exact nomatch (if_neg other).symm.trans stowed

theorem State.Inv.motion_times_out (h : s.Inv) (running : s.phase = .running) (active : (s.station i).active = some a)
    (phase : a.phase = .moving n) (unit : (s.station i).unit = some u) :
    let x := s.station i
    ∃ t, exec (.motionTimerExpiry i) s = .next t ∧ s.OnlyAt t i ∧ t.mooring i = s.mooring i ∧
      s.sameCalls t ∧ t.permitsOk ∧ t.alert = s.alertAfter i .timeout ∧
      (x.shut = false →
        t.station i = (x.stopped .timeout none s.settings.gearLimit).noticing .timeout ∧
        t.unit u = { s.unit u with stop := true }) ∧
      (x.shut = true → s.freed t u ∧
        t.station i = ((x.stoppedShut .timeout).rested
          (a.work.endState .timeout (x.resting.getD .fast))).noticing .timeout) := by
  intro x
  have fit := h.fit i
  have motion := State.motionOf_moving_eq active phase
  have moves : (s.motionOf i).isSome = true := by rw [motion]; rfl
  have timer : (s.station i).motionTimer.isSome = true := (h.drive.timer i).trans moves
  obtain ⟨u', d, unit', v, state, qs, parked, work, -⟩ := fit.doing.of_moving active phase
  obtain rfl : u = u' := Option.some.inj (unit.symm.trans unit')
  have busy : (s.unit u).state = .running := by rw [Site.v_eq_unit unit v]; exact state
  have stops := State.endMotionDiscard_ends fit moves .timeout
  have acts : State.Acts i s _ := (s.endMotionDiscard_acts i .timeout).trans (State.raise_acts (s := s.endMotionDiscard i .timeout) (i := i) .timeout)
  have after := State.raise_after (State.endMotionDiscard_after fit moves .timeout) .timeout
  have ends := acts.ends h running after
  have event : exec (.motionTimerExpiry i) s =
      .next (State.settle s ((s.endMotionDiscard i .timeout).raise i .timeout)) :=
    congrArg Host.Outcome.next (if_pos ⟨running, timer, moves⟩)
  have raised : ∀ z c d, (s.endMotionDiscard i .timeout).site i = { s.site i with x := z, c := c, v := d } →
      z.attention = x.attention → (s.endMotionDiscard i .timeout).calls = s.calls →
      (State.settle s ((s.endMotionDiscard i .timeout).raise i .timeout)).mooring i = s.mooring i ∧
      s.sameCalls (State.settle s ((s.endMotionDiscard i .timeout).raise i .timeout)) ∧
      (State.settle s ((s.endMotionDiscard i .timeout).raise i .timeout)).alert = s.alertAfter i .timeout ∧
      (State.settle s ((s.endMotionDiscard i .timeout).raise i .timeout)).station i = z.noticing .timeout :=
    fun z c d left attention calls => by
      have site := State.site_raise (s.endMotionDiscard i .timeout) (i := i) .timeout
      rw [left] at site
      obtain ⟨-, record, alert, rests⟩ := ends.of_site site
      refine ⟨record, ends.sameCalls ((State.raise_calls _ i _).trans calls), alert.trans ?_, rests qs⟩
      unfold State.alertAfter
      rw [attention]
      rfl
  by_cases shut : x.shut = true
  · have over_ : ({ x with active := none }.stoppedShut .timeout).EndsAs (a.work.endState .timeout (x.resting.getD .fast)) :=
      Station.endsAs_work (x := { x with active := none }.stoppedShut .timeout) work parked fun k => by cases k
    have stow : a.work.endState .timeout (x.resting.getD .fast) ≠ .stowed := fun k =>
      nomatch (fit.recorded.endState_stowed k).2
    obtain ⟨left, queue, calls⟩ := stops.rests shut over_ stow (fun k => by cases k.2.1)
    have unit := stops.frees shut h.whole.sound unit rfl
    obtain ⟨record, calls, alert, rests⟩ := raised _ _ _ left rfl calls
    refine ⟨_, event, ends.onlyAt, record, calls, ends.permits, alert, fun k => ?_, fun _ => ⟨ends.freed ?_, rests⟩⟩
    · rw [shut] at k; cases k
    · rw [State.raise_eq]; exact unit
  · have open_ := Bool.eq_false_iff.2 shut
    obtain ⟨left, queue, calls, units⟩ := stops.locks open_
    obtain ⟨record, calls, alert, rests⟩ := raised _ _ _ left rfl calls
    refine ⟨_, event, ends.onlyAt, record, calls, ends.permits, alert, fun _ => ⟨rests, ?_⟩, fun k => absurd k shut⟩
    have told : ((s.endMotionDiscard i .timeout).raise i .timeout).unit u = { s.unit u with stop := true } := by
      rw [State.raise_eq]; exact units u unit
    rw [← told]
    exact ends.unit_busy (by rw [told]; exact fun k => nomatch busy.symm.trans k)

/-- The limits of the drum, for the operation of a station in motion: Pmin counts going in from a moored state (R125). -/
theorem Work.atLimit_of_active {w : Work} {state : LineState} (h : w.activeIn state = true) (cal : Calibration)
    (position : Nat) {length : Nat} : w.atLimit cal state.moored position length =
      match w.direction with
      | .outward => decide (cal.maxPayout ≤ cal.rawLength position)
      | .inward => decide (w ≠ .rewind) && decide (length ≤ cal.minLength) := by
  unfold Work.atLimit
  cases w with
  | trim d c =>
    obtain rfl := (Work.activeIn_cases h).2.1 rfl
    cases d <;> rfl
  | heave =>
    obtain rfl : state = .heaving := by simpa [Work.activeIn] using h
    rfl
  | slacken n => rfl
  | rewind =>
    obtain rfl : state = .rewinding := by simpa [Work.activeIn] using h
    rfl

/-- Settles O44: the tests on a drum position, and the motion timer. -/
theorem motionsEnd : Obligations.MotionsEnd := by
  intro s i count a n u h running active phase unit x cal raw P y m' b atLimit reached cause
  refine ⟨?_, h.motion_times_out running active phase unit⟩
  have fit := h.fit i
  obtain ⟨u', d, unit', v, state, qs, parked, work, -⟩ := fit.doing.of_moving active phase
  obtain rfl : u = u' := Option.some.inj (unit.symm.trans unit')
  have busy : (s.unit u).state = .running := by rw [Site.v_eq_unit unit v]; exact state
  have holds := (Work.activeIn_cases work).1
  have known : x.state ≠ .unknown := (LineState.endState_watched holds).2.2.1
  have acts := State.drumAt_acts (s := s) (i := i) count.toNat
  have after := h.drumAt_after (i := i) count.toNat
  have ends := acts.ends h running after
  have event := State.exec_drumPosition running known count
  have site := s.site_measuredAt (i := i) count.toNat
  have station : (s.measuredAt i count.toNat).station i = y := s.station_setStation_self i _
  obtain ⟨reason, eqs⟩ : ∃ reason, y = { x with
      position := some count.toNat, length := P, beyondPmax := decide (cal.maxPayout < raw), attention := reason } :=
    ⟨_, Station.measured_eq _ _ _⟩
  clear_value y
  subst eqs
  have outcome := State.motionTests_outcome (State.measuredAt_fit fit count.toNat)
    (by rw [station]; exact active) phase (place := count.toNat) (length := P) (by rw [station]; rfl) (by rw [station])
  rw [State.drumAt_moving holds] at acts after ends event
  rw [station] at outcome
  have limits : a.work.atLimit cal x.state.moored count.toNat P = atLimit :=
    Work.atLimit_of_active work cal count.toNat
  have reaches : a.work.terminal n count.toNat P s.settings.stowTolerance = reached := by
    dsimp only [reached]
    cases a.work with
    | trim d c => cases d <;> rfl
    | heave | slacken k | rewind => rfl
  dsimp only at outcome
  obtain ⟨left, goes, stops⟩ := outcome
  rw [show a.work.atLimit ((s.measuredAt i count.toNat).calibration i) x.state.moored count.toNat P = atLimit from limits,
    show a.work.terminal n count.toNat P (s.measuredAt i count.toNat).settings.stowTolerance = reached from reaches]
    at goes stops
  rw [site] at left
  generalize level : (s.measuredAt i count.toNat).alert = alarm at left
  have raised : cal.maxPayout < raw ∧ x.beyondPmax = false → alarm = s.alertAfter i .limit := fun k =>
    level.symm.trans (if_pos k)
  have sounds : ∀ z : Station, z.attention = reason → z.unit = x.unit → ((s.measuredAt i count.toNat).setStation i z).Sound :=
    fun z attention serves => State.Acts.sound ((State.measuredAt_acts count.toNat).trans
      (.single (.station _ _ (by rw [station]; exact attention) (by rw [station]; exact serves)))) h.whole.sound
  generalize made : (s.measuredAt i count.toNat).setStation i _ = p at left goes stops
  have sound : p.Sound := made ▸ sounds _ rfl rfl
  have same : p.queue = s.queue ∧ p.units = s.units ∧ p.calls = s.calls := by rw [← made]; exact ⟨rfl, rfl, rfl⟩
  obtain ⟨queue_p, units_p, calls_p⟩ := same
  have out := LineState.out_of_holdsUnit holds
  have left : p.site i = { s.site i with
      x := { x with
        position := some count.toNat, length := P, beyondPmax := decide (cal.maxPayout < raw), attention := reason
        active := some b }
      alert := alarm } := left
  have goes_on : atLimit = false → reached = false → let t := State.settle s ((s.measuredAt i count.toNat).motionTests i)
      t.station i = { x with
        position := some count.toNat, length := P, beyondPmax := decide (cal.maxPayout < raw), attention := reason
        active := some b } ∧ t.channel i = s.channel i ∧ t.units = s.units ∧ t.queue = s.queue ∧ t.mooring i = s.mooring i ∧
      s.callsKept t ∧ t.alert = alarm := fun off on => by
    have eq := goes off on
    rw [eq] at acts after ends ⊢
    obtain ⟨c, r, alert, rests⟩ := ends.of_site left
    have stands := acts.settle_eq h after calls_p queue_p units_p
      (State.holding_congr (congrArg (fun k : Site => k.x.state) left :) (congrArg Site.r left :) out)
      fun need _ => State.steadyFor_congr (congrArg (fun k : Site => k.x.state) left :) (congrArg Site.r left :)
        (congrArg (fun k : Site => k.c.steady) left :) need
    have kept := acts.keeps_calls h after calls_p (congrArg (fun k : Site => k.x.state) left :) (congrArg Site.r left :)
      (congrArg (fun k : Site => k.c.steady) left :) out
    exact ⟨rests qs, c, by rw [stands, units_p], by rw [stands, queue_p], r, kept, alert⟩
  have locks : atLimit = true ∨ reached = true → x.shut = false →
      let t := State.settle s ((s.measuredAt i count.toNat).motionTests i)
      t.station i = Station.stopped { x with
        position := some count.toNat, length := P, beyondPmax := decide (cal.maxPayout < raw), attention := reason } cause
        (some b.ended) s.settings.gearLimit ∧
      t.unit u = { s.unit u with stop := true } ∧ t.mooring i = s.mooring i ∧ s.callsKept t ∧ t.alert = alarm :=
    fun ended open_ => by
      obtain ⟨left', queue, calls, units⟩ := (stops ended).locks open_
      rw [left] at left'
      obtain ⟨c, r, alert, rests⟩ := ends.of_site left'
      have kept := acts.keeps_calls h after (calls.trans calls_p) (by rw [left']; rfl) (by rw [left']) (by rw [left']) out
      have settings : p.settings = s.settings := (congrArg Site.settings left :)
      rw [settings] at rests
      have told : ((s.measuredAt i count.toNat).motionTests i).unit u = { s.unit u with stop := true } := by
        rw [units u ((congrArg (fun k : Site => k.x.unit) left :).trans unit)]
        unfold State.unit
        rw [units_p]
      refine ⟨rests qs, ?_, r, kept, alert⟩
      rw [← told]
      exact ends.unit_busy (by rw [told]; exact fun k => nomatch busy.symm.trans k)
  have completes : atLimit = true ∨ reached = true → x.shut = true →
      let t := State.settle s ((s.measuredAt i count.toNat).motionTests i)
      let state := a.work.endState cause (x.resting.getD .fast)
      s.freed t u ∧ t.station i = (Station.stoppedShut { x with
        position := some count.toNat, length := P, beyondPmax := decide (cal.maxPayout < raw), attention := reason }
        cause).rested state ∧ t.mooring i = (if state = .stowed then none else s.mooring i) ∧
      (s.inForce.alertMode ≠ .criticalOnly → t.alert = alarm) := by
    intro ended shut t state
    have plain : cause ≠ .driveFault ∧ cause ≠ .critical := by
      dsimp only [cause]
      split <;> exact ⟨nofun, nofun⟩
    have ending : ∀ z : Station, z.state = x.state → z.resting = x.resting → z.parked = x.parked → z.stopCause = cause →
        z.EndsAs state := fun z still resting park stop => by
      have over_ := Station.endsAs_work (x := z) (w := a.work) (by rw [still]; exact work) (park.trans parked)
        fun k => absurd (stop.symm.trans k) plain.1
      rw [stop, resting] at over_
      exact over_
    have unit_p : (p.station i).unit = some u := (congrArg (fun k : Site => k.x.unit) left :).trans unit
    have frees := (stops ended).frees shut sound unit_p (unit.trans unit_p.symm)
    rw [show p.unit u = s.unit u by unfold State.unit; rw [units_p]] at frees
    refine ⟨ends.freed frees, ?_⟩
    by_cases stow : state = .stowed
    · rw [stow] at ending ⊢
      obtain ⟨c, alert, left', queue, level⟩ := (stops ended).stows shut sound (ending _ rfl rfl rfl rfl)
      rw [left] at left'
      obtain ⟨-, r, alert', rests⟩ := ends.of_site left'
      refine ⟨rests qs, r, fun mode => alert'.trans ((level ?_).trans (congrArg Site.alert left :))⟩
      have same : p.inForce.alertMode = s.inForce.alertMode := (congrArg Site.mode left :)
      rw [same]
      exact mode
    · obtain ⟨left', queue, calls⟩ := (stops ended).rests shut (ending _ rfl rfl rfl rfl) stow fun k => plain.2 k.2.1
      rw [left] at left'
      obtain ⟨-, r, alert', rests⟩ := ends.of_site left'
      rw [if_neg stow]
      exact ⟨rests qs, r, fun _ => alert'⟩
  refine ⟨_, event, ends.onlyAt, ends.permits, fun off on => ?_, fun ended => ⟨fun open_ => ?_, fun shut => ?_⟩, fun k mode => ?_⟩
  · obtain ⟨station, channel, units, queue, record, kept, -⟩ := goes_on off on
    exact ⟨station, channel, units, queue, record, kept⟩
  · obtain ⟨station, told, record, kept, -⟩ := locks ended open_
    exact ⟨station, told, record, kept⟩
  · obtain ⟨freed, station, record, -⟩ := completes ended shut
    exact ⟨freed, station, record⟩
  · rw [← raised k]
    by_cases ended : atLimit = true ∨ reached = true
    · by_cases shut : x.shut = true
      · obtain ⟨-, -, -, alert⟩ := completes ended shut
        exact alert mode
      · obtain ⟨-, -, -, -, alert⟩ := locks ended (Bool.eq_false_iff.2 shut)
        exact alert
    · rw [not_or, Bool.not_eq_true, Bool.not_eq_true] at ended
      obtain ⟨-, -, -, -, -, -, alert⟩ := goes_on ended.1 ended.2
      exact alert

end Sys2Proof.Machine

end

