-- ==== Sys2Proof/Proofs/UnitFaults.lean ====
section

/-! PROOF. The fault input of a unit, by the state of the unit (R118, R119 to R121, R177). -/

namespace Sys2Proof.Machine

variable {s t : State} {i : StationId} {u : UnitId} {a : ActiveOp}

/-- Nothing is granted where no unit becomes IDLE (R113). -/
theorem State.Stuck.of_busy (h : s.Stuck) (hold : t.hold = s.hold) (queue : t.queue = s.queue)
    (units : ∀ u, (s.unit u).state ≠ .idle → (t.unit u).state ≠ .idle) : t.Stuck := by
  unfold State.Stuck at h ⊢
  rw [State.idleUnit_eq_none] at h ⊢
  rw [hold, queue]
  exact h.imp_right (Or.imp_left fun k u => units u (k u))

/-- A unit that serves no station goes out of service, and nothing follows (R118). -/
theorem State.Inv.idle_fault (h : s.Inv) (idle : (s.unit u).state = .idle) : State.settle s (s.unitFault u) =
    { s.setUnit u (.unserved .faulted) with alert := s.alert || s.inForce.alertMode != .criticalOnly } := by
  have whole := h.whole
  have alike := State.faultUnit_alike whole.sound idle
  have stands : State.settle s (s.faultUnit u) = s.faultUnit u := by
    refine h.settle_eq ⟨whole.sound.faultUnit u, fun j => (alike j).fit (whole.fit j), fun j => (alike j).held (whole.held j)⟩
      (State.faultUnit_calls s u) (fun j => ?_) (fun need _ j => ?_) (h.grants.stuck.of_busy ?_ ?_ fun v busy => ?_)
    · rw [State.faultUnit_only]; rfl
    · rw [State.faultUnit_only]; rfl
    · rw [State.faultUnit_only]
    · rw [State.faultUnit_only]
    · by_cases e : v = u
      · subst e; exact absurd idle busy
      · rw [State.faultUnit_unit_of_ne e]; exact busy
  have unit : ({ s.unit u with state := .faulted, readyTimer := none, run := none, stop := true } : DriveUnit) =
      .unserved .faulted := by
    have ok := h.units u
    unfold DriveUnit.ok at ok
    rw [idle] at ok
    dsimp only
    rw [ok.1]
    rfl
  unfold State.unitFault
  rw [idle]
  dsimp only
  rw [stands, State.faultUnit_eq, unit]

/-! ### A unit that serves a motion (R118) -/

theorem State.setUnit_self (s : State) (u : UnitId) : s.setUnit u (s.unit u) = s := by
  simp [State.setUnit, State.unit]

/-- A unit that has gone out of service (R118). -/
abbrev DriveUnit.out (d : DriveUnit) : DriveUnit :=
  { d with state := .faulted, readyTimer := none, run := none, stop := true }

/-- What the fault of a RUNNING unit leaves before the end of a motion. -/
abbrev State.faulting (s : State) (u : UnitId) (i : StationId) : State :=
  { (s.setUnit u (s.unit u).out).setStation i ((s.station i).noticing .driveFault) with
    alert := s.alert || s.inForce.alertMode != .criticalOnly }

theorem State.faultUnit_raise : (s.faultUnit u).raise i .driveFault = s.faulting u i := by
  rw [State.raise_eq, State.faultUnit_eq]
  have level : ({ s.setUnit u (s.unit u).out with alert := s.alert || s.inForce.alertMode != .criticalOnly } :
      State).alertAfter i .driveFault = (s.alert || s.inForce.alertMode != .criticalOnly) := by
    change ((s.alert || s.inForce.alertMode != .criticalOnly) ||
      (_ && s.inForce.alertMode != .criticalOnly)) = (s.alert || s.inForce.alertMode != .criticalOnly)
    cases s.alert <;> cases s.inForce.alertMode != .criticalOnly <;> simp
  rw [level]
  rfl

theorem State.failRunning_eq (served : (s.unit u).served = some i) : s.failRunning u =
    if (s.motionOf i).isSome then (s.faulting u i).endMotion i .driveFault else s.faulting u i := by
  unfold State.failRunning
  rw [served]
  dsimp only
  rw [State.faultUnit_raise]

theorem State.unitFault_running (running : (s.unit u).state = .running) : s.unitFault u = s.failRunning u := by
  unfold State.unitFault
  rw [running]

theorem State.faulting_unit (v : UnitId) : (s.faulting u i).unit v = if v = u then (s.unit u).out else s.unit v :=
  s.unit_setUnit u v _

theorem State.faulting_station : (s.faulting u i).station i = (s.station i).noticing .driveFault :=
  State.station_setStation_self _ i _

theorem Site.Doing.holds_of_served {k : Site} (h : k.Doing) (unit : k.x.unit = some u) : k.x.state.holdsUnit = true := by
  cases h with
  | free _ _ none | pending _ _ _ _ none | parked _ _ _ _ _ none | awaiting _ _ _ _ _ none => rw [unit] at none; cases none
  | granted _ _ _ _ _ _ work | moving _ _ _ _ _ _ _ work => exact Work.holdsUnit_of_activeIn work
  | locking _ _ _ _ holds => exact holds

theorem State.faulting_stuck (h : s.Inv) (units : t.units = (s.faulting u i).units) (hold : t.hold = s.hold)
    (queue : t.queue = s.queue) : t.Stuck :=
  h.grants.stuck.of_busy hold queue fun v busy => by
    have same : t.unit v = (s.faulting u i).unit v := by unfold State.unit; rw [units]
    rw [same, State.faulting_unit]
    split
    · exact nofun
    · exact busy

/-- What the fault of a unit in a motion leaves where the gear is not shut (R16, R118). -/
abbrev State.faultStopped (s : State) (u : UnitId) (i : StationId) : State :=
  { (s.setUnit u (s.unit u).out).setStation i (((s.station i).noticing .driveFault).stopped .driveFault
      ((s.station i).active.map ActiveOp.ended) s.settings.gearLimit) with
    alert := s.alert || s.inForce.alertMode != .criticalOnly }

/-- An event that keeps the state, the record and the steady counter of its station, and gives nothing to grant, ends where
its acts do (R54, R55, R113). -/
theorem State.Acts.settle_still {old : LineState} (acts : State.Acts i s t) (h : s.Inv) (after : (t.site i).After old)
    (calls : t.calls = s.calls) (state : (t.station i).state = (s.station i).state) (record : t.mooring i = s.mooring i)
    (steady : (t.channel i).steady = (s.channel i).steady)
    (out : (s.station i).state ≠ .inLocal ∧ (s.station i).state ≠ .fault) (stuck : t.Stuck) : State.settle s t = t :=
  h.settle_eq (acts.whole h after) calls (acts.local.holding (State.holding_congr state record out))
    (fun need _ => acts.local.steadyFor (State.steadyFor_congr state record steady need)) stuck

/-- A unit that faults in its motion lock step keeps its station (R121). -/
theorem State.Inv.still_fault (h : s.Inv) (running : (s.unit u).state = .running) (served : (s.unit u).served = some i)
    (still : s.motionOf i = none) : State.settle s (s.unitFault u) = s.faulting u i := by
  have unit : (s.station i).unit = some u := (h.whole.sound.linked i u).2 served
  have acts := s.failRunning_acts i served
  have after := State.failRunning_after (h.fit i) (h.held i) served unit running
  have state := congrArg Station.state (s.faulting_station (u := u) (i := i))
  have out := LineState.out_of_holdsUnit ((h.fit i).doing.holds_of_served unit)
  rw [State.unitFault_running running]
  rw [State.failRunning_eq served, still, if_neg (by decide)] at acts after ⊢
  exact acts.settle_still h after rfl state rfl rfl out (State.faulting_stuck (u := u) (i := i) h rfl rfl rfl)

/-- A unit that faults in a motion, the gear not shut: the motion lock step is in flight (R16, R118). -/
theorem State.Inv.moving_fault_open (h : s.Inv) (running : (s.unit u).state = .running)
    (served : (s.unit u).served = some i) (moves : (s.motionOf i).isSome = true)
    (open_ : ((s.station i).noticing .driveFault).shut = false) : State.settle s (s.unitFault u) =
      s.faultStopped u i := by
  have unit : (s.station i).unit = some u := (h.whole.sound.linked i u).2 served
  have acts := s.failRunning_acts i served
  have after := State.failRunning_after (h.fit i) (h.held i) served unit running
  have out := LineState.out_of_holdsUnit ((h.fit i).doing.holds_of_served unit)
  have station := s.faulting_station (u := u) (i := i)
  have form : (s.faulting u i).endMotion i .driveFault = s.faultStopped u i := by
    have told : (s.faulting u i).setStop i true = s.faulting u i := by
      unfold State.setStop
      rw [station, show ((s.station i).noticing .driveFault).unit = some u from unit]
      have same : ({ (s.faulting u i).unit u with stop := true } : DriveUnit) = (s.faulting u i).unit u := by
        rw [State.faulting_unit, if_pos rfl]
      exact (congrArg ((s.faulting u i).setUnit u) same).trans (State.setUnit_self _ u)
    unfold State.endMotion State.stopMotion
    rw [told, State.onStation_eq, station, State.startLockStep_of_open (by rw [State.station_setStation_self]; exact open_),
      State.station_setStation_self, State.setStation_setStation]
    exact State.setStation_setStation_alert _ _ _
  rw [State.unitFault_running running]
  rw [State.failRunning_eq served, if_pos moves, form] at acts after ⊢
  have stopped : (s.faultStopped u i).station i = Station.stopped _ _ _ _ := State.station_setStation_self _ i _
  have state : ((s.faultStopped u i).station i).state = (s.station i).state := by rw [stopped]; rfl
  exact acts.settle_still h after rfl state rfl rfl out (State.faulting_stuck (u := u) (i := i) h rfl rfl rfl)

/-! ### The gear still shut: the operation has failed (R120, R121) -/

theorem State.site_faulting (unit : (s.station i).unit = some u) : (s.faulting u i).site i = { s.site i with
    x := (s.station i).noticing .driveFault, v := some (s.unit u).out
    alert := s.alert || s.inForce.alertMode != .criticalOnly } := by
  have v : (s.site i).v = some (s.unit u) := by
    change (s.site i).x.unit.map s.unit = _
    rw [show (s.site i).x.unit = some u from unit]
    rfl
  have site := State.site_raise (s.faultUnit u) (i := i) .driveFault
  rw [State.faultUnit_raise, s.site_faultUnit unit, v] at site
  have level : (s.faulting u i).alert = ((s.faulting u i).site i).alert := rfl
  rw [site] at level ⊢
  exact congrArg (fun alarm => { s.site i with
    x := (s.station i).noticing .driveFault, v := some (s.unit u).out, alert := alarm }) level.symm

/-- The fault of a unit ends its motion with DRIVE-FAULT. -/
theorem State.faulting_ends (fit : (s.site i).Fit) (unit : (s.station i).unit = some u)
    (moves : (s.motionOf i).isSome = true) : (s.faulting u i).EndsMotion ((s.faulting u i).endMotion i .driveFault) i
      .driveFault { (s.station i).noticing .driveFault with active := (s.station i).active.map ActiveOp.ended } := by
  have site := s.site_faulting unit
  have stopping := fit.stopping moves .driveFault (active := (s.site i).x.active.map ActiveOp.ended)
    (parked := (s.site i).x.parked) (.inl ⟨rfl, fit.moving_parked moves⟩)
  have stopped := (s.faulting u i).site_stopMotion (i := i) .driveFault
  have stops : (((s.faulting u i).stopMotion i .driveFault).site i).Stopping := by
    rw [stopped, site]
    exact ⟨stopping.recorded.congr rfl rfl rfl, stopping.sensed, stopping.watched, stopping.qs, rfl, stopping.holds,
      stopping.active, stopping.parked, u, _, unit, rfl, nofun, rfl⟩
  obtain ⟨queue, calls, units⟩ := (s.faulting u i).stopMotion_stands (i := i) (cause := .driveFault)
  have station := s.faulting_station (u := u) (i := i)
  refine .of_halted ((s.faulting u i).stopMotion_acts i .driveFault) ?_ stops queue calls units
  rw [stopped, ← State.station_eq_site, station]
  rfl

section

variable {m : State} {x : Station} {a : ActiveOp}

/-- A second failure in motion, the gear still shut (R120). -/
theorem State.EndsMotion.abandons (e : m.EndsMotion t i .driveFault x) (shut : x.shut = true) (active : x.active = some a)
    (trimming : x.state ≠ .trimming) (retried : a.retryUsed = true) : t.site i = { m.site i with
        x := ((x.stoppedShut .driveFault).rested x.state.abandoned).noticing .driveFault
        c := (m.channel i).entering x.state.abandoned, v := none
        alert := m.alert || (Attention.driveFault.outranks x.attention && m.inForce.alertMode != .criticalOnly) } ∧
      t.calls = m.calls := by
  obtain ⟨d, form, site, ending, -, -, calls, -⟩ := e.completes shut
  have station : d.station i = x.stoppedShut .driveFault := (congrArg Site.x site :)
  have alert : d.alert = m.alert := (congrArg Site.alert site :)
  have mode : d.inForce.alertMode = m.inForce.alertMode := (congrArg Site.mode site :)
  obtain ⟨left, -, called⟩ := State.lockStepDone_abandons ending (a := a) (by rw [station]; exact active)
    (by rw [station]; exact trimming) (by rw [station]; rfl) retried
  rw [form]
  refine ⟨left.trans ?_, called.trans calls⟩
  unfold State.alertAfter
  rw [site, station, alert, mode]
  rfl

/-- A first failure in motion, the gear still shut (R120). -/
theorem State.EndsMotion.requeues (e : m.EndsMotion t i .driveFault x) (shut : x.shut = true) (active : x.active = some a)
    (trimming : x.state ≠ .trimming) (first : a.retryUsed = false) (free : m.hold = false) : t.site i = { m.site i with
        x := { x.stoppedShut .driveFault with unit := none, active := none }, v := none
        qs := [⟨i, a.remainingWork, true⟩] } ∧
      t.queue = insertHead ⟨i, a.remainingWork, true⟩ m.queue ∧ t.calls = m.calls := by
  obtain ⟨d, form, site, ending, -, queue, calls, -⟩ := e.completes shut
  have station : d.station i = x.stoppedShut .driveFault := (congrArg Site.x site :)
  have hold : d.hold = m.hold := (congrArg Site.hold site :)
  obtain ⟨left, queued, called⟩ := State.lockStepDone_requeues ending (a := a) (by rw [station]; exact active)
    (by rw [station]; exact trimming) (by rw [station]; rfl) first (hold.trans free)
  rw [form]
  refine ⟨left.trans ?_, by rw [queued, queue], called.trans calls⟩
  rw [site, station]

end

/-- An operation in motion. -/
theorem State.moving_phase (active : (s.station i).active = some a) (moves : (s.motionOf i).isSome = true) :
    ∃ n, a.phase = .moving n := by
  rw [State.motionOf_of_active active] at moves
  unfold ActiveOp.moving? at moves
  split at moves
  · next n phase => exact ⟨n, phase⟩
  all_goals cases moves

theorem State.Inv.moving_fault_shut (h : s.Inv) (running' : s.phase = .running) (running : (s.unit u).state = .running)
    (served : (s.unit u).served = some i) (active : (s.station i).active = some a) (moves : (s.motionOf i).isSome = true)
    (shut : ((s.station i).noticing .driveFault).shut = true) :
    let x := (s.station i).noticing .driveFault
    let z := x.stoppedShut .driveFault
    let t := State.settle s (s.unitFault u)
    t.unit u = .unserved .faulted ∧ s.OnlyAt t i ∧ t.mooring i = s.mooring i ∧ s.sameCalls t ∧ t.permitsOk ∧
      t.alert = (s.alert || s.inForce.alertMode != .criticalOnly) ∧
      (a.work.isTrim = true → ∀ state ∈ x.resting,
        t.station i = z.rested state ∧ t.channel i = (s.channel i).entering state) ∧
      (a.work.isTrim = false → a.retryUsed = true →
        t.station i = z.rested x.state.abandoned ∧ t.channel i = (s.channel i).entering x.state.abandoned) ∧
      (a.work.isTrim = false → a.retryUsed = false →
        s.requeues t i { z with unit := none, active := none } ⟨i, a.remainingWork, true⟩ ∧ t.channel i = s.channel i) := by
  intro x z t
  have fit := h.fit i
  have unit : (s.station i).unit = some u := (h.whole.sound.linked i u).2 served
  have acts := s.failRunning_acts i served
  have after := State.failRunning_after fit (h.held i) served unit running
  have form : s.unitFault u = (s.faulting u i).endMotion i .driveFault :=
    (State.unitFault_running running).trans ((State.failRunning_eq served).trans (if_pos moves))
  rw [← State.unitFault_running running] at acts after
  have ends := acts.ends h running' after
  have stops := State.faulting_ends fit unit moves
  rw [← form] at stops
  obtain ⟨n, phase⟩ := State.moving_phase active moves
  obtain ⟨-, -, -, -, -, qs, parked, work, -⟩ := fit.doing.of_moving active phase
  have free : s.hold = false := (h.held i).free_of_moving moves
  have site := s.site_faulting unit
  have queue : (s.faulting u i).queue = s.queue := rfl
  have ended : a.ended.remainingWork = a.remainingWork := by
    rw [ActiveOp.ended_of_moving phase]
    exact ActiveOp.remainingWork_ended rfl
  have act : ({ x with active := (s.station i).active.map ActiveOp.ended } : Station).active = some a.ended := by
    rw [active]; rfl
  have retries : a.ended.retryUsed = a.retryUsed := by rw [ActiveOp.ended_of_moving phase]
  have told : (s.unitFault u).unit u = .unserved .faulted := by
    have unit' : ((s.faulting u i).station i).unit = some u := (congrArg (fun k : Site => k.x.unit) site :).trans unit
    have sound : (s.faulting u i).Sound := by
      rw [← State.faultUnit_raise]
      exact State.Acts.sound (.trans (.single (.faultUnit s u served)) (State.raise_acts _ i _)) h.whole.sound
    have freed := stops.frees shut sound unit' (unit.trans unit'.symm)
    rw [State.faulting_unit, if_pos rfl] at freed
    exact freed
  have plain : ∀ k : Site, (s.unitFault u).site i = k → k.r = s.mooring i →
      k.alert = (s.alert || s.inForce.alertMode != .criticalOnly) → (s.unitFault u).calls = s.calls →
      t.mooring i = s.mooring i ∧ s.sameCalls t ∧ t.alert = (s.alert || s.inForce.alertMode != .criticalOnly) :=
    fun k left record alert calls => by
      obtain ⟨-, r, level, -⟩ := ends.of_site left
      exact ⟨r.trans record, ends.sameCalls calls, level.trans alert⟩
  have freed : t.unit u = .unserved .faulted := (ends.unit_busy (by rw [told]; exact nofun)).trans told
  by_cases trim : a.work.isTrim = true
  · obtain ⟨state, resting⟩ := Option.isSome_iff_exists.1 (fit.recorded.resting.2 ((Work.activeIn_cases work).2.1 trim))
    have still := fit.recorded.restingState state resting
    obtain ⟨left, -, calls⟩ := stops.rests shut (state := state)
      (.inl ⟨(Work.activeIn_cases work).2.1 trim, (congrArg (fun r : Option LineState => r.getD .fast) resting).symm⟩)
      (by rcases still with rfl | rfl <;> exact nofun) (fun k => nomatch k.2.1)
    rw [site] at left
    obtain ⟨record, same, alert⟩ := plain _ left rfl rfl calls
    obtain ⟨c, -, -, rests⟩ := ends.of_site left
    refine ⟨freed, ends.onlyAt, record, same, ends.permits, alert, fun _ state' resting' => ?_, fun k => ?_, fun k => ?_⟩
    · obtain rfl : state = state' := Option.some.inj (resting.symm.trans resting')
      exact ⟨rests qs, c⟩
    all_goals exact nomatch trim.symm.trans k
  have trim := Bool.eq_false_iff.2 trim
  have trimming : x.state ≠ .trimming := fun k => nomatch trim.symm.trans ((Work.activeIn_cases work).2.2 k)
  by_cases retried : a.retryUsed = true
  · obtain ⟨left, calls⟩ := stops.abandons shut act trimming (retries.trans retried)
    have noticed : Attention.driveFault.outranks x.attention = false := Station.outranks_noticing _ _
    rw [site] at left
    have level : ∀ l mode : Bool, (l || (Attention.driveFault.outranks x.attention && mode)) = l := fun l mode => by
      rw [noticed, Bool.false_and, Bool.or_false]
    obtain ⟨record, same, alert⟩ := plain _ left rfl (level _ _) calls
    obtain ⟨c, -, -, rests⟩ := ends.of_site left
    exact ⟨freed, ends.onlyAt, record, same, ends.permits, alert, fun k => (nomatch trim.symm.trans k),
      fun _ _ => ⟨(rests qs).trans (Station.noticing_of_not_outranks noticed), c⟩, fun _ k => (nomatch retried.symm.trans k)⟩
  · obtain ⟨left, queued, calls⟩ := stops.requeues shut act trimming (retries.trans (Bool.eq_false_iff.2 retried)) free
    rw [site, ended] at left
    rw [ended] at queued
    obtain ⟨record, same, alert⟩ := plain _ left rfl rfl calls
    obtain ⟨c, -, -, -⟩ := ends.of_site left
    exact ⟨freed, ends.onlyAt, record, same, ends.permits, alert, fun k => (nomatch trim.symm.trans k),
      fun _ k => absurd k retried, fun _ _ => ⟨ends.of_request left rfl rfl qs queued, c⟩⟩

end Sys2Proof.Machine

end

