-- ==== Sys2Proof/Proofs/UnitResets.lean ====
section

/-! PROOF. RESET-DRIVE, and the fault input of a unit (R111, R113, R118, R122). -/

namespace Sys2Proof.Machine

variable {s t : State} {u : UnitId} {len unit : Byte}

theorem unitOf_of_above (h : 3 < unit.toNat) : unitOf unit = none := dif_neg (by omega)

theorem unitOf_of_eq (h : unit.toNat = u.val) : unitOf unit = some u := by
  unfold unitOf
  rw [dif_pos (by omega)]
  exact congrArg some (Fin.ext h)

theorem exec_resetDrive (served : s.serves Command.resetDrive len) : exec (.resetDrive len unit) s = .next
    (match unitOf unit with
      | none => s.refuse Command.resetDrive .driveState
      | some u =>
        if (s.unit u).state ≠ .faulted ∨ (s.unit u).served.isSome = true ∨ s.inputs.fault[u] = true
        then s.refuse Command.resetDrive .driveState
        else (State.settle s (s.setUnit u (.unserved .idle)).reformFollow).respond Command.resetDrive .ok []) := by
  refine congrArg Host.Outcome.next ((State.unicast_answered served).trans ?_)
  cases unitOf unit with
  | none => rfl
  | some u =>
    dsimp only
    rw [State.answered_check, State.answered_check, State.answered_check, State.answered_ok]
    by_cases faulted : (s.unit u).state = .faulted
    · rw [if_neg (by simp [faulted])]
      by_cases serves : (s.unit u).served.isSome = true
      · rw [if_pos serves, if_pos (.inr (.inl serves))]
      · rw [if_neg serves]
        by_cases fault : s.inputs.fault[u] = true
        · rw [if_pos fault, if_pos (.inr (.inr fault))]
        · rw [if_neg fault, if_neg (by simp [faulted, serves, fault])]
    · rw [if_pos (by simp [faulted]), if_pos (.inl faulted)]

/-- An event at no station keeps each station, but for the grants at its end. -/
theorem State.Whole.kept (whole : t.Whole) (sound : t.Sound) (before : State) (j : StationId) :
    t.keptAt (State.settle before t) j := by
  have apart : j ≠ j + 1 := by
    revert j; decide
  exact ((State.Acts.onlyAt (i := j + 1) .refl sound whole before).others j apart)

/-- A unit that returns to IDLE, where it may be granted at once (R122). -/
theorem State.Inv.unit_resets (h : s.Inv) (free : (s.unit u).served = none) (faulted : (s.unit u).state = .faulted) :
    let t := State.settle s (s.setUnit u (.unserved .idle)).reformFollow
    (t.unit u = .unserved .idle ∨ (t.unit u).state = .granted) ∧
      (t.unit u = .unserved .idle → t.queue = [] ∨ s.hold = true) ∧ (∀ v, v ≠ u → t.unit v = s.unit v) ∧
      (∀ j, s.keptAt t j) ∧ s.callsKept t ∧ (s.setUnit u (.unserved .idle)).reformFollow.backdrop = s.backdrop ∧
      t.alert = if s.inForce.alertMode = .follow then
          allUnits.any (fun v => v != u && (s.unit v).state == .faulted) ||
            allStations.any (fun j => (s.station j).attention != .none)
        else s.alert := by
  obtain ⟨sound, only, units, alike⟩ := h.resetUnit (u := u) free
  have level : (s.setUnit u (.unserved .idle)).reformFollow.alert = if s.inForce.alertMode = .follow then
      allUnits.any (fun v => v != u && (s.unit v).state == .faulted) ||
        allStations.any (fun j => (s.station j).attention != .none) else s.alert := by
    unfold State.reformFollow
    have follow : (s.setUnit u (.unserved .idle)).followLevel = (allUnits.any (fun v => v != u && (s.unit v).state == .faulted) ||
        allStations.any (fun j => (s.station j).attention != .none)) := by
      unfold State.followLevel
      rw [Bool.or_comm]
      refine congrArg (· || _) (congrArg allUnits.any (funext fun v => ?_))
      rw [State.unit_setUnit]
      by_cases e : v = u <;> simp [e, DriveUnit.unserved]
    cases mode : s.inForce.alertMode <;> simp [mode, follow]
  generalize (s.setUnit u (.unserved .idle)).reformFollow = r at sound only units alike level
  intro t
  have whole : r.Whole := ⟨sound, fun j => (alike j).fit (h.fit j), fun j => (alike j).held (h.held j)⟩
  have hold : r.hold = s.hold := by rw [only]
  have queue : r.queue = s.queue := by rw [only]
  have backdrop : r.backdrop = s.backdrop := by rw [only]; rfl
  have unit : r.unit u = .unserved .idle := (units u).trans (if_pos rfl)
  refine ⟨?_, fun idle => ?_, fun v other => ?_, fun j => ?_, ?_, backdrop, (State.settle_alert s r).trans level⟩
  · dsimp only [t]
    rw [State.settle_unit_eq]
    exact (r.grantAll_unit_cases u).imp (fun same => same.trans unit) And.right
  · by_contra waits
    obtain ⟨some, free⟩ := not_or.1 waits
    dsimp only [t] at idle some
    rw [State.settle_unit_eq] at idle
    rw [State.settle_queue] at some
    have held : r.grantAll.hold = false := (congrArg State.hold r.grantAll_only.backdrop :).trans (hold.trans (Bool.eq_false_iff.2 free))
    exact r.grantAll_grantsOk held some u (by rw [idle]; rfl)
  · dsimp only [t]
    rw [State.settle_unit_eq]
    have same : r.unit v = s.unit v := (units v).trans (if_neg other)
    by_cases stuck : r.Stuck
    · rw [stuck.grantAll]
      exact same
    · obtain ⟨free, rest⟩ := not_or.1 stuck
      obtain ⟨-, waits⟩ := not_or.1 rest
      rw [hold] at free
      rw [queue] at waits
      refine ((r.grantAll_unit_cases v).resolve_right fun k => ?_).trans same
      rw [same] at k
      exact h.grants (Bool.eq_false_iff.2 free) waits v k.1
  · have kept := whole.kept sound s j
    have channel : r.channel j = s.channel j := by rw [only]; rfl
    have record : r.mooring j = s.mooring j := by rw [only]; rfl
    have station : r.station j = s.station j := by rw [only]; rfl
    have request : r.requestOf j = s.requestOf j := by rw [only]; rfl
    unfold State.keptAt at kept ⊢
    rw [channel, record, station, request] at kept
    exact kept
  · have holding : ∀ j, r.holding j = s.holding j := fun j => by rw [only]; rfl
    have steady : ∀ need, 1 ≤ need → ∀ j, r.steadyFor need j = s.steadyFor need j := fun need _ j => by rw [only]; rfl
    have calls : r.calls = s.calls := by rw [only]
    exact h.settle_callsKept whole calls (by rw [only]) (by rw [only]) (h.stay calls holding steady)

/-- Settles O46: the fault input by the state of the unit, and RESET-DRIVE. -/
theorem unitFaultsAndTheirReset : Obligations.UnitFaultsAndTheirReset := by
  intro s u h running asserted out alert
  have changed : asserted.Inv := h.inputs _
  have runs : asserted.phase = .running := running
  have event : exec (.unitFaultAsserted u) s = .next (State.settle asserted (asserted.unitFault u)) :=
    congrArg Host.Outcome.next (if_pos running)
  rw [event]
  refine ⟨fun faulted => ?_, fun idle => ?_, fun busy i served => ⟨fun still => ?_, fun moves open_ => ?_, fun moves shut a active => ?_⟩,
    fun len unit serves => ⟨fun above => ?_, fun named => ⟨fun fails => ?_, fun faulted free input => ?_⟩⟩⟩
  · refine congrArg Host.Outcome.next ?_
    unfold State.unitFault
    rw [show (asserted.unit u).state = .faulted from faulted]
    exact State.Acts.settle_eq (i := 0) .refl changed (.stay (changed.fit 0) (changed.held 0) rfl) rfl rfl rfl rfl fun _ _ => rfl
  · exact congrArg Host.Outcome.next (changed.idle_fault idle)
  · exact congrArg Host.Outcome.next (changed.still_fault busy served still)
  · exact congrArg Host.Outcome.next (changed.moving_fault_open busy served moves open_)
  · exact ⟨_, rfl, changed.moving_fault_shut runs busy served active moves shut⟩
  · rw [exec_resetDrive serves, unitOf_of_above above]
  · rw [exec_resetDrive serves, unitOf_of_eq named]
    exact congrArg Host.Outcome.next (if_pos fails)
  · rw [exec_resetDrive serves, unitOf_of_eq named]
    dsimp only
    rw [if_neg (by simp [faulted, free, input])]
    obtain ⟨unit, waits, others, kept, calls, backdrop, alert⟩ := h.unit_resets free faulted
    exact ⟨_, rfl, unit, waits, others, kept, calls, State.settle_respond_backdrop backdrop _ _ _, alert⟩

end Sys2Proof.Machine

end

