-- ==== Sys2Proof/Proofs/ReadingsBelow.lean ====
section

/-! PROOF. Readings below K outside FAST: what they find, the end of a HEAVE at its target and of a REWIND on a snag
(R79, R86, R104, R142). -/

namespace Sys2Proof.Machine

variable {s t m : State} {i : StationId} {u : UnitId} {a : ActiveOp} {v : Nat}

/-- The channel after a reading below K outside FAST (R78, R79, R86). -/
def Channel.below (c : Channel) (state : LineState) (v : Nat) (r : Mooring) : Channel :=
  { c.formed v with
    critCount := 0
    critCondition := c.critCondition && decide (r.criticalLimit ≤ v + r.hysteresis)
    steady := if state ≠ .trimming ∨ r.stale = true then 0
      else if r.slackLimit ≤ v then min 255 (c.steady + 1) else 0 }

theorem Mooring.critAfter_below {r : Mooring} (calm : v < r.criticalLimit) (held : Bool) :
    r.critAfter held v = (held && decide (r.criticalLimit ≤ v + r.hysteresis)) := by
  unfold Mooring.critAfter
  rw [if_neg (not_le.2 calm)]
  split
  · next clear => rw [decide_eq_false (not_le.2 clear), Bool.and_false]
  · next stays => rw [decide_eq_true (not_lt.1 stays), Bool.and_true]

/-- The critical test of a reading below K (R78, R79). -/
theorem Channel.judged_below {c : Channel} {r : Mooring} (calm : v < r.criticalLimit) : c.judged r v = { c with
    critCount := 0, critCondition := c.critCondition && decide (r.criticalLimit ≤ v + r.hysteresis) } := by
  unfold Channel.judged
  rw [Mooring.critAfter_below calm, show r.isCritical v = false from decide_eq_false (not_le.2 calm)]
  rfl

theorem Mooring.inBand_below {r : Mooring} (calm : v < r.criticalLimit) : r.inBand v = decide (r.slackLimit ≤ v) := by
  unfold Mooring.inBand
  simp [calm]

theorem Channel.below_eq {c : Channel} {state : LineState} {record : Option Mooring} {d : Nat}
    (h : c.Watched state record d) {r : Mooring} (calm : v < r.criticalLimit) (out : state ≠ .fast) :
    (((c.formed v).judged r v).joined r state v).steadied r state v = c.below state v r := by
  have joined : ((c.formed v).judged r v).joined r state v = (c.formed v).judged r v := if_neg fun k => out k.1
  rw [joined, Channel.judged_below calm]
  unfold Channel.steadied Channel.below
  by_cases trimming : state = .trimming
  · rw [if_pos (.inr trimming), Mooring.inBand_below calm]
    simp only [trimming, ne_eq, not_true_eq_false, false_or, decide_eq_true_eq]
    rfl
  · have still : c.steady = 0 := (h.out_of_band ⟨out, trimming⟩).1
    rw [if_neg (by simp [out, trimming]), if_pos (.inl trimming)]
    simp only [Channel.formed, still]

/-- A reading below K outside FAST: what it leaves before the station's own part, and then that part. -/
theorem State.Inv.validSample_below (h : s.Inv) {raw : Nat} (last : (s.channel i).count + 1 = (s.calibration i).decimation)
    (reading : v = s.formedReading i raw) (calm : ∀ r ∈ s.mooring i, v < r.criticalLimit)
    (out : (s.station i).state ≠ .fast) {d : Channel}
    (found : d = ((s.mooring i).map ((s.channel i).below (s.station i).state v)).getD ((s.channel i).formed v)) :
    ∃ m alarm, m = s.read i (s.station i) d alarm ∧ m.site i = { s.site i with c := d, alert := alarm } ∧
      (s.inForce.alertMode ≠ .criticalOnly ∨ s.mooring i = none → alarm = s.alert) ∧ State.Acts i s m ∧ (m.site i).Fit ∧
      s.validSample i raw = m.readingByState i v false := by
  subst reading found
  suffices core : ∃ m alarm, m = s.read i (s.station i) (((s.mooring i).map ((s.channel i).below (s.station i).state
        (s.formedReading i raw))).getD ((s.channel i).formed (s.formedReading i raw))) alarm ∧
      (s.inForce.alertMode ≠ .criticalOnly ∨ s.mooring i = none → alarm = s.alert) ∧ State.Acts i s m ∧ (m.site i).Fit ∧
      s.validSample i raw = m.readingByState i (s.formedReading i raw) false by
    obtain ⟨m, alarm, form, rest⟩ := core
    exact ⟨m, alarm, form, by rw [form]; exact State.site_read _ _ _ rfl, rest⟩
  obtain ⟨acts, fit, same⟩ := h.stages_fit (raw := raw) last
  have isCritical : State.isCriticalAt ((s.setChannel i ((s.channel i).formed (s.formedReading i raw))).stages i
      (s.formedReading i raw)) i (s.formedReading i raw) = false := by
    unfold State.isCriticalAt
    rw [State.mooring_eq_site, same.r, ← State.mooring_eq_site]
    cases record : s.mooring i with
    | none => rfl
    | some r => exact decide_eq_false (not_le.2 (calm r record))
  have form : s.validSample i raw = State.readingByState ((s.setChannel i ((s.channel i).formed (s.formedReading i raw))).stages
      i (s.formedReading i raw)) i (s.formedReading i raw) false := by
    rw [State.validSample_forming last, State.controllerReading, if_neg (by rw [isCritical]; exact Bool.false_ne_true)]
  cases record : s.mooring i with
  | none =>
    refine ⟨_, s.alert, ?_, fun _ => rfl, acts, fit, form⟩
    rw [State.stages_of_none (s := s.setChannel i _) record]
    exact (State.read_self _).symm
  | some r =>
    have read := State.stages_read h.alertFits record (c := (s.channel i).formed (s.formedReading i raw)) rfl
      (s.formedReading i raw)
    have surges : (((s.channel i).formed (s.formedReading i raw)).judged r (s.formedReading i raw)).surges r
        (s.station i).state (s.formedReading i raw) = false := decide_eq_false fun k => out k.1
    dsimp only at read
    have below : ((((s.channel i).formed (s.formedReading i raw)).judged r (s.formedReading i raw)).joined r (s.station i).state
        (s.formedReading i raw)).steadied r (s.station i).state (s.formedReading i raw) = _ :=
      Channel.below_eq (h.fit i).watched (calm r record) out
    rw [surges, if_neg Bool.false_ne_true, Bool.false_and, Bool.or_false, below] at read
    exact ⟨_, _, read, fun k => if_neg (k.resolve_right nofun), acts, fit, form⟩

/-- In CRITICAL-ONLY mode the ALERT state stands at the critical level at the end of a sample (R178). -/
theorem State.Inv.sample_alert (h : s.Inv) (running : s.phase = .running) {raw : BitVec 16} {t : State}
    (answer : exec (.loadSampleArrival i raw) s = .next t) (only : s.OnlyAt t i)
    (mode : s.inForce.alertMode = .criticalOnly) : t.alert = t.criticalLevel := by
  have inv : t.Inv := (h.loadSample_stepped i raw (c := .loadSampleArrival i raw) answer).inv
  have phase : t.phase = s.phase := (congrArg State.phase only.backdrop :)
  have same : t.inForce = s.inForce := (congrArg State.inForce only.backdrop :)
  exact (inv.alerts (phase.trans running)).2 (by rw [same]; exact mode)

/-! ### The station's own part -/

theorem State.readingByState_rest (fast : (m.station i).state ≠ .fast) (heaving : (m.station i).state ≠ .heaving)
    (rewinding : (m.station i).state ≠ .rewinding) : m.readingByState i v false = m := by
  unfold State.readingByState
  split
  all_goals first | rfl | contradiction

theorem State.readingByState_heaving (state : (m.station i).state = .heaving) :
    m.readingByState i v false = m.heaveReading i v := by
  unfold State.readingByState
  rw [state]
  rfl

theorem State.readingByState_rewinding (state : (m.station i).state = .rewinding) (critical : Bool) :
    m.readingByState i v critical = m.snagReading i v := by
  unfold State.readingByState
  rw [state]

end Sys2Proof.Machine

end

