-- ==== Sys2Proof/Proofs/HeavesAndSnags.lean ====
section

/-! PROOF. Readings below K as events (R69, R77 to R80, R86, R87, R104, R105, R142). -/

namespace Sys2Proof.Machine

variable {s t m : State} {i : StationId} {u : UnitId} {a : ActiveOp} {v : Nat}

theorem State.Stuck.settle_station (h : t.Stuck) (before : State) (j : StationId) :
    (State.settle before t).station j = t.station j := by
  rw [State.settle_station_eq, h.grantAll]

/-- An event that leaves no more than the channel of its station. -/
theorem State.Inv.read_stands (h : s.Inv) {x : Station} {c : Channel} {alarm : Bool} (form : m = s.read i x c alarm)
    (before : State) : (State.settle before m).station i = x ∧ (State.settle before m).units = s.units ∧
      (State.settle before m).queue = s.queue := by
  have stuck : m.Stuck := h.stuck (by rw [form]; rfl) (by rw [form]; rfl) (by rw [form]; rfl)
  obtain ⟨queue, units⟩ := stuck.settle_drive before
  refine ⟨(stuck.settle_station before i).trans ?_, units.trans (by rw [form]; rfl), queue.trans (by rw [form]; rfl)⟩
  rw [form, State.read_station]

/-- A reading at a station without a record changes its channel only (R69). -/
theorem State.Inv.sample_unmoored (h : s.Inv) {raw : BitVec 16} (running : s.phase = .running) (low : raw ≠ 0)
    (high : raw ≠ 0xFFFF) (last : (s.channel i).count + 1 = (s.calibration i).decimation) (record : s.mooring i = none)
    (rewinding : (s.station i).state ≠ .rewinding) : exec (.loadSampleArrival i raw) s =
      .next (s.setChannel i ((s.channel i).formed (s.formedReading i raw.toNat))) := by
  have unmoored : ∀ state : LineState, state.moored = true → (s.station i).state ≠ state := fun state moored e => by
    have present := (h.fit i).recorded.present
    rw [← State.station_eq_site, ← State.mooring_eq_site, e, record] at present
    exact nomatch present moored
  obtain ⟨m, alarm, form, -, level, acts, fit, eq⟩ := h.validSample_below (raw := raw.toNat) last rfl
    (by rw [record]; exact nofun) (unmoored .fast rfl)
    (d := (s.channel i).formed (s.formedReading i raw.toNat)) (by rw [record]; rfl)
  have state : (m.station i).state = (s.station i).state := by rw [form, State.read_station]
  rw [State.readingByState_rest (by rw [state]; exact unmoored .fast rfl) (by rw [state]; exact unmoored .heaving rfl)
    (by rw [state]; exact rewinding)] at eq
  rw [level (.inr record), State.read_self] at form
  rw [exec_forming running low high, eq]
  subst form
  have after : ((s.setChannel i ((s.channel i).formed (s.formedReading i raw.toNat))).site i).After (s.station i).state := by
    rw [← eq]
    exact State.validSample_after (h.fit i) (h.held i) raw.toNat
  exact congrArg Host.Outcome.next (acts.settle_eq h after rfl rfl rfl
    ((State.holding_of_none (s := s.setChannel i _) record).trans (State.holding_of_none record).symm)
    fun need _ => (State.steadyFor_of_none (s := s.setChannel i _) record need).trans (State.steadyFor_of_none record need).symm)

theorem State.active_of_moves (moves : (s.motionOf i).isSome = true) : ∃ a, (s.station i).active = some a := by
  unfold State.motionOf at moves
  cases active : (s.station i).active with
  | none => rw [active] at moves; cases moves
  | some a => exact ⟨a, rfl⟩

/-- The heave target is met in a motion (R104). -/
theorem State.heaveReading_eq {r : Mooring} (record : m.mooring i = some r) : m.heaveReading i v =
    if (r.slackLimit + r.highLimit) / 2 ≤ v ∧ (m.motionOf i).isSome = true then m.endMotion i .done else m := by
  unfold State.heaveReading
  rw [record, Option.any_some]
  exact if_congr ((and_congr_right fun _ => decide_eq_true_iff).trans and_comm) rfl rfl

/-- The snag limit is met in a motion (R142). -/
theorem State.snagReading_eq : m.snagReading i v =
    if m.settings.snagLimit ≤ v ∧ (m.motionOf i).isSome = true then (m.endMotionDiscard i .snag).raise i .snag else m :=
  if_congr and_comm rfl rfl

/-- Settles O41. -/
theorem readingsEndHeavesAndSnags : Obligations.ReadingsEndHeavesAndSnags := by
  intro s i raw h running low high last x c cal v formed below alertIn limit
  have ends := h.sample_ends (i := i) running raw.toNat
  have answer := exec_forming (i := i) running low high
  have level : ∀ alarm, (s.inForce.alertMode ≠ .criticalOnly ∨ s.mooring i = none → alarm = s.alert) →
      (s.validSample i raw.toNat).alert = alarm →
      (State.settle s (s.validSample i raw.toNat)).alert = alertIn (State.settle s (s.validSample i raw.toNat)) :=
    fun alarm still kept => by
      dsimp only [alertIn]
      split
      · next only => exact h.sample_alert running answer ends.onlyAt only
      · next other => exact ends.alert.trans (kept.trans (still (.inl other)))
  refine ⟨fun record rewinding => h.sample_unmoored running low high last record rewinding,
    fun r record calm fast heaving rewinding => ?_, fun heaving r record calm => ?_, fun rewinding calm => ?_⟩
  · obtain ⟨m, alarm, form, site, still, acts, -, eq⟩ := h.validSample_below (raw := raw.toNat) (v := v) last rfl
      (fun r' record' => Option.some.inj (record.symm.trans record') ▸ calm) fast (d := below r) (by rw [record]; rfl)
    have state : (m.station i).state = x.state := by rw [form, State.read_station]
    rw [State.readingByState_rest (by rw [state]; exact fast) (by rw [state]; exact heaving) (by rw [state]; exact rewinding)]
      at eq
    obtain ⟨station, units, queue⟩ := h.read_stands form s
    rw [← eq] at station units queue
    rw [← eq] at site
    obtain ⟨c', r', -, -⟩ := ends.of_site site
    refine ⟨_, answer, ends.onlyAt, ends.sameCalls (by rw [eq, form]; rfl), ends.permits, r', c', ?_, station, units, queue⟩
    exact level alarm still (by rw [eq, form]; rfl)
  · obtain ⟨m, alarm, form, site, still, acts, fit, eq⟩ := h.validSample_below (raw := raw.toNat) (v := v) last rfl
      (fun r' record' => Option.some.inj (record.symm.trans record') ▸ calm)
      (by rw [show (s.station i).state = .heaving from heaving]; exact nofun) (d := below r) (by rw [record]; rfl)
    have station : m.station i = x := (congrArg Site.x site :)
    have motion : m.motionOf i = s.motionOf i := congrArg (fun y : Station => y.active.bind ActiveOp.moving?) station
    rw [State.readingByState_heaving (by rw [station]; exact heaving),
      State.heaveReading_eq (r := r) (by rw [form]; exact record), motion] at eq
    by_cases met : (r.slackLimit + r.highLimit) / 2 ≤ v ∧ (s.motionOf i).isSome = true
    · rw [if_pos met] at eq
      have moves := met.2
      obtain ⟨a, active⟩ : ∃ a, x.active = some a := State.active_of_moves moves
      obtain ⟨n, phase⟩ := State.moving_phase active moves
      obtain ⟨u, d, unit, v', state, qs, parked, work, -⟩ := (h.fit i).doing.of_moving active phase
      have stops := State.endMotion_ends fit (motion ▸ moves) .done
      rw [← eq, station] at stops
      have unit_m : (m.station i).unit = some u := station ▸ unit
      have calls : m.calls = s.calls := by rw [form]; rfl
      have unit_s : m.unit u = s.unit u := by rw [form]; rfl
      have kept : below r = (below r).entering .fast := by
        have watched := fit.watched
        rw [site] at watched
        exact (watched.entering_self ⟨by rw [show (s.site i).x.state = .heaving from heaving]; exact nofun,
          by rw [show (s.site i).x.state = .heaving from heaving]; exact nofun⟩ .fast).symm
      by_cases shut : x.shut = true
      · obtain ⟨left, -, called⟩ := stops.rests shut (state := .fast)
          (.inr ⟨parked, fun k => (nomatch k), .inl ⟨heaving, rfl⟩⟩) nofun fun k => nomatch k.2.1
        have frees := stops.frees shut (acts.sound h.whole.sound) unit_m (unit.trans unit_m.symm)
        rw [unit_s] at frees
        rw [site, show m.channel i = below r from (congrArg Site.c site :), ← kept] at left
        obtain ⟨c', r', alert, rests⟩ := ends.of_site left
        refine ⟨_, answer, ends.onlyAt, ends.sameCalls (called.trans calls), ends.permits, r', c',
          level alarm still (congrArg Site.alert left), fun k => absurd met k, fun _ _ u' unit' => ⟨fun k => ?_, fun _ => ?_⟩⟩
        · rw [shut] at k; cases k
        · obtain rfl : u = u' := Option.some.inj (unit.symm.trans unit')
          exact ⟨ends.freed frees, rests qs⟩
      · obtain ⟨left, -, called, told⟩ := stops.locks (Bool.eq_false_iff.2 shut)
        have told := told u unit_m
        rw [unit_s] at told
        rw [show m.settings = s.settings by rw [form]; rfl, site] at left
        obtain ⟨c', r', alert, rests⟩ := ends.of_site left
        refine ⟨_, answer, ends.onlyAt, ends.sameCalls (called.trans calls), ends.permits, r', c',
          level alarm still (congrArg Site.alert left), fun k => absurd met k,
          fun _ _ u' unit' => ⟨fun _ => ⟨rests qs, ?_⟩, fun k => absurd k shut⟩⟩
        obtain rfl : u = u' := Option.some.inj (unit.symm.trans unit')
        refine (ends.unit_busy ?_).trans told
        rw [told, Site.v_eq_unit unit v']
        exact fun k => nomatch state.symm.trans k
    · rw [if_neg met] at eq
      obtain ⟨station, units, queue⟩ := h.read_stands form s
      rw [← eq] at station units queue site
      obtain ⟨c', r', -, -⟩ := ends.of_site site
      refine ⟨_, answer, ends.onlyAt, ends.sameCalls (by rw [eq, form]; rfl), ends.permits, r', c',
        level alarm still (by rw [eq, form]; rfl), fun _ => ⟨station, units, queue⟩, fun k k' => absurd ⟨k, k'⟩ met⟩
  · obtain ⟨m, alarm, form, site, still, acts, fit, eq⟩ := h.validSample_below (raw := raw.toNat) (v := v) last rfl calm
      (by rw [show (s.station i).state = .rewinding from rewinding]; exact nofun)
      (d := ((s.mooring i).map below).getD formed) rfl
    have station : m.station i = x := (congrArg Site.x site :)
    have motion : m.motionOf i = s.motionOf i := congrArg (fun y : Station => y.active.bind ActiveOp.moving?) station
    have settings : m.settings = s.settings := by rw [form]; rfl
    rw [State.readingByState_rewinding (by rw [station]; exact rewinding), State.snagReading_eq, motion, settings] at eq
    by_cases met : s.settings.snagLimit ≤ v ∧ (s.motionOf i).isSome = true
    · rw [if_pos met] at eq
      have moves := met.2
      obtain ⟨a, active⟩ : ∃ a, x.active = some a := State.active_of_moves moves
      obtain ⟨n, phase⟩ := State.moving_phase active moves
      obtain ⟨u, d, unit, v', state, qs, parked, work, -⟩ := (h.fit i).doing.of_moving active phase
      have stops := State.endMotionDiscard_ends fit (motion ▸ moves) .snag
      have site' := State.site_raise (m.endMotionDiscard i .snag) (i := i) .snag
      rw [← eq] at site'
      rw [station] at stops
      have unit_m : (m.station i).unit = some u := station ▸ unit
      have calls : m.calls = s.calls := by rw [form]; rfl
      have unit_s : m.unit u = s.unit u := by rw [form]; rfl
      have raised : (s.validSample i raw.toNat).unit u = (m.endMotionDiscard i .snag).unit u := by
        rw [eq, State.raise_eq]; rfl
      have kept : ((s.mooring i).map below).getD formed = (((s.mooring i).map below).getD formed).entering .released := by
        have watched := fit.watched
        rw [site] at watched
        exact (watched.entering_self ⟨by rw [show (s.site i).x.state = .rewinding from rewinding]; exact nofun,
          by rw [show (s.site i).x.state = .rewinding from rewinding]; exact nofun⟩ .released).symm
      have snags : ∀ z d', (m.endMotionDiscard i .snag).site i = { s.site i with
          x := z, c := ((s.mooring i).map below).getD formed, v := d', alert := alarm } → z.attention = x.attention →
          (m.endMotionDiscard i .snag).calls = s.calls → let t := State.settle s (s.validSample i raw.toNat)
          s.sameCalls t ∧ t.mooring i = s.mooring i ∧ t.channel i = ((s.mooring i).map below).getD formed ∧
          t.alert = (if s.inForce.alertMode = .criticalOnly then t.criticalLevel else s.alertAfter i .snag) ∧
          t.station i = z.noticing .snag := fun z d' left attention called => by
        rw [left] at site'
        obtain ⟨c', r', alert, rests⟩ := ends.of_site site'
        refine ⟨ends.sameCalls ?_, r', c', ?_, rests qs⟩
        · rw [eq, State.raise_calls, called]
        · split
          · next only => exact h.sample_alert running answer ends.onlyAt only
          · next other =>
            refine alert.trans ?_
            unfold State.alertAfter
            rw [attention, still (.inl other)]
            rfl
      by_cases shut : x.shut = true
      · obtain ⟨left, -, called⟩ := stops.rests shut (state := .released)
          (.inr ⟨parked, fun k => (nomatch k), .inr (.inr ⟨rewinding, rfl⟩)⟩) nofun fun k => nomatch k.1
        have frees := stops.frees shut (acts.sound h.whole.sound) unit_m (unit.trans unit_m.symm)
        rw [unit_s] at frees
        rw [site, show m.channel i = ((s.mooring i).map below).getD formed from (congrArg Site.c site :), ← kept] at left
        obtain ⟨same, record, channel, alert, station⟩ := snags _ _ left rfl (called.trans calls)
        refine ⟨_, answer, ends.onlyAt, same, ends.permits, record, channel, fun k => absurd met k,
          fun _ _ => ⟨alert, fun u' unit' => ⟨fun k => ?_, fun _ => ?_⟩⟩⟩
        · rw [shut] at k; cases k
        · obtain rfl : u = u' := Option.some.inj (unit.symm.trans unit')
          exact ⟨ends.freed (raised.trans frees), station⟩
      · obtain ⟨left, -, called, told⟩ := stops.locks (Bool.eq_false_iff.2 shut)
        have told := raised.trans (told u unit_m)
        rw [unit_s] at told
        rw [settings, site] at left
        obtain ⟨same, record, channel, alert, station⟩ := snags _ _ left rfl (called.trans calls)
        refine ⟨_, answer, ends.onlyAt, same, ends.permits, record, channel, fun k => absurd met k,
          fun _ _ => ⟨alert, fun u' unit' => ⟨fun _ => ⟨station, ?_⟩, fun k => absurd k shut⟩⟩⟩
        obtain rfl : u = u' := Option.some.inj (unit.symm.trans unit')
        refine (ends.unit_busy ?_).trans told
        rw [told, Site.v_eq_unit unit v']
        exact fun k => nomatch state.symm.trans k
    · rw [if_neg met] at eq
      obtain ⟨station, units, queue⟩ := h.read_stands form s
      rw [← eq] at station units queue site
      obtain ⟨c', r', -, -⟩ := ends.of_site site
      refine ⟨_, answer, ends.onlyAt, ends.sameCalls (by rw [eq, form]; rfl), ends.permits, r', c',
        fun _ => ⟨station, units, queue, ?_⟩, fun k k' => absurd ⟨k, k'⟩ met⟩
      exact level alarm still (by rw [eq, form]; rfl)

end Sys2Proof.Machine

end

