-- ==== Sys2Proof/Proofs/MotionStarts.lean ====
section

/-! PROOF. The start of a motion at READY, and the tests of the position it starts on (R16, R116, R124). -/

namespace Sys2Proof.Machine

variable {s t : State} {i : StationId} {u : UnitId} {a : ActiveOp} {n : Nat}

/-! ### The start of a motion (R16) -/

theorem State.startUnlockStep_queue : (s.startStep i .motionUnlock .unlocked .engaged).queue = s.queue := by
  by_cases agreed : (s.station i).senLock = some .unlocked ∧ (s.station i).senClutch = some .engaged
  · rw [s.startStep_of_agreed i .motionUnlock _ _ agreed]
    change (State.setStop _ i false).queue = s.queue
    unfold State.setStop
    split <;> rfl
  · rw [s.startStep_of_open i .motionUnlock _ _ agreed]
    rfl

theorem State.begun_stands (u : UnitId) (a : ActiveOp) (n : Nat) :
    (s.begun i u a n).queue = s.queue ∧ (s.begun i u a n).calls = s.calls :=
  ⟨State.startUnlockStep_queue, State.startStep_calls _ _ .motionUnlock _ _ nofun⟩

theorem State.begun_acts (unit : (s.station i).unit = some u) (granted : (s.unit u).state = .granted) (a : ActiveOp)
    (n : Nat) : State.Acts i s (s.begun i u a n) := by
  have runs : State.Acts i s (s.onUnit u (fun y => { y with state := .running, readyTimer := none })) := by
    refine .single (.unit s u _ unit rfl (by simp [granted]) fun ok => ?_)
    unfold DriveUnit.ok at ok ⊢
    rw [granted] at ok
    exact ⟨ok.1, rfl, ok.2.2⟩
  refine ((runs.trans (State.Acts.onStation _ i _ rfl rfl)).trans (State.emptyWindow_acts _ i)).trans
    (State.startStep_acts _ i _ _ _ fun _ v hv => ?_)
  have same : (s.station i).unit = some v := by simpa [State.emptyWindow, State.onUnit] using hv
  obtain rfl : u = v := Option.some.inj (unit.symm.trans same)
  simp [State.emptyWindow, State.onStation, State.onChannel]

/-- Nothing is granted in an event that queues nothing and keeps the unit of its station at work (R113). -/
theorem State.Acts.stuck (acts : State.Acts i s t) (h : s.Inv) (unit : (s.station i).unit = some u)
    (hold : t.hold = s.hold) (queue : t.queue = s.queue) (busy : (t.unit u).state ≠ .idle) : t.Stuck := by
  refine h.grants.stuck.of_busy hold queue fun v works => ?_
  by_cases own : v = u
  · rw [own]; exact busy
  · have other : (s.unit v).served ≠ some i := fun serves =>
      own (Option.some.inj (((h.whole.sound.linked i v).2 serves).symm.trans unit))
    rw [acts.unit_of_ne h.whole.sound other]
    exact works

theorem State.callsKept.same (h : s.callsKept t) : s.sameCalls t := congrArg (List.map Call.fixed) h.1

/-- An emptied window has nothing more to lose when its station enters a state (R85). -/
theorem Channel.emptied_entering (c : Channel) (state : LineState) : c.emptied.entering state = c.entering state := by
  unfold Channel.entering
  split <;> rfl

/-- A motion that goes on from its start: the drum is on its way, nothing else follows (R16, R116). -/
abbrev State.sets (s t : State) (i : StationId) (u : UnitId) (a : ActiveOp) (n : Nat) : Prop :=
  let x := s.station i
  t.station i = { x.begun s.settings a n with
    active := some (a.measured (x.motionFrom n) (x.position.getD 0) x.length) } ∧
  t.unit u = (s.unit u).begun x ∧ t.channel i = (s.channel i).emptied ∧ t.mooring i = s.mooring i ∧ s.callsKept t ∧
  t.alert = s.alert ∧ t.queue = s.queue

/-- The start of a motion at READY: the motion goes on, or ends on the position standing, behind its lock step or past it
where the gear is still shut (R16, R22, R116, R124, R125). -/
theorem State.Inv.motion_starts (h : s.Inv) (running : s.phase = .running) (unit : (s.station i).unit = some u)
    (granted : (s.unit u).state = .granted) (active : (s.station i).active = some a) (phase : a.phase = .granted) (n : Nat) :
    let x := s.station i
    let m := x.motionFrom n
    let b := a.measured m (x.position.getD 0) x.length
    let atLimit := a.work.atLimit (s.calibration i) x.state.moored (x.position.getD 0) x.length
    let terminal := a.work.terminal m (x.position.getD 0) x.length s.settings.stowTolerance
    let cause := StopCause.ofTests atLimit
    let t := State.settle s (s.startMotion i u a n)
    State.Ends i s (s.startMotion i u a n) t ∧
    (a.work ≠ .rewind → t.mooring i = s.mooring i ∧ s.sameCalls t) ∧
    (atLimit = false → terminal = false → s.sets t i u a n) ∧
    (atLimit = true ∨ terminal = true →
      (x.shut = false →
        t.station i = x.stopped cause (some b.ended) s.settings.gearLimit ∧
        t.unit u = { s.unit u with state := .running, readyTimer := none, stop := true } ∧
        t.channel i = (s.channel i).emptied ∧ t.mooring i = s.mooring i ∧ s.callsKept t ∧
        t.alert = s.alert ∧ t.queue = s.queue) ∧
      (x.shut = true →
        let state := a.work.endState cause (x.resting.getD .fast)
        s.freed t u ∧ t.station i = (x.stoppedShut cause).rested state ∧
        t.mooring i = (if state = .stowed then none else s.mooring i) ∧
        (state ≠ .stowed → t.channel i = (s.channel i).entering state ∧ s.sameCalls t ∧ t.alert = s.alert))) := by
  intro x m b atLimit terminal cause t
  have fit := h.fit i
  have free := (h.held i).free_of_granted active phase
  have acts := s.startMotion_acts i a n unit granted
  have after := State.startMotion_after fit free unit active phase n
  have ends := acts.ends h running after
  have starts := State.begun_acts unit granted a n
  have fit' := State.begun_fit fit unit active phase n
  have site := State.site_begun unit a n
  obtain ⟨queue, calls⟩ := State.begun_stands u a n
  have work := fit.granted_work active phase
  have station : (s.begun i u a n).station i = x.begun s.settings a n := (congrArg Site.x site :)
  have parked : x.parked = none := by
    obtain ⟨-, -, -, -, -, -, parked, -⟩ := fit'.doing.of_moving (by rw [site]; rfl) rfl
    rw [site] at parked
    exact parked
  have outcome := State.motionTests_outcome (a := { a with phase := .moving m }) fit' (by rw [station]; rfl) rfl
    (place := x.position.getD 0) (length := x.length) (by rw [station]; rfl) (by rw [station]; rfl)
  rw [station] at outcome
  obtain ⟨left, goes, stops⟩ := outcome
  have same : (s.begun i u a n).calibration i = s.calibration i ∧ (s.begun i u a n).settings = s.settings :=
    ⟨(congrArg Site.cal site :), (congrArg Site.settings site :)⟩
  rw [same.1] at goes stops
  rw [same.2] at goes
  generalize made : (s.begun i u a n).setStation i _ = p at left goes stops
  have goes : atLimit = false → terminal = false → s.startMotion i u a n = p := goes
  have stops : atLimit = true ∨ terminal = true → p.EndsMotion (s.startMotion i u a n) i cause
      { x.begun s.settings a n with active := some b.ended } := fun k => stops (k.imp_right fun on => by rw [same.2]; exact on)
  have left : p.site i = { s.site i with
      x := { x.begun s.settings a n with active := some b }
      c := (s.channel i).emptied
      v := some ((s.unit u).begun x) } := by
    rw [site] at left
    exact left
  have acts_p : State.Acts i s p := made ▸ starts.trans
    (.single (.station _ _ (by rw [station]) (by rw [station])))
  have queue_p : p.queue = s.queue := made ▸ queue
  have calls_p : p.calls = s.calls := made ▸ calls
  have serves : (p.station i).unit = some u := (congrArg (fun k : Site => k.x.unit) left :).trans unit
  have unit_p : p.unit u = (s.unit u).begun x := Site.v_eq_unit serves (congrArg Site.v left :)
  have settings_p : p.settings = s.settings := (congrArg Site.settings left :)
  have out := LineState.out_of_holdsUnit (Work.holdsUnit_of_activeIn work)
  have qs : (s.site i).qs = [] := h.noRequest active
  have goes_on : atLimit = false → terminal = false → s.sets t i u a n := fun off on => by
    have eq := goes off on
    dsimp only [t]
    rw [eq] at acts after ends ⊢
    obtain ⟨c, r, alert, rests⟩ := ends.of_site left
    have stuck := acts.stuck h unit (congrArg Site.hold left :) queue_p (by rw [unit_p]; exact nofun)
    have stands := acts.settle_still h after calls_p (congrArg (fun k : Site => k.x.state) left :)
      (congrArg Site.r left :) (congrArg (fun k : Site => k.c.steady) left :) out stuck
    have kept := acts.keeps_calls h after calls_p (congrArg (fun k : Site => k.x.state) left :)
      (congrArg Site.r left :) (congrArg (fun k : Site => k.c.steady) left :) out
    refine ⟨rests qs, ?_, c, r, kept, alert, ?_⟩
    · rw [stands, unit_p]
    · rw [stands, queue_p]
  have locks : atLimit = true ∨ terminal = true → x.shut = false →
      t.station i = x.stopped cause (some b.ended) s.settings.gearLimit ∧
      t.unit u = { s.unit u with state := .running, readyTimer := none, stop := true } ∧
      t.channel i = (s.channel i).emptied ∧ t.mooring i = s.mooring i ∧ s.callsKept t ∧
      t.alert = s.alert ∧ t.queue = s.queue := fun ended open_ => by
    obtain ⟨left', queue, calls, units⟩ := (stops ended).locks open_
    rw [left] at left'
    obtain ⟨c, r, alert, rests⟩ := ends.of_site left'
    have told : (s.startMotion i u a n).unit u = { s.unit u with state := .running, readyTimer := none, stop := true } := by
      rw [units u serves, unit_p]
    have stuck := acts.stuck h unit (congrArg Site.hold left' :) (queue.trans queue_p) (by rw [told]; exact nofun)
    have state := (congrArg (fun k : Site => k.x.state) left' :)
    have steady := (congrArg (fun k : Site => k.c.steady) left' :)
    have stands := acts.settle_still h after (calls.trans calls_p) state (congrArg Site.r left' :) steady out stuck
    have kept := acts.keeps_calls h after (calls.trans calls_p) state (congrArg Site.r left' :) steady out
    rw [settings_p] at rests
    refine ⟨rests qs, ?_, c, r, kept, alert, ?_⟩
    · exact (congrArg (fun r : State => r.unit u) stands).trans told
    · exact (congrArg State.queue stands).trans (queue.trans queue_p)
  have completes : atLimit = true ∨ terminal = true → x.shut = true →
      let state := a.work.endState cause (x.resting.getD .fast)
      s.freed t u ∧ t.station i = (x.stoppedShut cause).rested state ∧
      t.mooring i = (if state = .stowed then none else s.mooring i) ∧
      (state ≠ .stowed → t.channel i = (s.channel i).entering state ∧ s.sameCalls t ∧ t.alert = s.alert) := by
    intro ended shut state
    have e := stops ended
    have plain : cause ≠ .driveFault ∧ cause ≠ .critical := by
      dsimp only [cause, StopCause.ofTests]
      split <;> exact ⟨nofun, nofun⟩
    have over_ : (Station.stoppedShut { x.begun s.settings a n with active := some b.ended } cause).EndsAs state :=
      Station.endsAs_work work parked fun k => absurd k plain.1
    have frees := e.frees shut (acts_p.sound h.whole.sound) serves (unit.trans serves.symm)
    rw [unit_p, if_neg nofun] at frees
    refine ⟨ends.freed (by rw [if_neg (by rw [granted]; exact nofun)]; exact frees), ?_⟩
    by_cases stow : state = .stowed
    · rw [stow] at over_ ⊢
      obtain ⟨c, alert, left', -, -⟩ := e.stows shut (acts_p.sound h.whole.sound) over_
      rw [left] at left'
      obtain ⟨-, r, -, rests⟩ := ends.of_site left'
      exact ⟨rests qs, r, fun k => absurd rfl k⟩
    · obtain ⟨left', -, calls⟩ := e.rests shut over_ stow fun k => plain.2 k.2.1
      rw [left] at left'
      obtain ⟨c, r, alert, rests⟩ := ends.of_site left'
      rw [if_neg stow]
      refine ⟨rests qs, r, fun _ => ⟨c.trans ?_, ends.sameCalls (calls.trans calls_p), alert⟩⟩
      rw [show p.channel i = (s.channel i).emptied from (congrArg Site.c left :), Channel.emptied_entering]
  refine ⟨ends, fun other => ?_, goes_on, fun ended => ⟨locks ended, completes ended⟩⟩
  by_cases ended : atLimit = true ∨ terminal = true
  · by_cases shut : x.shut = true
    · obtain ⟨-, -, record, rest⟩ := completes ended shut
      have stow : a.work.endState cause (x.resting.getD .fast) ≠ .stowed := fun k =>
        other (fit.recorded.endState_stowed k).1
      exact ⟨record.trans (if_neg stow), (rest stow).2.1⟩
    · obtain ⟨-, -, -, record, kept, -⟩ := locks ended (Bool.eq_false_iff.2 shut)
      exact ⟨record, kept.same⟩
  · rw [not_or, Bool.not_eq_true, Bool.not_eq_true] at ended
    obtain ⟨-, -, -, record, kept, -⟩ := goes_on ended.1 ended.2
    exact ⟨record, kept.same⟩

end Sys2Proof.Machine

end

