-- ==== Sys2Proof/Proofs/ReadyUnits.lean ====
section

/-! PROOF. READY for a granted unit: what the station does with it (R98 to R103, R114 to R116, R151). -/

namespace Sys2Proof.Machine

variable {s t : State} {i : StationId} {u : UnitId} {a : ActiveOp} {n : Nat}

/-! ### A grant given back (R115) -/

/-- What a grant given back leaves; for want of room LIMIT is raised (R101, R103, R115). -/
abbrev State.givenBack (s : State) (i : StationId) (new : LineState) (full : Prop) [Decidable full] : State :=
  if full then ((s.giveBack i).enter i new).raise i .limit else (s.giveBack i).enter i new

/-- The record of a station that has given its grant back (R101, R103, R115). -/
abbrev Station.givenBack (x : Station) (new : LineState) (full : Prop) [Decidable full] : Station :=
  if full then { (x.entered new).noticing .limit with unit := none, active := none }
  else { x.entered new with unit := none, active := none }

theorem State.Inv.gives_back (h : s.Inv) (running : s.phase = .running) (unit : (s.station i).unit = some u)
    (active : (s.station i).active = some a) (phase : a.phase = .granted) {new : LineState}
    (quits : (s.station i).state.endsIn new = true) (full : Prop) [Decidable full] :
    let r := s.givenBack i new full
    let t := State.settle s r
    State.Ends i s r t ∧ t.mooring i = s.mooring i ∧ s.sameCalls t ∧ s.freed t u ∧
      t.channel i = (s.channel i).entering new ∧ t.station i = (s.station i).givenBack new full ∧
      t.alert = if full then s.alertAfter i .limit else s.alert := by
  intro r t
  have ending := (h.fit i).ending_of_granted (w := a.work) (b := a.retryUsed) (by rw [← phase]; exact active)
  have site := State.site_giveBack_enter (LineState.endsIn_cases quits).2.2.1 (LineState.ne_fast_of_holdsUnit ending.holds)
  have qs : (s.site i).qs = [] := h.noRequest active
  have acts' : State.Acts i (s.releaseUnit i) ((s.giveBack i).enter i new) :=
    (State.dropActive_acts _ i).trans (State.enter_acts _ i new)
  have after' := (State.giveBack_after (h.fit i) active phase quits).1
  have calls' : ((s.giveBack i).enter i new).calls = s.calls := by simp [State.giveBack]
  have over_ : State.Acts i (s.releaseUnit i) r ∧ (r.site i).After (s.station i).state ∧ r.calls = s.calls ∧
      r.site i = { s.site i with
        x := (s.station i).givenBack new full
        c := (s.channel i).entering new
        v := none
        alert := if full then s.alertAfter i .limit else s.alert } := by
    dsimp only [r, State.givenBack]
    by_cases short : full
    · simp only [if_pos short]
      refine ⟨acts'.trans (State.raise_acts _ i _), State.raise_after after' _, (State.raise_calls _ i _).trans calls', ?_⟩
      rw [State.site_raise, site]
      rfl
    · simp only [if_neg short]
      exact ⟨acts', after', calls', site⟩
  obtain ⟨acts, after, calls, site⟩ := over_
  have whole : State.Acts i s r := (s.releaseUnit_acts i).trans acts
  have ends := whole.ends h running after
  obtain ⟨c, record, alert, rests⟩ := ends.of_site site
  exact ⟨ends, record, ends.sameCalls calls, ends.freed (acts.released h.whole.sound unit Iff.rfl), c, rests qs, alert⟩

/-! ### What the station does with the grant (R98, R101, R103, R116) -/

/-- The planner's answer for a granted TRIM (R98). -/
abbrev State.trimAnswer (s : State) (i : StationId) (a : ActiveOp) (r : Mooring) : Option PlanAnswer :=
  match a.work with
  | .trim d critical => some (planTrim d critical ((s.channel i).latest.getD 0) r (s.calibration i) (s.station i).length)
  | .heave | .slacken _ | .rewind => none

/-- A reading formed since the record was created meets the heave target (R103). -/
abbrev State.targetMet (s : State) (i : StationId) : Prop :=
  (s.channel i).readingSinceRecord = true ∧ ∃ v ∈ (s.channel i).latest, ∃ r ∈ s.mooring i, r.target ≤ v

/-- The grant starts a motion of a count (R101, R103, R116). -/
abbrev State.goesAhead (s : State) (i : StationId) (a : ActiveOp) (n : Nat) : Prop :=
  (∃ r ∈ s.mooring i, s.trimAnswer i a r = some (.count n)) ∨
    (n = 0 ∧ a.work = .heave ∧ ¬ s.targetMet i ∧ (s.calibration i).minLength < (s.station i).length) ∨
    (n = 0 ∧ (a.work = .rewind ∨ a.work.opClass = .slacken))

/-- The grant is given back for want of room (R101, R103). -/
abbrev State.roomless (s : State) (i : StationId) (a : ActiveOp) : Prop :=
  (∃ r ∈ s.mooring i, s.trimAnswer i a r = some .noRoom) ∨
    (a.work = .heave ∧ ¬ s.targetMet i ∧ (s.station i).length ≤ (s.calibration i).minLength)

/-- The grant is given back since there is nothing to do (R101, R103). -/
abbrev State.idles (s : State) (i : StationId) (a : ActiveOp) : Prop :=
  (∃ r ∈ s.mooring i, s.trimAnswer i a r = some .nothingToDo) ∨ (a.work = .heave ∧ s.targetMet i)

/-- The state that a station takes as it gives its grant back (R101, R103). -/
abbrev Station.backTo (x : Station) (a : ActiveOp) (state : LineState) : Prop :=
  if a.work = .heave then state = .fast else x.resting = some state

/-- The grant starts a motion. -/
structure State.Starts (s : State) (i : StationId) (u : UnitId) (a : ActiveOp) (n : Nat) : Prop where
  ready : s.ready u = s.startMotion i u a n
  counts : ∀ k, s.goesAhead i a k → k = n
  keeps : ¬(s.roomless i a ∨ s.idles i a)

/-- The grant is given back. -/
structure State.Returns (s : State) (i : StationId) (u : UnitId) (a : ActiveOp) (new : LineState) : Prop where
  ready : s.ready u = s.givenBack i new (s.roomless i a)
  quits : (s.station i).state.endsIn new = true
  stays : ∀ k, ¬ s.goesAhead i a k
  rests : ∀ state, (s.station i).backTo a state → state = new

theorem State.heaveTargetMet_iff : (s.mooring i).any (s.heaveTargetMet i) = true ↔ s.targetMet i := by
  unfold State.heaveTargetMet
  cases record : s.mooring i <;> simp [State.targetMet, record, Option.any_eq_true]

theorem State.ready_of_granted (granted : (s.unit u).state = .granted) (served : (s.unit u).served = some i)
    (active : (s.station i).active = some a) : s.ready u =
      match a.work with
      | .trim d critical => s.readyTrim i u a d critical
      | .heave => s.readyHeave i u a
      | .slacken _ | .rewind => s.startMotion i u a 0 := by
  unfold State.ready
  rw [granted, served]
  dsimp only
  rw [active] <;> rfl

/-- READY for a granted unit either starts a motion or gives the grant back. -/
theorem State.Inv.ready_cases (h : s.Inv) (granted : (s.unit u).state = .granted) (served : (s.unit u).served = some i)
    (active : (s.station i).active = some a) (phase : a.phase = .granted) :
    (∃ n, s.Starts i u a n) ∨ ∃ new, s.Returns i u a new := by
  have form := State.ready_of_granted granted served active
  have ending := (h.fit i).ending_of_granted (w := a.work) (b := a.retryUsed) (by rw [← phase]; exact active)
  have work := (h.fit i).granted_work active phase
  cases w : a.work with
  | trim d c =>
    rw [w] at form work
    have trimming : (s.station i).state = .trimming := (Work.activeIn_cases work).2.1 rfl
    have quits : (s.station i).state.endsIn (s.restingOf i) = true := ending.restingOf trimming
    have rests : ∀ state, (s.station i).backTo a state → state = s.restingOf i := fun state rest => by
      rw [Station.backTo, if_neg (by rw [w]; exact nofun)] at rest
      unfold State.restingOf
      rw [rest, Option.getD_some]
    unfold State.readyTrim at form
    dsimp only at form
    cases record : s.mooring i with
    | none =>
      rw [record] at form
      refine .inr ⟨_, ⟨form.trans (if_neg ?_).symm, quits, fun k => ?_, rests⟩⟩ <;>
        simp [State.roomless, State.goesAhead, State.trimAnswer, w, record, Work.opClass]
    | some r =>
      rw [record] at form
      dsimp only at form
      cases plan : planTrim d c ((s.channel i).latest.getD 0) r (s.calibration i) (s.station i).length with
      | count n =>
        rw [plan] at form
        refine .inl ⟨n, form, fun k goes => ?_, ?_⟩
        · simp [State.goesAhead, State.trimAnswer, w, record, plan, Work.opClass] at goes
          exact goes.symm
        · simp [State.roomless, State.idles, State.trimAnswer, w, record, plan]
      | nothingToDo =>
        rw [plan] at form
        refine .inr ⟨_, ⟨form.trans (if_neg ?_).symm, quits, fun k => ?_, rests⟩⟩ <;>
          simp [State.roomless, State.goesAhead, State.trimAnswer, w, record, plan, Work.opClass]
      | noRoom =>
        rw [plan] at form
        refine .inr ⟨_, ⟨form.trans (if_pos ?_).symm, quits, fun k => ?_, rests⟩⟩ <;>
          simp [State.roomless, State.goesAhead, State.trimAnswer, w, record, plan, Work.opClass]
  | heave =>
    rw [w] at form work
    have heaving : (s.site i).x.state = .heaving := by simpa [Work.activeIn] using work
    have quits : (s.station i).state.endsIn .fast = true := by rw [State.station_eq_site, heaving]; rfl
    have rests : ∀ state, (s.station i).backTo a state → state = .fast := fun state rest => by
      exact (if_pos w).mp rest
    unfold State.readyHeave at form
    dsimp only at form
    by_cases met : s.targetMet i
    · rw [if_pos (State.heaveTargetMet_iff.2 met)] at form
      refine .inr ⟨_, ⟨form.trans (if_neg ?_).symm, quits, fun k => ?_, rests⟩⟩
      · rintro (⟨r, -, plan⟩ | ⟨-, unmet, -⟩)
        · simp [State.trimAnswer, w] at plan
        · exact unmet met
      · rintro (⟨r, -, plan⟩ | ⟨-, -, unmet, -⟩ | ⟨-, other⟩)
        · simp [State.trimAnswer, w] at plan
        · exact unmet met
        · simp [w, Work.opClass] at other
    · rw [if_neg (mt State.heaveTargetMet_iff.1 met)] at form
      by_cases short : (s.station i).length ≤ (s.calibration i).minLength
      · rw [if_pos short] at form
        refine .inr ⟨_, ⟨form.trans (if_pos ?_).symm, quits, fun k => ?_, rests⟩⟩ <;>
          simp [State.roomless, State.goesAhead, State.trimAnswer, w, met, short, Work.opClass]
      · rw [if_neg short] at form
        refine .inl ⟨0, form, fun k goes => ?_, ?_⟩
        · simp [State.goesAhead, State.trimAnswer, w, Work.opClass] at goes
          exact goes.1
        · simp [State.roomless, State.idles, State.trimAnswer, w, met, short]
  | slacken k =>
    rw [w] at form
    refine .inl ⟨0, form, fun k goes => ?_, ?_⟩
    · simp [State.goesAhead, State.trimAnswer, w] at goes
      exact goes.1
    · simp [State.roomless, State.idles, State.trimAnswer, w]
  | rewind =>
    rw [w] at form
    refine .inl ⟨0, form, fun k goes => ?_, ?_⟩
    · simp [State.goesAhead, State.trimAnswer, w] at goes
      exact goes
    · simp [State.roomless, State.idles, State.trimAnswer, w]

theorem Work.motionLimit_eq (w : Work) (settings : Settings) :
    w.motionLimit settings = if w = .rewind then settings.rewindLimit else settings.motionLimit := by
  cases w <;> rfl

/-- Settles O43: a granted unit's READY starts the motion, ends it on the position standing, or gives the grant back. -/
theorem readyStartsOrGivesBack : Obligations.ReadyStartsOrGivesBack := by
  intro s u h running
  have event : exec (.readyArrival u) s = .next (State.settle s (s.ready u)) := congrArg Host.Outcome.next (if_pos running)
  refine ⟨fun other => ?_, fun i serves granted a active => ?_⟩
  · have stands : s.ready u = s := by
      unfold State.ready
      split
      · next k _ => exact absurd k other
      · rfl
    rw [event, stands]
    exact congrArg Host.Outcome.next
      (State.Acts.settle_eq (i := 0) .refl h (.stay (h.fit 0) (h.held 0) rfl) rfl rfl rfl rfl fun _ _ => rfl)
  · intro x cal met plan goes roomless idles
    have unit := (h.whole.sound.linked i u).2 serves
    obtain ⟨b, act, phase⟩ := h.granted_active granted unit
    obtain rfl : a = b := Option.some.inj (Eq.trans (Eq.symm active) act)
    refine ⟨_, event, ?_⟩
    rcases h.ready_cases granted serves act phase with ⟨n, starts⟩ | ⟨new, returns⟩
    · obtain ⟨ends, keeps, goes_on, stops⟩ := h.motion_starts running unit granted act phase n
      rw [starts.ready]
      refine ⟨ends.onlyAt, ends.permits, keeps, fun k ahead => ?_, fun k ahead => ?_, fun k => absurd k starts.keeps⟩
      · obtain rfl := starts.counts k ahead
        intro m m' off on agreed
        obtain ⟨station, rest⟩ := goes_on off on
        refine ⟨station.trans ?_, rest⟩
        rw [← Work.motionLimit_eq]
        rfl
      · obtain rfl := starts.counts k ahead
        exact fun ended => stops ended
    · obtain ⟨ends, record, calls, freed, channel, station, alert⟩ :=
        h.gives_back running unit act phase returns.quits (s.roomless i a)
      rw [returns.ready]
      refine ⟨ends.onlyAt, ends.permits, fun _ => ⟨record, calls⟩, fun k ahead => absurd ahead (returns.stays k),
        fun k ahead => absurd ahead (returns.stays k), fun _ state rest => ?_⟩
      obtain rfl := returns.rests state rest
      exact ⟨freed, channel, station, alert⟩

end Sys2Proof.Machine

end

