-- ==== Sys2Proof/Proofs/WantedTrims.lean ====
section

/-! PROOF. A station at rest asks for a TRIM, has its pending one redirected, or withdraws it (R92, R95, R110). -/

namespace Sys2Proof.Machine

variable {s t m : State} {i : StationId}

/-- The one request of a station. -/
theorem State.Inv.requests_cases (h : s.Inv) (i : StationId) : (s.requestOf i = none ∧ (s.site i).qs = []) ∨
    ∃ q, s.requestOf i = some q ∧ (s.site i).qs = [q] ∧ q.work.pendingIn (s.station i).state = true := by
  rcases e : (s.site i).qs with _ | ⟨q, rest⟩
  · exact .inl ⟨by rw [State.requestOf_eq_site, e]; rfl, rfl⟩
  · obtain ⟨qs, work, -⟩ := (h.fit i).doing.of_request (q := q) (by rw [e]; exact List.mem_cons_self)
    refine .inr ⟨q, ?_, e ▸ qs, work⟩
    rw [State.requestOf_eq_site, e]
    rfl

theorem Work.isTrim_of_resting {w : Work} {state : LineState} (work : w.pendingIn state = true)
    (rest : state = .fast ∨ state = .eased) : w.isTrim = true := by
  cases w with
  | trim d c => rfl
  | heave | slacken n | rewind => rcases rest with rfl | rfl <;> cases work

/-- The queue after the redirection of the pending TRIM of a station at rest (R92, R110). -/
theorem State.Inv.redirected (h : s.Inv) (rest : (s.station i).state = .fast ∨ (s.station i).state = .eased)
    (d : Direction) (c : Bool) : (s.redirect i d c).queue =
      s.queue.map (fun p => if p.station = i then { p with work := .trim d c } else p) := by
  refine List.map_congr_left fun p hp => ?_
  by_cases own : p.station = i
  · subst own
    obtain ⟨work, -⟩ := h.work.pending p hp
    rw [if_pos ⟨rfl, Work.isTrim_of_resting work rest⟩, if_pos rfl]
  · rw [if_neg fun k => own k.1, if_neg own]

theorem wantedRequests_pending {q : Request} (trim : q.work.isTrim = true) (d : Direction) (c : Bool) :
    wantedRequests i [q] (some (d, c)) = [{ q with work := .trim d c }] := by
  simp [wantedRequests, trim]

/-- What a station at rest does with the TRIM wanted: nothing, or the pending one is withdrawn; it is submitted behind its
class, or the pending one is redirected in its place (R92, R95, R110). -/
def State.Wants (s t : State) (i : StationId) (x : Station) (wanted : Option (Direction × Bool)) : Prop :=
  match wanted with
  | none => t.station i = x ∧ t.requestOf i = none
  | some (d, c) =>
    t.asks i x ⟨i, .trim d c, (s.requestOf i).any Request.retryUsed⟩ ∧
      if (s.requestOf i).isSome = true then
        t.queue = s.queue.map (fun p => if p.station = i then { p with work := .trim d c } else p)
      else s.queuesBy insertTail t ⟨i, .trim d c, false⟩

theorem State.Inv.wants_trim (h : s.Inv) (rest : (s.station i).state = .fast ∨ (s.station i).state = .eased)
    {x : Station} {c : Channel} {a : Bool} (form : m = s.read i x c a)
    (unit : x.unit = (s.station i).unit)
    (wanted : Option (Direction × Bool)) (ends : State.Ends i s (m.wantTrim i wanted) t)
    (settled : t = State.settle s (m.wantTrim i wanted)) : s.Wants t i x wanted := by
  have site := m.site_wantTrim (i := i) wanted
  have start : m.site i = { s.site i with x := x, c := c, alert := a } := by
    rw [form]; exact State.site_read _ _ _ unit
  rw [start] at site
  unfold State.Wants
  cases wanted with
  | none =>
    rw [show wantedRequests i (s.site i).qs none = [] from rfl] at site
    obtain ⟨station, request⟩ := ends.rests (by rw [site])
    rw [site] at station
    exact ⟨station, request⟩
  | some w =>
    obtain ⟨d, b⟩ := w
    dsimp only
    have same : m.requestOf i = s.requestOf i := by rw [form]; rfl
    rcases h.requests_cases i with ⟨none, qs⟩ | ⟨q, some, qs, work⟩
    · have queue : (m.wantTrim i (some (d, b))).queue = insertTail ⟨i, .trim d b, false⟩ s.queue := by
        unfold State.wantTrim
        rw [same, none, form]
        rfl
      rw [qs, show wantedRequests i [] (Option.some (d, b)) = [⟨i, .trim d b, false⟩] from rfl] at site
      rw [none, Option.any_none, if_neg (by simp)]
      exact ends.of_request site rfl rfl qs queue
    · have trim := Work.isTrim_of_resting work rest
      have own : q.station = i := by
        have mem : q ∈ (s.site i).qs := by rw [qs]; exact List.mem_cons_self
        simpa using (List.mem_filter.1 mem).2
      have redirects : m.wantTrim i (Option.some (d, b)) = m.redirect i d b := by
        unfold State.wantTrim
        rw [same, some]
      rw [qs, wantedRequests_pending trim] at site
      rw [some, Option.any_some, if_pos (show (Option.some q).isSome = true from rfl)]
      refine ⟨?_, ?_⟩
      · have asks := ends.asks _ (by rw [site])
        rw [site] at asks
        subst own
        exact asks
      · have stuck : (m.redirect i d b).Stuck := by
          have before : m.Stuck := h.stuck (by rw [form]; rfl) (by rw [form]; rfl) (by rw [form]; rfl)
          exact before.imp_right (Or.imp_right fun empty => by
            change List.map _ m.queue = []
            rw [empty]; rfl)
        rw [settled, redirects, (stuck.settle_drive s).1, ← h.redirected rest, form]
        rfl

end Sys2Proof.Machine

end

