-- ==== Sys2Proof/Proofs/CriticalReadings.lean ====
section

/-! PROOF. Critical readings that make no auto-release, at a station at rest and in HEAVING (R78, R79, R95, R96). -/

namespace Sys2Proof.Machine

variable {s m r t : State} {i : StationId} {a : ActiveOp} {c : Channel} {v : Nat} {u : UnitId}

/-- A critical reading `v` that makes no auto-release: `m` is left by its stages, `r` by the station's own part, `t` by the
event. -/
structure State.CriticalReading (s m r t : State) (i : StationId) (c : Channel) (v : Nat) : Prop where
  inv : s.Inv
  form : m = s.read i ((s.station i).noticing .critical) c (s.alertCritical i .critical)
  found : (s.channel i).Found v c
  acts : State.Acts i s m
  fit : (m.site i).Fit
  reads : r = m.readingByState i v true
  settled : t = State.settle s r
  ends : State.Ends i s r t

/-- What a critical reading comes to in every state (R78, R79). -/
structure State.CriticalKept (s t : State) (i : StationId) (v : Nat) : Prop where
  condition : (t.channel i).critCondition = true
  count : (t.channel i).critCount = min 2 ((s.channel i).critCount + 1)
  latest : (t.channel i).latest = some v
  steady : (t.channel i).steady = 0
  record : t.mooring i = s.mooring i
  calls : s.sameCalls t
  permits : t.permitsOk
  alert : t.alert = s.alertCritical i .critical
  only : s.OnlyAt t i

/-- A critical render, as a station submits it (R95). -/
abbrev Request.render (i : StationId) : Request := ⟨i, .trim .outward true, false⟩

/-- What a critical reading found stands as its station enters a state (R85, R87). -/
theorem Channel.Found.entering {old : Channel} (h : old.Found v c) (state : LineState) : old.Found v (c.entering state) := by
  obtain ⟨condition, count, latest, steady⟩ := h
  unfold Channel.entering
  split
  · exact ⟨condition, count, latest, steady⟩
  · exact ⟨condition, count, latest, rfl⟩

namespace State.CriticalReading

variable {z : Station} {d : Option DriveUnit} {c' : Channel} {qs : List Request}

theorem site (h : CriticalReading s m r t i c v) : m.site i = { s.site i with
    x := (s.station i).noticing .critical, c := c, alert := s.alertCritical i .critical } := by
  rw [h.form]; exact State.site_read _ _ _ rfl

theorem station (h : CriticalReading s m r t i c v) : m.station i = (s.station i).noticing .critical :=
  (congrArg Site.x h.site :)

theorem calls (h : CriticalReading s m r t i c v) : m.calls = s.calls := by
  rw [h.form]; rfl

theorem queue (h : CriticalReading s m r t i c v) : m.queue = s.queue := by
  rw [h.form]; rfl

theorem kept (h : CriticalReading s m r t i c v) (left : r.site i = { m.site i with x := z, c := c', v := d, qs := qs })
    (found : (s.channel i).Found v c') (called : r.calls = m.calls) : s.CriticalKept t i v := by
  rw [h.site] at left
  obtain ⟨channel, record, alert, -⟩ := h.ends.of_site left
  obtain ⟨condition, count, latest, steady⟩ := found
  exact ⟨by rw [channel]; exact condition, by rw [channel]; exact count, by rw [channel]; exact latest,
    by rw [channel]; exact steady, record, h.ends.sameCalls (called.trans h.calls), h.ends.permits, alert, h.ends.onlyAt⟩

/-- The station comes to rest and asks for nothing. -/
theorem rests (h : CriticalReading s m r t i c v) (left : r.site i = { m.site i with x := z, c := c', v := d, qs := [] })
    (found : (s.channel i).Found v c') (called : r.calls = m.calls) : s.CriticalKept t i v ∧ t.station i = z :=
  ⟨h.kept left found called, (h.ends.of_site left).2.2.2 rfl⟩

/-- The station asks for a critical render. -/
theorem submits (h : CriticalReading s m r t i c v)
    (left : r.site i = { m.site i with x := z, c := c', v := d, qs := [.render i] })
    (found : (s.channel i).Found v c') (called : r.calls = m.calls)
    (queue : r.queue = insertTail (.render i) (s.queue.filter (fun p => p.station != i))) :
    s.CriticalKept t i v ∧ s.submits t i z (.render i) := by
  have asks := h.ends.queues (q := .render i) (place := insertTail) (by rw [left]) queue
  rw [left] at asks
  exact ⟨h.kept left found called, asks⟩

/-- The station goes on with what it does. -/
theorem stands (h : CriticalReading s m r t i c v) (eq : r = m) :
    s.CriticalKept t i v ∧ t.station i = (s.station i).noticing .critical ∧ t.units = s.units := by
  obtain ⟨station, units, -⟩ := h.inv.read_stands h.form s
  rw [← eq, ← h.settled] at station units
  refine ⟨h.kept (z := (m.site i).x) (c' := c) (d := (m.site i).v) (qs := (m.site i).qs) ?_ h.found (by rw [eq]), station, units⟩
  rw [eq, h.site]

/-- A station that has come to rest in FAST without a request asks for a critical render, unless the hold is in force
(R95). -/
theorem renders (h : CriticalReading s m r t i c v) {p : State} (eq : r = p.wantCriticalRender i)
    (left : p.site i = { m.site i with x := z, c := c', v := d, qs := [] }) (found : (s.channel i).Found v c')
    (called : p.calls = m.calls) (queue : p.queue = s.queue.filter (fun p => p.station != i)) : s.CriticalKept t i v ∧
      if s.hold = true then t.station i = z else s.submits t i z (.render i) := by
  have hold : p.hold = s.hold := (congrArg Site.hold (left.trans (by rw [h.site])) :)
  have none : p.requestOf i = none := by rw [State.requestOf_eq_site, left]; rfl
  unfold State.wantCriticalRender at eq
  rw [hold] at eq
  by_cases held : s.hold = true
  · rw [if_pos held] at eq ⊢
    subst eq
    exact h.rests left found called
  · rw [if_neg held] at eq ⊢
    have submits : r = p.submit i (.trim .outward true) false := by
      rw [eq]
      unfold State.wantTrim
      rw [none]
    refine h.submits (d := d) ?_ found (by rw [submits]; exact called) (by rw [submits, ← queue]; rfl)
    rw [submits, State.site_submit _ _ _ (by rw [left]), left]

end State.CriticalReading

/-! ### At rest (R95) -/

/-- The pending request of a station is the only one of the queue that is its own. -/
theorem State.Inv.request_unique (h : s.Inv) {q p : Request} (some : s.requestOf i = some q) (mem : p ∈ s.queue)
    (own : p.station = i) : p = q := by
  obtain ⟨none, -⟩ | ⟨q', some', qs, -⟩ := h.requests_cases i
  · rw [none] at some; cases some
  · obtain rfl : q = q' := Option.some.inj (some.symm.trans some')
    have own : p ∈ (s.site i).qs := List.mem_filter.2 ⟨mem, by simpa using own⟩
    rw [qs] at own
    exact List.mem_singleton.1 own

theorem State.readingByState_fast (state : (m.station i).state = .fast) (critical : Bool) :
    m.readingByState i v critical = m.wantTrim i (m.wantedTrim i critical) := by
  unfold State.readingByState
  rw [state]

/-- A station at rest asks for a critical render on a critical reading, unless the hold is in force (R95). -/
theorem State.readingByState_rest_critical (rest : (m.station i).state = .fast ∨ (m.station i).state = .eased)
    (free : m.hold = false) : m.readingByState i v true = m.wantTrim i (some (.outward, true)) := by
  rcases rest with state | state
  · rw [State.readingByState_fast state]
    unfold State.wantedTrim
    rw [free]
    rfl
  · unfold State.readingByState State.wantCriticalRender
    rw [state, free]
    rfl

theorem State.readingByState_rest_held (rest : (m.station i).state = .fast ∨ (m.station i).state = .eased)
    (hold : m.hold = true) (none : m.requestOf i = none) : m.readingByState i v true = m := by
  rcases rest with state | state
  · rw [State.readingByState_fast state]
    unfold State.wantedTrim State.wantTrim
    rw [hold, none]
    rfl
  · unfold State.readingByState State.wantCriticalRender
    rw [state, hold]
    rfl

theorem State.CriticalReading.at_rest (h : State.CriticalReading s m r t i c v)
    (rest : (s.station i).state = .fast ∨ (s.station i).state = .eased) :
    let y := (s.station i).noticing .critical
    let render : Request := ⟨i, .trim .outward true, (s.requestOf i).any Request.retryUsed⟩
    s.CriticalKept t i v ∧
      if s.hold then t.station i = y
      else if (s.requestOf i).isSome then
        t.asks i y render ∧ t.queue = s.queue.map (fun p => if p.station = i then render else p)
      else s.submits t i y render := by
  intro y render
  have rest' : (m.station i).state = .fast ∨ (m.station i).state = .eased := by rw [h.station]; exact rest
  have hold' : m.hold = s.hold := by rw [h.form]; rfl
  by_cases hold : s.hold = true
  · have none : m.requestOf i = none := by
      rw [State.requestOf_eq_site, h.site]
      exact congrArg List.head? ((h.inv.held i) hold).1
    obtain ⟨kept, station, -⟩ := h.stands (h.reads.trans (State.readingByState_rest_held rest' (hold'.trans hold) none))
    rw [if_pos hold]
    exact ⟨kept, station⟩
  · have eq := h.reads.trans (State.readingByState_rest_critical rest' (hold'.trans (Bool.eq_false_iff.2 hold)))
    have ends := h.ends
    have settled := h.settled
    have site := m.site_wantTrim (i := i) (some (.outward, true))
    rw [eq] at ends settled
    have wants := h.inv.wants_trim rest h.form rfl _ ends settled
    refine ⟨h.kept (z := (m.site i).x) (c' := (m.site i).c) (d := (m.site i).v) (eq ▸ site) ?_ (by rw [eq]; simp), ?_⟩
    · rw [h.site]; exact h.found
    rw [if_neg hold]
    cases request : s.requestOf i with
    | none =>
      simp only [State.Wants, request, Option.isSome_none, Bool.false_eq_true, if_false] at wants
      simp only [Option.isSome_none, Bool.false_eq_true, if_false, render, request]
      exact wants
    | some q =>
      simp only [State.Wants, request, Option.isSome_some, if_true] at wants
      simp only [Option.isSome_some, if_true, render, request]
      refine ⟨wants.1, wants.2.trans (List.map_congr_left fun p hp => ?_)⟩
      by_cases own : p.station = i
      · obtain rfl := h.inv.request_unique request hp own
        rw [if_pos own, if_pos own, ← own]
        rfl
      · rw [if_neg own, if_neg own]

/-! ### HEAVING (R96) -/

theorem State.readingByState_critical_heaving (state : (m.station i).state = .heaving) :
    m.readingByState i v true = m.criticalHeaving i := by
  unfold State.readingByState
  rw [state]
  rfl

theorem ActiveOp.granted_phase (granted : a.isGranted = true) : a.phase = .granted := by
  unfold ActiveOp.isGranted at granted
  split at granted
  · next k => exact k
  all_goals cases granted

/-- A reason below the one just raised does not replace it (R23). -/
theorem Station.outranks_noticing_of_lower (x : Station) {low high : Attention} (below : high.priority < low.priority) :
    low.outranks (x.noticing high).attention = false := by
  unfold Station.noticing Attention.outranks
  by_cases above : high.priority < x.attention.priority
  · simp [above, below.le]
  · simp [above]
    omega

theorem State.discardParkedHeave_queue : (s.discardParkedHeave i).queue = s.queue := by
  unfold State.discardParkedHeave
  dsimp only
  split
  · rw [State.enter_drive.1]
    exact State.releaseUnit_queue
  · rfl

namespace State.CriticalReading

theorem heaving_parked (h : CriticalReading s m r t i c v) (state : (s.station i).state = .heaving)
    (parked : (s.station i).parked.isSome = true) :
    let y := (s.station i).noticing .critical
    let z := { y.entered .fast with
      parked := none
      unit := none
      step := (s.station i).step.map (fun g => if g.kind = .motionLock then { g with kind := .handBack } else g) }
    s.CriticalKept t i v ∧ if s.hold = true then t.station i = z else s.submits t i z (.render i) := by
  intro y z
  have state' : (m.station i).state = .heaving := by rw [h.station]; exact state
  have eq : r = (m.discardParkedHeave i).wantCriticalRender i := by
    rw [h.reads, State.readingByState_critical_heaving state']
    unfold State.criticalHeaving
    exact if_pos (by rw [h.station]; exact parked)
  have qs : (s.site i).qs = [] := by
    rcases h.inv.requests_cases i with ⟨-, qs⟩ | ⟨q, -, qs, -⟩
    · exact qs
    · obtain ⟨-, -, -, -, -, none, -⟩ := (h.inv.fit i).doing.of_request (q := q) (by rw [qs]; exact List.mem_cons_self)
      rw [State.station_eq_site, none] at parked
      cases parked
  refine h.renders (c' := c.entering .fast) (d := none) eq ?_ (h.found.entering _) (by simp) ?_
  · rw [State.discardParkedHeave_site state', h.site]
    simp only [qs]
    rfl
  · rw [State.discardParkedHeave_queue, h.queue, State.others_eq_queue qs]

theorem heaving_pending (h : CriticalReading s m r t i c v) (state : (s.station i).state = .heaving)
    (request : (s.requestOf i).isSome = true) :
    s.CriticalKept t i v ∧ s.submits t i (((s.station i).noticing .critical).entered .fast) (.render i) := by
  have state' : (m.station i).state = .heaving := by rw [h.station]; exact state
  rcases h.inv.requests_cases i with ⟨none, -⟩ | ⟨q, -, qs, -⟩
  · rw [none] at request; cases request
  have free : s.hold = false := by
    by_contra hold
    have none := ((h.inv.held i) ((Bool.not_eq_false _).mp hold)).1
    rw [qs] at none; cases none
  obtain ⟨-, -, v', unit, active, parked, -⟩ := (h.inv.fit i).doing.of_request (q := q) (by rw [qs]; exact List.mem_cons_self)
  have eq : r = ((m.withdraw i).enter i .fast).wantCriticalRender i := by
    rw [h.reads, State.readingByState_critical_heaving state']
    unfold State.criticalHeaving
    have park' : (m.station i).parked.isSome = false := by rw [h.station]; exact (congrArg Option.isSome parked :)
    have active' : (m.station i).active = none := by rw [h.station]; exact active
    have request' : (m.requestOf i).isSome = true := by rw [h.form]; exact request
    rw [park', active']
    simp only [Bool.false_eq_true, if_false, request', if_true]
  have done := h.renders (c' := c.entering .fast) (d := (m.site i).v)
    (z := ((s.station i).noticing .critical).entered .fast) eq ?_ (h.found.entering _) (by simp) ?_
  · rw [free, if_neg (by decide)] at done
    exact done
  · rw [State.site_enter_of (state := .fast) nofun (by
      rw [State.site_withdraw, ← State.station_eq_site, state']; exact nofun), State.site_withdraw, h.site]
  · rw [State.enter_drive.1]
    exact congrArg (List.filter _) h.queue

/-- A grant given back on a critical reading (R95, R96). -/
theorem gives_back (h : CriticalReading s m r t i c v) {new : LineState} (active : (s.station i).active = some a)
    (phase : a.phase = .granted) (quits : (s.station i).state.endsIn new = true) (eq : r = m.criticalGiveBack i new) :
    let z := { ((s.station i).noticing .critical).entered new with unit := none, active := none }
    s.CriticalKept t i v ∧
      if new = .fast ∧ s.hold = false then s.submits t i z (.render i) else t.station i = z := by
  intro z
  have qs : (s.site i).qs = [] := h.inv.noRequest active
  have free : s.hold = false := (h.inv.held i).free_of_granted active phase
  have ending := (h.inv.fit i).ending_of_granted (w := a.work) (b := a.retryUsed) (by rw [← phase]; exact active)
  have fast : (m.site i).x.state ≠ .fast := by
    rw [h.site]; exact LineState.ne_fast_of_holdsUnit ending.holds
  have left : ((m.giveBack i).enter i new).site i = { m.site i with x := z, c := c.entering new, v := none, qs := [] } := by
    rw [State.site_giveBack_enter (LineState.endsIn_cases quits).2.2.1 fast, h.site, Site.quit]
    simp only [qs]
    rfl
  have calls : ((m.giveBack i).enter i new).calls = m.calls := by simp [State.giveBack]
  unfold State.criticalGiveBack at eq
  dsimp only at eq
  by_cases end_ : new = .fast
  · rw [if_pos end_] at eq
    rw [if_pos ⟨end_, free⟩]
    have done := h.renders eq left (h.found.entering _) calls (by
      rw [State.enter_drive.1, State.giveBack_stands.1, h.queue, State.others_eq_queue qs])
    rw [free, if_neg (by decide)] at done
    exact done
  · rw [if_neg end_] at eq
    rw [if_neg fun k => end_ k.1]
    exact h.rests (eq ▸ left) (h.found.entering _) (by rw [eq]; exact calls)

/-- A motion stopped by a critical reading (R96). -/
theorem stops (h : CriticalReading s m r t i c v) (moves : (s.motionOf i).isSome = true) {act : Option ActiveOp}
    (e : m.EndsMotion r i .critical { (s.station i).noticing .critical with active := act }) {new : LineState}
    (over_ : (Station.stoppedShut { (s.station i).noticing .critical with active := act } .critical).EndsAs new)
    (stow : new ≠ .stowed) :
    let x := s.station i
    let y := x.noticing .critical
    let z := (y.stoppedShut .critical).rested new
    s.CriticalKept t i v ∧ (x.shut = false → t.station i = y.stopped .critical act s.settings.gearLimit) ∧
      (x.shut = true → if new = .fast then s.submits t i z (.render i) else t.station i = z) := by
  intro x y z
  obtain ⟨a, active⟩ := State.active_of_moves moves
  have qs : (s.site i).qs = [] := h.inv.noRequest active
  have qs' : (m.site i).qs = [] := by rw [h.site]; exact qs
  have free : s.hold = false := (h.inv.held i).free_of_moving moves
  have settings : m.settings = s.settings := by rw [h.form]; rfl
  have channel : m.channel i = c := (congrArg Site.c h.site :)
  by_cases shut : x.shut = true
  · suffices done : s.CriticalKept t i v ∧ if new = .fast then s.submits t i z (.render i) else t.station i = z from
      ⟨done.1, fun k => (nomatch shut.symm.trans k), fun _ => done.2⟩
    by_cases fast : new = .fast
    · subst fast
      obtain ⟨left, queue, calls⟩ := e.renders shut over_
        ⟨rfl, by rw [channel]; exact h.found.condition, by rw [h.form]; exact free⟩
      rw [channel] at left
      refine h.submits (d := none) left (h.found.entering _) calls (queue.trans ?_)
      rw [h.queue, State.others_eq_queue qs]
    · obtain ⟨left, -, calls⟩ := e.rests shut over_ stow fun k => fast k.1
      rw [channel] at left
      rw [if_neg fast]
      exact h.rests (d := none) (left.trans (by rw [← qs']; rfl)) (h.found.entering _) calls
  · obtain ⟨left, -, calls, -⟩ := e.locks (Bool.eq_false_iff.2 shut)
    rw [settings] at left
    have done := h.rests (c' := c) (left.trans (by rw [← qs', h.site])) h.found calls
    exact ⟨done.1, fun _ => done.2, fun k => absurd k shut⟩

theorem heaving_moving (h : CriticalReading s m r t i c v) (state : (s.station i).state = .heaving)
    (moves : (s.motionOf i).isSome = true) :
    let x := s.station i
    let y := x.noticing .critical
    s.CriticalKept t i v ∧ (x.shut = false → t.station i = y.stopped .critical none s.settings.gearLimit) ∧
      (x.shut = true → s.submits t i ((y.stoppedShut .critical).rested .fast) (.render i)) := by
  intro x y
  have state' : (m.station i).state = .heaving := by rw [h.station]; exact state
  obtain ⟨a, active⟩ := State.active_of_moves moves
  obtain ⟨n, phase⟩ := State.moving_phase active moves
  obtain ⟨-, -, -, -, -, -, parked, -⟩ := (h.inv.fit i).doing.of_moving active phase
  have moves' : (m.motionOf i).isSome = true := by
    rw [State.motionOf_eq_site, h.site]; exact moves
  have eq : r = m.endMotionDiscard i .critical := by
    rw [h.reads, State.readingByState_critical_heaving state']
    unfold State.criticalHeaving
    have park' : (m.station i).parked.isSome = false := by rw [h.station]; exact (congrArg Option.isSome parked :)
    have active' : (m.station i).active = some a := by rw [h.station]; exact active
    rw [park', active']
    simp only [Bool.false_eq_true, if_false]
    rw [phase]
  have e := State.endMotionDiscard_ends h.fit moves' .critical
  rw [← eq, h.station] at e
  exact h.stops moves e (.inr ⟨parked, fun k => (nomatch k), .inl ⟨state, rfl⟩⟩) nofun

theorem heaving_granted (h : CriticalReading s m r t i c v) (state : (s.station i).state = .heaving)
    (granted : (s.station i).active.any ActiveOp.isGranted = true) : s.CriticalKept t i v ∧
      s.submits t i { ((s.station i).noticing .critical).entered .fast with unit := none, active := none } (.render i) := by
  have state' : (m.station i).state = .heaving := by rw [h.station]; exact state
  cases active : (s.station i).active with
  | none => rw [active] at granted; cases granted
  | some a =>
    rw [active, Option.any_some] at granted
    have phase := ActiveOp.granted_phase granted
    have parked : (s.station i).parked = none := by
      have ending := (h.inv.fit i).ending_of_granted (w := a.work) (b := a.retryUsed) (by rw [← phase]; exact active)
      exact (ending.active a active).2
    have eq : r = m.criticalGiveBack i .fast := by
      rw [h.reads, State.readingByState_critical_heaving state']
      unfold State.criticalHeaving
      have park' : (m.station i).parked.isSome = false := by rw [h.station]; exact (congrArg Option.isSome parked :)
      have active' : (m.station i).active = some a := by rw [h.station]; exact active
      rw [park', active']
      simp only [Bool.false_eq_true, if_false]
      rw [phase]
    have done := h.gives_back active phase (by rw [state]; rfl) eq
    exact ⟨done.1, (if_pos ⟨rfl, (h.inv.held i).free_of_granted active phase⟩).mp done.2⟩

/-- A HEAVING station without work that waits or moves goes on (log 22). -/
theorem heaving_stands (h : CriticalReading s m r t i c v) (state : (s.station i).state = .heaving)
    (parked : (s.station i).parked = none) (request : s.requestOf i = none)
    (granted : (s.station i).active.any ActiveOp.isGranted = false) (motion : s.motionOf i = none) :
    s.CriticalKept t i v ∧ t.station i = (s.station i).noticing .critical := by
  have state' : (m.station i).state = .heaving := by rw [h.station]; exact state
  have eq : r = m := by
    rw [h.reads, State.readingByState_critical_heaving state']
    unfold State.criticalHeaving
    have park' : (m.station i).parked.isSome = false := by rw [h.station]; exact (congrArg Option.isSome parked :)
    have request' : (m.requestOf i).isSome = false := by rw [h.form]; exact congrArg Option.isSome request
    have active' : (m.station i).active = (s.station i).active := by rw [h.station]; rfl
    rw [park', active']
    simp only [Bool.false_eq_true, if_false, request']
    cases active : (s.station i).active with
    | none => rfl
    | some a =>
      rw [active, Option.any_some] at granted
      rw [State.motionOf_of_active active] at motion
      dsimp only
      cases phase : a.phase with
      | granted => simp [ActiveOp.isGranted, phase] at granted
      | moving n => simp [ActiveOp.moving?, phase] at motion
      | awaiting | ended n => rfl
  obtain ⟨kept, station, -⟩ := h.stands eq
  exact ⟨kept, station⟩

end State.CriticalReading

end Sys2Proof.Machine

end

