-- ==== Sys2Proof/Proofs/CriticalActions.lean ====
section

/-! PROOF. Critical readings that make no auto-release, in TRIMMING and REWINDING (R96, R97, R142). -/

namespace Sys2Proof.Machine

variable {s m r t : State} {i : StationId} {a : ActiveOp} {c : Channel} {v : Nat} {u : UnitId}

/-! ### TRIMMING (R96, R97) -/

theorem State.readingByState_critical_trimming (state : (m.station i).state = .trimming) :
    m.readingByState i v true = m.criticalTrimming i := by
  unfold State.readingByState
  rw [state]
  rfl

theorem State.criticalTrimming_of_active (active : (m.station i).active = some a) : m.criticalTrimming i =
    match a.work, a.phase with
    | .trim .inward _, .granted => m.criticalGiveBack i (m.restingOf i)
    | .trim .inward _, .moving _ => m.endMotion i .critical
    | .trim .outward _, .granted =>
      m.onStation i (fun x => { x with active := some { a with work := .trim .outward true } })
    | _, _ => m := by
  unfold State.criticalTrimming
  rw [active] <;> rfl

namespace State.CriticalReading

theorem trimming_eq (h : CriticalReading s m r t i c v) (state : (s.station i).state = .trimming) :
    r = m.criticalTrimming i := by
  rw [h.reads, State.readingByState_critical_trimming (by rw [h.station]; exact state)]

theorem active (h : CriticalReading s m r t i c v) : (m.station i).active = (s.station i).active := by
  rw [h.station]; rfl

theorem trimming_back (h : CriticalReading s m r t i c v) (state : (s.station i).state = .trimming)
    (active : (s.station i).active = some a) {b : Bool} (work : a.work = .trim .inward b) (granted : a.isGranted = true) :
    ∃ new, (s.station i).resting = some new ∧
      let z := { ((s.station i).noticing .critical).entered new with unit := none, active := none }
      s.CriticalKept t i v ∧ if new = .fast ∧ s.hold = false then s.submits t i z (.render i) else t.station i = z := by
  have phase := ActiveOp.granted_phase granted
  obtain ⟨new, resting⟩ := Option.isSome_iff_exists.1 ((h.inv.fit i).recorded.resting.2 state)
  have eq : r = m.criticalGiveBack i new := by
    rw [h.trimming_eq state, State.criticalTrimming_of_active (h.active.trans active), work, phase]
    unfold State.restingOf
    rw [show (m.station i).resting = some new by rw [h.station]; exact resting]
    rfl
  have ending := (h.inv.fit i).ending_of_granted (w := a.work) (b := a.retryUsed) (by rw [← phase]; exact active)
  have quits : (s.station i).state.endsIn new = true := by
    have ends := ending.restingOf state
    rw [show (s.site i).x.resting = some new from resting] at ends
    exact ends
  exact ⟨new, resting, h.gives_back active phase quits eq⟩

theorem trimming_stops (h : CriticalReading s m r t i c v) (state : (s.station i).state = .trimming)
    (active : (s.station i).active = some a) {b : Bool} (work : a.work = .trim .inward b)
    (moves : (s.motionOf i).isSome = true) :
    let x := s.station i
    let y := x.noticing .critical
    ∃ new, x.resting = some new ∧ s.CriticalKept t i v ∧
      (x.shut = false → t.station i = y.stopped .critical (some a.ended) s.settings.gearLimit) ∧
      (x.shut = true → let z := (y.stoppedShut .critical).rested new
        if new = .fast then s.submits t i z (.render i) else t.station i = z) := by
  intro x y
  have recorded := (h.inv.fit i).recorded
  obtain ⟨new, resting⟩ := Option.isSome_iff_exists.1 (recorded.resting.2 state)
  obtain ⟨n, phase⟩ := State.moving_phase active moves
  have moves' : (m.motionOf i).isSome = true := by
    rw [State.motionOf_eq_site, h.site]; exact moves
  have eq : r = m.endMotion i .critical := by
    rw [h.trimming_eq state, State.criticalTrimming_of_active (h.active.trans active), work, phase]
  have e := State.endMotion_ends h.fit moves' .critical
  rw [← eq, h.station, show (((s.station i).noticing .critical).active.map ActiveOp.ended) = some a.ended by
    rw [show ((s.station i).noticing .critical).active = some a from active]; rfl] at e
  refine ⟨new, resting, h.stops moves e (.inl ⟨state, ?_⟩) ?_⟩
  · exact (congrArg (fun r : Option LineState => r.getD .fast) resting).symm
  · rcases recorded.restingState new resting with rfl | rfl <;> exact nofun

theorem trimming_marks (h : CriticalReading s m r t i c v) (state : (s.station i).state = .trimming)
    (active : (s.station i).active = some a) (outward : a.work.direction = .outward) (granted : a.isGranted = true) :
    s.CriticalKept t i v ∧
      t.station i = { (s.station i).noticing .critical with active := some { a with work := .trim .outward true } } := by
  have phase := ActiveOp.granted_phase granted
  have work := (h.inv.fit i).granted_work active phase
  have trim : a.work.isTrim = true := (Work.activeIn_cases work).2.2 state
  have eq : r = m.onStation i (fun x => { x with active := some { a with work := .trim .outward true } }) := by
    rw [h.trimming_eq state, State.criticalTrimming_of_active (h.active.trans active), phase]
    cases w : a.work with
    | trim d b =>
      rw [w] at outward
      obtain rfl : d = .outward := outward
      rfl
    | heave | slacken n | rewind => rw [w] at trim; cases trim
  have left : r.site i = { m.site i with x := { (m.site i).x with active := some { a with work := .trim .outward true } } } := by
    rw [eq]; exact State.site_onStation _ _ rfl
  rw [h.site] at left
  have qs : (s.site i).qs = [] := h.inv.noRequest active
  refine h.rests (d := (s.site i).v) (c' := c) (left.trans ?_) h.found (by rw [eq]; rfl)
  rw [← qs, h.site]

/-- A TRIM that neither waits for READY nor hauls in goes on (R96, log 22). -/
theorem trimming_stands (h : CriticalReading s m r t i c v) (state : (s.station i).state = .trimming)
    (rest : ∀ a ∈ (s.station i).active, a.isGranted = false ∧ (a.work.direction = .outward ∨ s.motionOf i = none)) :
    s.CriticalKept t i v ∧ t.station i = (s.station i).noticing .critical := by
  have eq : r = m := by
    rw [h.trimming_eq state]
    cases active : (s.station i).active with
    | none =>
      unfold State.criticalTrimming
      rw [h.active.trans active]
    | some a =>
      rw [State.criticalTrimming_of_active (h.active.trans active)]
      obtain ⟨waits, still⟩ := rest a active
      rw [State.motionOf_of_active active] at still
      split
      · next phase => simp [ActiveOp.isGranted, phase] at waits
      · next work phase =>
        rw [work] at still
        simp [Work.direction, ActiveOp.moving?, phase] at still
      · next phase => simp [ActiveOp.isGranted, phase] at waits
      · rfl
  obtain ⟨kept, station, -⟩ := h.stands eq
  exact ⟨kept, station⟩

/-! ### REWINDING (R142) -/

theorem rewinding_eq (h : CriticalReading s m r t i c v) (state : (s.station i).state = .rewinding) :
    r = if s.settings.snagLimit ≤ v ∧ (s.motionOf i).isSome = true then (m.endMotionDiscard i .snag).raise i .snag
      else m := by
  have motion : m.motionOf i = s.motionOf i := by
    rw [State.motionOf_eq_site, h.site]; rfl
  rw [h.reads, State.readingByState_rewinding (by rw [h.station]; exact state), State.snagReading_eq, motion, h.form]
  rfl

/-- A REWIND in motion stops on a reading at or above the snag limit, with CRITICAL kept. -/
theorem snags (h : CriticalReading s m r t i c v) (state : (s.station i).state = .rewinding)
    (moves : (s.motionOf i).isSome = true) (snag : s.settings.snagLimit ≤ v) :
    let x := s.station i
    let y := x.noticing .critical
    s.CriticalKept t i v ∧
      (x.shut = false → t.station i = (y.stopped .snag none s.settings.gearLimit).noticing .snag ∧
        ∀ u ∈ x.unit, t.unit u = { s.unit u with stop := true }) ∧
      (x.shut = true → t.station i = ((y.stoppedShut .snag).rested .released).noticing .snag ∧
        ∀ u ∈ x.unit, s.freed t u) := by
  intro x y
  have eq := (h.rewinding_eq state).trans (if_pos ⟨snag, moves⟩)
  obtain ⟨a, active⟩ := State.active_of_moves moves
  obtain ⟨n, phase⟩ := State.moving_phase active moves
  obtain ⟨u, d, unit, v', running, qs, parked, -⟩ := (h.inv.fit i).doing.of_moving active phase
  have qs : (s.site i).qs = [] := qs
  have moves' : (m.motionOf i).isSome = true := by
    rw [State.motionOf_eq_site, h.site]; exact moves
  have stops := State.endMotionDiscard_ends h.fit moves' .snag
  rw [h.station] at stops
  have unit_m : (m.station i).unit = some u := by rw [h.station]; exact unit
  have unit_s : m.unit u = s.unit u := by rw [h.form]; rfl
  have settings : m.settings = s.settings := by rw [h.form]; rfl
  have channel : m.channel i = c := (congrArg Site.c h.site :)
  have raised : r.unit u = (m.endMotionDiscard i .snag).unit u := by
    rw [eq, State.raise_eq]; rfl
  have lower : Attention.snag.outranks y.attention = false := Station.outranks_noticing_of_lower x (by decide)
  have over_ : ∀ z c' d', (m.endMotionDiscard i .snag).site i = { m.site i with x := z, c := c', v := d' } →
      z.attention = y.attention → (s.channel i).Found v c' → (m.endMotionDiscard i .snag).calls = m.calls →
      s.CriticalKept t i v ∧ t.station i = z.noticing .snag := fun z c' d' left attention found called => by
    have site := State.site_raise (m.endMotionDiscard i .snag) (i := i) .snag
    rw [← eq, left] at site
    refine h.rests (c' := c') (d := d') (site.trans ?_) found (by rw [eq, State.raise_calls, called])
    dsimp only
    rw [attention, lower, Bool.false_and, Bool.or_false, h.site]
    simp only [qs]
  by_cases shut : x.shut = true
  · obtain ⟨left, -, calls⟩ := stops.rests shut (state := .released)
      (.inr ⟨parked, fun k => (nomatch k), .inr (.inr ⟨state, rfl⟩)⟩) nofun fun k => nomatch k.1
    have frees := stops.frees shut (h.acts.sound h.inv.whole.sound) unit_m (unit.trans unit_m.symm)
    rw [unit_s, ← raised] at frees
    rw [channel] at left
    obtain ⟨kept, station⟩ := over_ _ _ _ left rfl (h.found.entering _) calls
    refine ⟨kept, fun k => (nomatch shut.symm.trans k), fun _ => ⟨station, fun u' unit' => ?_⟩⟩
    obtain rfl : u = u' := Option.some.inj (unit.symm.trans unit')
    exact h.ends.freed frees
  · obtain ⟨left, -, calls, told⟩ := stops.locks (Bool.eq_false_iff.2 shut)
    have told := raised.trans (told u unit_m)
    rw [unit_s] at told
    rw [settings] at left
    obtain ⟨kept, station⟩ := over_ _ (m.channel i) _ left rfl (by rw [channel]; exact h.found) calls
    refine ⟨kept, fun _ => ⟨station, fun u' unit' => ?_⟩, fun k => absurd k shut⟩
    obtain rfl : u = u' := Option.some.inj (unit.symm.trans unit')
    refine (h.ends.unit_busy ?_).trans told
    rw [told, Site.v_eq_unit unit v']
    exact fun k => nomatch running.symm.trans k

theorem rewinds_on (h : CriticalReading s m r t i c v) (state : (s.station i).state = .rewinding)
    (calm : ¬(s.settings.snagLimit ≤ v ∧ (s.motionOf i).isSome = true)) : s.CriticalKept t i v ∧
      t.station i = (s.station i).noticing .critical ∧ t.units = s.units :=
  h.stands ((h.rewinding_eq state).trans (if_neg calm))

end State.CriticalReading

/-! ### Every state -/

theorem State.CriticalReading.elsewhere (h : State.CriticalReading s m r t i c v)
    (other : (s.station i).state = .easing ∨ (s.station i).state = .released ∨ (s.station i).state = .inLocal ∨
      (s.station i).state = .fault) : s.CriticalKept t i v ∧ t.station i = (s.station i).noticing .critical := by
  have eq : r = m := by
    rw [h.reads]
    unfold State.readingByState
    rw [h.station, show ((s.station i).noticing .critical).state = (s.station i).state from rfl]
    rcases other with state | state | state | state <;> rw [state]
  obtain ⟨kept, station, -⟩ := h.stands eq
  exact ⟨kept, station⟩

/-- In the motion lock step no operation waits or moves. -/
theorem State.CriticalReading.locked (h : State.CriticalReading s m r t i c v) (locking : (s.station i).locking = true) :
    s.requestOf i = none ∧ s.motionOf i = none ∧ ∀ a ∈ (s.station i).active, a.isGranted = false := by
  obtain ⟨-, -, -, -, qs, ended⟩ := (h.inv.fit i).doing.of_locking locking
  refine ⟨by rw [State.requestOf_eq_site, qs]; rfl, ?_, fun a active => ?_⟩
  · cases active : (s.station i).active with
    | none => unfold State.motionOf; rw [active]; rfl
    | some a =>
      obtain ⟨-, n, phase⟩ := ended a active
      rw [State.motionOf_of_active active]
      simp [ActiveOp.moving?, phase]
  · obtain ⟨-, n, phase⟩ := ended a active
    simp [ActiveOp.isGranted, phase]

/-- What a critical reading comes to in HEAVING. -/
theorem State.CriticalReading.in_heaving (h : State.CriticalReading s m r t i c v) (state : (s.station i).state = .heaving) :
    s.CriticalKept t i v := by
  by_cases parked : (s.station i).parked.isSome = true
  · exact (h.heaving_parked state parked).1
  by_cases request : (s.requestOf i).isSome = true
  · exact (h.heaving_pending state request).1
  by_cases granted : (s.station i).active.any ActiveOp.isGranted = true
  · exact (h.heaving_granted state granted).1
  by_cases moves : (s.motionOf i).isSome = true
  · exact (h.heaving_moving state moves).1
  exact (h.heaving_stands state (Option.not_isSome_iff_eq_none.1 parked) (Option.not_isSome_iff_eq_none.1 request)
    (Bool.eq_false_iff.2 granted) (Option.not_isSome_iff_eq_none.1 moves)).1

theorem Work.trim_of_trimming {w : Work} {state : LineState} (work : w.activeIn state = true) (trimming : state = .trimming) :
    ∃ d b, w = .trim d b := by
  have trim := (Work.activeIn_cases work).2.2 trimming
  cases w with
  | trim d b => exact ⟨d, b, rfl⟩
  | heave | slacken n | rewind => cases trim

/-- What a critical reading comes to in TRIMMING. -/
theorem State.CriticalReading.in_trimming (h : State.CriticalReading s m r t i c v)
    (state : (s.station i).state = .trimming) : s.CriticalKept t i v := by
  cases active : (s.station i).active with
  | none => exact (h.trimming_stands state fun a k => by rw [active] at k; cases k).1
  | some a =>
    by_cases granted : a.isGranted = true
    · obtain ⟨d, b, work⟩ := Work.trim_of_trimming ((h.inv.fit i).granted_work active (ActiveOp.granted_phase granted)) state
      cases d with
      | outward => exact (h.trimming_marks state active (by rw [work]; rfl) granted).1
      | inward =>
        obtain ⟨new, -, kept, -⟩ := h.trimming_back state active work granted
        exact kept
    have granted := Bool.eq_false_iff.2 granted
    by_cases moves : (s.motionOf i).isSome = true
    · obtain ⟨n, phase⟩ := State.moving_phase active moves
      obtain ⟨-, -, -, -, -, -, -, active', -⟩ := (h.inv.fit i).doing.of_moving active phase
      obtain ⟨d, b, work⟩ := Work.trim_of_trimming active' state
      cases d with
      | outward =>
        refine (h.trimming_stands state fun a' k => ?_).1
        obtain rfl : a = a' := Option.some.inj (Eq.trans (Eq.symm active) k)
        exact ⟨granted, .inl (by rw [work]; rfl)⟩
      | inward =>
        obtain ⟨new, -, kept, -⟩ := h.trimming_stops state active work moves
        exact kept
    · refine (h.trimming_stands state fun a' k => ?_).1
      obtain rfl : a = a' := Option.some.inj (Eq.trans (Eq.symm active) k)
      exact ⟨granted, .inr (Option.not_isSome_iff_eq_none.1 moves)⟩

/-- Settles O39: a critical reading by the state and the work of its station. -/
theorem criticalReadingsActByState : Obligations.CriticalReadingsActByState := by
  intro s i raw inv running low high last r record x c cal v y render limit critical quiet
  obtain ⟨found, m, finds, acts, fit, form, -, reads⟩ := inv.validSample_critical (raw := raw.toNat) record last critical
  have h : State.CriticalReading s m (s.validSample i raw.toNat) _ i found v :=
    ⟨inv, form, finds, acts, fit, reads quiet, rfl, inv.sample_ends running raw.toNat⟩
  have kept : s.CriticalKept (State.settle s (s.validSample i raw.toNat)) i v := by
    cases state : (s.station i).state with
    | fast => exact (h.at_rest (.inl state)).1
    | eased => exact (h.at_rest (.inr state)).1
    | heaving => exact h.in_heaving state
    | trimming => exact h.in_trimming state
    | rewinding =>
      by_cases snag : s.settings.snagLimit ≤ v ∧ (s.motionOf i).isSome = true
      · exact (h.snags state snag.2 snag.1).1
      · exact (h.rewinds_on state snag).1
    | easing => exact (h.elsewhere (.inl state)).1
    | released => exact (h.elsewhere (.inr (.inl state))).1
    | inLocal => exact (h.elsewhere (.inr (.inr (.inl state)))).1
    | fault => exact (h.elsewhere (.inr (.inr (.inr state)))).1
    | unknown | stowed | paying | outUnclaimed =>
      have none := (inv.fit i).recorded.absent (by rw [← State.station_eq_site, state]; rfl)
      exact nomatch Eq.trans (Eq.symm record) none
  refine ⟨_, exec_forming (i := i) running low high, kept.condition, kept.count, kept.latest, kept.steady, kept.record,
    kept.calls, kept.permits, kept.alert, kept.only, fun rest => (h.at_rest rest).2, fun state => ⟨fun parked => ?_,
      fun request => (h.heaving_pending state request).2, fun granted => (h.heaving_granted state granted).2,
      fun moves => (h.heaving_moving state moves).2, fun locking parked => ?_⟩, fun state locking => ?_,
    fun state a active => ⟨fun work granted new resting => ?_, fun work moves => ?_,
      fun outward granted => (h.trimming_marks state active outward granted).2, fun outward waits => ?_⟩,
    fun state moves => ⟨fun calm => ?_, fun snag => (h.snags state moves snag).2⟩, ?_⟩
  · exact (h.heaving_parked state parked).2
  · obtain ⟨request, motion, granted⟩ := h.locked locking
    refine (h.heaving_stands state parked request ?_ motion).2
    cases active : (s.station i).active with
    | none => rfl
    | some a => exact granted a active
  · obtain ⟨-, motion, granted⟩ := h.locked locking
    exact (h.trimming_stands state fun a active => ⟨granted a active, .inr motion⟩).2
  · obtain ⟨new', resting', -, done⟩ := h.trimming_back state active work granted
    obtain rfl : new = new' := Option.some.inj (Eq.trans (Eq.symm resting) resting')
    exact done
  · obtain ⟨new', resting', -, open_, shut⟩ := h.trimming_stops state active work moves
    refine ⟨open_, fun k new resting => ?_⟩
    obtain rfl : new = new' := Option.some.inj (Eq.trans (Eq.symm resting) resting')
    exact shut k
  · refine (h.trimming_stands state fun b active' => ?_).2
    obtain rfl : a = b := Option.some.inj (Eq.trans (Eq.symm active) active')
    exact ⟨waits, .inl outward⟩
  · exact (h.rewinds_on state fun k => absurd k.1 (not_le.2 calm)).2
  · rintro (state | state | state | state | ⟨state, motion⟩)
    · exact (h.elsewhere (.inl state)).2
    · exact (h.elsewhere (.inr (.inl state))).2
    · exact (h.elsewhere (.inr (.inr (.inl state)))).2
    · exact (h.elsewhere (.inr (.inr (.inr state)))).2
    · exact (h.rewinds_on state fun k => by rw [motion] at k; cases k.2).2.1

end Sys2Proof.Machine

end

