-- ==== Sys2Proof/Proofs/Regulation.lean ====
section

/-! PROOF. Readings below K in FAST: the conditions move, and the TRIM wanted follows (R79, R81 to R83, R86, R92, R93). -/

namespace Sys2Proof.Machine

variable {s t m : State} {i : StationId} {r : Mooring} {c : Channel} {v : Nat}

theorem Mooring.overAfter_eq (r : Mooring) (held : Bool) (overs v : Nat) : r.overAfter held overs v =
    (decide (r.excursionCount ≤ overs) || (held && decide (r.highLimit < v + r.hysteresis))) := by
  unfold Mooring.overAfter
  cases held <;> simp [Bool.decide_and, ← decide_not]

theorem Mooring.slackAfter_eq (r : Mooring) (held : Bool) (slacks v : Nat) : r.slackAfter held slacks v =
    (decide (r.excursionCount ≤ slacks) || (held && decide (v < r.slackLimit + r.hysteresis))) := by
  unfold Mooring.slackAfter
  cases held <;> simp [Bool.decide_and, ← decide_not]

/-- The window after a reading joins it (R81). -/
abbrev Channel.windowAfter (c : Channel) (r : Mooring) (v : Nat) : List Nat :=
  (c.window ++ [v]).drop (c.window.length + 1 - r.windowLength)

abbrev Channel.oversAfter (c : Channel) (r : Mooring) (v : Nat) : Nat :=
  (c.windowAfter r v).countP (fun e => decide (r.highLimit < e))

abbrev Channel.slacksAfter (c : Channel) (r : Mooring) (v : Nat) : Nat :=
  (c.windowAfter r v).countP (fun e => decide (e < r.slackLimit))

/-- OVER after a reading in FAST (R82). -/
abbrev Channel.overNext (c : Channel) (r : Mooring) (v : Nat) : Bool :=
  decide (r.excursionCount ≤ c.oversAfter r v) || (c.isOver && decide (r.highLimit < v + r.hysteresis))

/-- SLACK after a reading in FAST (R82). -/
abbrev Channel.slackNext (c : Channel) (r : Mooring) (v : Nat) : Bool :=
  decide (r.excursionCount ≤ c.slacksAfter r v) || (c.isSlack && decide (v < r.slackLimit + r.hysteresis))

theorem Channel.windowed_eq (c : Channel) (r : Mooring) (v : Nat) : c.windowed r v = { c with
    window := c.windowAfter r v
    overCount := c.oversAfter r v
    slackCount := c.slacksAfter r v
    isOver := c.overNext r v
    isSlack := c.slackNext r v
    isSurging := c.overNext r v && c.slackNext r v } := by
  unfold Channel.windowed
  dsimp only
  rw [Mooring.overAfter_eq, Mooring.slackAfter_eq, Mooring.overEntries, Mooring.slackEntries,
    ← List.countP_eq_length_filter, ← List.countP_eq_length_filter]
  rfl

/-- The channel after a reading below K in FAST, beside its window (R78, R79, R86). -/
abbrev Channel.calmed (c : Channel) (r : Mooring) (v : Nat) : Channel :=
  { c.formed v with
    critCount := 0
    critCondition := c.critCondition && decide (r.criticalLimit ≤ v + r.hysteresis)
    steady := if r.stale then 0 else if r.slackLimit ≤ v then min 255 (c.steady + 1) else 0 }

/-- The channel after a reading below K in FAST (R78 to R86). -/
abbrev Channel.regulated (c : Channel) (r : Mooring) (v : Nat) : Channel :=
  if r.stale then c.calmed r v else { c.calmed r v with
    window := c.windowAfter r v
    overCount := c.oversAfter r v
    slackCount := c.slacksAfter r v
    isOver := c.overNext r v
    isSlack := c.slackNext r v
    isSurging := c.overNext r v && c.slackNext r v }

theorem Channel.regulated_eq (calm : v < r.criticalLimit) :
    (((c.formed v).judged r v).joined r .fast v).steadied r .fast v = c.regulated r v := by
  rw [Channel.judged_below calm]
  unfold Channel.steadied Channel.joined Channel.regulated
  rw [if_pos (.inl rfl), Mooring.inBand_below calm]
  have band : (if r.stale = true then 0 else if decide (r.slackLimit ≤ v) = true then
      min Config.steadyMax (c.steady + 1) else 0) =
      if r.stale = true then 0 else if r.slackLimit ≤ v then min 255 (c.steady + 1) else 0 := by
    simp only [decide_eq_true_eq]
    rfl
  by_cases stale : r.stale = true
  · refine Eq.trans ?_ (if_pos stale).symm
    rw [if_neg (fun k => by rw [stale] at k; exact nomatch k.2)]
    exact congrArg (fun n : Nat => { c.calmed r v with steady := n }) band
  · refine Eq.trans ?_ (if_neg stale).symm
    rw [if_pos ⟨rfl, Bool.eq_false_iff.2 stale⟩, Channel.windowed_eq]
    exact congrArg (fun n : Nat => { c.calmed r v with
      window := c.windowAfter r v
      overCount := c.oversAfter r v
      slackCount := c.slacksAfter r v
      isOver := c.overNext r v
      isSlack := c.slackNext r v
      isSurging := c.overNext r v && c.slackNext r v
      steady := n }) band

/-- A reading in FAST that sets SURGING (R83). -/
abbrev Channel.surgesAt (c : Channel) (r : Mooring) (v : Nat) : Prop :=
  r.stale = false ∧ c.overNext r v = true ∧ c.slackNext r v = true ∧ c.isSurging = false

theorem Channel.surges_iff (calm : v < r.criticalLimit) :
    ((c.formed v).judged r v).surges r .fast v = decide (c.surgesAt r v) := by
  rw [Channel.judged_below calm]
  unfold Channel.surges
  rw [Channel.windowed_eq]
  refine decide_eq_decide.2 ?_
  simp only [true_and, Bool.and_eq_true, and_assoc]
  rfl

/-- The TRIM wanted after a reading below K in FAST (R92, R93). -/
abbrev State.wantedBelow (s : State) (i : StationId) (r : Mooring) (v : Nat) : Option (Direction × Bool) :=
  let c := s.channel i
  if s.hold then none
  else if (s.requestOf i).any (fun q => q.work.critical) ∧
      (c.critCondition && decide (r.criticalLimit ≤ v + r.hysteresis)) = true then some (.outward, true)
  else if r.stale then none
  else if c.overNext r v = true ∧ c.slackNext r v = false then some (.outward, false)
  else if c.slackNext r v = true ∧ c.overNext r v = false then some (.inward, false)
  else none

theorem Channel.regulated_critCondition : (c.regulated r v).critCondition =
    (c.critCondition && decide (r.criticalLimit ≤ v + r.hysteresis)) := by
  unfold Channel.regulated
  split <;> rfl

theorem Channel.regulated_fresh (fresh : r.stale = false) : (c.regulated r v).isOver = c.overNext r v ∧
    (c.regulated r v).isSlack = c.slackNext r v ∧
    (c.regulated r v).isSurging = (c.overNext r v && c.slackNext r v) := by
  unfold Channel.regulated
  rw [if_neg (by rw [fresh]; decide)]
  exact ⟨rfl, rfl, rfl⟩

theorem State.wantedTrim_read (record : s.mooring i = some r) (x : Station) (a : Bool) :
    (s.read i x ((s.channel i).regulated r v) a).wantedTrim i false = s.wantedBelow i r v := by
  unfold State.wantedTrim State.wantedBelow
  rw [State.read_channel, show (s.read i x ((s.channel i).regulated r v) a).mooring i = some r from record,
    show (s.read i x ((s.channel i).regulated r v) a).requestOf i = s.requestOf i from rfl,
    show (s.read i x ((s.channel i).regulated r v) a).hold = s.hold from rfl]
  dsimp only
  rw [Channel.regulated_critCondition, Option.any_some, if_neg Bool.false_ne_true]
  cases stale : r.stale with
  | true => simp
  | false =>
    obtain ⟨isOver, isSlack, isSurging⟩ := Channel.regulated_fresh (c := s.channel i) (v := v) stale
    rw [isOver, isSlack, isSurging]
    generalize (s.channel i).overNext r v = over_
    generalize (s.channel i).slackNext r v = slack
    cases over_ <;> cases slack <;> simp

/-- A reading below K in FAST: what it leaves before the TRIM wanted, and then that TRIM (R92). -/
theorem State.Inv.validSample_regulates (h : s.Inv) {raw : Nat}
    (last : (s.channel i).count + 1 = (s.calibration i).decimation) (reading : v = s.formedReading i raw)
    (record : s.mooring i = some r) (calm : v < r.criticalLimit) (fast : (s.station i).state = .fast) :
    s.validSample i raw = (s.read i (if (s.channel i).surgesAt r v then (s.station i).noticing .surging else s.station i)
      ((s.channel i).regulated r v)
      (s.alertOn i ((s.channel i).critCondition && decide (r.criticalLimit ≤ v + r.hysteresis)) ||
        (decide ((s.channel i).surgesAt r v) && (Attention.surging.outranks (s.station i).attention &&
          s.inForce.alertMode != .criticalOnly)))).wantTrim i (s.wantedBelow i r v) := by
  subst reading
  obtain ⟨-, -, same⟩ := h.stages_fit (raw := raw) last
  have isCritical : State.isCriticalAt ((s.setChannel i ((s.channel i).formed (s.formedReading i raw))).stages i
      (s.formedReading i raw)) i (s.formedReading i raw) = false := by
    unfold State.isCriticalAt
    rw [State.mooring_eq_site, same.r, ← State.mooring_eq_site, record]
    exact decide_eq_false (not_le.2 calm)
  have read := State.stages_read h.alertFits record (c := (s.channel i).formed (s.formedReading i raw)) rfl
    (s.formedReading i raw)
  dsimp only at read
  rw [fast, Channel.regulated_eq calm, Channel.surges_iff calm, Mooring.critAfter_below calm] at read
  simp only [decide_eq_true_eq] at read
  rw [State.validSample_forming last, State.controllerReading, if_neg (by rw [isCritical]; exact Bool.false_ne_true), read,
    State.readingByState_fast, State.wantedTrim_read record]
  · rfl
  · rw [State.read_station]
    split <;> exact fast

/-- Settles O38: a reading below K in FAST moves the conditions and regulates the TRIM. -/
theorem readingsInFastRegulate : Obligations.ReadingsInFastRegulate := by
  intro s i raw h running low high last fast r record x c cal v holds window overs slacks isOver isSlack base after wanted
    surges y calm
  have eq := h.validSample_regulates (raw := raw.toNat) (v := v) last rfl record calm fast
  have ends := h.sample_ends (i := i) running raw.toNat
  have unit : y.unit = x.unit := by
    dsimp only [y]
    split <;> rfl
  have same : wanted = (s.wantedBelow i r v).map (fun w => .trim w.1 w.2) := by
    simp only [State.wantedBelow, apply_ite (Option.map _), Option.map_none, Option.map_some]
    rfl
  generalize level : (s.alertOn i _ || _) = alarm at eq
  have wants := h.wants_trim (.inl fast) rfl unit _ (eq ▸ ends) (congrArg (State.settle s) eq)
  have site := (s.read i y (c.regulated r v) alarm).site_wantTrim (i := i) (s.wantedBelow i r v)
  have start : (s.read i y (c.regulated r v) alarm).site i = _ := State.site_read _ _ _ unit
  rw [start, ← eq] at site
  obtain ⟨channel, record', alert, -⟩ := ends.of_site site
  refine ⟨_, exec_forming (i := i) running low high, channel, record', ends.sameCalls (by rw [eq, State.wantTrim_calls]; rfl), ends.permits, ends.onlyAt,
    alert.trans ?_, ?_⟩
  · change alarm = _
    rw [← level]
    unfold State.alertOn
    cases mode : s.inForce.alertMode with
    | criticalOnly =>
      have others : (s.site i).othersCritical = allStations.any (fun j => decide (j ≠ i) && (s.channel j).critCondition) := by
        change allStations.any (fun j => j != i && (s.channel j).critCondition) = _
        refine congrArg allStations.any (funext fun j => ?_)
        by_cases e : j = i <;> simp [e]
      rw [if_pos rfl, others]
      simp only [bne_self_eq_false, Bool.and_false, Bool.or_false]
      rfl
    | latched | follow =>
      rw [if_neg nofun, show (_ != AlertMode.criticalOnly) = true from rfl, Bool.and_true]
  · rw [same]
    cases wish : s.wantedBelow i r v with
    | none =>
      rw [wish] at wants
      exact wants
    | some w =>
      rw [wish] at wants
      exact wants

end Sys2Proof.Machine

end

