-- ==== Sys2Proof/Proofs/HoldStations.lean ====
section

/-! PROOF. What the setting of the hold does at one station (R147, R148). -/

namespace Sys2Proof.Machine

variable {s t m : State} {i : StationId} {u : UnitId} {a : ActiveOp}

/-- What the hold keeps of an operation: a TRIM is discarded, another is parked (R147). -/
abbrev Work.underHold (w : Work) (retryUsed : Bool) : Option ParkedOp := if w.isTrim then none else some ⟨w, retryUsed⟩

/-- A station record once the hold is set, its request and the limit of a lock step given (R147). -/
def Station.heldAs (x : Station) (request : Option Request) (limit : Nat) : Station :=
  match x.active with
  | none => match request with
    | none => x
    | some q => { x with parked := q.work.underHold q.retryUsed }
  | some a => match a.phase with
    | .awaiting => { x with active := none, parked := a.work.underHold a.retryUsed }
    | .granted => { x with
        unit := none
        active := none
        parked := a.work.underHold a.retryUsed
        state := if a.work.isTrim then x.resting.getD .fast else x.state
        resting := none }
    | .moving _ =>
      if x.shut then
        if a.work.isTrim then (x.stoppedShut .hold).rested (x.resting.getD .fast)
        else { x.stoppedShut .hold with unit := none, active := none, parked := some ⟨a.remainingWork, a.retryUsed⟩ }
      else { x with parked := a.remainingWork.underHold a.retryUsed }.stopped .hold none limit
    | .ended _ => x

/-- The channel of a station once the hold is set (R85). -/
def Station.heldChannel (x : Station) (c : Channel) : Channel :=
  if x.active.any (fun a => a.work.isTrim && (a.isGranted || (a.moving?.isSome && x.shut))) then
    c.entering (x.resting.getD .fast) else c

/-- The unit of a station once the hold is set (R147). -/
def Station.heldUnit (x : Station) (d : DriveUnit) : DriveUnit :=
  match x.active with
  | none => d
  | some a => match a.phase with
    | .granted => .unserved .idle
    | .moving _ => if x.shut then .unserved .idle else { d with stop := true }
    | .awaiting | .ended _ => d

theorem Station.heldAs_of_request {x : Station} (active : x.active = none) (q : Request) (limit : Nat) :
    x.heldAs (some q) limit = { x with parked := q.work.underHold q.retryUsed } := by
  unfold Station.heldAs
  split
  · rfl
  · next e => rw [active] at e; cases e

theorem Station.heldAs_of_active {x : Station} (active : x.active = some a) (request : Option Request) (limit : Nat) :
    x.heldAs request limit = match a.phase with
    | .awaiting => { x with active := none, parked := a.work.underHold a.retryUsed }
    | .granted => { x with
        unit := none
        active := none
        parked := a.work.underHold a.retryUsed
        state := if a.work.isTrim then x.resting.getD .fast else x.state
        resting := none }
    | .moving _ =>
      if x.shut then
        if a.work.isTrim then (x.stoppedShut .hold).rested (x.resting.getD .fast)
        else { x.stoppedShut .hold with unit := none, active := none, parked := some ⟨a.remainingWork, a.retryUsed⟩ }
      else { x with parked := a.remainingWork.underHold a.retryUsed }.stopped .hold none limit
    | .ended _ => x := by
  unfold Station.heldAs
  split
  · next e => rw [active] at e; cases e
  · next b e =>
    obtain rfl : a = b := Option.some.inj (active.symm.trans e)
    rfl

/-- The setting of the hold takes a station from `m` to `t` (R147). -/
structure State.HeldAt (m t : State) (i : StationId) : Prop where
  site : ∃ v, t.site i = { m.site i with
    x := (m.station i).heldAs (m.requestOf i) m.settings.gearLimit
    c := (m.station i).heldChannel (m.channel i)
    qs := []
    v := v }
  calls : t.calls = m.calls
  unit : ∀ u, (m.station i).unit = some u → t.unit u = (m.station i).heldUnit (m.unit u)

theorem State.HeldAt.of_site {z : Station} {c : Channel} {v : Option DriveUnit}
    (left : t.site i = { m.site i with x := z, c := c, qs := [], v := v })
    (x : (m.station i).heldAs (m.requestOf i) m.settings.gearLimit = z) (channel : (m.station i).heldChannel (m.channel i) = c)
    (calls : t.calls = m.calls) (unit : ∀ u, (m.station i).unit = some u → t.unit u = (m.station i).heldUnit (m.unit u)) :
    m.HeldAt t i :=
  ⟨⟨v, by rw [left, x, channel]⟩, calls, unit⟩

/-- A station without an operation before or in a motion, and without a request, stands. -/
theorem State.HeldAt.stands (qs : (m.site i).qs = []) (rest : ∀ a ∈ (m.station i).active, ∃ n, a.phase = .ended n) :
    m.HeldAt m i := by
  have request : m.requestOf i = none := by rw [State.requestOf_eq_site, qs]; rfl
  have same : (m.station i).heldAs (m.requestOf i) m.settings.gearLimit = m.station i ∧
      (m.station i).heldChannel (m.channel i) = m.channel i ∧
      ∀ d, (m.station i).heldUnit d = d := by
    rw [request]
    unfold Station.heldAs Station.heldChannel Station.heldUnit
    cases active : (m.station i).active with
    | none => exact ⟨rfl, rfl, fun _ => rfl⟩
    | some a =>
      obtain ⟨n, phase⟩ := rest a active
      simp [phase, ActiveOp.isGranted, ActiveOp.moving?]
  refine ⟨⟨(m.site i).v, ?_⟩, rfl, fun u _ => (same.2.2 _).symm⟩
  rw [same.1, same.2.1, ← qs]
  rfl

theorem State.holdStation_of_active (active : (m.station i).active = some a) : m.holdStation i =
    match a.phase with
    | .awaiting => m.parkActive i a
    | .granted =>
      if a.work.isTrim then (m.giveBack i).enter i (m.restingOf i) else (m.releaseUnit i).parkActive i a
    | .moving _ =>
      if a.work.isTrim then m.endMotionDiscard i .hold
      else (m.park i a.remainingWork a.retryUsed).endMotionDiscard i .hold
    | .ended _ => m := by
  unfold State.holdStation
  rw [active] <;> rfl

theorem State.holdStation_of_request (active : (m.station i).active = none) {q : Request}
    (request : m.requestOf i = some q) : m.holdStation i =
      if q.work.isTrim then m.withdraw i else (m.withdraw i).park i q.work q.retryUsed := by
  unfold State.holdStation
  rw [active, request]

theorem State.holdStation_of_none (active : (m.station i).active = none) (request : m.requestOf i = none) :
    m.holdStation i = m := by
  unfold State.holdStation
  rw [active, request]

theorem ActiveOp.remainingWork_of_granted (phase : a.phase = .granted) : a.remainingWork = a.work := by
  unfold ActiveOp.remainingWork
  split
  · next moving => rw [phase] at moving; cases moving
  · rfl

theorem ActiveOp.remainingWork_isTrim (a : ActiveOp) : a.remainingWork.isTrim = a.work.isTrim := by
  unfold ActiveOp.remainingWork
  split
  · next work _ => rw [work]; rfl
  · rfl

/-- A motion that ends with the hold, its operation parked (R147). -/
theorem State.parkMotion_ends (h : (m.site i).Fit) (moves : (m.motionOf i).isSome = true) {w : Work} {b : Bool}
    (parks : w.parkedIn (m.station i).state = true) :
    m.EndsMotion ((m.park i w b).endMotionDiscard i .hold) i .hold
      { m.station i with active := none, parked := some ⟨w, b⟩ } := by
  have site : (((m.park i w b).stopMotion i .hold).dropActive i).site i = _ := State.site_dropActive _
  rw [State.site_stopMotion, State.site_park] at site
  obtain ⟨queue, calls, unit⟩ := (m.park i w b).stopMotion_stands (i := i) (cause := .hold)
  have acts : State.Acts i m (((m.park i w b).stopMotion i .hold).dropActive i) :=
    ((State.park_acts m i w b).trans (State.stopMotion_acts _ i .hold)).trans (State.dropActive_acts _ i)
  refine .of_halted acts site ?_ queue calls fun u serves => ?_
  · rw [site]
    exact h.stopping moves .hold (.inr ⟨rfl, fun p hp => by cases hp; exact parks⟩)
  · exact unit u (by rw [State.station_eq_site, State.site_park]; exact serves)

/-- What the setting of the hold leaves of a station (R147, R148). -/
theorem State.holdStation_held (sound : m.Sound) (h : (m.site i).Fit) (hold : m.hold = true) :
    m.HeldAt (m.holdStation i) i := by
  cases h.doing with
  | free qs v unit act park timer still state =>
    rw [State.holdStation_of_none act (by rw [State.requestOf_eq_site, qs]; rfl)]
    exact .stands qs fun a k => by rw [State.station_eq_site, act] at k; cases k
  | parked p qs park work v unit act =>
    rw [State.holdStation_of_none act (by rw [State.requestOf_eq_site, qs]; rfl)]
    exact .stands qs fun a k => by rw [State.station_eq_site, act] at k; cases k
  | locking u d qs l holds act =>
    have ended : ∀ a ∈ (m.station i).active, ∃ n, a.phase = .ended n := fun a k => (act a k).2.2
    have stays : m.holdStation i = m := by
      cases active : (m.station i).active with
      | none => exact State.holdStation_of_none active (by rw [State.requestOf_eq_site, qs]; rfl)
      | some a =>
        obtain ⟨n, phase⟩ := ended a active
        rw [State.holdStation_of_active active, phase]
    rw [stays]
    exact .stands qs ended
  | pending q qs work v unit act park timer still =>
    have request : m.requestOf i = some q := by rw [State.requestOf_eq_site, qs]; rfl
    have active : (m.station i).active = none := act
    have serves : ∀ u, (m.station i).unit ≠ some u := fun u k => by rw [State.station_eq_site, unit] at k; cases k
    have record : (m.station i).heldAs (m.requestOf i) m.settings.gearLimit =
        { m.station i with parked := q.work.underHold q.retryUsed } := by
      rw [request]
      exact Station.heldAs_of_request active q _
    have channel : (m.station i).heldChannel (m.channel i) = m.channel i := by
      unfold Station.heldChannel
      rw [active]
      rfl
    rw [State.holdStation_of_request active request]
    by_cases trim : q.work.isTrim = true
    · rw [if_pos trim]
      rw [Work.underHold, if_pos trim, ← show (m.station i).parked = none from park] at record
      exact .of_site (v := (m.site i).v) (m.site_withdraw (i := i)) record channel rfl fun u k => absurd k (serves u)
    · rw [if_neg trim]
      rw [Work.underHold, if_neg trim] at record
      refine .of_site (v := (m.site i).v) ?_ record channel rfl fun u k => absurd k (serves u)
      rw [State.site_park, State.site_withdraw]
      rfl
  | awaiting b qs act state v unit park timer engaging =>
    have active : (m.station i).active = some ⟨.rewind, b, .awaiting⟩ := act
    rw [State.holdStation_of_active active]
    refine .of_site (v := (m.site i).v) (z := { m.station i with active := none, parked := some ⟨.rewind, b⟩ })
      (c := m.channel i) ?_ ?_ ?_ rfl
      fun u k => by rw [State.station_eq_site, unit] at k; cases k
    · dsimp only
      rw [State.parkActive, State.site_dropActive, State.site_park, ← qs]
      rfl
    · exact Station.heldAs_of_active active _ _
    · unfold Station.heldChannel
      rw [active]
      rfl
  | granted u d w b qs act work v unit park timer still state =>
    have active : (m.station i).active = some ⟨w, b, .granted⟩ := act
    have holds := LineState.ne_fast_of_holdsUnit (Work.activeIn_cases work).1
    have idle : (if (m.unit u).state = .faulted then UnitState.faulted else .idle) = .idle := by
      rw [Site.v_eq_unit unit v, state]
      rfl
    have told : ∀ t, State.Acts i (m.releaseUnit i) t → ∀ u', (m.station i).unit = some u' →
        t.unit u' = (m.station i).heldUnit (m.unit u') := fun t acts u' serves => by
      obtain rfl : u = u' := Option.some.inj (Eq.trans (Eq.symm unit) serves)
      unfold Station.heldUnit
      rw [active, acts.released sound unit Iff.rfl, idle]
    rw [State.holdStation_of_active active]
    dsimp only
    by_cases trim : w.isTrim = true
    · rw [if_pos trim]
      have ending := h.ending_of_granted act
      have quits := ending.restingOf ((Work.activeIn_cases work).2.1 trim)
      have left := m.site_giveBack_enter (i := i) (LineState.endsIn_cases quits).2.2.1 holds
      refine .of_site (v := none) (left.trans (by rw [Site.quit, ← qs])) ?_ ?_ (by simp [State.giveBack])
        (told _ ((State.dropActive_acts _ i).trans (State.enter_acts _ i _)))
      · refine (Station.heldAs_of_active active _ _).trans ?_
        dsimp only
        rw [Work.underHold, if_pos trim, if_pos trim, ← show (m.station i).parked = none from park]
        rfl
      · unfold Station.heldChannel
        rw [active, if_pos (by simp [trim, ActiveOp.isGranted])]
        rfl
    · rw [if_neg trim]
      refine .of_site (v := none) (z := { m.station i with unit := none, active := none, parked := some ⟨w, b⟩ }) (c := m.channel i)
        ?_ ?_ ?_ (m.releaseUnit_calls i) (told _ ((State.park_acts _ i _ _).trans (State.dropActive_acts _ i)))
      · rw [State.parkActive, State.site_dropActive, State.site_park, State.site_releaseUnit,
          ActiveOp.remainingWork_of_granted rfl, ← qs]
        rfl
      · have resting : (m.station i).resting = none := Option.not_isSome_iff_eq_none.1 fun k =>
          trim ((Work.activeIn_cases work).2.2 (h.recorded.resting.1 k))
        refine (Station.heldAs_of_active active _ _).trans ?_
        dsimp only
        rw [Work.underHold, if_neg trim, if_neg trim, ← resting]
      · unfold Station.heldChannel
        rw [active, if_neg (by simp [trim])]
  | moving u d w b n qs act work v unit park timer unlocking running =>
    have active : (m.station i).active = some ⟨w, b, .moving n⟩ := act
    have moves : (m.motionOf i).isSome = true := by rw [State.motionOf_of_active active]; rfl
    have serves : (m.station i).unit = some u := unit
    have idle : (if (m.unit u).state = .faulted then UnitState.faulted else .idle) = .idle := by
      rw [Site.v_eq_unit unit v, running]
      rfl
    have heldUnit : ∀ d, (m.station i).heldUnit d = if (m.station i).shut then .unserved .idle else { d with stop := true } :=
      fun d => by
        unfold Station.heldUnit
        rw [active]
    have unitOf : ∀ {u'}, (m.station i).unit = some u' → u = u' := fun k => Option.some.inj (serves.symm.trans k)
    have record := (Station.heldAs_of_active active (m.requestOf i) m.settings.gearLimit)
    have channel : (m.station i).heldChannel (m.channel i) = if w.isTrim = true ∧ (m.station i).shut = true then
        (m.channel i).entering ((m.station i).resting.getD .fast) else m.channel i := by
      unfold Station.heldChannel
      rw [active]
      simp [ActiveOp.isGranted, ActiveOp.moving?]
    rw [State.holdStation_of_active active]
    dsimp only at record ⊢
    have freed : ∀ {t x}, m.EndsMotion t i .hold x → x.shut = (m.station i).shut → x.unit = (m.station i).unit →
        ∀ u', (m.station i).unit = some u' → t.unit u' = (m.station i).heldUnit (m.unit u') :=
      fun {t x} e same unit' u' k => by
        obtain rfl := unitOf k
        rw [heldUnit]
        by_cases shut : (m.station i).shut = true
        · rw [if_pos shut, e.frees (same.trans shut) sound serves unit', idle]
        · obtain ⟨-, -, -, told⟩ := e.locks (same.trans (Bool.eq_false_iff.2 shut))
          rw [if_neg shut, told u serves]
    by_cases trim : w.isTrim = true
    · rw [if_pos trim]
      have e := State.endMotionDiscard_ends h moves .hold
      by_cases shut : (m.station i).shut = true
      · have trimming := (Work.activeIn_cases work).2.1 trim
        have stow : (m.station i).resting.getD .fast ≠ .stowed := fun k => by
          obtain ⟨rest, resting⟩ := Option.isSome_iff_exists.1 (h.recorded.resting.2 trimming)
          rw [show (m.station i).resting = some rest from resting, Option.getD_some] at k
          rcases h.recorded.restingState rest resting with rfl | rfl <;> cases k
        obtain ⟨left, -, calls⟩ := e.rests shut (.inl ⟨trimming, rfl⟩) stow fun k => nomatch k.2.1
        rw [if_pos shut, if_pos trim] at record
        rw [if_pos ⟨trim, shut⟩] at channel
        exact .of_site (v := none) (left.trans (by rw [← qs]; rfl)) record channel calls (freed e rfl rfl)
      · obtain ⟨left, -, calls, -⟩ := e.locks (Bool.eq_false_iff.2 shut)
        rw [if_neg shut, Work.underHold, ActiveOp.remainingWork_isTrim, if_pos trim,
          ← show (m.station i).parked = none from park] at record
        rw [if_neg fun k => shut k.2] at channel
        exact .of_site (left.trans (by rw [← qs]; rfl)) record channel calls (freed e rfl rfl)
    · rw [if_neg trim]
      obtain ⟨-, parkedIn, -⟩ := ActiveOp.remainingWork_waits (a := ⟨w, b, .moving n⟩) (Bool.eq_false_iff.2 trim) work
      have e := State.parkMotion_ends h moves (w := ActiveOp.remainingWork ⟨w, b, .moving n⟩) (b := b) parkedIn
      rw [if_neg fun k => trim k.1] at channel
      by_cases shut : (m.station i).shut = true
      · obtain ⟨d, form, site, ending, -, -, calls, -⟩ := e.completes shut
        have station : d.station i = Station.stoppedShut { m.station i with active := none, parked := some _ } .hold :=
          (congrArg Site.x site :)
        obtain ⟨left, -, called⟩ := State.lockStepDone_held ending (by rw [station]; rfl)
          ((congrArg Site.hold site :).trans hold)
        rw [site, station] at left
        rw [if_pos shut, if_neg trim] at record
        exact .of_site (v := none) (form ▸ left.trans (by rw [← qs]; rfl)) record channel (form ▸ called.trans calls)
          (freed e rfl rfl)
      · obtain ⟨left, -, calls, -⟩ := e.locks (Bool.eq_false_iff.2 shut)
        rw [if_neg shut, Work.underHold, ActiveOp.remainingWork_isTrim, if_neg trim] at record
        exact .of_site (left.trans (by rw [← qs]; rfl)) record channel calls (freed e rfl rfl)

end Sys2Proof.Machine

end

