-- ==== Sys2Proof/Proofs/Holding.lean ====
section

/-! PROOF. The setting of the hold deals with every station (TheHoldParksTheWork). -/

namespace Sys2Proof.Machine

variable {s t m : State} {i : StationId} {u : UnitId} {a : ActiveOp}

/-- The setting of the hold leaves a station in `t` as it deals with it in `s`. -/
structure State.Holds (s t : State) (i : StationId) : Prop where
  station : t.station i = (s.station i).heldAs (s.requestOf i) s.settings.gearLimit
  channel : t.channel i = (s.station i).heldChannel (s.channel i)
  record : t.mooring i = s.mooring i
  unit : ∀ u, (s.station i).unit = some u → t.unit u = (s.station i).heldUnit (s.unit u)

/-- A unit that no station of a list names is left alone by what they do. -/
theorem State.foldl_unit {f : State → StationId → State} (acts : ∀ s i, State.Acts i s (f s i)) (l : List StationId) (s : State)
    (h : s.Sound) (free : ∀ j ∈ l, (s.station j).unit ≠ some u) : (l.foldl f s).unit u = s.unit u := by
  induction l generalizing s with
  | nil => rfl
  | cons i l ih =>
    have first := acts s i
    have other : (s.unit u).served ≠ some i := fun serves => free i List.mem_cons_self ((h.linked i u).2 serves)
    have same := first.unit_of_ne h other
    refine (ih _ (first.sound h) fun j hj serves => ?_).trans same
    have serves := ((first.sound h).linked j u).1 serves
    rw [same] at serves
    exact free j (List.mem_cons_of_mem _ hj) ((h.linked j u).2 serves)

theorem State.foldl_holds (l : List StationId) (nodup : l.Nodup) (s : State) (h : s.Sound) (fit : ∀ j ∈ l, (s.site j).Fit)
    (hold : s.hold = true) : (l.foldl State.holdStation s).calls = s.calls ∧ (l.foldl State.holdStation s).alert = s.alert ∧
      ∀ j ∈ l, s.Holds (l.foldl State.holdStation s) j := by
  induction l generalizing s with
  | nil => exact ⟨rfl, rfl, nofun⟩
  | cons i l ih =>
    obtain ⟨fresh, nodup⟩ := List.nodup_cons.1 nodup
    have first := s.holdStation_acts i
    have sound := first.sound h
    obtain ⟨⟨v, site⟩, calls, unit⟩ := State.holdStation_held h (fit i List.mem_cons_self) hold
    have alike : ∀ j ∈ l, (s.site j).Alike ((s.holdStation i).site j) := fun j hj =>
      first.site_of_ne h fun e => fresh (e ▸ hj)
    have alert : (s.holdStation i).alert = s.alert := (congrArg Site.alert site :)
    obtain ⟨calls', alert', holds⟩ := ih nodup (s.holdStation i) sound
      (fun j hj => (alike j hj).fit (fit j (List.mem_cons_of_mem _ hj)))
      ((congrArg State.hold first.local.backdrop :).trans hold)
    obtain ⟨-, -, -, others, -⟩ := State.foldl_acts State.holdStation_acts l nodup (s.holdStation i) sound
    refine ⟨calls'.trans calls, alert'.trans alert, fun j hj => ?_⟩
    rcases List.mem_cons.1 hj with rfl | hj
    · have last := others j fresh
      rw [site] at last
      refine ⟨last.x, (congrArg Site.c last :), (congrArg Site.r last :), fun u serves => ?_⟩
      refine (State.foldl_unit State.holdStation_acts l _ sound fun k hk other => ?_).trans (unit u serves)
      have apart : k ≠ j := fun e => fresh (e ▸ hk)
      rw [first.local.station k apart] at other
      exact apart (Option.some.inj (((h.linked k u).1 other).symm.trans ((h.linked j u).1 serves)))
    · have start := alike j hj
      have apart : j ≠ i := fun e => fresh (e ▸ hj)
      have x : (s.holdStation i).station j = s.station j := start.x
      have c : (s.holdStation i).channel j = s.channel j := (congrArg Site.c start :)
      have r : (s.holdStation i).mooring j = s.mooring j := (congrArg Site.r start :)
      have limit : (s.holdStation i).settings = s.settings := (congrArg Site.settings start :)
      have request : (s.holdStation i).requestOf j = s.requestOf j := by
        rw [State.requestOf_eq_site, State.requestOf_eq_site]
        exact congrArg List.head? (congrArg Site.qs start :)
      obtain ⟨station, channel, record, units⟩ := holds j hj
      rw [x, request, limit] at station
      rw [x, c] at channel
      rw [x] at units
      refine ⟨station, channel, record.trans r, fun u serves => (units u serves).trans ?_⟩
      rw [first.unit_of_ne h]
      rw [(h.linked j u).1 serves]
      simpa using apart

theorem State.setHold_of_hold (hold : s.hold = true) : s.setHold = s := if_pos hold

theorem State.setHold_of_free (free : s.hold = false) :
    s.setHold = State.settle s (allStations.foldl State.holdStation { s with hold := true }) :=
  if_neg (by rw [free]; decide)

/-- What the setting of the hold leaves of the whole state (R85, R145 to R148). -/
theorem State.Inv.hold_set (h : s.Inv) (running : s.phase = .running) (free : s.hold = false) :
    s.setHold.backdrop = { s with hold := true }.backdrop ∧ s.setHold.queue = [] ∧ s.sameCalls s.setHold ∧
      s.setHold.permitsOk ∧ s.setHold.alert = s.alert ∧ (∀ i, s.Holds s.setHold i) ∧
      ∀ u, (∀ i, (s.station i).unit ≠ some u) → s.setHold.unit u = s.unit u := by
  have sound : State.Sound { s with hold := true } :=
    h.whole.sound.of_stations ⟨h.alertFits.follow, h.alertFits.critical⟩ (fun _ => rfl) rfl rfl rfl rfl
  have fit : ∀ j, (State.site { s with hold := true } j).Fit := fun j =>
    (h.fit j).congr rfl rfl rfl rfl rfl rfl rfl rfl rfl rfl rfl rfl rfl
  obtain ⟨whole, backdrop, -⟩ := h.hold_folded (fun s i => s.holdStation_acts i) true
    (fun m i fit _ => State.holdStation_after fit)
  obtain ⟨calls, alert, holds⟩ := State.foldl_holds allStations allStations_nodup { s with hold := true } sound
    (fun j _ => fit j) rfl
  have lone : ∀ u, (∀ i, (s.station i).unit ≠ some u) →
      (allStations.foldl State.holdStation { s with hold := true }).unit u = s.unit u := fun u none =>
    State.foldl_unit State.holdStation_acts allStations _ sound fun j _ => none j
  have permits : s.setHold.permitsOk := (h.setHold_stepped (c := .frameGapTimeout) running).inv.calls.permits
  rw [State.setHold_of_free free] at permits ⊢
  generalize allStations.foldl State.holdStation { s with hold := true } = m at *
  have hold : m.hold = true := (congrArg State.hold backdrop :)
  have stuck : m.Stuck := .inl hold
  obtain ⟨queue, units⟩ := stuck.settle_drive s
  have unit : ∀ u, (State.settle s m).unit u = m.unit u := fun u => by unfold State.unit; rw [units]
  refine ⟨(State.settle_backdrop s m).trans backdrop, queue.trans ?_, ?_, permits, (State.settle_alert s m).trans alert,
    fun i => ?_, fun u none => (unit u).trans (lone u none)⟩
  · refine List.eq_nil_iff_forall_not_mem.2 fun q hq => ?_
    have own : q ∈ (m.site q.station).qs := List.mem_filter.2 ⟨hq, beq_self_eq_true _⟩
    rw [((whole.held q.station) hold).1] at own
    cases own
  · exact (State.settle_sameCalls s m).trans (congrArg (List.map Call.fixed) calls)
  · obtain ⟨station, channel, record, told⟩ := holds i (mem_allStations i)
    exact ⟨(stuck.settle_station s i).trans station, (State.settle_channel s m i).trans channel,
      (State.settle_mooring s m i).trans record, fun u serves => (unit u).trans (told u serves)⟩

theorem exec_holdAll {len : Byte} (broadcast : Bool) (served : s.serves Command.holdAll len) :
    exec (.holdAll broadcast len) s = .next (if broadcast then s.setHold else s.setHold.respond Command.holdAll .ok []) := by
  refine congrArg Host.Outcome.next ?_
  cases broadcast with
  | true =>
    simp only [if_true]
    exact if_pos ⟨served.1, served.2.1⟩
  | false =>
    simp only [Bool.false_eq_true, if_false]
    rw [State.unicast_answered served]
    rfl

/-- The units, once the hold is set (R147). -/
theorem State.Inv.held_units (h : s.Inv) (holds : ∀ i, s.Holds t i)
    (lone : ∀ u, (∀ i, (s.station i).unit ≠ some u) → t.unit u = s.unit u) :
    (∀ u, (s.unit u).state = .granted → t.unit u = .unserved .idle) ∧
      ∀ u, (s.unit u).state ≠ .granted → (∀ i ∈ (s.unit u).served, s.motionOf i = none) → t.unit u = s.unit u := by
  refine ⟨fun u granted => ?_, fun u other still => ?_⟩
  · obtain ⟨i, -, unit⟩ := h.served_of_busy (.inl granted)
    obtain ⟨a, active, phase⟩ := h.granted_active granted unit
    rw [(holds i).unit u unit]
    unfold Station.heldUnit
    rw [active]
    dsimp only
    rw [phase]
  · cases served : (s.unit u).served with
    | none => exact lone u fun i unit => by rw [(h.whole.sound.linked i u).1 unit] at served; cases served
    | some i =>
      have unit := (h.whole.sound.linked i u).2 served
      have motion := still i served
      rw [(holds i).unit u unit]
      unfold Station.heldUnit
      cases active : (s.station i).active with
      | none => rfl
      | some a =>
        rw [State.motionOf_of_active active] at motion
        dsimp only
        cases phase : a.phase with
        | awaiting | ended n => rfl
        | granted =>
          exact absurd (((h.drive.granted i u unit).2 (by rw [active]; simp [ActiveOp.isGranted, phase]))) other
        | moving n => simp [ActiveOp.moving?, phase] at motion

/-- What the hold does with an operation, as the statement lists it (R147). -/
theorem State.Holds.station_cases (held : s.Holds t i) : let x := s.station i
    (x.active = none → t.station i =
      match s.requestOf i with
      | none => x
      | some q => { x with parked := q.work.underHold q.retryUsed }) ∧
    ∀ a ∈ x.active,
      (a.isAwaiting = true → t.station i = { x with active := none, parked := a.work.underHold a.retryUsed }) ∧
      (a.isGranted = true → t.station i = { x with
        unit := none
        active := none
        parked := a.work.underHold a.retryUsed
        state := if a.work.isTrim then x.resting.getD .fast else x.state
        resting := none }) ∧
      (a.isGranted = false → a.isAwaiting = false → a.moving? = none → t.station i = x) ∧
      (a.moving?.isSome = true → x.shut = false → t.station i =
        { x with parked := a.remainingWork.underHold a.retryUsed }.stopped .hold none s.settings.gearLimit) ∧
      (a.moving?.isSome = true → x.shut = true → t.station i =
        if a.work.isTrim then (x.stoppedShut .hold).rested (x.resting.getD .fast)
        else { x.stoppedShut .hold with unit := none, active := none, parked := some ⟨a.remainingWork, a.retryUsed⟩ }) := by
  intro x
  rw [held.station]
  refine ⟨fun none => ?_, fun a active => ?_⟩
  · cases s.requestOf i with
    | none =>
      unfold Station.heldAs
      split
      · rfl
      · next e => rw [none] at e; cases e
    | some q => exact Station.heldAs_of_request none q _
  · rw [Station.heldAs_of_active active]
    cases phase : a.phase with
    | awaiting => simp [ActiveOp.isAwaiting, ActiveOp.isGranted, ActiveOp.moving?, phase]
    | granted => simp [ActiveOp.isAwaiting, ActiveOp.isGranted, ActiveOp.moving?, phase]
    | ended n => simp [ActiveOp.isAwaiting, ActiveOp.isGranted, ActiveOp.moving?, phase]
    | moving n =>
      exact ⟨by simp [ActiveOp.isAwaiting, phase], by simp [ActiveOp.isGranted, phase], by simp [ActiveOp.moving?, phase],
        fun _ open_ => if_neg (Bool.eq_false_iff.1 open_), fun _ shut => if_pos shut⟩

/-- What the hold does with the unit of a motion (R147). -/
theorem State.Holds.unit_moving (held : s.Holds t i) (active : (s.station i).active = some a)
    (moves : a.moving?.isSome = true) (unit : (s.station i).unit = some u) :
    t.unit u = if (s.station i).shut then .unserved .idle else { s.unit u with stop := true } := by
  rw [held.unit u unit]
  unfold Station.heldUnit
  rw [active]
  dsimp only
  cases phase : a.phase with
  | moving n => rfl
  | awaiting | granted | ended n => simp [ActiveOp.moving?, phase] at moves

theorem State.respond_backdrop_congr {m b : State} (h : m.backdrop = b.backdrop) (c : CommandSpec) (status : Status)
    (payload : List Byte) : (m.respond c status payload).backdrop = (b.respond c status payload).backdrop := by
  have e : ∀ r : State, (r.respond c status payload).backdrop =
      { r.backdrop with tx := some (responseFrame r.unitAddress c.code status payload) } := fun _ => rfl
  have address : m.unitAddress = b.unitAddress := (congrArg State.unitAddress h :)
  rw [e, e, h, address]

/-- A state in which the hold has been set and every station dealt with (R147). -/
structure State.HeldEverywhere (s t : State) : Prop where
  queue : t.queue = []
  calls : s.sameCalls t
  permits : t.permitsOk
  alert : t.alert = s.alert
  holds : ∀ i, s.Holds t i
  lone : ∀ u, (∀ i, (s.station i).unit ≠ some u) → t.unit u = s.unit u

/-- Settles O48: the setting of the hold parks the work and stops the motions. -/
theorem theHoldParksTheWork : Obligations.TheHoldParksTheWork := by
  intro s c before h starts
  have event : (s.hold = true → exec c s = .next before) ∧ (s.hold = false → ∃ t, exec c s = .next t ∧
      t.backdrop = { before with hold := true }.backdrop ∧ s.HeldEverywhere t) := by
    rcases starts with ⟨rfl, running, rfl⟩ | ⟨len, rfl, served, rfl⟩ | ⟨len, rfl, served, rfl⟩
    · have run : exec .holdInputAsserted s = .next (State.setHold { s with inputs := { s.inputs with hold := true } }) :=
        congrArg Host.Outcome.next (if_pos running)
      refine ⟨fun hold => run.trans (congrArg Host.Outcome.next (State.setHold_of_hold hold)), fun free => ?_⟩
      obtain ⟨backdrop, queue, calls, permits, alert, holds, lone⟩ := (h.inputs { s.inputs with hold := true }).hold_set running free
      exact ⟨_, run, backdrop, queue, calls, permits, alert,
        fun i => ⟨(holds i).station, (holds i).channel, (holds i).record, (holds i).unit⟩, lone⟩
    · have run := exec_holdAll false served
      rw [if_neg (by decide)] at run
      refine ⟨fun hold => by rw [run, State.setHold_of_hold hold], fun free => ?_⟩
      obtain ⟨backdrop, queue, calls, permits, alert, holds, lone⟩ := h.hold_set (State.takesFrames_running served.1) free
      exact ⟨_, run, State.respond_backdrop_congr backdrop _ _ _, queue, calls, permits, alert,
        fun i => ⟨(holds i).station, (holds i).channel, (holds i).record, (holds i).unit⟩, lone⟩
    · have run := exec_holdAll true served
      rw [if_pos rfl] at run
      refine ⟨fun hold => by rw [run, State.setHold_of_hold hold], fun free => ?_⟩
      obtain ⟨backdrop, queue, calls, permits, alert, holds, lone⟩ := h.hold_set (State.takesFrames_running served.1) free
      exact ⟨_, run, backdrop, queue, calls, permits, alert, holds, lone⟩
  refine ⟨event.1, fun free => ?_⟩
  obtain ⟨t, run, backdrop, queue, calls, permits, alert, holds, lone⟩ := event.2 free
  obtain ⟨granted, others⟩ := h.held_units holds lone
  refine ⟨t, run, backdrop, queue, calls, permits, alert, granted, others, fun i => ⟨(holds i).record, ?_⟩⟩
  intro x parks
  obtain ⟨idle, cases_⟩ := (holds i).station_cases
  refine ⟨(holds i).channel, idle, fun a active => ?_⟩
  obtain ⟨awaits, waits, ended, open_, shut⟩ := cases_ a active
  refine ⟨awaits, waits, ended, fun moves gear => ⟨open_ moves gear, fun u unit => ?_⟩,
    fun moves gear => ⟨shut moves gear, fun u unit => ?_⟩⟩
  · exact ((holds i).unit_moving active moves unit).trans (if_neg (Bool.eq_false_iff.1 gear))
  · exact ((holds i).unit_moving active moves unit).trans (if_pos gear)

end Sys2Proof.Machine

end
